-- ==== Sys2Proof/Word.lean ====
section
/-! DEFINITION. The word types of the AC4: bytes, tags, ids, serials and time stamps (00_scope.md). -/

namespace Sys2Proof

/-- One byte of the host link or of a segment line. -/
abbrev Byte := BitVec 8

/-- A host request tag, or a press capture tag: 16 bits (00_scope.md, "Numbering and addressing"). -/
abbrev Tag := BitVec 16

/-- A task id: 16 bits, 0 is no task id (00_scope.md). -/
abbrev TaskId := BitVec 16

/-- A module's 32-bit serial number (00_scope.md). -/
abbrev Serial := BitVec 32

/-- A reading of the millisecond time base: 32 bits, differences modulo 2^32 (R183). -/
abbrev Stamp := BitVec 32

/-- A statistics counter: 32 bits, wrapping (R184). -/
abbrev Counter := BitVec 32

/-- A display sequence number or a press count: 4 bits, modulo 16 (R53, R61). -/
abbrev Nibble := BitVec 4

/-- A segment number, 0 to 3. -/
abbrev Seg := Fin 4

end Sys2Proof
end

