-- ==== Sys2Proof/Syntax.lean ====
section
/-! DEFINITION. The commands of the AC4: one constructor of `Instr` for each row of spec/opcode_table.json,
and the operand types they carry. The table gives no operands; they are read from the rule each row names
(notes/assumptions/1.md). -/

namespace Sys2Proof

/-- A stretch of line activity, in line ticks counted from the end of the command frame (R126, R133). -/
structure Pulse where
  /-- the first active tick -/
  start : Nat
  /-- how many ticks the line stays active -/
  ticks : Nat
  deriving DecidableEq, Repr

/-- The first tick after the stretch. -/
def Pulse.stop (p : Pulse) : Nat := p.start + p.ticks

/-- What the line carries after a command frame, as the outside world decides it (R129, R133). -/
inductive Heard where
  /-- Every module the command names takes it and answers with a start delay of `delay` ticks; nothing else
  drives the line. With no such module the line stays idle. -/
  | answered (delay : Nat)
  /-- The line carries `activity`; `taken` says whether the modules the command names took the command (their
  answers, if they sent any, are part of `activity`). -/
  | line (taken : Bool) (activity : List Pulse)
  deriving DecidableEq, Repr

/-- What the line carries in the eight contention slots of a discovery round (R120, R144). -/
inductive Round where
  /-- The segment's modules at address 0, in the order of the module list, answer in the slot and with the
  reply delay given; a module beyond the list does not answer. -/
  | answered (choices : List (Fin 8 × Nat))
  /-- The line carries `activity`. -/
  | line (activity : List Pulse)
  deriving DecidableEq, Repr

/-- The classification a line sense probe gives (R164). -/
inductive Observation where
  | high
  | low
  | float
  deriving DecidableEq, Repr

/-- A module's buttons (R61). -/
inductive Button where
  | confirm
  | adjust
  deriving DecidableEq, Repr

/-- The commands the AC4 takes: one constructor for each row of spec/opcode_table.json. A request of the host
link carries its tag and its payload bytes; an event carries the segment, task or module it happens to and
what the outside world decides about it. -/
inductive Instr where
  /-- RESET: power-on or the reset input (R181). -/
  | reset
  /-- FRAME_RECEIVED: these bytes arrive on the host link (R173, R174). -/
  | frameReceived (bytes : List Byte)
  /-- FRAME_TIMED_OUT: more than 20 ms pass between bytes (R173). -/
  | frameTimedOut
  /-- FRAME_SENT: the last byte of the frame being sent has gone (R178). -/
  | frameSent
  /-- UNKNOWN_KIND_REQUEST (R175). -/
  | unknownKindRequest (kind : Byte) (tag : Tag) (payload : List Byte)
  | identify (tag : Tag) (payload : List Byte)
  | readTime (tag : Tag) (payload : List Byte)
  | setLinkRate (tag : Tag) (payload : List Byte)
  | restart (tag : Tag) (payload : List Byte)
  | clearTasks (tag : Tag) (payload : List Byte)
  | setPicker (tag : Tag) (payload : List Byte)
  | pausePicker (tag : Tag) (payload : List Byte)
  | resumePicker (tag : Tag) (payload : List Byte)
  | dropPicker (tag : Tag) (payload : List Byte)
  | submit (tag : Tag) (payload : List Byte)
  | cancel (tag : Tag) (payload : List Byte)
  | retire (tag : Tag) (payload : List Byte)
  | queryTask (tag : Tag) (payload : List Byte)
  | listTasks (tag : Tag) (payload : List Byte)
  | armCapture (tag : Tag) (payload : List Byte)
  | disarmCapture (tag : Tag) (payload : List Byte)
  | setSegment (tag : Tag) (payload : List Byte)
  | setColourCurrents (tag : Tag) (payload : List Byte)
  | segmentPower (tag : Tag) (payload : List Byte)
  | breakSegment (tag : Tag) (payload : List Byte)
  | holdSegment (tag : Tag) (payload : List Byte)
  | releaseSegment (tag : Tag) (payload : List Byte)
  | rawExchange (tag : Tag) (payload : List Byte)
  | provisionSlot (tag : Tag) (payload : List Byte)
  | unprovisionSlot (tag : Tag) (payload : List Byte)
  | querySlot (tag : Tag) (payload : List Byte)
  | discover (tag : Tag) (payload : List Byte)
  | readStats (tag : Tag) (payload : List Byte)
  /-- POLL: the POLL in flight on the segment ends (R136). -/
  | poll (seg : Seg) (heard : Heard)
  /-- SHOW: the SHOW in flight ends (R140). -/
  | showDisplay (seg : Seg) (heard : Heard)
  /-- DIGITS: the DIGITS in flight ends (R140). -/
  | digits (seg : Seg) (heard : Heard)
  /-- DARK: the DARK in flight ends (R140). -/
  | dark (seg : Seg) (heard : Heard)
  /-- IDENT: the IDENT in flight ends (R117). -/
  | ident (seg : Seg) (heard : Heard)
  /-- ASSIGN: the ASSIGN in flight ends (R110). -/
  | assign (seg : Seg) (heard : Heard)
  /-- SYNC: the SYNC frame has been sent; `taken` says whether the modules heard it (R131). -/
  | sync (seg : Seg) (taken : Bool)
  /-- ENUMERATE: the discovery round in flight ends (R122). -/
  | enumerate (seg : Seg) (round : Round)
  /-- RAW_EXCHANGE_END (R169). -/
  | rawExchangeEnd (seg : Seg) (heard : Heard)
  /-- BREAK_END (R132). -/
  | breakEnd (seg : Seg)
  /-- SETTLE_END (R161). -/
  | settleEnd (seg : Seg)
  /-- QUIET_END (R161). -/
  | quietEnd (seg : Seg)
  /-- LINE_SENSE_PROBE (R164). -/
  | lineSenseProbe (seg : Seg) (observation : Observation)
  /-- SUPPLY_TRIP (R163). -/
  | supplyTrip (seg : Seg)
  /-- TASK_EXPIRY: the expiry timer of this task reaches 0 (R28). -/
  | taskExpiry (task : TaskId)
  /-- BLINK_PHASE_ADVANCE (R131, R183). -/
  | blinkPhaseAdvance
  /-- TRIP_INPUT_RETURN_TO_CLEAR (R163). -/
  | tripInputReturnToClear (seg : Seg)
  /-- BUTTON_PRESS at the module with this serial (R61). -/
  | buttonPress (serial : Serial) (button : Button)
  /-- BUTTON_RELEASE (R61). -/
  | buttonRelease (serial : Serial) (button : Button)
  /-- MODULE_RESET: the module with this serial resets on segment `seg`. A module not seen before is fitted
  with line address `address`; `replaced` names a module that leaves its line at the same moment (R61). -/
  | moduleReset (seg : Seg) (serial : Serial) (address : BitVec 6) (replaced : Option Serial)
  deriving DecidableEq, Repr

end Sys2Proof
end

