-- ==== Sys2Proof/Decode.lean ====
section
/-! DEFINITION. The table's bits. No row of spec/opcode_table.json gives bits (every "fields" is empty), so no
word spells a command; the bytes that do reach the part, host frames and line frames, are decoded by
Machine/Link.lean and Machine/Wire.lean. -/

namespace Sys2Proof

/-- The command that a word spells by the table's bits: none, since the table gives no row any bits. -/
def decodeTableWord (_nbits _w : Nat) : Option Instr := none

end Sys2Proof
end

