-- ==== Sys2Proof/Config.lean ====
section
/-! DEFINITION. What the part fixes once and for all (capacities, codes, durations of the manual) and the
one free value the manual leaves open. -/

namespace Sys2Proof.Config

/-- FREE VALUE (notes/assumptions/2.md). The manual gives no order between events of different blocks that
fall due in the same millisecond. `dueRank n i` ranks the `i`-th event due at the `n`-th such millisecond;
it has no body, so a claim holds for every order. -/
opaque dueRank : Nat → Nat → Nat

/-- R179: vendor code. -/
def vendorCode : Nat := 0x0E57
/-- R179: part code. -/
def partCode : Nat := 0x04A4
/-- R179: revision. -/
def revision : Nat := 1

/-- R172: the start byte of a host frame. -/
def startByte : Byte := 0xC3#8

/-- R174: frames that wait in the request list. -/
def requestListSize : Nat := 4
/-- R174: replies that wait in the reply list. -/
def replyListSize : Nat := 16
/-- R177: notices in the notice queue. -/
def noticeQueueSize : Nat := 32
/-- R143: entries of a service queue. -/
def serviceQueueSize : Nat := 16
/-- R13: entries of the task table. -/
def taskTableSize : Nat := 256
/-- R42: tasks of one waiting set. -/
def waitingSetSize : Nat := 8
/-- R37: summaries of one LIST_TASKS reply. -/
def listSize : Nat := 16

/-- R172: the longest payload of a host frame. -/
def maxPayload : Nat := 249

/-- R173: the gap, in whole milliseconds, that is the first to be more than 20 ms. -/
def frameGapMs : Nat := 21
/-- R183: one blink phase. -/
def phaseMs : Nat := 125
/-- R161: the SETTLE stage. -/
def settleMs : Nat := 200
/-- R161: the QUIET stage. -/
def quietMs : Nat := 50
/-- R164: the least time between two probes of a segment. -/
def probeMs : Nat := 250

/-- R126: line ticks of one line bit. -/
def bitTicks : Nat := 16
/-- R126: line ticks of one half of a line bit. -/
def halfTicks : Nat := 8
/-- R133: the listen period. -/
def listenTicks : Nat := 1024
/-- R135: two longest-frame times, 2 × 1568 ticks. -/
def heldTicks : Nat := 3136
/-- R133: the idle time that ends an invalid reply. -/
def idleTicks : Nat := 32
/-- R144: one contention slot. -/
def contentionTicks : Nat := 1184
/-- R122: contention slots of a discovery round. -/
def contentionSlots : Nat := 8
/-- R132: the length of a break, in line bit times. -/
def breakBits : Nat := 200
/-- R133: the least idle time between two exchanges, in line bit times. -/
def gapBits : Nat := 2

/-- R124: rounds after which a discovery run ends at the latest. -/
def maxRounds : Nat := 32
/-- R124: empty rounds in a row that end a discovery run. -/
def maxEmptyRounds : Nat := 2
/-- R104, R114: the poll skip count at which a silent address is polled. -/
def maxSkip : Nat := 7

end Sys2Proof.Config
end

