-- ==== Sys2Proof/Machine/State.lean ====
section
/-! DEFINITION. The AC4's state, as plain data, and its value after reset. Each field cites the rule that names
it; the fields the model adds for its own bookkeeping say so. -/

namespace Sys2Proof.Machine

open Sys2Proof (Byte Tag TaskId Serial Stamp Counter Nibble Seg)

/-! ### Pickers (R1) -/

inductive PickerState where
  | absent
  | active
  | paused
  deriving DecidableEq, Repr

/-- The three blink patterns (00_scope.md, "Display values"). -/
inductive Pattern where
  | steady
  | blink
  | flicker
  deriving DecidableEq, Repr

/-- A picker record (R1). -/
structure Picker where
  state : PickerState
  /-- colour code, 0 NONE while ABSENT -/
  colour : Fin 8
  pattern : Pattern
  level : Nat
  priority : Nat
  quota : Nat
  openCount : Nat
  deriving DecidableEq, Repr

/-! ### Tasks (R13, R14) -/

inductive TaskState where
  | queued
  | waitLoad
  | shown
  | blocked
  | paused
  | done
  | short
  | expired
  deriving DecidableEq, Repr

inductive TaskStep where
  | prompt
  | quantity
  deriving DecidableEq, Repr

/-- One display character: a digit, or none for blank (00_scope.md). -/
abbrev Digit := Option (Fin 10)

/-- The three characters of a display, leftmost first. -/
structure Digits where
  d1 : Digit
  d2 : Digit
  d3 : Digit
  deriving DecidableEq, Repr

/-- A valid slot: segment and position `ix`, line address `ix + 1` (R41). -/
structure SlotRef where
  seg : Seg
  ix : Fin 62
  deriving DecidableEq, Repr

/-- A used entry of the task table (R14). -/
structure Task where
  index : Fin 256
  id : TaskId
  picker : Fin 12
  slot : SlotRef
  requested : Nat
  displayed : Nat
  state : TaskState
  step : TaskStep
  stamp : Stamp
  /-- expiry limit in seconds, or absent -/
  limit : Option Nat
  prompt : Option Digits
  shownSince : Stamp
  /-- time left of the expiry timer, in ms -/
  timeLeft : Nat
  confirmed : Nat
  endStamp : Stamp
  deriving DecidableEq, Repr

/-! ### Slots and display shadows (R41, R51) -/

/-- A task as shadow owner, with its step. -/
structure Owner where
  task : TaskId
  step : TaskStep
  deriving DecidableEq, Repr

/-- A display shadow (R51); no owner is the owner DARK. -/
structure Shadow where
  seq : Nibble
  owner : Option Owner
  colour : Fin 8
  pattern : Pattern
  rotation : Fin 8
  level : Nat
  digits : Digits
  deriving DecidableEq, Repr

/-- A slot record (R41). -/
structure Slot where
  /-- task ids of the waiting set -/
  waiting : List TaskId
  current : Option TaskId
  tenure : Option Stamp
  shadow : Shadow
  /-- the serviceability the arbiter last evaluated (R46, R60) -/
  serviceable : Bool
  deriving DecidableEq, Repr

/-! ### Press captures (R77) -/

/-- An ARMED capture entry; a FREE one is `none`. -/
structure Capture where
  tag : Tag
  slot : SlotRef
  deriving DecidableEq, Repr

/-! ### Module directory (R63, R104) -/

inductive EntryKind where
  | empty
  | provisioned
  | learned
  deriving DecidableEq, Repr

inductive Binding where
  | unbound
  | bound
  | mismatch
  deriving DecidableEq, Repr

inductive Presence where
  | absent
  | acquiring
  | present
  | coasting
  | lost
  deriving DecidableEq, Repr

/-- A press record (R63). -/
structure Press where
  confirmBase : Nibble
  adjustBase : Nibble
  lastConfirm : Option Stamp
  confirmHeld : Option Stamp
  adjustHeld : Option Stamp
  confirmStuck : Bool
  adjustStuck : Bool
  deriving DecidableEq, Repr

/-- A directory entry (R104) with its press record (R63). -/
structure Entry where
  kind : EntryKind
  expected : Option Serial
  seen : Option Serial
  binding : Binding
  presence : Presence
  goodRun : Nat
  missRun : Nat
  wasPresent : Bool
  skip : Nat
  press : Press
  deriving DecidableEq, Repr

/-! ### Load governor (R86, R88, R89) -/

structure LitEntry where
  ix : Fin 62
  task : TaskId
  colour : Fin 8
  pattern : Pattern
  rotation : Fin 8
  /-- the picker level read at admission -/
  level : Nat
  /-- the present effective level -/
  effective : Nat
  deriving DecidableEq, Repr

structure Admission where
  ix : Fin 62
  task : TaskId
  priority : Nat
  stamp : Stamp
  waited : Bool
  deriving DecidableEq, Repr

structure Governor where
  baseLoad : Nat
  /-- P[0] to P[7] -/
  loads : Vector Nat 8
  economy : Bool
  lit : List LitEntry
  queue : List Admission
  deriving DecidableEq, Repr

/-! ### Segment configuration (R171) -/

inductive LineRate where
  | r19200
  | r38400
  | r76800
  deriving DecidableEq, Repr

/-- The tracker interval N (R146). -/
inductive Interval where
  | n1
  | n16
  | n64
  deriving DecidableEq, Repr

structure SegConfig where
  lineRate : LineRate
  /-- supply budget B in mA -/
  budget : Nat
  /-- base current in mA -/
  baseCurrent : Nat
  /-- economy level Le -/
  economyLevel : Nat
  /-- confirm guard in ms -/
  guardMs : Nat
  /-- stuck time in s -/
  stuckTime : Nat
  lock : Nat
  unlock : Nat
  /-- initial delay D0 -/
  delay0 : Nat
  /-- window half-width W -/
  window : Nat
  /-- tracker interval N -/
  interval : Interval
  shift : Nat
  /-- slew limit S -/
  slew : Nat
  postFilter : Bool
  toggleHold : Bool
  jump : Bool
  /-- jump threshold J -/
  jumpOver : Nat
  deriving DecidableEq, Repr

/-! ### Reply alignment tracker (R145) -/

inductive Sign where
  | plus
  | minus
  | zero
  deriving DecidableEq, Repr

structure Tracker where
  /-- the delay estimate D -/
  delay : Nat
  sum : Nat
  n : Nat
  /-- signs of the latest proposals, oldest first -/
  proposals : List Sign
  /-- signs of the latest applied steps, oldest first -/
  applied : List Sign
  hold : Bool
  deriving DecidableEq, Repr

/-! ### Segment line controller (R131, R133, R138, R139, R143) -/

/-- A display command kind. -/
inductive DisplayKind where
  | showCmd
  | digitsCmd
  | darkCmd
  deriving DecidableEq, Repr

structure DisplayCmd where
  ix : Fin 62
  kind : DisplayKind
  deriving DecidableEq, Repr

inductive ServiceCmd where
  | ident (ix : Fin 62)
  | assign (serial : Serial) (ix : Fin 62)
  deriving DecidableEq, Repr

/-- The line command kinds (R129). -/
inductive LineKind where
  | poll
  | showCmd
  | digits
  | dark
  | ident
  | assign
  | sync
  | enumerate
  deriving DecidableEq, Repr

/-- Where an exchange stands on the line (R133): in the gap before its command frame, SENDING with the time
left in ms, or past its frame (LISTENING and RECEIVING). -/
inductive Stage where
  | gap
  | sending (left : Nat)
  | sent
  deriving DecidableEq, Repr

/-- The exchange in flight, with the values its command was built from (R133, R139). -/
structure Exchange where
  kind : LineKind
  /-- the address byte of the command frame -/
  address : Byte
  payload : List Byte
  /-- the entry whose outcome the exchange is -/
  target : Option (Fin 62)
  /-- the target's entry became EMPTY while the exchange was in flight (R110) -/
  orphaned : Bool
  stage : Stage
  deriving DecidableEq, Repr

structure LineCtl where
  syncDue : Bool
  /-- the poll rotation's position, 0 to 62 (R138) -/
  position : Nat
  passEnded : Bool
  /-- the present pass has sent a poll (R138) -/
  passPolled : Bool
  /-- the next pass waits for a SYNC (R138) -/
  passHeld : Bool
  /-- the latest exchange was a poll (R137) -/
  latestPoll : Bool
  displays : List DisplayCmd
  services : List ServiceCmd
  inFlight : Option Exchange
  /-- a break holds the line: the probe due before it, the break itself or the idle time after it (R132, R164) -/
  breaking : Bool
  /-- the break waits for the probe that was due at the end of the exchange before it (R164, R170) -/
  probeFirst : Bool
  /-- ms since the break began (R164) -/
  breakMs : Nat
  /-- ms for which the line is not free after a held line (R135) -/
  activeMs : Nat
  deriving DecidableEq, Repr

/-! ### Segment supervisor (R121, R158) -/

inductive SegState where
  | off
  | starting
  | running
  | holding
  | held
  | fault
  deriving DecidableEq, Repr

inductive FaultCause where
  | supplyTrip
  | lineShort
  deriving DecidableEq, Repr

inductive StartStage where
  | settle
  | breaking
  | quiet
  deriving DecidableEq, Repr

inductive LineCondition where
  | normal
  | shorted
  | opened
  deriving DecidableEq, Repr

inductive RawOp where
  | brk
  | command (kind : LineKind)
  deriving DecidableEq, Repr

/-- The raw exchange in flight (R168). -/
structure Raw where
  tag : Tag
  op : RawOp
  address : Byte
  payload : List Byte
  stage : Stage
  /-- MODEL: the number of the STARTED reply to the request -/
  reply : Nat
  deriving DecidableEq, Repr

/-- A discovery run in progress (R121). -/
structure Discovery where
  tag : Tag
  /-- MODEL: the number of the STARTED reply to the request -/
  reply : Nat
  rounds : Nat
  emptyRounds : Nat
  assigned : Nat
  noRoom : Nat
  garbled : Nat
  deriving DecidableEq, Repr

structure Supervisor where
  state : SegState
  cause : Option FaultCause
  stage : StartStage
  stageEnd : Stamp
  holdTag : Option Tag
  /-- MODEL: the number of the STARTED reply to the latest HOLD_SEGMENT -/
  holdReply : Nat
  raw : Option Raw
  breakPending : Bool
  condition : LineCondition
  candidate : Option Observation
  senseRun : Nat
  lastProbe : Stamp
  /-- the supply command to the external switch -/
  supply : Bool
  /-- the discovery run, or none while idle (R121) -/
  discovery : Option Discovery
  deriving DecidableEq, Repr

/-! ### Counters (R184) -/

structure SegCounters where
  exchangesSent : Counter
  accepted : Counter
  offWindow : Counter
  corrupt : Counter
  misaddressed : Counter
  windowMisses : Counter
  superseded : Counter
  resends : Counter
  stale : Counter
  chatter : Counter
  atFloor : Counter
  trackerSteps : Counter
  trackerJumps : Counter
  admissionsWaited : Counter
  sheds : Counter
  deriving DecidableEq, Repr

structure LinkCounters where
  framesReceived : Counter
  badCrc : Counter
  timedOut : Counter
  linkBusy : Counter
  noticesDropped : Counter
  deriving DecidableEq, Repr

/-- One segment: line, supply, modules' entries and slots. -/
structure Segment where
  config : SegConfig
  sup : Supervisor
  gov : Governor
  line : LineCtl
  tracker : Tracker
  entries : Vector Entry 62
  slots : Vector Slot 62
  counters : SegCounters
  /-- the trip input (R163) -/
  trip : Bool
  deriving DecidableEq, Repr

/-! ### Host link (R172 to R181) -/

/-- A well-formed frame waiting to be decoded (R174). -/
structure Request where
  kind : Byte
  tag : Tag
  payload : List Byte
  deriving DecidableEq, Repr

/-- What happens when a reply's last byte has gone (R180, R181). -/
inductive AfterSent where
  | nothing
  | setRate (baud : Nat)
  | restart
  deriving DecidableEq, Repr

/-- A reply; `id` is the model's own number for it, by which notices are held (R176, R178). -/
structure Reply where
  id : Nat
  kind : Byte
  tag : Tag
  payload : List Byte
  after : AfterSent
  deriving DecidableEq, Repr

inductive EndKind where
  | done
  | short
  | expired
  deriving DecidableEq, Repr

inductive SlotCause where
  | moduleLost
  | mismatch
  | segmentDown
  deriving DecidableEq, Repr

inductive IdentityResult where
  | swapped
  | mismatch
  | vacated
  deriving DecidableEq, Repr

inductive StateCause where
  | powerOn
  | started
  | hold
  | held
  | release
  | powerOff
  | supplyTrip
  | lineShort
  deriving DecidableEq, Repr

inductive Operation where
  | hold
  | rawExchange
  | discover
  deriving DecidableEq, Repr

inductive OpResult where
  | complete
  | aborted
  | noReply
  | cancelled
  deriving DecidableEq, Repr

/-- What a raw exchange's listen period gave, as carried in OPERATION_DONE (R169). -/
inductive RawClass where
  | inWindow
  | offWindow
  | corrupt
  | noReply
  | heldLine
  deriving DecidableEq, Repr

/-- The figures of OPERATION_DONE (R176). -/
inductive Figures where
  | none
  | discover (rounds assigned noRoom garbled : Nat)
  | raw (cls : RawClass) (delay : Nat) (source : Nat) (expected : Bool) (kind : Byte) (payload : List Byte)
  deriving DecidableEq, Repr

/-- The content of a notice (chapter 10, "Notice kinds"). -/
inductive NoticeBody where
  | taskStep (task : TaskId) (slot : SlotRef) (picker : Fin 12)
  | taskEnded (task : TaskId) (slot : SlotRef) (picker : Fin 12) (outcome : EndKind) (confirmed : Nat)
      (timeShown : Stamp)
  | taskBlocked (task : TaskId) (slot : SlotRef) (picker : Fin 12) (cause : SlotCause)
  | pressCaptured (tag : Tag) (slot : SlotRef) (index : Fin 16)
  | pressUnsolicited (slot : SlotRef)
  | buttonStuck (slot : SlotRef) (button : Button) (stuck : Bool)
  | modulePresence (slot : SlotRef) (present : Bool) (returning : Bool)
  | moduleIdentity (slot : SlotRef) (result : IdentityResult) (serial : Serial)
  | segmentState (seg : Seg) (new : SegState) (old : SegState) (cause : StateCause)
  | lineCondition (seg : Seg) (condition : LineCondition)
  | loadEconomy (seg : Seg) (entered : Bool)
  | operationDone (tag : Tag) (seg : Seg) (op : Operation) (result : OpResult) (figures : Figures)
  deriving DecidableEq, Repr

/-- A queued notice (R177); `heldBy` is the number of the reply it waits for (R176, R178). -/
structure Notice where
  stamp : Stamp
  droppedBefore : Bool
  body : NoticeBody
  heldBy : Option Nat
  deriving DecidableEq, Repr

/-- The frame the transmitter is sending (R178). A notice being sent is the head of the notice queue. -/
inductive Sending where
  | reply (r : Reply)
  | notice
  deriving DecidableEq, Repr

structure Link where
  /-- link rate in baud -/
  rate : Nat
  /-- the bytes collected since a candidate start byte; empty while HUNTING (R173) -/
  rx : List Byte
  /-- ms since the last byte of a partial frame (R173) -/
  gapMs : Nat
  requests : List Request
  replies : List Reply
  notices : List Notice
  dropMark : Bool
  sending : Option Sending
  lastNotice : Bool
  /-- a RESTART has been taken; the decoder takes no further request (R181) -/
  stopped : Bool
  counters : LinkCounters
  /-- MODEL: the number the next reply takes -/
  nextId : Nat
  /-- MODEL: the number of the reply of the request being taken; none between commands -/
  taking : Option Nat
  deriving DecidableEq, Repr

/-! ### The modules on the lines (R61, R120, R129 to R131) -/

/-- A pick-to-light module as the manual describes it. -/
structure Module where
  serial : Serial
  seg : Seg
  address : BitVec 6
  confirmCount : Nibble
  adjustCount : Nibble
  shownSeq : Nibble
  latchedSeq : Nibble
  confirmHeld : Bool
  adjustHeld : Bool
  fresh : Bool
  colour : Fin 8
  pattern : Pattern
  rotation : Fin 8
  level : Nat
  digits : Digits
  /-- the module's own blink phase (R131) -/
  phase : Fin 8
  /-- ms of the present phase that have passed -/
  phaseMs : Nat
  deriving DecidableEq, Repr

/-- The AC4, the pins it senses, the modules on its lines, and the commands that wait for it. -/
structure State where
  link : Link
  pickers : Vector Picker 12
  /-- the used entries of the task table, in ascending table index (R13) -/
  tasks : List Task
  /-- the submit counter (R16) -/
  submitCounter : Stamp
  captures : Vector (Option Capture) 16
  /-- colour currents in mA, colour code 1 first (R83) -/
  currents : Vector Nat 7
  segs : Vector Segment 4
  /-- the time base (R183) -/
  time : Stamp
  /-- the blink phase clock (R183) -/
  phase : Fin 8
  /-- the phase clock's own count: ms since the last advance -/
  phaseMs : Nat
  modules : List Module
  /-- MODEL: how many times several events have fallen due in one millisecond; the free order reads it -/
  ties : Nat
  /-- the commands that wait, first in, first out -/
  pending : List Instr
  deriving DecidableEq, Repr

/-- Why the model stops on a command. -/
inductive Fault where
  /-- Raised by a command that its row of the table cannot be: a request payload that no frame can carry
  (R172), an UNKNOWN_KIND_REQUEST whose kind names a request (R175), a module at address 63. Safe: no such
  command exists on the part. -/
  | illFormed
  deriving DecidableEq, Repr

/-- Why the model gives a command no meaning. -/
inductive Refusal where
  /-- The command of that name has no meaning in the model. Safe. -/
  | notModelled (mnemonic : String)
  deriving DecidableEq, Repr

/-! ### Reset values -/

def Digits.blank : Digits := ⟨none, none, none⟩

def Picker.reset : Picker :=
  { state := .absent, colour := 0, pattern := .steady, level := 16, priority := 0, quota := 64, openCount := 0 }

/-- R51: the dark shadow with the given seq. -/
def Shadow.dark (seq : Nibble) : Shadow :=
  { seq := seq, owner := none, colour := 0, pattern := .steady, rotation := 0, level := 16, digits := Digits.blank }

def Slot.reset : Slot :=
  { waiting := [], current := none, tenure := none, shadow := Shadow.dark 0, serviceable := false }

def Press.reset : Press :=
  { confirmBase := 0, adjustBase := 0, lastConfirm := none, confirmHeld := none, adjustHeld := none
    confirmStuck := false, adjustStuck := false }

def Entry.reset : Entry :=
  { kind := .empty, expected := none, seen := none, binding := .unbound, presence := .absent, goodRun := 0
    missRun := 0, wasPresent := false, skip := Config.maxSkip, press := Press.reset }

def Governor.reset : Governor :=
  { baseLoad := 0, loads := Vector.replicate 8 0, economy := false, lit := [], queue := [] }

def SegConfig.reset : SegConfig :=
  { lineRate := .r38400, budget := 500, baseCurrent := 3, economyLevel := 8, guardMs := 300, stuckTime := 10
    lock := 3, unlock := 8, delay0 := 48, window := 24, interval := .n16, shift := 1, slew := 8
    postFilter := true, toggleHold := false, jump := true, jumpOver := 96 }

/-- R145, R155: the tracker record at the delay estimate `d`, with nothing gathered. -/
def Tracker.fresh (d : Nat) : Tracker :=
  { delay := d, sum := 0, n := 0, proposals := [], applied := [], hold := false }

/-- The segment line controller at reset. The manual gives no reset value for the SYNC due mark, the pass marks and the
marks of a break; they stand clear (notes/assumptions/24.md). -/
def LineCtl.reset : LineCtl :=
  { syncDue := false, position := 0, passEnded := false, passPolled := false, passHeld := false
    latestPoll := false, displays := [], services := [], inFlight := none, breaking := false
    probeFirst := false, breakMs := 0, activeMs := 0 }

def Supervisor.reset : Supervisor :=
  { state := .off, cause := none, stage := .settle, stageEnd := 0, holdTag := none, holdReply := 0, raw := none
    breakPending := false, condition := .normal, candidate := none, senseRun := 0, lastProbe := 0
    supply := false, discovery := none }

def SegCounters.zero : SegCounters :=
  { exchangesSent := 0, accepted := 0, offWindow := 0, corrupt := 0, misaddressed := 0, windowMisses := 0
    superseded := 0, resends := 0, stale := 0, chatter := 0, atFloor := 0, trackerSteps := 0
    trackerJumps := 0, admissionsWaited := 0, sheds := 0 }

def LinkCounters.zero : LinkCounters :=
  { framesReceived := 0, badCrc := 0, timedOut := 0, linkBusy := 0, noticesDropped := 0 }

def Segment.reset : Segment :=
  { config := SegConfig.reset, sup := Supervisor.reset, gov := Governor.reset, line := LineCtl.reset
    tracker := Tracker.fresh 48, entries := Vector.replicate 62 Entry.reset
    slots := Vector.replicate 62 Slot.reset, counters := SegCounters.zero, trip := false }

def Link.reset : Link :=
  { rate := 115200, rx := [], gapMs := 0, requests := [], replies := [], notices := [], dropMark := false
    sending := none, lastNotice := true, stopped := false, counters := LinkCounters.zero, nextId := 0
    taking := none }

/-- R83: colour currents after reset. -/
def currentsReset : Vector Nat 7 := #v[20, 18, 22, 38, 40, 42, 60]

/-- The part after reset (R1, R13, R16, R40, R41, R51, R63, R77, R83, R86, R104, R145, R146, R158, R171, R181,
R183, R184). No module is fitted and every trip input is clear (notes/assumptions/3.md). -/
def State.reset : State :=
  { link := Link.reset, pickers := Vector.replicate 12 Picker.reset, tasks := [], submitCounter := 0
    captures := Vector.replicate 16 none, currents := currentsReset, segs := Vector.replicate 4 Segment.reset
    time := 0, phase := 0, phaseMs := 0, modules := [], ties := 0, pending := [] }

end Sys2Proof.Machine
end

