-- ==== Sys2Proof/Machine/Bytes.lean ====
section
/-! DEFINITION. Byte order (00_scope.md, "Byte and bit order"), slot numbers (00_scope.md), the CRC of R128 and
the value codes of chapter 10, and the lit phases of a pattern (R84). -/

namespace Sys2Proof.Machine

/-! ### Byte order: low byte first -/

/-- One byte holding `n` modulo 256. -/
def byteOf (n : Nat) : Byte := BitVec.ofNat 8 n

/-- `n` as `k` bytes, low byte first. -/
def leBytes : Nat → Nat → List Byte
  | 0, _ => []
  | k + 1, n => byteOf n :: leBytes k (n / 256)

/-- The value of bytes sent low byte first. -/
def leValue : List Byte → Nat
  | [] => 0
  | b :: bs => b.toNat + 256 * leValue bs

def boolByte (b : Bool) : Byte := if b then 1 else 0

/-- The value of the `len` payload bytes from `at_`, low byte first. -/
def fieldAt (payload : List Byte) (at_ len : Nat) : Nat := leValue ((payload.drop at_).take len)

/-! ### The check of R128 -/

/-- R128: one nibble taken into the CRC register. -/
def crcNibble (reg : BitVec 16) (nibble : BitVec 16) : BitVec 16 :=
  let t := (reg ^^^ nibble) &&& 0xF#16
  (reg >>> 4) ^^^ (t * 0x1081#16)

/-- R128: one byte, low nibble first. -/
def crcByte (reg : BitVec 16) (b : Byte) : BitVec 16 :=
  let w := b.setWidth 16
  crcNibble (crcNibble reg (w &&& 0xF#16)) (w >>> 4)

/-- R128: the CRC over the bytes in order. -/
def crc16 (bytes : List Byte) : BitVec 16 := bytes.foldl crcByte 0xFFFF#16

/-- R128: the two bytes a sender appends, low byte first. -/
def crcBytes (bytes : List Byte) : List Byte := leBytes 2 (crc16 bytes).toNat

/-! ### Slot numbers -/

/-- The line address of a slot, 1 to 62. -/
def SlotRef.address (r : SlotRef) : Nat := r.ix.val + 1

/-- The slot number, segment × 64 + address. -/
def SlotRef.number (r : SlotRef) : Nat := r.seg.val * 64 + r.address

/-- The valid slot a slot number names, if it is valid: its address part is neither 0 nor 63 (R41). -/
def slotOfNumber (n : Nat) : Option SlotRef :=
  if h : n < 256 ∧ n % 64 ≠ 0 ∧ n % 64 ≠ 63 then
    some ⟨⟨n / 64, by omega⟩, ⟨n % 64 - 1, by omega⟩⟩
  else none

/-- The entry a line address names, if it is 1 to 62. -/
def entryOfAddress (a : Nat) : Option (Fin 62) :=
  if h : 1 ≤ a ∧ a ≤ 62 then some ⟨a - 1, by omega⟩ else none

/-- A segment number, if it is 0 to 3. -/
def segOf (n : Nat) : Option Seg := if h : n < 4 then some ⟨n, h⟩ else none

/-- A picker id, if it is 0 to 11. -/
def pickerOf (n : Nat) : Option (Fin 12) := if h : n < 12 then some ⟨n, h⟩ else none

/-! ### Value codes (chapter 10) -/

def TaskState.code : TaskState → Byte
  | .queued => 0 | .waitLoad => 1 | .shown => 2 | .blocked => 3 | .paused => 4 | .done => 5 | .short => 6
  | .expired => 7

def TaskStep.code : TaskStep → Byte
  | .prompt => 0 | .quantity => 1

def PickerState.code : PickerState → Byte
  | .absent => 0 | .active => 1 | .paused => 2

def SegState.code : SegState → Byte
  | .off => 0 | .starting => 1 | .running => 2 | .holding => 3 | .held => 4 | .fault => 5

def faultCauseCode : Option FaultCause → Byte
  | none => 0 | some .supplyTrip => 1 | some .lineShort => 2

def StateCause.code : StateCause → Byte
  | .powerOn => 0 | .started => 1 | .hold => 2 | .held => 3 | .release => 4 | .powerOff => 5
  | .supplyTrip => 6 | .lineShort => 7

def LineCondition.code : LineCondition → Byte
  | .normal => 0 | .shorted => 1 | .opened => 2

def EntryKind.code : EntryKind → Byte
  | .empty => 0 | .provisioned => 1 | .learned => 2

def Binding.code : Binding → Byte
  | .unbound => 0 | .bound => 1 | .mismatch => 2

def Presence.code : Presence → Byte
  | .absent => 0 | .acquiring => 1 | .present => 2 | .coasting => 3 | .lost => 4

def SlotCause.code : SlotCause → Byte
  | .moduleLost => 0 | .mismatch => 1 | .segmentDown => 2

def EndKind.code : EndKind → Byte
  | .done => 0 | .short => 1 | .expired => 2

def IdentityResult.code : IdentityResult → Byte
  | .swapped => 0 | .mismatch => 1 | .vacated => 2

def Operation.code : Operation → Byte
  | .hold => 0 | .rawExchange => 1 | .discover => 2

def OpResult.code : OpResult → Byte
  | .complete => 0 | .aborted => 1 | .noReply => 2 | .cancelled => 3

def RawClass.code : RawClass → Byte
  | .inWindow => 0 | .offWindow => 1 | .corrupt => 2 | .noReply => 3 | .heldLine => 4

def buttonCode : Button → Byte
  | .confirm => 0 | .adjust => 1

/-- Chapter 7, "Command frames". -/
def LineKind.code : LineKind → Byte
  | .poll => 0x21 | .showCmd => 0x22 | .digits => 0x23 | .dark => 0x24 | .ident => 0x25 | .assign => 0x26
  | .sync => 0x27 | .enumerate => 0x28

/-- The payload bytes a command kind calls for (chapter 7, "Command frames"). -/
def LineKind.payloadLength : LineKind → Nat
  | .poll => 0 | .showCmd => 8 | .digits => 4 | .dark => 1 | .ident => 0 | .assign => 5 | .sync => 0
  | .enumerate => 1

/-- R126: the line bit times of the command frame, 2 + 8 × its bytes. -/
def LineKind.frameBits (k : LineKind) : Nat := 2 + 8 * (k.payloadLength + 4)

/-- The pattern code of chapter 1. -/
def Pattern.code : Pattern → Byte
  | .steady => 0 | .blink => 1 | .flicker => 2

def patternOf : Nat → Option Pattern
  | 0 => some .steady | 1 => some .blink | 2 => some .flicker | _ => none

/-- The digit coding of chapter 7: 0 to 9, or 0x0F for blank. -/
def digitCode : Digit → Byte
  | some d => byteOf d.val
  | none => 0x0F

def digitOf (b : Byte) : Option Digit :=
  if h : b.toNat < 10 then some (some ⟨b.toNat, h⟩) else if b = 0x0F then some none else none

def Digits.bytes (d : Digits) : List Byte := [digitCode d.d1, digitCode d.d2, digitCode d.d3]

def digitsOf (a b c : Byte) : Option Digits :=
  match digitOf a, digitOf b, digitOf c with
  | some x, some y, some z => some ⟨x, y, z⟩
  | _, _, _ => none

def LineRate.bitPerS : LineRate → Nat
  | .r19200 => 19200 | .r38400 => 38400 | .r76800 => 76800

/-- R182: the line rate in hundreds of bit/s. -/
def lineRateOf : Nat → Option LineRate
  | 192 => some .r19200 | 384 => some .r38400 | 768 => some .r76800 | _ => none

def Interval.count : Interval → Nat
  | .n1 => 1 | .n16 => 16 | .n64 => 64

def intervalOf : Nat → Option Interval
  | 1 => some .n1 | 16 => some .n16 | 64 => some .n64 | _ => none

/-- R182: an on/off field, 0 or 1. -/
def onOffOf : Nat → Option Bool
  | 0 => some false | 1 => some true | _ => none

/-! ### Lit phases (R84) -/

/-- R84: the on-mask bit of a pattern, position 0 first. -/
def Pattern.onMask : Pattern → Nat → Bool
  | .steady, _ => true
  | .blink, k => k < 4
  | .flicker, k => k % 2 = 0

/-- R84: a display with this pattern and rotation is lit in phase `p`. -/
def litIn (pat : Pattern) (rotation p : Fin 8) : Bool := pat.onMask ((p.val + 8 - rotation.val) % 8)

end Sys2Proof.Machine
end

