-- ==== Sys2Proof/Machine/Ops.lean ====
section
/-! DEFINITION. The named reads and writes of the state that every block uses: segments, entries, slots, tasks,
pickers, the notice queue (R177), counters (R184) and the passing of time (R183). -/

namespace Sys2Proof.Machine

/-! ### Reading -/

def State.seg (s : State) (g : Seg) : Segment := s.segs[g]

def State.segState (s : State) (g : Seg) : SegState := (s.seg g).sup.state

def State.entry (s : State) (r : SlotRef) : Entry := (s.seg r.seg).entries[r.ix]

def State.slot (s : State) (r : SlotRef) : Slot := (s.seg r.seg).slots[r.ix]

def State.shadow (s : State) (r : SlotRef) : Shadow := (s.slot r).shadow

def State.task? (s : State) (id : TaskId) : Option Task := s.tasks.find? fun t => t.id == id

def State.picker (s : State) (p : Fin 12) : Picker := s.pickers[p]

/-- R83: the colour current of a colour code; NONE draws nothing. -/
def State.current (s : State) (c : Fin 8) : Nat :=
  if h : c.val = 0 then 0 else s.currents[c.val - 1]'(by omega)

/-- R86: U, 16 × the supply budget. -/
def SegConfig.units (c : SegConfig) : Nat := 16 * c.budget

/-- The 62 positions of a segment, in ascending address order. -/
def allIx : List (Fin 62) := List.finRange 62

def allSegs : List Seg := List.finRange 4

/-! ### Predicates on states -/

/-- RUNNING, HOLDING or HELD (R46). -/
def SegState.serving : SegState → Bool
  | .running | .holding | .held => true
  | .off | .starting | .fault => false

/-- STARTING, RUNNING, HOLDING or HELD: the segment is in service (R162). -/
def SegState.inService : SegState → Bool
  | .starting | .running | .holding | .held => true
  | .off | .fault => false

/-- PRESENT or COASTING: the module counts in the base load (R85). -/
def Presence.counted : Presence → Bool
  | .present | .coasting => true
  | .absent | .acquiring | .lost => false

/-- ABSENT or LOST (R57, R114). -/
def Presence.silent : Presence → Bool
  | .absent | .lost => true
  | .acquiring | .present | .coasting => false

/-- DONE, SHORT or EXPIRED (R25). -/
def TaskState.terminal : TaskState → Bool
  | .done | .short | .expired => true
  | .queued | .waitLoad | .shown | .blocked | .paused => false

/-- WAIT_LOAD, SHOWN or BLOCKED: the states of a slot's current task (R42). -/
def TaskState.isCurrent : TaskState → Bool
  | .waitLoad | .shown | .blocked => true
  | .queued | .paused | .done | .short | .expired => false

/-! ### Writing -/

def State.updSeg (s : State) (g : Seg) (f : Segment → Segment) : State :=
  { s with segs := s.segs.set g (f s.segs[g]) }

def State.updSup (s : State) (g : Seg) (f : Supervisor → Supervisor) : State :=
  s.updSeg g fun x => { x with sup := f x.sup }

def State.updGov (s : State) (g : Seg) (f : Governor → Governor) : State :=
  s.updSeg g fun x => { x with gov := f x.gov }

def State.updLine (s : State) (g : Seg) (f : LineCtl → LineCtl) : State :=
  s.updSeg g fun x => { x with line := f x.line }

def State.updTracker (s : State) (g : Seg) (f : Tracker → Tracker) : State :=
  s.updSeg g fun x => { x with tracker := f x.tracker }

/-- Counts in a segment's statistics (R184). -/
def State.count (s : State) (g : Seg) (f : SegCounters → SegCounters) : State :=
  s.updSeg g fun x => { x with counters := f x.counters }

def State.updEntry (s : State) (r : SlotRef) (f : Entry → Entry) : State :=
  s.updSeg r.seg fun x => { x with entries := x.entries.set r.ix (f x.entries[r.ix]) }

def State.updSlot (s : State) (r : SlotRef) (f : Slot → Slot) : State :=
  s.updSeg r.seg fun x => { x with slots := x.slots.set r.ix (f x.slots[r.ix]) }

def State.updShadow (s : State) (r : SlotRef) (f : Shadow → Shadow) : State :=
  s.updSlot r fun x => { x with shadow := f x.shadow }

def State.updPress (s : State) (r : SlotRef) (f : Press → Press) : State :=
  s.updEntry r fun x => { x with press := f x.press }

def State.updLink (s : State) (f : Link → Link) : State := { s with link := f s.link }

def State.updPicker (s : State) (p : Fin 12) (f : Picker → Picker) : State :=
  { s with pickers := s.pickers.set p (f s.pickers[p]) }

def State.updTask (s : State) (id : TaskId) (f : Task → Task) : State :=
  { s with tasks := s.tasks.map fun t => if t.id = id then f t else t }

/-- Frees a task's entry (R32, R34); every other entry keeps its index. -/
def State.freeTask (s : State) (id : TaskId) : State :=
  { s with tasks := s.tasks.filter fun t => t.id ≠ id }

/-! ### Notices (R177) -/

/-- R177: a notice is handed to the queue, held until the reply with this number has been sent. -/
def State.notifyHeld (s : State) (holder : Option Nat) (body : NoticeBody) : State :=
  let l := s.link
  if l.notices.length < Config.noticeQueueSize then
    { s with link := { l with notices := l.notices ++ [⟨s.time, l.dropMark, body, holder⟩], dropMark := false } }
  else
    { s with link := { l with dropMark := true, counters := { l.counters with noticesDropped := l.counters.noticesDropped + 1 } } }

/-- R178: a block queues a notice. One queued while a request is being taken is held by that request's reply, and one that
arises from anything else by none. -/
def State.notify (s : State) (body : NoticeBody) : State := s.notifyHeld s.link.taking body

/-- R176: the OPERATION_DONE of an operation whose STARTED reply has this number. Where no request is being taken it is
held by that reply (notes/assumptions/34.md). -/
def State.notifyDone (s : State) (started : Nat) (body : NoticeBody) : State :=
  s.notifyHeld (some (s.link.taking.getD started)) body

/-! ### The passing of time (R26, R131, R183) -/

/-- The time a command frame of `bits` line bit times and the gap before it take, in ms, rounded up. -/
def frameMs (rate : LineRate) (bits : Nat) : Nat :=
  ((bits + Config.gapBits) * 1000 + (rate.bitPerS - 1)) / rate.bitPerS

/-- The time of `n` line ticks, in ms, rounded up. -/
def ticksMs (rate : LineRate) (n : Nat) : Nat :=
  (n * 1000 + (Config.bitTicks * rate.bitPerS - 1)) / (Config.bitTicks * rate.bitPerS)

/-- Where an exchange stands on the line after `n` further ms, its frame taking `total` ms in all. -/
def Stage.pass (n total : Nat) : Stage → Stage
  | .gap => if total ≤ n then .sent else .sending (total - n)
  | .sending left => if left ≤ n then .sent else .sending (left - n)
  | .sent => .sent

/-- The line bit times a raw operation drives the line for (R169). -/
def RawOp.bits : RawOp → Nat
  | .brk => Config.breakBits
  | .command k => k.frameBits

/-- R134: an exchange is counted as sent when its command frame has been sent. -/
def countSent (before after : Stage) (c : SegCounters) : SegCounters :=
  if before ≠ .sent ∧ after = .sent then { c with exchangesSent := c.exchangesSent + 1 } else c

/-- `n` ms pass for the exchange in flight on a segment. -/
def Segment.passExchange (n : Nat) (x : Segment) : Segment :=
  match x.line.inFlight with
  | none => x
  | some e =>
    let st := e.stage.pass n (frameMs x.config.lineRate e.kind.frameBits)
    { x with line := { x.line with inFlight := some { e with stage := st } }, counters := countSent e.stage st x.counters }

/-- `n` ms pass for the raw exchange in flight on a segment. It begins only on an idle line (R164), so the first
`wait` of them bring it no further. -/
def Segment.passRaw (wait n : Nat) (x : Segment) : Segment :=
  match x.sup.raw with
  | none => x
  | some e =>
    let st := if n ≤ wait then e.stage else e.stage.pass (n - wait) (frameMs x.config.lineRate e.op.bits)
    { x with sup := { x.sup with raw := some { e with stage := st } }, counters := countSent e.stage st x.counters }

/-- R135, R164: `n` ms pass for a break on the line, once the probe due before it has been made, and for what a held line
left active. -/
def LineCtl.pass (n : Nat) (l : LineCtl) : LineCtl :=
  { l with
    breakMs := if l.breaking && !l.probeFirst then l.breakMs + n else l.breakMs
    activeMs := l.activeMs - n }

/-- `n` ms pass for what is on a segment's line: the exchange, the raw exchange, the break and what a held line left. -/
def Segment.pass (n : Nat) (x : Segment) : Segment :=
  let x1 := (x.passExchange n).passRaw x.line.activeMs n
  { x1 with line := x1.line.pass n }

/-- R26: the expiry timer runs while the task is SHOWN and its segment is RUNNING. -/
def Task.timerRuns (t : Task) (st : SegState) : Bool := t.state = .shown && t.limit.isSome && st = .running

/-- R26: `n` ms pass for a task's expiry timer. -/
def Task.pass (n : Nat) (st : SegState) (t : Task) : Task :=
  if t.timerRuns st then { t with timeLeft := t.timeLeft - n } else t

/-- R131: `n` ms pass for a module's own blink phase. -/
def Module.pass (n : Nat) (m : Module) : Module :=
  { m with phase := Fin.ofNat 8 (m.phase.val + (m.phaseMs + n) / Config.phaseMs), phaseMs := (m.phaseMs + n) % Config.phaseMs }

/-- R183: `n` ms pass in which no event is taken. What falls due in them is taken by `State.wait` and by the tick. -/
def State.passTime (n : Nat) (s : State) : State :=
  if n = 0 then s
  else
    { s with
      time := s.time + BitVec.ofNat 32 n
      phaseMs := s.phaseMs + n
      link := { s.link with gapMs := if s.link.rx.isEmpty then 0 else s.link.gapMs + n }
      tasks := s.tasks.map fun t => t.pass n (s.segState t.slot.seg)
      segs := s.segs.map (Segment.pass n)
      modules := s.modules.map (Module.pass n) }

/-- The ms until the time base reads `target`, 0 if it has come to it; stamps are compared modulo 2^32 (R183). -/
def State.msUntil (s : State) (target : Stamp) : Nat :=
  if (s.time - target).toNat < 2 ^ 31 then 0 else (target - s.time).toNat

end Sys2Proof.Machine
end

