-- ==== Sys2Proof/Machine/Display.lean ====
section
/-! DEFINITION. Display shadows and the display command queue (R51 to R58, R139 to R142). -/

namespace Sys2Proof.Machine

/-! ### The display command queue (R139) -/

/-- R58: the kind of the command that replaces a queued one. -/
def mergeKind (dark : Bool) (queued new : DisplayKind) : DisplayKind :=
  if dark then .darkCmd
  else if queued = .digitsCmd ∧ new = .digitsCmd then .digitsCmd
  else .showCmd

def State.displayQueued (s : State) (r : SlotRef) : Bool := (s.seg r.seg).line.displays.any fun c => c.ix = r.ix

/-- R58: a command for the address is merged into the one queued for it, which keeps its place. -/
def State.mergeDisplay (s : State) (r : SlotRef) (k : DisplayKind) : State :=
  let dark := (s.shadow r).owner.isNone
  s.updLine r.seg fun l =>
    { l with displays := l.displays.map fun c => if c.ix = r.ix then { c with kind := mergeKind dark c.kind k } else c }

/-- A command joins the queue at the tail. -/
def State.appendDisplay (s : State) (r : SlotRef) (k : DisplayKind) : State :=
  s.updLine r.seg fun l => { l with displays := l.displays ++ [⟨r.ix, k⟩] }

/-- R139: a command joins the queue at the tail, or is merged into the one queued for its address. -/
def State.queueDisplay (s : State) (r : SlotRef) (k : DisplayKind) : State :=
  if s.displayQueued r then s.mergeDisplay r k else s.appendDisplay r k

/-- R139: a display change joins the queue; one that replaces a queued command in place is counted. -/
def State.joinDisplay (s : State) (r : SlotRef) (k : DisplayKind) : State :=
  let s1 := s.queueDisplay r k
  if s.displayQueued r then s1.count r.seg fun c => { c with superseded := c.superseded + 1 } else s1

/-- R57: the segment is RUNNING, HOLDING or HELD and the entry is not ABSENT or LOST. -/
def State.deliverable (s : State) (r : SlotRef) : Bool := (s.segState r.seg).serving && !(s.entry r).presence.silent

/-- R57: a display change is handed only while the segment is RUNNING, HOLDING or HELD and the entry is not
ABSENT or LOST. -/
def State.handDisplay (s : State) (r : SlotRef) (k : DisplayKind) : State :=
  if s.deliverable r then s.joinDisplay r k else s

/-- R141: a queued display command is removed. -/
def State.dropDisplay (s : State) (r : SlotRef) : State :=
  s.updLine r.seg fun l => { l with displays := l.displays.filter fun c => c.ix ≠ r.ix }

/-- The kind that delivers the shadow whole (R65, R142). -/
def Shadow.wholeKind (sh : Shadow) : DisplayKind := if sh.owner.isSome then .showCmd else .darkCmd

/-! ### Digits (R52) -/

/-- R52: a quantity as a decimal number placed to the right, leading zeros blank. -/
def quantityDigits (q : Nat) : Digits :=
  { d1 := if 100 ≤ q then some (Fin.ofNat 10 (q / 100)) else none
    d2 := if 10 ≤ q then some (Fin.ofNat 10 (q / 10)) else none
    d3 := some (Fin.ofNat 10 q) }

/-- R52: the digits of the task's step. -/
def Task.digits (t : Task) : Digits :=
  match t.step with
  | .prompt => t.prompt.getD Digits.blank
  | .quantity => quantityDigits t.displayed

/-! ### Writing a shadow (R53 to R56) -/

/-- R55: the shadow goes dark with a new seq; a dark shadow is left as it is. -/
def State.darken (s : State) (r : SlotRef) : State :=
  if (s.shadow r).owner.isNone then s
  else (s.updShadow r fun sh => Shadow.dark (sh.seq + 1)).handDisplay r .darkCmd

/-- R38 step 3, R141: the same at CLEAR_TASKS, whose DARK takes the place of a queued command uncounted, since
CLEAR_TASKS leaves the counters as they are (R184; notes/assumptions/36.md). -/
def State.clearShadow (s : State) (r : SlotRef) : State :=
  if (s.shadow r).owner.isNone then s
  else
    let s1 := s.updShadow r fun sh => Shadow.dark (sh.seq + 1)
    if s1.deliverable r then s1.queueDisplay r .darkCmd else s1

/-- R54: the admitted task becomes the owner with a new seq. -/
def State.ownShadow (s : State) (r : SlotRef) (t : Task) (p : Picker) (rotation : Fin 8) (level : Nat) : State :=
  (s.updShadow r fun sh =>
    { seq := sh.seq + 1, owner := some ⟨t.id, t.step⟩, colour := p.colour, pattern := p.pattern
      rotation := rotation, level := level, digits := t.digits }).handDisplay r .showCmd

/-- R56: the owner's step becomes QUANTITY, with a new seq and the displayed quantity. -/
def State.stepShadow (s : State) (r : SlotRef) (t : Task) : State :=
  (s.updShadow r fun sh =>
    { sh with seq := sh.seq + 1, owner := some ⟨t.id, .quantity⟩, digits := quantityDigits t.displayed }).handDisplay r .showCmd

/-- R56: the digits change and seq is kept. -/
def State.redigitShadow (s : State) (r : SlotRef) (q : Nat) : State :=
  (s.updShadow r fun sh => { sh with digits := quantityDigits q }).handDisplay r .digitsCmd

/-- R56: the effective level changes and seq is kept. -/
def State.restyleShadow (s : State) (r : SlotRef) (level : Nat) : State :=
  (s.updShadow r fun sh => { sh with level := level }).handDisplay r .showCmd

end Sys2Proof.Machine
end

