-- ==== Sys2Proof/Machine/Governor.lean ====
section
/-! DEFINITION. The lamp load governor (chapter 5): contributions, admission, economy, shedding, load changes. -/

namespace Sys2Proof.Machine

def State.gov (s : State) (g : Seg) : Governor := (s.seg g).gov

/-! ### Contributions and phase loads (R84, R87) -/

/-- R84: the contribution in phase `p` of a display of colour `c` at level `e`. -/
def State.contribution (s : State) (c : Fin 8) (pat : Pattern) (rotation : Fin 8) (e : Nat) (p : Fin 8) : Nat :=
  if litIn pat rotation p then s.current c * e else 0

/-- R87: base load plus contributions in phase `p`, each lit display at the level `f` gives it. -/
def State.loadAt (s : State) (g : Seg) (f : LitEntry → Nat) (p : Fin 8) : Nat :=
  (s.gov g).baseLoad + ((s.gov g).lit.map fun e => s.contribution e.colour e.pattern e.rotation (f e) p).sum

/-- R87: the eight phase loads at the levels `f` gives. -/
def State.loadsAt (s : State) (g : Seg) (f : LitEntry → Nat) : Vector Nat 8 := Vector.ofFn (s.loadAt g f)

/-- R87: the governor brings the phase loads to the base load plus the contributions of its lit list. -/
def State.recompute (s : State) (g : Seg) : State :=
  let loads := s.loadsAt g LitEntry.effective
  s.updGov g fun v => { v with loads := loads }

/-- The largest of eight phase loads. -/
def maxLoad (v : Vector Nat 8) : Nat := v.toList.foldl max 0

/-- R86: U of the segment. -/
def State.units (s : State) (g : Seg) : Nat := (s.seg g).config.units

/-! ### The admission queue (R89, R90) -/

/-- R89: request `e` stays before `n`: higher priority, or the same and at least as old. -/
def Admission.before (now : Stamp) (e n : Admission) : Bool :=
  n.priority < e.priority || (e.priority = n.priority && (now - n.stamp).toNat ≤ (now - e.stamp).toNat)

/-- R89: the place that priority and stamp give, behind requests that rank the same. -/
def insertAdmission (now : Stamp) (n : Admission) : List Admission → List Admission
  | [] => [n]
  | e :: es => if e.before now n then e :: insertAdmission now n es else n :: e :: es

/-- R90: a request is placed, with the task's priority read now and the waited mark clear. -/
def State.place (s : State) (r : SlotRef) (t : Task) (stamp : Stamp) : State :=
  let a : Admission := ⟨r.ix, t.id, (s.picker t.picker).priority, stamp, false⟩
  s.updGov r.seg fun v => { v with queue := insertAdmission s.time a v.queue }

/-- R90: a request is removed wherever it stands. -/
def State.withdraw (s : State) (r : SlotRef) : State :=
  s.updGov r.seg fun v => { v with queue := v.queue.filter fun a => a.ix ≠ r.ix }

/-- R88: a display leaves the lit list, and its contribution leaves the phase loads. -/
def State.unlight (s : State) (r : SlotRef) : State :=
  (s.updGov r.seg fun v => { v with lit := v.lit.filter fun e => e.ix ≠ r.ix }).recompute r.seg

/-! ### Economy (R95, R96) -/

/-- Gives each lit entry the level `f`, recomputes the loads, and restyles in ascending slot number the shadows
whose level changed (R95, R96, R100). -/
def State.relevel (s : State) (g : Seg) (f : LitEntry → Nat) : State :=
  let changed := (s.gov g).lit.filter fun e => f e ≠ e.effective
  let s1 := (s.updGov g fun v => { v with lit := v.lit.map fun e => { e with effective := f e } }).recompute g
  (allIx.filterMap fun ix => changed.find? fun e => e.ix = ix).foldl
    (fun acc e => acc.restyleShadow ⟨g, e.ix⟩ (f e)) s1

/-- The effective level in economy (R84). -/
def economyLevelOf (le : Nat) (e : LitEntry) : Nat := min e.level le

/-- R95: the segment enters economy. -/
def State.enterEconomy (s : State) (g : Seg) : State :=
  ((s.updGov g fun v => { v with economy := true }).relevel g
    (economyLevelOf (s.seg g).config.economyLevel)).notify (.loadEconomy g true)

/-- R96: the exit check. -/
def State.exitCheck (s : State) (g : Seg) : State :=
  if (s.gov g).economy ∧ (s.gov g).queue = [] ∧ 8 * maxLoad (s.loadsAt g LitEntry.level) ≤ 7 * s.units g then
    ((s.updGov g fun v => { v with economy := false }).relevel g LitEntry.level).notify (.loadEconomy g false)
  else s

/-! ### Admission (R91 to R94) -/

/-- R91: the rotations a pattern allows. -/
def Pattern.rotations : Pattern → List (Fin 8)
  | .steady => [0]
  | .blink => List.finRange 8
  | .flicker => List.finRange 8

/-- R91: M(r), the largest phase load with the display added at rotation `r`. -/
def State.peak (s : State) (g : Seg) (p : Picker) (e : Nat) (r : Fin 8) : Nat :=
  ((List.finRange 8).map fun ph => (s.gov g).loads[ph] + s.contribution p.colour p.pattern r e ph).foldl max 0

/-- The first rotation of least M(r). -/
def leastPeak (m : Fin 8 → Nat) (best : Fin 8) : List (Fin 8) → Fin 8
  | [] => best
  | r :: rs => if m r < m best then leastPeak m r rs else leastPeak m best rs

/-- R91: the chosen rotation. -/
def State.chooseRotation (s : State) (g : Seg) (p : Picker) (e : Nat) : Fin 8 :=
  leastPeak (s.peak g p e) 0 p.pattern.rotations

/-- R84, R91: the effective level a display would have in the segment's present economy state. -/
def State.admitLevel (s : State) (g : Seg) (p : Picker) : Nat :=
  if (s.gov g).economy then min p.level (s.seg g).config.economyLevel else p.level

/-- R91: the display fits. -/
def State.fits (s : State) (g : Seg) (p : Picker) : Bool :=
  let e := s.admitLevel g p
  s.peak g p e (s.chooseRotation g p e) ≤ s.units g

/-- R92: the head of the queue is admitted; R21: the task enters SHOWN. -/
def State.admitHead (s : State) (g : Seg) (a : Admission) (t : Task) : State :=
  let p := s.picker t.picker
  let e := s.admitLevel g p
  let rot := s.chooseRotation g p e
  let now := s.time
  let s1 := (s.updGov g fun v =>
    { v with queue := v.queue.tail, lit := v.lit ++ [⟨a.ix, t.id, p.colour, p.pattern, rot, p.level, e⟩] }).recompute g
  (s1.ownShadow ⟨g, a.ix⟩ t p rot e).updTask t.id fun x =>
    { x with state := .shown, shownSince := now, timeLeft := 1000 * x.limit.getD 0 }

/-- R93: the attempt stops at the head, whose waited mark is set and counted once. -/
def State.stopAtHead (s : State) (g : Seg) (a : Admission) : State :=
  if a.waited then s
  else
    (s.updGov g fun v => { v with queue := { a with waited := true } :: v.queue.tail }).count g fun c =>
      { c with admissionsWaited := c.admissionsWaited + 1 }

/-- R92, R93: the admission attempt. The bound is the queue's length, since each admission shortens the queue. A
head whose task is no longer in WAIT_LOAD is not judged: its withdrawal is under way in the same request
(notes/assumptions/9.md). -/
def State.attemptLoop (g : Seg) : Nat → State → State
  | 0, s => s
  | n + 1, s =>
    match (s.gov g).queue with
    | [] => s
    | a :: _ =>
      match s.task? a.task with
      | none => s
      | some t =>
        if t.state ≠ .waitLoad then s
        else if s.fits g (s.picker t.picker) then attemptLoop g n (s.admitHead g a t)
        else if (s.gov g).economy then s.stopAtHead g a
        else
          let s1 := s.enterEconomy g
          if s1.fits g (s1.picker t.picker) then attemptLoop g n (s1.admitHead g a t) else s1.stopAtHead g a

def State.attempt (s : State) (g : Seg) : State := s.attemptLoop g (s.gov g).queue.length

/-- R94: the admission attempt and the exit check after it. -/
def State.settle (s : State) (g : Seg) : State := (s.attempt g).exitCheck g

/-! ### Load changes and shedding (R97 to R99) -/

/-- The later of two entries unless the earlier one's picker ranks strictly lower (R98). -/
def State.victimOf (s : State) (g : Seg) (rank : LitEntry → Nat) : Option LitEntry :=
  (s.gov g).lit.foldl
    (fun best e => match best with
      | none => some e
      | some b => if rank e ≤ rank b then some e else some b)
    none

/-- The priority of the picker whose task an entry shows, read now (R98). -/
def State.litPriority (s : State) (e : LitEntry) : Nat :=
  match s.task? e.task with
  | some t => (s.picker t.picker).priority
  | none => 0

/-- R98: one display is shed. Its request takes the slot's tenure stamp. -/
def State.shedOne (s : State) (g : Seg) : State :=
  match s.victimOf g s.litPriority with
  | none => s
  | some e =>
    let r : SlotRef := ⟨g, e.ix⟩
    let s1 := (s.unlight r).updTask e.task fun t => { t with state := .waitLoad, timeLeft := 0 }
    let s2 := s1.darken r
    let s3 := match s2.task? e.task with
      | some t => s2.place r t ((s2.slot r).tenure.getD s2.time)
      | none => s2
    s3.count g fun c => { c with sheds := c.sheds + 1 }

/-- R97 step 2: sheds while a phase exceeds U and something is lit; each shed shortens the lit list. -/
def State.shedLoop (g : Seg) : Nat → State → State
  | 0, s => s
  | n + 1, s =>
    if s.units g < maxLoad (s.gov g).loads then shedLoop g n (s.shedOne g) else s

/-- R97 step 2. -/
def State.resolveExcess (s : State) (g : Seg) : State :=
  if s.units g < maxLoad (s.gov g).loads then
    let s1 := if (s.gov g).economy then s else s.enterEconomy g
    s1.shedLoop g (s1.gov g).lit.length
  else s

/-- R97: a load change. -/
def State.loadChange (s : State) (g : Seg) : State := ((s.recompute g).resolveExcess g).settle g

/-- R85: the base load of the segment's present modules. -/
def Segment.baseLoadNow (x : Segment) : Nat :=
  x.config.baseCurrent * 16 * (x.entries.toList.countP fun e => e.presence.counted)

def State.setBaseLoad (s : State) (g : Seg) : State :=
  s.updSeg g fun x => { x with gov := { x.gov with baseLoad := x.baseLoadNow } }

/-- R99: the directory reports a change in the count of present modules. -/
def State.baseChange (s : State) (g : Seg) : State := (s.setBaseLoad g).loadChange g

/-- R90, R94: a request is withdrawn, and the attempt and exit check follow. -/
def State.withdrawAndSettle (s : State) (r : SlotRef) : State := (s.withdraw r).settle r.seg

/-- R88, R94: a display is released, and the attempt and exit check follow. -/
def State.release (s : State) (r : SlotRef) : State := (s.unlight r).settle r.seg

/-- R90, R94: a request is placed, and the attempt and exit check follow. -/
def State.placeAndSettle (s : State) (r : SlotRef) (t : Task) (stamp : Stamp) : State :=
  (s.place r t stamp).settle r.seg

/-- A request of a task of picker `p`. -/
def State.requestOf (s : State) (p : Fin 12) (a : Admission) : Bool :=
  match s.task? a.task with
  | some t => t.picker = p
  | none => false

/-- R7: one request is taken out and put back at the place its new priority gives, keeping its stamp and mark. -/
def moveRequest (now : Stamp) (priority : Nat) (q : List Admission) (a : Admission) : List Admission :=
  insertAdmission now { a with priority := priority } (q.filter fun b => b.ix ≠ a.ix)

/-- R7: the requests of a picker are moved to the places the new priority gives; then the segment makes its
attempt and exit check. The manual gives no order in which several requests of the picker are moved, and can be read to
have an attempt after each: they are moved in the order in which they stand in the queue, and one attempt follows the last
(notes/assumptions/37.md). -/
def State.reprioritise (s : State) (g : Seg) (p : Fin 12) (priority : Nat) : State :=
  let moved := (s.gov g).queue.filter (s.requestOf p)
  if moved = [] then s
  else (s.updGov g fun v => { v with queue := moved.foldl (moveRequest s.time priority) v.queue }).settle g

/-- R102: the governor's record comes to rest. -/
def State.restGovernor (s : State) (g : Seg) : State :=
  let on := (s.gov g).economy
  let s1 := s.updGov g fun _ => Governor.reset
  if on then s1.notify (.loadEconomy g false) else s1

end Sys2Proof.Machine
end

