-- ==== Sys2Proof/Machine/Slots.lean ====
section
/-! DEFINITION. The slot arbiter: selection (R44, R45), serviceability and its consequences (R46 to R50), and the
end of a task at its slot (R24, R28). -/

namespace Sys2Proof.Machine

/-- All valid slots of a segment, ascending. -/
def slotsOf (g : Seg) : List SlotRef := allIx.map fun ix => ⟨g, ix⟩

/-- All valid slots, in ascending slot number. -/
def allSlots : List SlotRef := allSegs.flatMap slotsOf

/-! ### Selection -/

/-- R44: task `a` is taken before task `b`. -/
def State.ranksBefore (s : State) (a b : Task) : Bool :=
  let pa := (s.picker a.picker).priority
  let pb := (s.picker b.picker).priority
  pb < pa || (pa = pb && (a.stamp.toNat < b.stamp.toNat || (a.stamp = b.stamp && a.index.val < b.index.val)))

/-- The tasks of a slot's waiting set, in ascending table index. -/
def State.waitingTasks (s : State) (r : SlotRef) : List Task :=
  s.tasks.filter fun t => (s.slot r).waiting.contains t.id

/-- The first of two tasks in the order of R44. -/
def State.firstOf (s : State) (best : Option Task) (t : Task) : Option Task :=
  match best with
  | none => some t
  | some b => if s.ranksBefore t b then some t else some b

/-- R44: the QUEUED task that selection takes. -/
def State.bestQueued (s : State) (r : SlotRef) : Option Task :=
  ((s.waitingTasks r).filter fun t => t.state = .queued).foldl s.firstOf none

/-- R43: the current task is set, with its tenure stamp. -/
def State.setCurrent (s : State) (r : SlotRef) (id : TaskId) (tenure : Option Stamp) : State :=
  s.updSlot r fun x => { x with current := some id, tenure := tenure }

/-- R43: the tenure ends. -/
def State.clearCurrent (s : State) (r : SlotRef) : State :=
  s.updSlot r fun x => { x with current := none, tenure := none }

def State.setTaskState (s : State) (id : TaskId) (st : TaskState) : State := s.updTask id fun t => { t with state := st }

/-- R44, R45: a slot with no current task selects. -/
def State.select (s : State) (r : SlotRef) : State :=
  if (s.slot r).current.isSome then s
  else
    match s.bestQueued r with
    | none => s
    | some t =>
      if (s.slot r).serviceable then
        ((s.setCurrent r t.id (some s.time)).setTaskState t.id .waitLoad).placeAndSettle r t s.time
      else (s.setCurrent r t.id none).setTaskState t.id .blocked

/-- R45: several slots select in ascending slot number, each selection complete before the next. -/
def State.selectAll (s : State) (rs : List SlotRef) : State := rs.foldl (fun acc r => acc.select r) s

/-! ### Serviceability -/

/-- R46: the three conditions as they stand. -/
def State.serviceableNow (s : State) (r : SlotRef) : Bool :=
  (s.segState r.seg).serving && (s.entry r).presence.counted && (s.entry r).binding ≠ .mismatch

/-- R46: why a slot is not serviceable. -/
def State.causeOf (s : State) (r : SlotRef) : SlotCause :=
  if !(s.segState r.seg).serving then .segmentDown
  else if (s.entry r).binding = .mismatch then .mismatch
  else .moduleLost

/-- The slot's current task, if it has one. -/
def State.currentTask (s : State) (r : SlotRef) : Option Task := (s.slot r).current.bind s.task?

/-- R22, R47: a task in WAIT_LOAD or SHOWN becomes BLOCKED, its timer discarded, and its shadow dark; TASK_BLOCKED
is queued. -/
def State.blockTask (s : State) (r : SlotRef) (t : Task) (cause : SlotCause) : State :=
  ((s.updTask t.id fun x => { x with state := .blocked, timeLeft := 0 }).darken r).notify
    (.taskBlocked t.id r t.picker cause)

/-- R47: what the arbiter does at a slot that stops being serviceable. R47 does not say whether the governor's attempt comes
before or after the slot's DARK and TASK_BLOCKED; it comes last (notes/assumptions/39.md). -/
def State.loseService (s : State) (r : SlotRef) (cause : SlotCause) : State :=
  match s.currentTask r with
  | none => s
  | some t =>
    match t.state with
    | .waitLoad => ((s.withdraw r).blockTask r t cause).settle r.seg
    | .shown => ((s.unlight r).blockTask r t cause).settle r.seg
    | _ => s

/-- R48: the same when the whole segment leaves service, without the governor's attempt. -/
def State.loseServiceWithSegment (s : State) (r : SlotRef) : State :=
  let s1 := s.updSlot r fun x => { x with serviceable := false }
  match s1.currentTask r with
  | none => s1
  | some t => if t.state = .waitLoad ∨ t.state = .shown then s1.blockTask r t .segmentDown else s1

/-- R49: what the arbiter does at a slot that becomes serviceable. -/
def State.regainService (s : State) (r : SlotRef) : State :=
  match s.currentTask r with
  | none => s.select r
  | some t =>
    if t.state = .blocked then
      let stamp := (s.slot r).tenure.getD s.time
      ((s.setCurrent r t.id (some stamp)).setTaskState t.id .waitLoad).placeAndSettle r t stamp
    else s

/-- R46: the arbiter evaluates a slot's serviceability again; no change, no effect. -/
def State.reevaluate (s : State) (r : SlotRef) : State :=
  let now := s.serviceableNow r
  if now = (s.slot r).serviceable then s
  else
    let s1 := s.updSlot r fun x => { x with serviceable := now }
    if now then s1.regainService r else s1.loseService r (s1.causeOf r)

/-! ### The end of a task -/

def EndKind.state : EndKind → TaskState
  | .done => .done
  | .short => .short
  | .expired => .expired

/-- R42: a task leaves its slot's waiting set. -/
def State.leaveWaiting (s : State) (r : SlotRef) (id : TaskId) : State :=
  s.updSlot r fun x => { x with waiting := x.waiting.filter fun w => w ≠ id }

/-- R24, R28: the entry of an ending task. -/
def State.endEntry (s : State) (t : Task) (k : EndKind) (confirmed : Nat) : State :=
  let now := s.time
  s.updTask t.id fun x => { x with state := k.state, confirmed := confirmed, endStamp := now, timeLeft := 0 }

/-- R24, R28: the task ends, TASK_ENDED is queued, the slot goes dark and selects. -/
def State.endTask (s : State) (t : Task) (k : EndKind) (confirmed : Nat) : State :=
  let r := t.slot
  let s1 := (s.endEntry t k confirmed).notify (.taskEnded t.id r t.picker k confirmed (s.time - t.shownSince))
  ((((s1.leaveWaiting r t.id).clearCurrent r).darken r).release r).select r

end Sys2Proof.Machine
end

