-- ==== Sys2Proof/Machine/Directory.lean ====
section
/-! DEFINITION. The module directory: binding (R105), presence (R110 to R115), identity (R116 to R118), discovery
(R121 to R124). -/

namespace Sys2Proof.Machine

/-! ### Binding -/

/-- R105: the binding follows from the serial fields. -/
def Entry.evalBinding (e : Entry) : Binding :=
  match e.kind, e.seen with
  | .empty, _ => .unbound
  | .provisioned, none => .unbound
  | .provisioned, some x => if e.expected = some x then .bound else .mismatch
  | .learned, some _ => .bound
  | .learned, none => .unbound

/-- Changes an entry's kind or serials; the binding follows (R105). -/
def State.rebind (s : State) (r : SlotRef) (f : Entry → Entry) : State :=
  s.updEntry r fun e => { f e with binding := (f e).evalBinding }

/-- R110: an exchange in flight whose target's entry becomes EMPTY is marked. -/
def LineCtl.orphan (ix : Fin 62) (l : LineCtl) : LineCtl :=
  match l.inFlight with
  | some e => if e.target = some ix then { l with inFlight := some { e with orphaned := true } } else l
  | none => l

/-- R104: an entry becomes EMPTY, every field at its reset value. -/
def State.emptyEntry (s : State) (r : SlotRef) : State :=
  (s.updEntry r fun _ => Entry.reset).updLine r.seg (LineCtl.orphan r.ix)

/-! ### The service queue (R116, R143) -/

/-- R116: an IDENT for the address waits in the service queue or is in flight. -/
def State.identPending (s : State) (r : SlotRef) : Bool :=
  let l := (s.seg r.seg).line
  l.services.contains (.ident r.ix) ||
    (match l.inFlight with
      | some e => e.kind = .ident && e.target = some r.ix
      | none => false)

def State.serviceFull (s : State) (g : Seg) : Bool := Config.serviceQueueSize ≤ (s.seg g).line.services.length

def State.handService (s : State) (g : Seg) (c : ServiceCmd) : State :=
  s.updLine g fun l => { l with services := l.services ++ [c] }

/-- R65, R116: an IDENT is handed unless one is waiting or in flight, or the service queue is full. -/
def State.handIdent (s : State) (r : SlotRef) : State :=
  if s.identPending r || s.serviceFull r.seg then s else s.handService r.seg (.ident r.ix)

/-! ### Presence -/

/-- R112: entry into PRESENT. -/
def State.enterPresent (s : State) (r : SlotRef) : State :=
  let returning := (s.entry r).wasPresent
  let s1 := s.updEntry r fun e => { e with presence := .present, goodRun := 0, missRun := 0 }
  let s2 := (s1.notify (.modulePresence r true returning)).updEntry r fun e => { e with wasPresent := true }
  (s2.baseChange r.seg).reevaluate r

/-- R112: entry into LOST from PRESENT or COASTING. -/
def State.enterLost (s : State) (r : SlotRef) : State :=
  let s1 := s.updEntry r fun e => { e with presence := .lost, goodRun := 0, missRun := 0, skip := 0 }
  (((s1.notify (.modulePresence r false false)).dropDisplay r).baseChange r.seg).reevaluate r

/-- R111, R112: an ACQUIRING entry falls silent again. -/
def State.failAcquiring (s : State) (r : SlotRef) : State :=
  (s.updEntry r fun e =>
    { e with presence := if e.wasPresent then .lost else .absent, goodRun := 0, missRun := 0, skip := 0 }).dropDisplay r

/-- R111: a good outcome. -/
def State.goodOutcome (s : State) (r : SlotRef) : State :=
  let e := s.entry r
  let lock := (s.seg r.seg).config.lock
  match e.presence with
  | .absent | .lost =>
    if lock ≤ 1 then s.enterPresent r
    else s.updEntry r fun x => { x with presence := .acquiring, goodRun := 1, missRun := 0 }
  | .acquiring =>
    if lock ≤ e.goodRun + 1 then s.enterPresent r
    else s.updEntry r fun x => { x with goodRun := x.goodRun + 1 }
  | .present => s
  | .coasting => s.updEntry r fun x => { x with presence := .present, missRun := 0 }

/-- R111: a miss. -/
def State.missOutcome (s : State) (r : SlotRef) : State :=
  let e := s.entry r
  let unlock := (s.seg r.seg).config.unlock
  match e.presence with
  | .absent | .lost => s
  | .acquiring => s.failAcquiring r
  | .present =>
    if unlock ≤ 1 then s.enterLost r else s.updEntry r fun x => { x with presence := .coasting, missRun := 1 }
  | .coasting =>
    if unlock ≤ e.missRun + 1 then s.enterLost r else s.updEntry r fun x => { x with missRun := x.missRun + 1 }

/-- R111: the entry takes the outcome of an exchange. -/
def State.takeOutcome (s : State) (r : SlotRef) (good : Bool) : State :=
  if good then s.goodOutcome r else s.missOutcome r

/-- R115: an entry whose segment enters OFF or FAULT; R63: its press record. -/
def Entry.leaveService (e : Entry) : Entry :=
  { e with
    presence := .absent, goodRun := 0, missRun := 0, skip := Config.maxSkip, wasPresent := false
    press := { e.press with confirmHeld := none, adjustHeld := none, confirmStuck := false, adjustStuck := false } }

/-! ### Identity -/

/-- R116: the serial an identity byte is compared with. -/
def Entry.reference (e : Entry) : Option Serial :=
  match e.seen with
  | some x => some x
  | none => if e.kind = .provisioned then e.expected else none

/-- R118: the other entry whose seen serial is this one. -/
def State.holderOf (s : State) (r : SlotRef) (serial : Serial) : Option SlotRef :=
  allSlots.find? fun q => q ≠ r && (s.entry q).seen = some serial

/-- R118 step 1: the vacated entry. -/
def State.vacateEntry (s : State) (q : SlotRef) : State :=
  if (s.entry q).kind = .learned then s.emptyEntry q
  else s.rebind q fun e => { e.leaveService with seen := none }

/-- R118: an entry is vacated, in one step. -/
def State.vacate (s : State) (q : SlotRef) (serial : Serial) : State :=
  let counted := (s.entry q).presence.counted
  let s1 := ((s.vacateEntry q).notify (.moduleIdentity q .vacated serial)).dropDisplay q
  let s2 := if counted then s1.baseChange q.seg else s1
  s2.reevaluate q

/-- R118: any other entry that holds the serial is vacated before it is written at `r`. -/
def State.vacateOthers (s : State) (r : SlotRef) (serial : Serial) : State :=
  match s.holderOf r serial with
  | some q => s.vacate q serial
  | none => s

/-- R117: the serial read is compared with its own entry. -/
def State.compareSerial (s : State) (r : SlotRef) (serial : Serial) : State :=
  let e := s.entry r
  let take := s.rebind r fun x => { x with seen := some serial }
  match e.kind with
  | .empty => s
  | .provisioned =>
    if e.expected = some serial then take.reevaluate r
    else if e.seen = some serial then s
    else (take.notify (.moduleIdentity r .mismatch serial)).reevaluate r
  | .learned =>
    if e.seen = some serial then s
    else (take.notify (.moduleIdentity r .swapped serial)).reevaluate r

/-- R117: a good IDENT reply. -/
def State.identityCheck (s : State) (r : SlotRef) (serial : Serial) : State :=
  (s.vacateOthers r serial).compareSerial r serial

/-! ### Discovery (R121 to R124) -/

def State.updDiscovery (s : State) (g : Seg) (f : Discovery → Discovery) : State :=
  s.updSup g fun v => { v with discovery := v.discovery.map f }

def State.countAssigned (s : State) (g : Seg) : State := s.updDiscovery g fun d => { d with assigned := d.assigned + 1 }

def State.countNoRoom (s : State) (g : Seg) : State := s.updDiscovery g fun d => { d with noRoom := d.noRoom + 1 }

/-- A used task entry or an ARMED capture names the slot (R108, R123). -/
def State.named (s : State) (r : SlotRef) : Bool :=
  (s.tasks.any fun t => t.slot = r) || (s.captures.toList.any fun c => match c with
    | some c => c.slot = r
    | none => false)

/-- R123 step 1: the PROVISIONED entry of the segment that expects the serial. -/
def State.expecting (s : State) (g : Seg) (serial : Serial) : Option SlotRef :=
  (slotsOf g).find? fun r => (s.entry r).kind = .provisioned && (s.entry r).expected = some serial

/-- R123 step 3: the lowest address that is EMPTY and named by no task or capture. -/
def State.freeAddress (s : State) (g : Seg) : Option SlotRef :=
  (slotsOf g).find? fun r => (s.entry r).kind = .empty && !s.named r

/-- R123 step 3: a new LEARNED entry. -/
def State.learn (s : State) (r : SlotRef) (serial : Serial) : State :=
  s.rebind r fun _ => { Entry.reset with kind := .learned, seen := some serial }

/-- R123 steps 3 and 4: the serial takes the lowest free address, or is counted as no room. -/
def State.placeSerial (s : State) (g : Seg) (serial : Serial) : State :=
  match s.freeAddress g with
  | some r => ((s.learn r serial).handService g (.assign serial r.ix)).countAssigned g
  | none => s.countNoRoom g

/-- R123: one CLEAN serial of a round. -/
def State.handleSerial (s : State) (g : Seg) (serial : Serial) : State :=
  if s.serviceFull g then s.countNoRoom g
  else
    match s.expecting g serial with
    | some r =>
      if (s.entry r).binding = .mismatch then s.countNoRoom g
      else
        (((s.vacateOthers r serial).handService g (.assign serial r.ix)).rebind r fun e =>
          { e with seen := some serial }).countAssigned g
    | none =>
      match allSlots.find? fun q => (s.entry q).seen = some serial with
      | some q => (s.vacate q serial).placeSerial g serial
      | none => s.placeSerial g serial

/-- R124: the figures of a run. -/
def Discovery.figures (d : Discovery) : Figures := .discover d.rounds d.assigned d.noRoom d.garbled

/-- R124, R125: the run ends. -/
def State.endDiscovery (s : State) (g : Seg) (result : OpResult) : State :=
  match (s.seg g).sup.discovery with
  | none => s
  | some d =>
    (s.updSup g fun v => { v with discovery := none }).notifyDone d.reply (.operationDone d.tag g .discover result d.figures)

/-- R124: after the serials of a round. -/
def State.judgeRound (s : State) (g : Seg) (allEmpty : Bool) : State :=
  let s1 := s.updDiscovery g fun d => { d with emptyRounds := if allEmpty then d.emptyRounds + 1 else 0 }
  match (s1.seg g).sup.discovery with
  | none => s1
  | some d =>
    if Config.maxEmptyRounds ≤ d.emptyRounds ∨ Config.maxRounds ≤ d.rounds then s1.endDiscovery g .complete else s1

end Sys2Proof.Machine
end

