-- ==== Sys2Proof/Machine/Wire.lean ====
section
/-! DEFINITION. The segment line as seen by a receiver: line coding (R126), the receiver's reading of a reply
(R127, R133, R135) and of the contention slots of a discovery round (R144). Times are line ticks from the end of
the command frame. -/

namespace Sys2Proof.Machine

/-! ### Line activity as a rising list of separate runs -/

def insertPulse (p : Pulse) : List Pulse → List Pulse
  | [] => [p]
  | q :: qs => if p.start ≤ q.start then p :: q :: qs else q :: insertPulse p qs

def sortPulses (ps : List Pulse) : List Pulse := ps.foldr insertPulse []

/-- Joins runs whose gap is at most `gap` ticks; the list is sorted by start. -/
def mergeFrom (gap : Nat) (cur : Pulse) : List Pulse → List Pulse
  | [] => [cur]
  | p :: ps =>
    if p.start ≤ cur.stop + gap then mergeFrom gap ⟨cur.start, max cur.stop p.stop - cur.start⟩ ps
    else cur :: mergeFrom gap p ps

def mergeRuns (gap : Nat) : List Pulse → List Pulse
  | [] => []
  | p :: ps => mergeFrom gap p ps

/-- R127: the line is active in a half when any party drives it active, and a run shorter than 8 ticks is
ignored. -/
def lineActivity (ps : List Pulse) : List Pulse :=
  (mergeRuns 0 (sortPulses (ps.filter (0 < ·.ticks)))).filter (Config.halfTicks ≤ ·.ticks)

/-- The line is active at tick `t`. -/
def activeAt (act : List Pulse) (t : Nat) : Bool := act.any fun p => p.start ≤ t && t < p.stop

/-! ### Frames -/

/-- R127: an active run of 20 to 28 ticks followed by an idle half. -/
def isStart (act : List Pulse) (p : Pulse) : Bool :=
  20 ≤ p.ticks && p.ticks ≤ 28 &&
    act.all fun q => q.start ≤ p.start || p.stop + Config.halfTicks ≤ q.start

/-- R127: the bit whose first half begins at tick `t`, sampled at the middles of its halves; none is a coding
violation. -/
def readBit (act : List Pulse) (t : Nat) : Option Bool :=
  match activeAt act (t + 4), activeAt act (t + 12) with
  | true, false => some true
  | false, true => some false
  | _, _ => none

/-- `k` bits from tick `t`, least significant first. -/
def readBits (act : List Pulse) (t : Nat) : Nat → Option Nat
  | 0 => some 0
  | k + 1 =>
    match readBit act t, readBits act (t + 16) k with
    | some b, some n => some (b.toNat + 2 * n)
    | _, _ => none

/-- `k` bytes from tick `t` (R126). -/
def readBytes (act : List Pulse) (t : Nat) : Nat → Option (List Byte)
  | 0 => some []
  | k + 1 =>
    match readBits act t 8, readBytes act (t + 128) k with
    | some n, some bs => some (byteOf n :: bs)
    | _, _ => none

/-- Chapter 7, "Reply frames": the code of each reply kind and its frame bytes. -/
def replyFrameLength (kind : Byte) : Option Nat :=
  if kind = 0x31 then some 10 else if kind = 0x32 then some 8 else if kind = 0x33 then some 8 else none

/-- R127: the well-formed reply whose first byte begins at tick `t`, without its CRC. -/
def readFrame (act : List Pulse) (t : Nat) : Option (List Byte) :=
  match readBytes act t 2 with
  | some [address, kind] =>
    match replyFrameLength kind with
    | some n =>
      match readBytes act (t + 256) (n - 2) with
      | some rest =>
        let body := address :: kind :: rest.take (n - 4)
        if rest.drop (n - 4) = crcBytes body then some body else none
      | none => none
    | none => none
  | _ => none

/-- R127: the tick at which the frame whose first byte begins at tick `t` ends, if it is read through: no coding violation
and a known kind, whatever its CRC. -/
def frameStop (act : List Pulse) (t : Nat) : Option Nat :=
  match readBytes act t 2 with
  | some [_, kind] =>
    match replyFrameLength kind with
    | some n => (readBytes act t n).map fun _ => t + 128 * n
    | none => none
  | _ => none

/-! ### Listening for a reply (R133, R135) -/

/-- What the receiver made of the line after a command that expects a reply. -/
inductive Reception where
  /-- no start pattern began within the listen period -/
  | silence
  /-- a held line (R135) -/
  | held
  /-- a start pattern began and the reply was invalid -/
  | invalid (delay : Nat)
  /-- a well-formed frame, without its CRC -/
  | frame (delay : Nat) (body : List Byte)
  deriving DecidableEq, Repr

/-- R135: activity without an idle half that lasts two longest-frame times and covers the start of `p`. -/
def heldRun (act : List Pulse) (p : Pulse) : Bool :=
  (mergeRuns (Config.halfTicks - 1) act).any fun q =>
    q.start ≤ p.start && p.start < q.stop && Config.heldTicks ≤ q.ticks

/-- R132: the line is active, without an idle half, for two longest-frame times. -/
def breakLasts (act : List Pulse) : Bool :=
  (mergeRuns (Config.halfTicks - 1) act).any fun q => Config.heldTicks ≤ q.ticks

/-- R135: the ticks after a held line has ended its exchange before the line has been free of activity: activity that
begins within 2 line bit times of idle line goes on. -/
def heldRest (act : List Pulse) : Nat :=
  match (mergeRuns (Config.halfTicks - 1) act).find? fun q => Config.heldTicks ≤ q.ticks with
  | none => 0
  | some q =>
    ((mergeRuns (Config.idleTicks - 1) act).filter fun w => w.start ≤ q.start && q.stop ≤ w.stop).foldl
      (fun n w => max n (w.stop - (q.start + Config.heldTicks))) 0

/-- R133: after an invalid reply the exchange lasts until the line has been idle for 32 ticks; a run of
activity before that can still be a held line. -/
def heldAfter (act : List Pulse) (last : Nat) : List Pulse → Bool
  | [] => false
  | q :: qs => q.start < last + Config.idleTicks && (heldRun act q || heldAfter act q.stop qs)

/-- R133: the receiver looks for a start pattern among the runs that begin within the listen period. -/
def listenFor (act : List Pulse) : List Pulse → Reception
  | [] => .silence
  | p :: rest =>
    if Config.listenTicks ≤ p.start then .silence
    else if heldRun act p then .held
    else if isStart act p then
      match readFrame act (p.stop + Config.halfTicks) with
      | some body => .frame p.start body
      | none => if heldAfter act p.stop rest then .held else .invalid p.start
    else listenFor act rest

/-- R127, R133: what the receiver makes of the activity on the line. -/
def receive (ps : List Pulse) : Reception := listenFor (lineActivity ps) (lineActivity ps)

/-! ### Sending a frame (R126) -/

/-- One coded bit: active then idle for 1, idle then active for 0. -/
def bitHalves (b : Bool) : List Bool := if b then [true, false] else [false, true]

/-- A byte's coded bits, least significant first. -/
def byteHalves (b : Byte) : List Bool :=
  (List.range 8).flatMap fun i => bitHalves (b.getLsbD i)

/-- R126: start pattern and bytes, the CRC last. -/
def frameHalves (body : List Byte) : List Bool :=
  [true, true, true, false] ++ (body ++ crcBytes body).flatMap byteHalves

/-- The activity of halves sent from tick `t` on. -/
def halvesActivity (t : Nat) : List Bool → List Pulse
  | [] => []
  | true :: hs => ⟨t, Config.halfTicks⟩ :: halvesActivity (t + Config.halfTicks) hs
  | false :: hs => halvesActivity (t + Config.halfTicks) hs

/-- The activity of a frame whose start pattern begins at tick `delay`. -/
def frameActivity (delay : Nat) (body : List Byte) : List Pulse := halvesActivity delay (frameHalves body)

/-! ### Contention slots (R122, R144) -/

inductive SlotHeard where
  | empty
  | clean (serial : Serial)
  | garbled
  deriving DecidableEq, Repr

/-- The stretches of the frames that the receiver has read through by tick `w`. -/
def framesBy (act : List Pulse) (w : Nat) : List Pulse :=
  act.filterMap fun p =>
    if isStart act p then
      match frameStop act (p.stop + Config.halfTicks) with
      | some stop => if stop ≤ w then some ⟨p.start, stop - p.start⟩ else none
      | none => none
    else none

/-- The activity that belongs to no frame read through by tick `w`. -/
def looseActivity (act : List Pulse) (w : Nat) : List Pulse :=
  act.filter fun p => !(framesBy act w).any fun f => f.start ≤ p.start && p.stop ≤ f.stop

/-- R144: activity that began before tick `w` continues past it: a run lasts over it, or a run that is no start pattern
follows within a line bit, since idle stretches of that length are part of the coding. A frame that has been read through
does not continue, and a start pattern begins new activity (notes/assumptions/13.md). -/
def runsInto (act : List Pulse) (w : Nat) : Bool :=
  (looseActivity act w).any fun p =>
    p.start < w &&
      (w < p.stop || act.any fun q => w ≤ q.start && q.start ≤ p.stop + Config.bitTicks && !isStart act q)

/-- R144: the class of contention slot `k`. What counts as activity in it is the model's reading (notes/assumptions/13.md);
that a held line makes it GARBLED even behind a whole reply is the model's choice (notes/assumptions/46.md). -/
def contentionSlot (act : List Pulse) (k : Nat) : SlotHeard :=
  let w := Config.contentionTicks * k
  let stop := w + Config.contentionTicks
  let starts := act.filter fun p => w ≤ p.start && p.start < stop && isStart act p
  if act.any fun p => heldRun act p && p.start < stop then .garbled
  else if runsInto act w then .garbled
  else
    match starts with
    | [] => .empty
    | [p] =>
      match readFrame act (p.stop + Config.halfTicks) with
      | some [address, kind, s0, s1, s2, s3] =>
        if address = 0 ∧ kind = 0x33 ∧ p.stop + Config.halfTicks + 1024 ≤ stop then
          .clean (BitVec.ofNat 32 (leValue [s0, s1, s2, s3]))
        else .garbled
      | _ => .garbled
    | _ => .garbled

/-- R144: the eight slots of a round, in order. -/
def contentionRound (ps : List Pulse) : List SlotHeard :=
  (List.range Config.contentionSlots).map (contentionSlot (lineActivity ps))

/-- R144: a held line in a round. The manual speaks of a held line during a round; activity that begins in the round and
comes to 3136 ticks only after the eighth slot has ended is taken as one too (notes/assumptions/13.md). -/
def roundHeld (ps : List Pulse) : Bool :=
  let act := lineActivity ps
  act.any fun p => heldRun act p && p.start < Config.contentionTicks * Config.contentionSlots

end Sys2Proof.Machine
end

