-- ==== Sys2Proof/Machine/Modules.lean ====
section
/-! DEFINITION. The modules on the lines: how a module acts on a command frame and what it answers (R61, R120, R129
to R132), and the reading of a STATUS reply. -/

namespace Sys2Proof.Machine

/-- R61: a module reset; its line address, its serial and the position of its buttons stay. R131 says only that its blink
phase runs from its reset: that it starts there at phase 0 is the model's choice (notes/assumptions/44.md). -/
def Module.reset (m : Module) : Module :=
  { m with
    confirmCount := 0, adjustCount := 0, shownSeq := 0, latchedSeq := 0, fresh := true, colour := 0
    pattern := .steady, rotation := 0, level := 16, digits := Digits.blank, phase := 0, phaseMs := 0 }

/-- A module just fitted, with its buttons up and at the start of its blink phase 0 (notes/assumptions/44.md). -/
def Module.fitted (serial : Serial) (seg : Seg) (address : BitVec 6) : Module :=
  { serial := serial, seg := seg, address := address, confirmCount := 0, adjustCount := 0, shownSeq := 0
    latchedSeq := 0, confirmHeld := false, adjustHeld := false, fresh := true, colour := 0, pattern := .steady
    rotation := 0, level := 16, digits := Digits.blank, phase := 0, phaseMs := 0 }

/-- R61: a button goes down. A button already down adds nothing. -/
def Module.press (m : Module) (b : Button) : Module :=
  match b with
  | .confirm =>
    if m.confirmHeld then m
    else { m with confirmHeld := true, confirmCount := m.confirmCount + 1, latchedSeq := m.shownSeq }
  | .adjust =>
    if m.adjustHeld then m else { m with adjustHeld := true, adjustCount := m.adjustCount + 1 }

/-- R61: a button comes up. -/
def Module.release (m : Module) (b : Button) : Module :=
  match b with
  | .confirm => { m with confirmHeld := false }
  | .adjust => { m with adjustHeld := false }

/-- The identity byte: the low eight bits of the serial. -/
def identityByte (serial : Serial) : Byte := serial.setWidth 8

/-- R61, chapter 7: the STATUS reply, without its CRC. -/
def Module.status (m : Module) : List Byte :=
  [m.address.setWidth 8, 0x31, m.shownSeq.setWidth 8, m.confirmCount.setWidth 8, m.latchedSeq.setWidth 8,
   m.adjustCount.setWidth 8,
   byteOf (m.confirmHeld.toNat + 2 * m.adjustHeld.toNat + 4 * m.fresh.toNat), identityByte m.serial]

/-! ### What a module shows (R130) -/

/-- R130: a module that has taken a SHOW with a colour is lit. One with colour 0, and one that is dark, shows nothing. -/
def Module.isLit (m : Module) : Bool := m.colour ≠ 0

/-- R84, R130: the lamp of a lit module in its present blink phase, as colour and level; none while it is out. -/
def Module.lamp (m : Module) : Option (Fin 8 × Nat) :=
  if m.isLit && litIn m.pattern m.rotation m.phase then some (m.colour, m.level) else none

/-- R130: the three digits that a module shows. That a module with colour 0 shows none, after a DIGITS too, is the model's
choice (notes/assumptions/45.md). -/
def Module.face (m : Module) : Digits := if m.isLit then m.digits else Digits.blank

/-- A module has power while its segment's supply is ON. -/
def State.powered (s : State) (m : Module) : Bool := (s.seg m.seg).sup.supply

/-- R130, R162: what a module shows: nothing without power. -/
def State.shows (s : State) (m : Module) : Option (Fin 8 × Nat) × Digits :=
  if s.powered m then (m.lamp, m.face) else (none, Digits.blank)

/-- R129: a reply that carries the full serial: IDENT (0x32) or ENUM (0x33). -/
def Module.serialReply (m : Module) (kind : Byte) : List Byte :=
  m.address.setWidth 8 :: kind :: leBytes 4 m.serial.toNat

/-- R129: the address byte of a command names the module. -/
def Module.isNamed (m : Module) (address : Byte) (kind : LineKind) : Bool :=
  match kind with
  | .sync => address = 63
  | .enumerate | .assign => address = 0 && m.address = 0
  | .poll | .showCmd | .digits | .dark | .ident => address = m.address.setWidth 8 && m.address ≠ 63

/-- R130: a SHOW with every field in range. -/
def Module.takeShow (m : Module) : List Byte → Option Module
  | [seq, colour, pattern, rotation, level, a, b, c] =>
    match patternOf pattern.toNat, digitsOf a b c with
    | some pat, some ds =>
      if h : seq.toNat < 16 ∧ colour.toNat < 8 ∧ rotation.toNat < 8 ∧ 1 ≤ level.toNat ∧ level.toNat ≤ 16 then
        some { m with
          shownSeq := seq.setWidth 4, colour := ⟨colour.toNat, h.2.1⟩, pattern := pat
          rotation := ⟨rotation.toNat, h.2.2.1⟩, level := level.toNat, digits := ds }
      else none
    | _, _ => none
  | _ => none

/-- R130: a DARK with a seq in range. -/
def Module.takeDark (m : Module) : List Byte → Option Module
  | [seq] =>
    if seq.toNat < 16 then
      some { m with shownSeq := seq.setWidth 4, colour := 0, pattern := .steady, rotation := 0, level := 16, digits := Digits.blank }
    else none
  | _ => none

/-- R130: a DIGITS at the shown seq of a module that is not FRESH; otherwise its content is ignored. -/
def Module.takeDigits (m : Module) : List Byte → Module
  | [seq, a, b, c] =>
    match digitsOf a b c with
    | some ds => if !m.fresh && seq = m.shownSeq.setWidth 8 then { m with digits := ds } else m
    | none => m
  | _ => m

/-- R120: the new address of an ASSIGN for this serial. -/
def Module.newAddress (m : Module) : List Byte → Option (BitVec 6)
  | [s0, s1, s2, s3, a] =>
    if leValue [s0, s1, s2, s3] = m.serial.toNat ∧ 1 ≤ a.toNat ∧ a.toNat ≤ 62 then some (a.setWidth 6) else none
  | _ => none

/-- R129, R130: what a named module becomes once its reply has been sent, and the reply it sends. A SHOW or DARK
that the module takes clears FRESH after the reply. -/
def Module.act (m : Module) (kind : LineKind) (payload : List Byte) : Module × Option (List Byte) :=
  match kind with
  | .poll => (m, some m.status)
  | .showCmd =>
    match m.takeShow payload with
    | some m1 => ({ m1 with fresh := false }, some m1.status)
    | none => (m, some m.status)
  | .dark =>
    match m.takeDark payload with
    | some m1 => ({ m1 with fresh := false }, some m1.status)
    | none => (m, some m.status)
  | .digits => (m.takeDigits payload, some (m.takeDigits payload).status)
  | .ident => (m, some (m.serialReply 0x32))
  | .assign =>
    match m.newAddress payload with
    | some a => ({ m with address := a }, some { m with address := a }.status)
    | none => (m, none)
  | .sync => ({ m with phase := 0, phaseMs := 0 }, none)
  | .enumerate => (m, none)

/-- R129: a module of the segment that the frame names acts on it. -/
def Module.afterFrame (g : Seg) (address : Byte) (kind : LineKind) (payload : List Byte) (m : Module) : Module :=
  if m.seg = g ∧ m.isNamed address kind then (m.act kind payload).1 else m

/-- R129: the replies the segment's modules send to a frame, without their CRCs. -/
def State.repliesTo (s : State) (g : Seg) (address : Byte) (kind : LineKind) (payload : List Byte) : List (List Byte) :=
  s.modules.filterMap fun m => if m.seg = g ∧ m.isNamed address kind then (m.act kind payload).2 else none

/-- The modules take a frame. -/
def State.modulesTake (s : State) (g : Seg) (address : Byte) (kind : LineKind) (payload : List Byte) : State :=
  { s with modules := s.modules.map (Module.afterFrame g address kind payload) }

/-- R132: every module on the segment resets. -/
def State.resetModules (s : State) (g : Seg) : State :=
  { s with modules := s.modules.map fun m => if m.seg = g then m.reset else m }

/-- R132: activity that lasts as a break does resets every module that sees it, whoever drives the line. -/
def State.modulesSee (s : State) (g : Seg) (activity : List Pulse) : State :=
  if breakLasts (lineActivity activity) then s.resetModules g else s

/-- The state of the modules after a command frame, by what the outside world decides about it. -/
def State.afterCommand (s : State) (g : Seg) (address : Byte) (kind : LineKind) (payload : List Byte) (h : Heard) : State :=
  match h with
  | .answered _ => s.modulesTake g address kind payload
  | .line taken activity => (if taken then s.modulesTake g address kind payload else s).modulesSee g activity

/-- The activity on the line after a command frame. Replies that overlap are read as one (R127). -/
def State.activityAfter (s : State) (g : Seg) (address : Byte) (kind : LineKind) (payload : List Byte) (h : Heard) :
    List Pulse :=
  match h with
  | .answered delay => (s.repliesTo g address kind payload).flatMap (frameActivity delay)
  | .line _ activity => activity

/-- R120: the ENUM replies of the segment's unassigned modules, in the slots chosen. -/
def State.roundActivity (s : State) (g : Seg) : Round → List Pulse
  | .answered choices =>
    ((s.modules.filter fun m => m.seg = g && m.address = 0).zip choices).flatMap fun x =>
      frameActivity (Config.contentionTicks * x.2.1.val + x.2.2) (x.1.serialReply 0x33)
  | .line activity => activity

/-! ### Reading a STATUS reply (R61) -/

structure StatusReply where
  shownSeq : Nibble
  confirmCount : Nibble
  latchedSeq : Nibble
  adjustCount : Nibble
  confirmHeld : Bool
  adjustHeld : Bool
  fresh : Bool
  identity : Byte
  deriving DecidableEq, Repr

/-- The payload of a STATUS reply whose reserved bits are 0 (chapter 7, "Field codings"). -/
def statusOf : List Byte → Option StatusReply
  | [seq, confirm, latched, adjust, flags, identity] =>
    if seq.toNat < 16 ∧ confirm.toNat < 16 ∧ latched.toNat < 16 ∧ adjust.toNat < 16 ∧ flags.toNat < 8 then
      some ⟨seq.setWidth 4, confirm.setWidth 4, latched.setWidth 4, adjust.setWidth 4, flags.getLsbD 0,
        flags.getLsbD 1, flags.getLsbD 2, identity⟩
    else none
  | _ => none

end Sys2Proof.Machine
end

