-- ==== Sys2Proof/Machine/Tracking.lean ====
section
/-! DEFINITION. The reply alignment tracker (chapter 8). -/

namespace Sys2Proof.Machine

/-- R147: the difference between a start delay and D, without sign, is at most W. -/
def inWindow (t : Tracker) (c : SegConfig) (d : Nat) : Bool := d ≤ t.delay + c.window && t.delay ≤ d + c.window

/-- R149: the mean rounded to the nearest tick, halves up. -/
def intervalAverage (sum n : Nat) : Nat := (sum + n / 2) / n

/-- R151: the step: the difference divided by 2^shift, truncated toward zero, clamped to −S to +S. -/
def stepOf (c : SegConfig) (diff : Int) : Int :=
  max (-(c.slew : Int)) (min (c.slew : Int) (diff.tdiv (2 ^ c.shift)))

def signOf (x : Int) : Sign := if 0 < x then .plus else if x < 0 then .minus else .zero

/-- R145: a history holds at most four signs; a fifth drops the oldest. -/
def pushSign (h : List Sign) (x : Sign) : List Sign := (h ++ [x]).drop (h.length + 1 - 4)

/-- R153: the post filter lets the step apply. -/
def filterPasses (c : SegConfig) (proposals : List Sign) (step : Int) : Bool :=
  step ≠ 0 &&
    (!c.postFilter || proposals = [.plus, .plus, .plus, .plus] || proposals = [.minus, .minus, .minus, .minus])

/-- R154: four applied signs that alternate. -/
def alternates (h : List Sign) : Bool :=
  h = [.plus, .minus, .plus, .minus] || h = [.minus, .plus, .minus, .plus]

/-- R153: D plus the step, clamped to 0 to 1023. -/
def moveDelay (d : Nat) (step : Int) : Nat := min 1023 ((d : Int) + step).toNat

/-- R145, R184: what one start delay does: the tracker record, and whether a step was applied or a jump made. -/
structure Tracked where
  tracker : Tracker
  stepped : Bool
  jumped : Bool
  deriving DecidableEq, Repr

/-- R153, R154: a proposal judged out of hold. -/
def judgeProposal (c : SegConfig) (t : Tracker) (step : Int) : Tracked :=
  if filterPasses c t.proposals step then
    let applied := pushSign t.applied (signOf step)
    ⟨{ t with delay := moveDelay t.delay step, applied := applied, hold := c.toggleHold && alternates applied }, true, false⟩
  else ⟨t, false, false⟩

/-- R151, R152: the proposal of an interval, whose sum and n are already cleared. -/
def propose (c : SegConfig) (t : Tracker) (diff : Int) : Tracked :=
  let step := stepOf c diff
  let t1 := { t with proposals := pushSign t.proposals (signOf step) }
  if t1.hold then
    if c.window / 2 < diff.natAbs then judgeProposal c { t1 with hold := false, applied := [] } step
    else ⟨t1, false, false⟩
  else judgeProposal c t1 step

/-- R149, R150: the end of an interval with the sum and count given. -/
def endInterval (c : SegConfig) (t : Tracker) (sum n : Nat) : Tracked :=
  let avg := intervalAverage sum n
  let diff : Int := (avg : Int) - (t.delay : Int)
  let t0 := { t with sum := 0, n := 0 }
  if c.jump ∧ c.jumpOver < diff.natAbs then
    ⟨{ t0 with delay := avg, proposals := [], applied := [], hold := false }, false, true⟩
  else propose c t0 diff

/-- R149: one start delay is taken. -/
def trackDelay (c : SegConfig) (t : Tracker) (d : Nat) : Tracked :=
  if c.interval.count ≤ t.n + 1 then endInterval c t (t.sum + d) (t.n + 1)
  else ⟨{ t with sum := t.sum + d, n := t.n + 1 }, false, false⟩

/-- R148: the segment's tracker takes a start delay, and its counters count. -/
def State.track (s : State) (g : Seg) (d : Nat) : State :=
  s.updSeg g fun x =>
    let r := trackDelay x.config x.tracker d
    { x with
      tracker := r.tracker
      counters := { x.counters with
        trackerSteps := x.counters.trackerSteps + (if r.stepped then 1 else 0)
        trackerJumps := x.counters.trackerJumps + (if r.jumped then 1 else 0) } }

/-- R156: the working state is cleared and D kept. -/
def Tracker.clearWork (t : Tracker) : Tracker := Tracker.fresh t.delay

end Sys2Proof.Machine
end

