-- ==== Sys2Proof/Machine/Supervisor.lean ====
section
/-! DEFINITION. The segment supervisor: changes of state (R159 to R163), leaving service (R162), line sense (R165)
and the entry into HELD (R166). -/

namespace Sys2Proof.Machine

/-! ### A change of state (R159) -/

/-- R159: the state changes and a SEGMENT_STATE notice is queued. -/
def State.setSegState (s : State) (g : Seg) (new : SegState) (cause : StateCause) : State :=
  (s.updSup g fun v => { v with state := new }).notify (.segmentState g new (s.segState g) cause)

/-! ### The ends of what a segment had in progress -/

/-- R162, R166, R167: a hold's OPERATION_DONE is queued and its tag becomes absent. -/
def State.endHold (s : State) (g : Seg) (result : OpResult) : State :=
  match (s.seg g).sup.holdTag with
  | none => s
  | some tag =>
    (s.updSup g fun v => { v with holdTag := none }).notifyDone (s.seg g).sup.holdReply (.operationDone tag g .hold result .none)

/-- R162, R169: a raw exchange's OPERATION_DONE is queued and its record becomes none. -/
def State.endRaw (s : State) (g : Seg) (result : OpResult) (figures : Figures) : State :=
  match (s.seg g).sup.raw with
  | none => s
  | some x =>
    (s.updSup g fun v => { v with raw := none }).notifyDone x.reply (.operationDone x.tag g .rawExchange result figures)

/-! ### Leaving service (R162) -/

/-- R162 steps 1 and 2: the supply goes OFF, and what is on the line is abandoned. -/
def State.dropLine (s : State) (g : Seg) (cause : Option FaultCause) : State :=
  (s.updSup g fun v => { v with supply := false, cause := cause, breakPending := false }).updLine g fun l =>
    { l with inFlight := none, breaking := false, probeFirst := false, breakMs := 0, activeMs := 0 }

/-- R162 step 5. -/
def State.dropQueues (s : State) (g : Seg) : State :=
  s.updLine g fun l => { l with displays := [], services := [], syncDue := false }

/-- R162 step 6. -/
def State.dropPresence (s : State) (g : Seg) : State :=
  s.updSeg g fun x => { x with entries := x.entries.map Entry.leaveService }

/-- R162: a segment in service enters OFF or FAULT. -/
def State.leaveService (s : State) (g : Seg) (new : SegState) (fault : Option FaultCause) (cause : StateCause) :
    State :=
  let s1 := (s.dropLine g fault).setSegState g new cause
  let s2 := ((s1.endDiscovery g .aborted).endHold g .aborted).endRaw g .aborted .none
  let s3 := (s2.dropQueues g).dropPresence g
  ((slotsOf g).foldl State.loseServiceWithSegment s3).restGovernor g

/-- R163, R165: a segment in service enters FAULT; in OFF and FAULT nothing changes. -/
def State.enterFault (s : State) (g : Seg) (fault : FaultCause) : State :=
  if (s.segState g).inService then
    s.leaveService g .fault (some fault) (match fault with
      | .supplyTrip => .supplyTrip
      | .lineShort => .lineShort)
  else s

/-- R160: from FAULT nothing is in service; R131: the SYNC due mark, which a cycle start in FAULT may have set, is cleared. -/
def State.faultToOff (s : State) (g : Seg) : State :=
  ((s.updSup g fun v => { v with cause := none }).updLine g fun l => { l with syncDue := false }).setSegState g .off .powerOff

/-- R160: SEGMENT_POWER off. -/
def State.enterOff (s : State) (g : Seg) : State :=
  match s.segState g with
  | .off => s
  | .fault => s.faultToOff g
  | .starting | .running | .holding | .held => s.leaveService g .off none .powerOff

/-! ### Start-up (R160, R161, R163) -/

/-- R161: the SETTLE stage begins, the tracker record starts up (R155), and the modules power up. -/
def State.beginSettle (s : State) (g : Seg) : State :=
  let stop := s.time + BitVec.ofNat 32 Config.settleMs
  ((s.updSup g fun v => { v with cause := none, supply := true, stage := .settle, stageEnd := stop }).updSeg g
    fun x => { x with tracker := Tracker.fresh x.config.delay0 }).resetModules g

/-- R160, R163: SEGMENT_POWER on, in OFF or FAULT. -/
def State.enterStarting (s : State) (g : Seg) : State :=
  let s1 := (s.beginSettle g).setSegState g .starting .powerOn
  if (s1.seg g).trip then s1.enterFault g .supplyTrip else s1

/-- R161: the QUIET stage begins at the end of the start-up break. -/
def State.beginQuiet (s : State) (g : Seg) : State :=
  let stop := s.time + BitVec.ofNat 32 Config.quietMs
  s.updSup g fun v => { v with stage := .quiet, stageEnd := stop }

/-- R161: RUNNING from STARTING, with SYNC due and the rotation at position 0 (R138). -/
def State.enterRunning (s : State) (g : Seg) : State :=
  (s.updLine g fun l =>
    { l with syncDue := true, position := 0, passEnded := false, passPolled := false, passHeld := false }).setSegState
    g .running .started

/-! ### Holding (R166, R167) -/

/-- R166: the entry into HELD. -/
def State.enterHeld (s : State) (g : Seg) : State := (s.setSegState g .held .held).endHold g .complete

/-- R167: RUNNING from HOLDING or HELD; a hold still owed is CANCELLED. -/
def State.releaseHold (s : State) (g : Seg) : State :=
  ((s.updLine g fun l => { l with syncDue := true }).setSegState g .running .release).endHold g .cancelled

/-! ### Line sense (R164, R165) -/

/-- R164: the ms until the next probe is due. -/
def State.probeWait (s : State) (g : Seg) : Nat := Config.probeMs - (s.time - (s.seg g).sup.lastProbe).toNat

/-- R165: the condition a classification corresponds to. -/
def conditionOf : Observation → LineCondition
  | .high => .normal
  | .low => .shorted
  | .float => .opened

/-- R165: the sense run an observation that differs from the condition gives. -/
def Supervisor.runAfter (v : Supervisor) (o : Observation) : Nat := if v.candidate = some o then v.senseRun + 1 else 1

/-- R165: the condition changes, is reported, and may take the segment to FAULT. -/
def State.changeCondition (s : State) (g : Seg) (c : LineCondition) : State :=
  let s1 := (s.updSup g fun v => { v with condition := c, candidate := none, senseRun := 0 }).notify (.lineCondition g c)
  if c = .shorted then s1.enterFault g .lineShort else s1

/-- R165: an observation is taken. -/
def State.observe (s : State) (g : Seg) (o : Observation) : State :=
  let v := (s.seg g).sup
  if conditionOf o = v.condition then s.updSup g fun x => { x with candidate := none, senseRun := 0 }
  else if 3 ≤ v.runAfter o then s.changeCondition g (conditionOf o)
  else s.updSup g fun x => { x with candidate := some o, senseRun := x.runAfter o }

end Sys2Proof.Machine
end

