-- ==== Sys2Proof/Machine/Scheduler.lean ====
section
/-! DEFINITION. The segment line controller's choice of the next exchange (R137 to R139, R143), and what a free line
does next (R166, R170). -/

namespace Sys2Proof.Machine

/-! ### Command frames (chapter 7, "Command frames") -/

/-- R139: a display command's payload, built from the shadow as it stands. -/
def Shadow.payload (sh : Shadow) : DisplayKind → List Byte
  | .showCmd =>
    [sh.seq.setWidth 8, byteOf sh.colour.val, sh.pattern.code, byteOf sh.rotation.val, byteOf sh.level] ++ sh.digits.bytes
  | .digitsCmd => sh.seq.setWidth 8 :: sh.digits.bytes
  | .darkCmd => [sh.seq.setWidth 8]

def DisplayKind.lineKind : DisplayKind → LineKind
  | .showCmd => .showCmd
  | .digitsCmd => .digits
  | .darkCmd => .dark

/-- An exchange to the module of an entry. -/
def addressed (ix : Fin 62) (kind : LineKind) (payload : List Byte) : Exchange :=
  { kind := kind, address := byteOf (ix.val + 1), payload := payload, target := some ix, orphaned := false, stage := .gap }

/-- An exchange whose outcome no entry takes (SYNC, ENUMERATE). -/
def unaddressed (kind : LineKind) (address : Byte) (payload : List Byte) : Exchange :=
  { kind := kind, address := address, payload := payload, target := none, orphaned := false, stage := .gap }

def syncExchange : Exchange := unaddressed .sync 63 []

/-- R122: ENUMERATE with a contention slot count of 8. -/
def roundExchange : Exchange := unaddressed .enumerate 0 [8]

def pollExchange (ix : Fin 62) : Exchange := addressed ix .poll []

def identExchange (ix : Fin 62) : Exchange := addressed ix .ident []

/-- R143: an ASSIGN is sent to address 0; its target is the new address. -/
def assignExchange (serial : Serial) (ix : Fin 62) : Exchange :=
  { addressed ix .assign (leBytes 4 serial.toNat ++ [byteOf (ix.val + 1)]) with address := 0 }

def ServiceCmd.exchange : ServiceCmd → Exchange
  | .ident ix => identExchange ix
  | .assign serial ix => assignExchange serial ix

/-! ### Taking an exchange -/

/-- The exchange chosen is in flight. -/
def State.begin (s : State) (g : Seg) (e : Exchange) : State :=
  s.updLine g fun l => { l with inFlight := some e, latestPoll := e.kind = .poll }

/-- R143: the head of the service queue has an entry to speak to. -/
def State.serviceable (s : State) (g : Seg) : ServiceCmd → Bool
  | .ident ix => (s.entry ⟨g, ix⟩).kind ≠ .empty && !(s.entry ⟨g, ix⟩).presence.silent
  | .assign _ ix => (s.entry ⟨g, ix⟩).kind ≠ .empty

def State.popService (s : State) (g : Seg) : State := s.updLine g fun l => { l with services := l.services.tail }

/-- R139: the head of the display command queue is taken and built. -/
def State.beginDisplay (s : State) (g : Seg) : State :=
  match (s.seg g).line.displays with
  | [] => s
  | c :: cs =>
    (s.updLine g fun l => { l with displays := cs }).begin g
      (addressed c.ix c.kind.lineKind ((s.shadow ⟨g, c.ix⟩).payload c.kind))

/-! ### The poll rotation (R114, R138) -/

/-- R114: a visit to a non-EMPTY entry is a poll. -/
def Entry.polled (e : Entry) : Bool := !e.presence.silent || Config.maxSkip ≤ e.skip

/-- R114: the entry after the visit. -/
def Entry.visited (e : Entry) : Entry :=
  if e.presence.silent then { e with skip := if Config.maxSkip ≤ e.skip then 0 else e.skip + 1 } else e

/-- R138: the pass ends. A pass that sent no poll holds the next one back until the next SYNC. -/
def State.endPass (s : State) (g : Seg) : State :=
  s.updLine g fun l => { l with position := 0, passEnded := true, passHeld := !l.passPolled }

/-- R138: the first visit that is a poll becomes the exchange; the pass ends if there is none. -/
def State.searchPoll (s : State) (g : Seg) : List (Fin 62) → State
  | [] => s.endPass g
  | ix :: rest =>
    let r : SlotRef := ⟨g, ix⟩
    let e := s.entry r
    if e.kind = .empty then s.searchPoll g rest
    else if e.polled then
      ((s.updEntry r Entry.visited).updLine g fun l => { l with position := ix.val + 1, passPolled := true }).begin g
        (pollExchange ix)
    else (s.updEntry r Entry.visited).searchPoll g rest

/-- R138: the search upward from the position. -/
def State.takePoll (s : State) (g : Seg) : State :=
  s.searchPoll g (allIx.filter fun ix => (s.seg g).line.position < ix.val + 1)

/-- R138: a pass begins. -/
def State.beginPass (s : State) (g : Seg) : State :=
  s.updLine g fun l => { l with passEnded := false, passPolled := false, passHeld := false }

/-! ### The choice (R137) -/

def State.lineBusy (s : State) (g : Seg) : Bool := (s.seg g).line.inFlight.isSome

/-- R137 item 3, where something may be sent: a display command or a poll. It leaves the line idle when the pass
has ended and the display command queue is empty. -/
def State.chooseTraffic (s : State) (g : Seg) : State :=
  let l := (s.seg g).line
  if l.displays ≠ [] ∧ (l.passEnded ∨ l.latestPoll) then s.beginDisplay g
  else if l.passEnded then s
  else
    let s1 := s.takePoll g
    if s1.lineBusy g then s1 else s1.beginDisplay g

/-- R137 item 4: the end of a pass: a discovery round, or the next pass unless R138 holds it back. -/
def State.choosePass (s : State) (g : Seg) : State :=
  if (s.seg g).sup.discovery.isSome then (s.beginPass g).begin g roundExchange
  else if (s.seg g).line.passHeld then s
  else (s.beginPass g).chooseTraffic g

/-- R137 items 3 and 4. A pass that item 4 begins and that ends without a poll is held back, so item 4 is not met
again. -/
def State.chooseLine (s : State) (g : Seg) : State :=
  let s1 := s.chooseTraffic g
  if s1.lineBusy g then s1 else s1.choosePass g

/-- R143: the head of the service queue is sent; entries with nothing to speak to are dropped. -/
def State.chooseService (g : Seg) : Nat → State → State
  | 0, s => s.chooseLine g
  | n + 1, s =>
    match (s.seg g).line.services with
    | [] => s.chooseLine g
    | c :: _ =>
      if s.serviceable g c then (s.popService g).begin g c.exchange else chooseService g n (s.popService g)

/-- R137: the scheduler chooses. -/
def State.choose (s : State) (g : Seg) : State :=
  if (s.seg g).line.syncDue then s.begin g syncExchange
  else s.chooseService g (s.seg g).line.services.length

/-! ### A free line -/

/-- Nothing holds the segment's line: no exchange and no break. -/
def LineCtl.idle (l : LineCtl) : Bool := l.inFlight.isNone && !l.breaking

/-- R164, R170: a pending break takes the line at the end of an exchange. A probe that is due then is made before it. -/
def State.startBreak (s : State) (g : Seg) : State :=
  let due : Bool := s.probeWait g = 0
  s.updLine g fun l => { l with breaking := true, probeFirst := due, breakMs := 0 }

/-- R135, R137, R166, R170: what the controller does with a line that nothing holds: a pending break goes first; then a
RUNNING segment chooses and a HOLDING one enters HELD. In RUNNING it waits while the line is still active after a held
line. -/
def State.settleLine (s : State) (g : Seg) : State :=
  if (s.seg g).line.idle then
    match s.segState g with
    | .running =>
      if 0 < (s.seg g).line.activeMs then s
      else if (s.seg g).sup.breakPending then s.startBreak g
      else s.choose g
    | .holding =>
      if (s.seg g).sup.breakPending then s.startBreak g else s.enterHeld g
    | .off | .starting | .held | .fault => s
  else s

/-- R137: every segment's line, at the end of a command. -/
def State.settleLines (s : State) : State := allSegs.foldl State.settleLine s

end Sys2Proof.Machine
end

