-- ==== Sys2Proof/WellFormed.lean ====
section
/-! DEFINITION. Which commands a row of the table can be: a request fits a host frame, an UNKNOWN_KIND_REQUEST
names no request, and a module stands at a module address. -/

namespace Sys2Proof

/-- The request kind codes of chapter 10, "Request kind codes". -/
def requestKindCodes : List Byte :=
  [0x01, 0x02, 0x03, 0x04, 0x05, 0x10, 0x11, 0x12, 0x13, 0x20, 0x21, 0x22, 0x23, 0x24, 0x28, 0x29,
   0x30, 0x31, 0x32, 0x33, 0x34, 0x35, 0x36, 0x40, 0x41, 0x42, 0x43, 0x50]

/-- R172: the payload fits a frame. -/
def payloadFits (payload : List Byte) : Bool := payload.length ≤ Config.maxPayload

/-- A command that its row of the table can be. -/
def Instr.wf : Instr → Bool
  | .reset => true
  | .frameReceived _ => true
  | .frameTimedOut => true
  | .frameSent => true
  | .unknownKindRequest kind _ payload => payloadFits payload && !requestKindCodes.contains kind
  | .identify _ payload => payloadFits payload
  | .readTime _ payload => payloadFits payload
  | .setLinkRate _ payload => payloadFits payload
  | .restart _ payload => payloadFits payload
  | .clearTasks _ payload => payloadFits payload
  | .setPicker _ payload => payloadFits payload
  | .pausePicker _ payload => payloadFits payload
  | .resumePicker _ payload => payloadFits payload
  | .dropPicker _ payload => payloadFits payload
  | .submit _ payload => payloadFits payload
  | .cancel _ payload => payloadFits payload
  | .retire _ payload => payloadFits payload
  | .queryTask _ payload => payloadFits payload
  | .listTasks _ payload => payloadFits payload
  | .armCapture _ payload => payloadFits payload
  | .disarmCapture _ payload => payloadFits payload
  | .setSegment _ payload => payloadFits payload
  | .setColourCurrents _ payload => payloadFits payload
  | .segmentPower _ payload => payloadFits payload
  | .breakSegment _ payload => payloadFits payload
  | .holdSegment _ payload => payloadFits payload
  | .releaseSegment _ payload => payloadFits payload
  | .rawExchange _ payload => payloadFits payload
  | .provisionSlot _ payload => payloadFits payload
  | .unprovisionSlot _ payload => payloadFits payload
  | .querySlot _ payload => payloadFits payload
  | .discover _ payload => payloadFits payload
  | .readStats _ payload => payloadFits payload
  | .poll _ _ => true
  | .showDisplay _ _ => true
  | .digits _ _ => true
  | .dark _ _ => true
  | .ident _ _ => true
  | .assign _ _ => true
  | .sync _ _ => true
  | .enumerate _ _ => true
  | .rawExchangeEnd _ _ => true
  | .breakEnd _ => true
  | .settleEnd _ => true
  | .quietEnd _ => true
  | .lineSenseProbe _ _ => true
  | .supplyTrip _ => true
  | .taskExpiry _ => true
  | .blinkPhaseAdvance => true
  | .tripInputReturnToClear _ => true
  | .buttonPress _ _ => true
  | .buttonRelease _ _ => true
  | .moduleReset _ _ address _ => address.toNat ≤ 62

end Sys2Proof
end

