-- ==== Sys2Proof/Machine/Link.lean ====
section
/-! DEFINITION. The host link: frames and the receive framer (R172, R173), the request list (R174), taking a request
(R175), the transmitter (R178), reset (R181). -/

namespace Sys2Proof.Machine

/-! ### Status codes (chapter 10) -/

inductive Status where
  | ok | started | unknownKind | badLength | badValue | noSuchTask | duplicateId | tableFull | slotFull | quota
  | quotaBelowOpen | noSuchPicker | styleInUse | noSuchSlot | slotInUse | wrongState | inProgress | linkBusy
  deriving DecidableEq, Repr

def Status.code : Status → Byte
  | .ok => 0x00 | .started => 0x01 | .unknownKind => 0x10 | .badLength => 0x11 | .badValue => 0x12
  | .noSuchTask => 0x13 | .duplicateId => 0x14 | .tableFull => 0x15 | .slotFull => 0x16 | .quota => 0x17
  | .quotaBelowOpen => 0x18 | .noSuchPicker => 0x19 | .styleInUse => 0x1A | .noSuchSlot => 0x1B
  | .slotInUse => 0x1C | .wrongState => 0x1D | .inProgress => 0x1E | .linkBusy => 0x1F

/-! ### Frames (R172) -/

/-- R172: a frame of either direction. -/
def linkFrame (kind : Byte) (tag : Tag) (payload : List Byte) : List Byte :=
  let body := byteOf (payload.length + 3) :: kind :: (leBytes 2 tag.toNat ++ payload)
  Config.startByte :: (body ++ crcBytes body)

/-- R175: the kind of the reply to a request kind. -/
def replyKind (kind : Byte) : Byte := if kind.toNat < 0x80 then kind + 0x80 else 0xFF

/-! ### The transmitter (R178) -/

def Link.holdsReply (l : Link) (id : Nat) : Bool :=
  l.replies.any (fun r => r.id = id) || (match l.sending with
    | some (.reply r) => r.id = id
    | _ => false)

/-- R176, R178: a notice is held until the reply that it follows has been sent. -/
def Link.held (l : Link) (n : Notice) : Bool :=
  match n.heldBy with
  | some id => l.holdsReply id
  | none => false

def Link.noticeWaits (l : Link) : Bool :=
  match l.notices with
  | [] => false
  | n :: _ => !l.held n

/-- R178: sending a reply begins. -/
def Link.sendReply (l : Link) : Link :=
  match l.replies with
  | [] => l
  | r :: rs => { l with replies := rs, sending := some (.reply r) }

/-- R178: a free transmitter looks at both sources. -/
def Link.kick (l : Link) : Link :=
  if l.sending.isSome then l
  else if l.replies ≠ [] ∧ (l.lastNotice ∨ !l.noticeWaits) then l.sendReply
  else if l.noticeWaits then { l with sending := some .notice }
  else l

def State.kick (s : State) : State := s.updLink Link.kick

/-! ### Replies (R174) -/

/-- A reply is placed in the reply list. -/
def Link.place (l : Link) (kind : Byte) (tag : Tag) (payload : List Byte) (after : AfterSent) : Link :=
  { l with replies := l.replies ++ [⟨l.nextId, replyKind kind, tag, payload, after⟩], nextId := l.nextId + 1 }

/-- R174: a frame that finds the request list full. -/
def Link.refuseBusy (l : Link) (f : Request) : Link :=
  let l1 := { l with counters := { l.counters with linkBusy := l.counters.linkBusy + 1 } }
  if l.replies.length < Config.replyListSize then (l1.place f.kind f.tag [Status.linkBusy.code] .nothing).kick else l1

/-- R173, R174: a well-formed frame is counted, and joins the request list or is answered LINK_BUSY. -/
def Link.acceptFrame (l : Link) (f : Request) : Link :=
  let l1 := { l with counters := { l.counters with framesReceived := l.counters.framesReceived + 1 } }
  if l.requests.length < Config.requestListSize then { l1 with requests := l.requests ++ [f] } else l1.refuseBusy f

/-! ### The receive framer (R173) -/

def Link.rejectFrame (l : Link) : Link := { l with counters := { l.counters with badCrc := l.counters.badCrc + 1 } }

/-- The record a frame body carries: kind, tag, payload. -/
def requestOfBody : List Byte → Option Request
  | kind :: t0 :: t1 :: payload => some ⟨kind, BitVec.ofNat 16 (leValue [t0, t1]), payload⟩
  | _ => none

/-- R173: a candidate whose CRC bytes have come in: the record, if it is well-formed. -/
def checkFrame (len : Byte) (rest : List Byte) : Option Request :=
  let body := rest.take len.toNat
  if (rest.drop len.toNat).take 2 = crcBytes (len :: body) then requestOfBody body else none

/-- R173: the framer examines the bytes it has collected. Each turn passes over at least one byte, so the first
argument bounds the turns. What it leaves is the partial frame. -/
def Link.scan : Nat → List Byte → Link → Link
  | 0, bytes, l => { l with rx := bytes }
  | n + 1, bytes, l =>
    match bytes with
    | [] => { l with rx := [] }
    | [b] => { l with rx := if b = Config.startByte then [b] else [] }
    | b :: len :: rest =>
      if b ≠ Config.startByte then scan n (len :: rest) l
      else if len.toNat < 3 ∨ 252 < len.toNat then scan n (len :: rest) l.rejectFrame
      else if rest.length < len.toNat + 2 then { l with rx := bytes }
      else
        match checkFrame len rest with
        | some f => scan n (rest.drop (len.toNat + 2)) (l.acceptFrame f)
        | none => scan n (len :: rest) l.rejectFrame

/-- R173: the partial frame is discarded and counted. -/
def Link.timeOut (l : Link) : Link :=
  { l with rx := [], gapMs := 0, counters := { l.counters with timedOut := l.counters.timedOut + 1 } }

/-- R173: bytes arrive; a gap that has grown too long before them ends the partial frame. -/
def Link.receiveBytes (l : Link) (bytes : List Byte) : Link :=
  if bytes = [] then l
  else
    let l1 := if l.rx ≠ [] ∧ Config.frameGapMs ≤ l.gapMs then l.timeOut else l
    { l1.scan (l1.rx.length + bytes.length + 1) (l1.rx ++ bytes) with gapMs := 0 }

/-! ### The end of a command -/

/-- After every command: the lines that are free choose (R137), and the transmitter looks at its sources (R178). -/
def State.finish (s : State) : State := s.settleLines.kick

def done (s : State) : Host.Outcome State Fault Refusal := .next s

/-! ### Taking a request (R175) -/

/-- What a request's rule does: the state, the status, the reply's further payload, and what its sending sets off. -/
structure Answer where
  state : State
  status : Status
  data : List Byte
  after : AfterSent
  deriving DecidableEq, Repr

def answer (s : State) (status : Status) (data : List Byte) : Answer := ⟨s, status, data, .nothing⟩

/-- R175: the decoder may take this request now: it is the head of the request list, the reply list has room (R174),
and no RESTART has been taken (R181). -/
def Link.takes (l : Link) (f : Request) : Bool :=
  l.requests.head? = some f && !l.stopped && l.replies.length < Config.replyListSize

/-- A request command whose frame has not been given in bytes: with the request list empty and the framer HUNTING,
its frame arrives now (notes/assumptions/4.md). -/
def Link.offer (l : Link) (f : Request) : Link := if l.requests = [] ∧ l.rx = [] then l.acceptFrame f else l

/-- R175, R178: the request leaves the list, and notices queued from here on are held by its reply. -/
def Link.beginTaking (l : Link) : Link := { l with requests := l.requests.tail, taking := some l.nextId }

/-- R174, R178, R181: the reply is placed; after a RESTART the decoder takes no further request. -/
def Link.endTaking (l : Link) (f : Request) (a : Answer) : Link :=
  let l1 := { l.place f.kind f.tag (a.status.code :: a.data) a.after with taking := none }
  if a.after = .restart then { l1 with stopped := true } else l1

/-- R175: the rule of the request runs, the free lines go on, and the reply is placed. -/
def State.takeRequest (s : State) (f : Request) (rule : State → Answer) : State :=
  let a := rule (s.updLink Link.beginTaking)
  (a.state.settleLines.updLink fun l => l.endTaking f a).kick

/-- R175: a request that reaches the decoder is taken; otherwise it waits. -/
def State.decode (s : State) (f : Request) (rule : State → Answer) : State :=
  let s1 := s.updLink fun l => l.offer f
  if s1.link.takes f then s1.takeRequest f rule else s1.kick

/-- R175 step 2: a payload of another length is refused with BAD_LENGTH, and the status is the whole payload. -/
def lengthChecked (n : Nat) (f : Request) (rule : State → Answer) (s : State) : Answer :=
  if f.payload.length = n then rule s else answer s .badLength []

/-- The meaning of a request command: the request reaches the decoder with its kind code, and its rule runs. -/
def request (kind : Byte) (tag : Tag) (payload : List Byte) (rule : State → Answer) (s : State) :
    Host.Outcome State Fault Refusal :=
  if payloadFits payload then done (s.decode ⟨kind, tag, payload⟩ rule) else .fault .illFormed

/-- The same for a request whose kind calls for a payload of `n` bytes. -/
def fixedRequest (kind : Byte) (n : Nat) (tag : Tag) (payload : List Byte) (rule : State → Answer) (s : State) :
    Host.Outcome State Fault Refusal :=
  request kind tag payload (lengthChecked n ⟨kind, tag, payload⟩ rule) s

/-! ### Reset (R181) -/

/-- R181: every block takes its reset values. The trip inputs and the modules are outside the part, and so are the
commands still waiting. -/
def State.resetAll (s : State) : State :=
  { State.reset with
    segs := s.segs.map fun x => { Segment.reset with trip := x.trip }
    modules := s.modules, ties := s.ties, pending := s.pending }

end Sys2Proof.Machine
end

