-- ==== Sys2Proof/Machine/Due.lean ====
section
/-! DEFINITION. The events that the block's own clock brings: when each is due, what each does, and the passing of a time
in which they are taken as they fall due (R26, R28, R131, R161, R173, R183; notes/assumptions/2.md and 7.md). -/

namespace Sys2Proof.Machine

/-! ### The events of the clock -/

/-- An event that the clock alone brings. -/
inductive ClockEvent where
  | phase
  | frameTimeout
  | settleEnd (g : Seg)
  | quietEnd (g : Seg)
  | expiry (id : TaskId)
  deriving DecidableEq, Repr

/-- The command that stands for the event. -/
def ClockEvent.command : ClockEvent → Instr
  | .phase => .blinkPhaseAdvance
  | .frameTimeout => .frameTimedOut
  | .settleEnd g => .settleEnd g
  | .quietEnd g => .quietEnd g
  | .expiry id => .taskExpiry id

/-- The segment is in this stage of its start-up. -/
def State.inStage (s : State) (g : Seg) (stage : StartStage) : Bool :=
  s.segState g = .starting && (s.seg g).sup.stage = stage

/-- R161: the end of the settle stage. -/
def State.endSettle (s : State) (g : Seg) : State :=
  if (s.seg g).sup.condition = .shorted then s.enterFault g .lineShort
  else s.updSup g fun v => { v with stage := .breaking }

/-- R26: the task whose timer runs. -/
def State.timed (s : State) (id : TaskId) : Option Task :=
  match s.task? id with
  | some t => if t.timerRuns (s.segState t.slot.seg) then some t else none
  | none => none

/-- R28: the timer of the task has run out. -/
def State.expire (s : State) (id : TaskId) : State :=
  match s.timed id with
  | some t => s.endTask t .expired 0
  | none => s

/-- R131: SYNC is due on every segment. -/
def State.syncDue (s : State) : State := { s with segs := s.segs.map fun x => { x with line := { x.line with syncDue := true } } }

/-- R183: the clock enters the next phase. -/
def State.advancePhase (s : State) : State :=
  let s1 := { s with phase := s.phase + 1, phaseMs := s.phaseMs - Config.phaseMs }
  if s1.phase = 0 then s1.syncDue else s1

/-- What an event of the clock does that has come. -/
def State.takeDue (s : State) : ClockEvent → State
  | .phase => s.advancePhase.finish
  | .frameTimeout => if s.link.rx = [] then s else (s.updLink Link.timeOut).finish
  | .settleEnd g => if s.inStage g .settle then (s.endSettle g).finish else s
  | .quietEnd g => if s.inStage g .quiet then (s.enterRunning g).finish else s
  | .expiry id => if (s.timed id).isSome then (s.expire id).finish else s

/-! ### What is due -/

/-- R161: the end of a start-up stage that has come. -/
def State.stageDue (s : State) (g : Seg) : List ClockEvent :=
  if s.msUntil (s.seg g).sup.stageEnd ≠ 0 then []
  else if s.inStage g .settle then [.settleEnd g]
  else if s.inStage g .quiet then [.quietEnd g]
  else []

/-- R26: the timers that have run out. -/
def State.expiriesDue (s : State) : List ClockEvent :=
  (s.tasks.filter fun t => t.timerRuns (s.segState t.slot.seg) && t.timeLeft = 0).map fun t => .expiry t.id

/-- The events that are due now. -/
def State.eventsDue (s : State) : List ClockEvent :=
  (if Config.phaseMs ≤ s.phaseMs then [.phase] else []) ++
  (if s.link.rx ≠ [] ∧ Config.frameGapMs ≤ s.link.gapMs then [.frameTimeout] else []) ++
  allSegs.flatMap s.stageDue ++ s.expiriesDue

/-! ### The order of events that fall due together -/

/-- An event with its rank among those due in the same millisecond. -/
structure Ranked where
  rank : Nat
  event : ClockEvent
  deriving DecidableEq, Repr

def insertRanked (x : Ranked) : List Ranked → List Ranked
  | [] => [x]
  | y :: ys => if x.rank ≤ y.rank then x :: y :: ys else y :: insertRanked x ys

/-- The `i`-th and following events due, each with the rank the free order gives it. -/
def rankFrom (n i : Nat) : List ClockEvent → List Ranked
  | [] => []
  | e :: es => ⟨Config.dueRank n i, e⟩ :: rankFrom n (i + 1) es

/-- The events of one millisecond in the free order of Config.dueRank (notes/assumptions/2.md). -/
def freeOrder (n : Nat) (es : List ClockEvent) : List ClockEvent := ((rankFrom n 0 es).foldr insertRanked []).map Ranked.event

/-! ### Waiting for an event -/

/-- The events due are taken; several at once in the free order. -/
def State.takeAll (s : State) : List ClockEvent → State
  | [] => s
  | [e] => s.takeDue e
  | es => (freeOrder s.ties es).foldl State.takeDue { s with ties := s.ties + 1 }

/-- R135: in RUNNING, the lines that come free in the next millisecond, active until then after a held line. -/
def State.comeFree (s : State) : List Seg :=
  allSegs.filter fun g => s.segState g = .running && (s.seg g).line.activeMs = 1

/-- A millisecond passes, and the controller goes on where a line comes free in it. -/
def State.passOne (s : State) : State := s.comeFree.foldl State.settleLine (s.passTime 1)

/-- A millisecond passes, and the events other than `c` that are due then are taken. -/
def State.waitOne (c : Option ClockEvent) (s : State) : State :=
  let s1 := s.passOne
  s1.takeAll (s1.eventsDue.filter fun e => some e ≠ c)

/-- R183: `n` ms pass before the event `c`; each other event of the clock is taken in the millisecond in which it falls
due, so that none is late (notes/assumptions/7.md). -/
def State.wait (c : Option ClockEvent) : Nat → State → State
  | 0, s => s
  | n + 1, s => wait c n (s.waitOne c)

end Sys2Proof.Machine
end

