-- ==== Sys2Proof/Machine/Clock.lean ====
section
/-! DEFINITION. What the block does when no command waits: a millisecond passes, and the events that have fallen due
become the commands that wait (R26, R131, R161, R173, R183; notes/assumptions/6.md). -/

namespace Sys2Proof.Machine

/-- The due events become the commands that wait; several at once are taken in the free order. -/
def State.queueDue (s : State) : State :=
  match s.eventsDue with
  | [] => s
  | [e] => { s with pending := s.pending ++ [e.command] }
  | es => { s with pending := s.pending ++ (freeOrder s.ties es).map ClockEvent.command, ties := s.ties + 1 }

/-- A millisecond passes. -/
def State.tick (s : State) : State := s.passOne.queueDue

end Sys2Proof.Machine
end

