-- ==== Sys2Proof/Machine/Records.lean ====
section
/-! DEFINITION. The byte layouts of replies and notices (chapter 10, "Frame and record layouts"). -/

namespace Sys2Proof.Machine

/-- A refused reply's fields that its rule does not name (R175). -/
def zeros (n : Nat) : List Byte := List.replicate n 0

def codeOr {α : Type} (f : α → Nat) (x : Option α) : Nat := (x.map f).getD 0

/-- A stamp, four bytes. -/
def stampBytes (t : Stamp) : List Byte := leBytes 4 t.toNat

def SlotRef.byte (r : SlotRef) : Byte := byteOf r.number

/-! ### Picker record, 8 bytes -/

def pickerRecord (p : Fin 12) (x : Picker) : List Byte :=
  [byteOf p.val, x.state.code, byteOf x.colour.val, x.pattern.code, byteOf x.level, byteOf x.priority, byteOf x.quota,
   byteOf x.openCount]

/-! ### Task entry of QUERY_TASK, 36 bytes (R14, R35) -/

/-- A field valid in some states only is 0 in the others (R14). -/
def validIn (valid : Bool) (n : Nat) : Nat := if valid then n else 0

/-- R35: bit 0 for a running timer, bit 1 for a suspended one. -/
def timerFlags (t : Task) (st : SegState) : Byte :=
  if t.state = .shown ∧ t.limit.isSome then (if st = .running then 1 else 2) else 0

def promptBytes : Option Digits → List Byte
  | none => zeros 4
  | some d => 1 :: d.bytes

def taskEntry (t : Task) (st : SegState) : List Byte :=
  [byteOf t.index.val] ++ leBytes 2 t.id.toNat ++ [byteOf t.picker.val, t.slot.byte] ++ leBytes 2 t.requested ++
  leBytes 2 t.displayed ++ [t.state.code, t.step.code] ++ stampBytes t.stamp ++ leBytes 2 (t.limit.getD 0) ++
  promptBytes t.prompt ++ leBytes 4 (validIn (t.state = .shown) t.shownSince.toNat) ++
  leBytes 4 (validIn (t.state = .shown && t.limit.isSome) t.timeLeft) ++
  leBytes 2 (validIn (t.state = .done || t.state = .short) t.confirmed) ++
  leBytes 4 (validIn t.state.terminal t.endStamp.toNat) ++ [timerFlags t st]

/-! ### Task summary of LIST_TASKS, 11 bytes -/

def taskSummary (t : Task) : List Byte :=
  [byteOf t.index.val] ++ leBytes 2 t.id.toNat ++ [byteOf t.picker.val, t.slot.byte, t.state.code, t.step.code] ++
  leBytes 2 t.displayed ++ leBytes 2 t.requested

/-! ### Slot report of QUERY_SLOT and PROVISION_SLOT, 66 bytes (R60, R109) -/

def serialField : Option Serial → List Byte
  | none => zeros 5
  | some x => 1 :: leBytes 4 x.toNat

/-- R109: bit 0 CONFIRM stuck, bit 1 ADJUST stuck, bits 2 and 3 the held-since times present. -/
def pressFlags (p : Press) : Byte :=
  byteOf (p.confirmStuck.toNat + 2 * p.adjustStuck.toNat + 4 * p.confirmHeld.isSome.toNat + 8 * p.adjustHeld.isSome.toNat)

def entryReport (e : Entry) : List Byte :=
  [e.kind.code] ++ serialField e.expected ++ serialField e.seen ++
  [e.binding.code, e.presence.code, byteOf e.goodRun, byteOf e.missRun, boolByte e.wasPresent, byteOf e.skip,
   e.press.confirmBase.setWidth 8, e.press.adjustBase.setWidth 8, pressFlags e.press]

/-- The eight waiting entries, in ascending table index, unused ones 0. -/
def waitingReport (ts : List Task) : List Byte :=
  let entries := (ts.take 8).map fun t => leBytes 2 t.id.toNat ++ [t.state.code]
  byteOf ts.length :: (entries.flatten ++ zeros (3 * (8 - ts.length)))

/-- R60: the tenure stamp with its presence byte. The four bytes of an absent stamp are 0, which the manual leaves open
(notes/assumptions/41.md). -/
def tenureField : Option Stamp → List Byte
  | none => zeros 5
  | some x => 1 :: stampBytes x

/-- R60: the shadow. A DARK owner is task id 0; the owner step byte beside it is 0, which the manual leaves open
(notes/assumptions/41.md). -/
def shadowReport (sh : Shadow) : List Byte :=
  [sh.seq.setWidth 8] ++ leBytes 2 (codeOr (fun o : Owner => o.task.toNat) sh.owner) ++
  [byteOf (codeOr (fun o : Owner => o.step.code.toNat) sh.owner), byteOf sh.colour.val, sh.pattern.code,
   byteOf sh.rotation.val, byteOf sh.level] ++ sh.digits.bytes

/-- R60: the serviceable mark and the cause, 0xFF while the slot is serviceable. -/
def State.serviceReport (s : State) (r : SlotRef) : List Byte :=
  if (s.slot r).serviceable then [1, 0xFF] else [0, (s.causeOf r).code]

def State.slotReport (s : State) (r : SlotRef) : List Byte :=
  [r.byte] ++ entryReport (s.entry r) ++ waitingReport (s.waitingTasks r) ++
  leBytes 2 (codeOr BitVec.toNat (s.slot r).current) ++ tenureField (s.slot r).tenure ++ shadowReport (s.shadow r) ++
  s.serviceReport r

/-! ### Segment fields of SET_SEGMENT (R171) -/

/-- R182: the line rate in hundreds of bit/s. -/
def LineRate.hundreds (r : LineRate) : Nat := r.bitPerS / 100

def configFields (c : SegConfig) : List Byte :=
  leBytes 2 c.lineRate.hundreds ++ leBytes 2 c.budget ++ [byteOf c.baseCurrent, byteOf c.economyLevel] ++
  leBytes 2 c.guardMs ++ [byteOf c.stuckTime, byteOf c.lock, byteOf c.unlock] ++ leBytes 2 c.delay0 ++
  [byteOf c.window, byteOf c.interval.count, byteOf c.shift, byteOf c.slew, boolByte c.postFilter,
   boolByte c.toggleHold, boolByte c.jump] ++ leBytes 2 c.jumpOver

def segmentFields (x : Segment) : List Byte :=
  [x.sup.state.code, faultCauseCode x.sup.cause, x.sup.condition.code] ++ configFields x.config

/-! ### Statistics of READ_STATS (R184, R185) -/

def counterBytes (cs : List Counter) : List Byte := cs.flatMap stampBytes

def SegCounters.list (c : SegCounters) : List Counter :=
  [c.exchangesSent, c.accepted, c.offWindow, c.corrupt, c.misaddressed, c.windowMisses, c.superseded, c.resends,
   c.stale, c.chatter, c.atFloor, c.trackerSteps, c.trackerJumps, c.admissionsWaited, c.sheds]

def LinkCounters.list (c : LinkCounters) : List Counter :=
  [c.framesReceived, c.badCrc, c.timedOut, c.linkBusy, c.noticesDropped]

/-- R103: the governor's figures. -/
def governorFigures (x : Segment) : List Byte :=
  [boolByte x.gov.economy] ++ leBytes 2 x.config.units ++ leBytes 2 x.gov.baseLoad ++
  x.gov.loads.toList.flatMap (leBytes 4) ++ [byteOf x.gov.lit.length, byteOf x.gov.queue.length] ++
  leBytes 2 (codeOr (fun a : Admission => a.task.toNat) x.gov.queue.head?)

/-- R157: the tracker's figures. -/
def trackerFigures (t : Tracker) : List Byte := leBytes 2 t.delay ++ [byteOf t.n, boolByte t.hold]

/-- Segment scope, 106 bytes. -/
def segmentStats (x : Segment) : List Byte :=
  counterBytes x.counters.list ++ governorFigures x ++ trackerFigures x.tracker ++ [x.sup.state.code]

/-- Link scope, 25 bytes. -/
def linkStats (l : Link) : List Byte :=
  counterBytes l.counters.list ++ leBytes 4 l.rate ++ [byteOf l.notices.length]

/-! ### Notices (chapter 10, "Notice kinds") -/

def Figures.bytes : Figures → List Byte
  | .none => []
  | .discover rounds assigned noRoom garbled =>
    [byteOf rounds] ++ leBytes 2 assigned ++ leBytes 2 noRoom ++ leBytes 2 garbled
  | .raw cls delay source expected kind payload =>
    [cls.code] ++ leBytes 2 delay ++ [byteOf source, boolByte expected, kind, byteOf payload.length] ++ payload

def NoticeBody.kind : NoticeBody → Byte
  | .taskStep _ _ _ => 0xE0
  | .taskEnded _ _ _ _ _ _ => 0xE1
  | .taskBlocked _ _ _ _ => 0xE2
  | .pressCaptured _ _ _ => 0xE3
  | .pressUnsolicited _ => 0xE4
  | .buttonStuck _ _ _ => 0xE5
  | .modulePresence _ _ _ => 0xE6
  | .moduleIdentity _ _ _ => 0xE7
  | .segmentState _ _ _ _ => 0xE8
  | .lineCondition _ _ => 0xE9
  | .loadEconomy _ _ => 0xEA
  | .operationDone _ _ _ _ _ => 0xEB

def NoticeBody.content : NoticeBody → List Byte
  | .taskStep t r p => leBytes 2 t.toNat ++ [r.byte, byteOf p.val]
  | .taskEnded t r p k c d => leBytes 2 t.toNat ++ [r.byte, byteOf p.val, k.code] ++ leBytes 2 c ++ stampBytes d
  | .taskBlocked t r p c => leBytes 2 t.toNat ++ [r.byte, byteOf p.val, c.code]
  | .pressCaptured tag r i => leBytes 2 tag.toNat ++ [r.byte, byteOf i.val]
  | .pressUnsolicited r => [r.byte]
  | .buttonStuck r b stuck => [r.byte, buttonCode b, boolByte stuck]
  | .modulePresence r present returning => [r.byte, boolByte present, boolByte returning]
  | .moduleIdentity r res serial => [r.byte, res.code] ++ leBytes 4 serial.toNat
  | .segmentState g new old cause => [byteOf g.val, new.code, old.code, cause.code]
  | .lineCondition g c => [byteOf g.val, c.code]
  | .loadEconomy g entered => [byteOf g.val, boolByte entered]
  | .operationDone tag g op res f => leBytes 2 tag.toNat ++ [byteOf g.val, op.code, res.code] ++ f.bytes

/-- R172: the frame of a reply on the link. -/
def Reply.frame (r : Reply) : List Byte := linkFrame r.kind r.tag r.payload

/-- R172, R177: the frame of a notice on the link; its tag is 0. -/
def Notice.frame (n : Notice) : List Byte :=
  linkFrame n.body.kind 0 (stampBytes n.stamp ++ [boolByte n.droppedBefore] ++ n.body.content)

/-- The frame the transmitter is sending. -/
def Link.onWire (l : Link) : Option (List Byte) :=
  match l.sending with
  | none => none
  | some (.reply r) => some r.frame
  | some .notice => l.notices.head?.map Notice.frame

end Sys2Proof.Machine
end

