-- ==== Sys2Proof/Machine/CaptureRequests.lean ====
section
/-! DEFINITION. The requests of the press capture table (R78, R79). -/

namespace Sys2Proof.Machine

/-! ### ARM_CAPTURE (R78) -/

/-- R78: the lowest FREE entry. -/
def State.freeCapture (s : State) : Option (Fin 16) := (List.finRange 16).find? fun i => s.captures[i].isNone

def State.setCapture (s : State) (i : Fin 16) (c : Option Capture) : State := { s with captures := s.captures.set i c }

/-- R78: a slot number that names a non-EMPTY entry. -/
def State.occupiedSlot (s : State) (n : Nat) : Option SlotRef :=
  match slotOfNumber n with
  | some r => if (s.entry r).kind = .empty then none else some r
  | none => none

def armCaptureRule (payload : List Byte) (s : State) : Answer :=
  let tag : Tag := BitVec.ofNat 16 (fieldAt payload 0 2)
  if tag = 0 then answer s .badValue (zeros 1)
  else
    match s.occupiedSlot (fieldAt payload 2 1) with
    | none => answer s .noSuchSlot (zeros 1)
    | some r =>
      match s.freeCapture with
      | none => answer s .tableFull (zeros 1)
      | some i => answer (s.setCapture i (some ⟨tag, r⟩)) .ok [byteOf i.val]

def execArmCapture (tag : Tag) (payload : List Byte) (s : State) : Host.Outcome State Fault Refusal :=
  fixedRequest 0x28 3 tag payload (armCaptureRule payload) s

/-! ### DISARM_CAPTURE (R79) -/

/-- A capture index, 0 to 15. -/
def captureIndex (n : Nat) : Option (Fin 16) := if h : n < 16 then some ⟨n, h⟩ else none

/-- R79: the entry armed with the tag becomes FREE. That the capture state in the OK reply is FREE, the state after the
request, is the model's choice (notes/assumptions/47.md). -/
def disarmCaptureRule (payload : List Byte) (s : State) : Answer :=
  let tag : Tag := BitVec.ofNat 16 (fieldAt payload 1 2)
  match captureIndex (fieldAt payload 0 1) with
  | none => answer s .badValue (zeros 2)
  | some i =>
    match s.captures[i] with
    | none => answer s .wrongState [0, 0]
    | some c => if c.tag = tag then answer (s.setCapture i none) .ok [c.slot.byte, 0] else answer s .wrongState [0, 1]

def execDisarmCapture (tag : Tag) (payload : List Byte) (s : State) : Host.Outcome State Fault Refusal :=
  fixedRequest 0x29 3 tag payload (disarmCaptureRule payload) s

end Sys2Proof.Machine
end

