-- ==== Sys2Proof/Machine/Press.lean ====
section
/-! DEFINITION. The press interpreter (chapter 4): what one accepted STATUS reply does. -/

namespace Sys2Proof.Machine

def State.guardMs (s : State) (r : SlotRef) : Nat := (s.seg r.seg).config.guardMs

/-- R64: the module at the address is not the one the slot expects. -/
def State.mismatched (s : State) (r : SlotRef) : Bool := (s.entry r).binding = .mismatch

def State.countStale (s : State) (r : SlotRef) (n : Nat) : State :=
  s.count r.seg fun c => { c with stale := c.stale + BitVec.ofNat 32 n }

def State.countChatter (s : State) (r : SlotRef) (n : Nat) : State :=
  s.count r.seg fun c => { c with chatter := c.chatter + BitVec.ofNat 32 n }

def State.countAtFloor (s : State) (r : SlotRef) (n : Nat) : State :=
  s.count r.seg fun c => { c with atFloor := c.atFloor + BitVec.ofNat 32 n }

/-! ### The FRESH step (R65, R66) -/

/-- R65: the baselines are taken again, an IDENT is handed, and the shadow's display change is handed. -/
def State.freshStep (s : State) (r : SlotRef) (reply : StatusReply) : State :=
  if reply.fresh then
    let s1 := s.updPress r fun p => { p with confirmBase := reply.confirmCount, adjustBase := reply.adjustCount }
    (s1.handIdent r).handDisplay r (s1.shadow r).wholeKind
  else s

/-! ### The ADJUST step (R67, R68) -/

/-- R68: the task whose quantity an ADJUST lowers: the shadow's owner in step QUANTITY, if the module shows the
shadow's seq. -/
def State.adjustable (s : State) (r : SlotRef) (shownSeq : Nibble) : Option Task :=
  match (s.shadow r).owner with
  | some ⟨id, .quantity⟩ => if shownSeq = (s.shadow r).seq then s.task? id else none
  | _ => none

/-- R68: `delta` applicable presses: those above 0 lower the quantity, the rest are counted at floor. -/
def State.lowerQuantity (s : State) (r : SlotRef) (t : Task) (delta : Nat) : State :=
  let s1 := s.countAtFloor r (delta - t.displayed)
  if t.displayed = 0 then s1
  else (s1.updTask t.id fun x => { x with displayed := x.displayed - delta }).redigitShadow r (t.displayed - delta)

/-- R67, R68: the verdict on a nonzero ADJUST delta of a button that is not STUCK. -/
def State.judgeAdjust (s : State) (r : SlotRef) (shownSeq : Nibble) (delta : Nat) : State :=
  match s.adjustable r shownSeq with
  | some t => s.lowerQuantity r t delta
  | none => s.countStale r delta

/-- R67: the ADJUST step; a MISMATCH discards the presses (R64). -/
def State.adjustStep (s : State) (r : SlotRef) (reply : StatusReply) : State :=
  let p := (s.entry r).press
  let delta := (reply.adjustCount - p.adjustBase).toNat
  let s1 := s.updPress r fun x => { x with adjustBase := reply.adjustCount }
  if delta = 0 ∨ p.adjustStuck ∨ s.mismatched r then s1 else s1.judgeAdjust r reply.shownSeq delta

/-! ### The CONFIRM step (R69 to R74, R80) -/

/-- R80: the lowest ARMED capture for the slot. -/
def State.captureFor (s : State) (r : SlotRef) : Option (Fin 16) :=
  (List.finRange 16).find? fun i => match s.captures[i] with
    | some c => c.slot = r
    | none => false

/-- R80: a CONFIRM accepted at a dark slot. -/
def State.claimCapture (s : State) (r : SlotRef) : State :=
  match s.captureFor r with
  | none => s.notify (.pressUnsolicited r)
  | some i =>
    match s.captures[i] with
    | none => s
    | some c => { s with captures := s.captures.set i none }.notify (.pressCaptured c.tag r i)

/-- R23, R73: the step advances to QUANTITY. -/
def State.advanceStep (s : State) (r : SlotRef) (t : Task) : State :=
  ((s.updTask t.id fun x => { x with step := .quantity }).notify (.taskStep t.id r t.picker)).stepShadow r t

/-- R74: DONE if nothing was lowered, SHORT otherwise. -/
def Task.outcome (t : Task) : EndKind := if t.displayed = t.requested then .done else .short

/-- R72: an accepted CONFIRM is attributed by the shadow's owner. -/
def State.acceptConfirm (s : State) (r : SlotRef) : State :=
  let now := s.time
  let s1 := s.updPress r fun p => { p with lastConfirm := some now }
  match (s1.shadow r).owner with
  | none => s1.claimCapture r
  | some o =>
    match s1.task? o.task with
    | none => s1
    | some t =>
      match o.step with
      | .prompt => s1.advanceStep r t
      | .quantity => s1.endTask t t.outcome t.displayed

/-- R70: the press falls within the guard of the last accepted CONFIRM. -/
def State.withinGuard (s : State) (r : SlotRef) : Bool :=
  match (s.entry r).press.lastConfirm with
  | some last => (s.time - last).toNat < s.guardMs r
  | none => false

/-- R70 to R72: the considered press. -/
def State.judgeConfirm (s : State) (r : SlotRef) (latched : Nibble) : State :=
  if s.withinGuard r then s.countChatter r 1
  else if latched ≠ (s.shadow r).seq then s.countStale r 1
  else s.acceptConfirm r

/-- R69: the CONFIRM step; a MISMATCH discards the presses (R64). -/
def State.confirmStep (s : State) (r : SlotRef) (reply : StatusReply) : State :=
  let p := (s.entry r).press
  let delta := (reply.confirmCount - p.confirmBase).toNat
  let s1 := s.updPress r fun x => { x with confirmBase := reply.confirmCount }
  if delta = 0 ∨ p.confirmStuck ∨ s.mismatched r then s1
  else (s1.countChatter r (delta - 1)).judgeConfirm r reply.latchedSeq

/-! ### The held-flag step (R75, R76) -/

/-- One button's held-since stamp and stuck mark. -/
structure HeldRecord where
  since : Option Stamp
  stuck : Bool
  deriving DecidableEq, Repr

def Press.held (p : Press) : Button → HeldRecord
  | .confirm => ⟨p.confirmHeld, p.confirmStuck⟩
  | .adjust => ⟨p.adjustHeld, p.adjustStuck⟩

def Press.withHeld (p : Press) (b : Button) (h : HeldRecord) : Press :=
  match b with
  | .confirm => { p with confirmHeld := h.since, confirmStuck := h.stuck }
  | .adjust => { p with adjustHeld := h.since, adjustStuck := h.stuck }

/-- R75, R76: the record after one report of the held flag. -/
def HeldRecord.report (h : HeldRecord) (flag : Bool) (now : Stamp) (stuckMs : Nat) : HeldRecord :=
  match flag, h.since with
  | false, _ => ⟨none, false⟩
  | true, none => ⟨some now, h.stuck⟩
  | true, some since => ⟨some since, h.stuck || stuckMs ≤ (now - since).toNat⟩

/-- R75, R76: one button of a reply; a change of the stuck mark is reported. -/
def State.heldButton (s : State) (r : SlotRef) (b : Button) (flag : Bool) : State :=
  let before := (s.entry r).press.held b
  let after := before.report flag s.time (1000 * (s.seg r.seg).config.stuckTime)
  let s1 := s.updPress r fun p => p.withHeld b after
  if after.stuck = before.stuck then s1 else s1.notify (.buttonStuck r b after.stuck)

/-- R75: CONFIRM, then ADJUST. -/
def State.heldStep (s : State) (r : SlotRef) (reply : StatusReply) : State :=
  (s.heldButton r .confirm reply.confirmHeld).heldButton r .adjust reply.adjustHeld

/-- R64: one accepted STATUS reply. A reply that carries FRESH counts no press. -/
def State.takeStatus (s : State) (r : SlotRef) (reply : StatusReply) : State :=
  let s1 := s.freshStep r reply
  let s2 := if reply.fresh then s1 else (s1.adjustStep r reply).confirmStep r reply
  s2.heldStep r reply

end Sys2Proof.Machine
end

