-- ==== Sys2Proof/Machine/Exchanges.lean ====
section
/-! DEFINITION. The ends of line exchanges: classification (R134, R135), handing on (R136), settling (R140, R142),
discovery rounds (R122, R144) and raw exchanges (R169). -/

namespace Sys2Proof.Machine

/-! ### Classification (R134) -/

/-- R134: how an exchange that expects a reply ended. -/
inductive ReplyClass where
  | heldLine
  | noReply
  | corrupt
  | misaddressed
  | offWindow (delay : Nat)
  | accepted (delay : Nat) (payload : List Byte)
  deriving DecidableEq, Repr

/-- R129: the reply kind a command calls for. -/
def LineKind.replyKind : LineKind → Byte
  | .ident => 0x32
  | .poll | .showCmd | .digits | .dark | .assign | .sync | .enumerate => 0x31

/-- Chapter 7, "Field codings": no bit is set that the layouts give as 0. -/
def reservedClear (kind : Byte) (payload : List Byte) : Bool := kind ≠ 0x31 || (statusOf payload).isSome

/-- R134: a well-formed reply. -/
def classifyFrame (kind : LineKind) (target : Fin 62) (inWin : Bool) (delay : Nat) : List Byte → ReplyClass
  | address :: replyKind :: payload =>
    if replyKind ≠ kind.replyKind ∨ 64 ≤ address.toNat ∨ !reservedClear replyKind payload then .corrupt
    else if address.toNat ≠ target.val + 1 then .misaddressed
    else if inWin then .accepted delay payload
    else .offWindow delay
  | _ => .corrupt

/-- R134: the class, with D and W as they stand. -/
def classify (kind : LineKind) (target : Fin 62) (t : Tracker) (c : SegConfig) : Reception → ReplyClass
  | .held => .heldLine
  | .silence => .noReply
  | .invalid _ => .corrupt
  | .frame delay body => classifyFrame kind target (inWindow t c delay) delay body

def ReplyClass.good : ReplyClass → Bool
  | .accepted _ _ => true
  | .heldLine | .noReply | .corrupt | .misaddressed | .offWindow _ => false

/-- R136 step 2: the start delay of a well-formed reply from the target. -/
def ReplyClass.delay? : ReplyClass → Option Nat
  | .accepted d _ => some d
  | .offWindow d => some d
  | .heldLine | .noReply | .corrupt | .misaddressed => none

/-- R134: the class's counter. -/
def ReplyClass.count (k : ReplyClass) (c : SegCounters) : SegCounters :=
  match k with
  | .heldLine | .noReply => { c with windowMisses := c.windowMisses + 1 }
  | .corrupt => { c with corrupt := c.corrupt + 1 }
  | .misaddressed => { c with misaddressed := c.misaddressed + 1 }
  | .offWindow _ => { c with offWindow := c.offWindow + 1 }
  | .accepted _ _ => { c with accepted := c.accepted + 1 }

/-! ### Handing on (R136) -/

/-- R116, occasion 2: the identity byte check of a good STATUS reply. -/
def State.identityByteCheck (s : State) (r : SlotRef) (reply : StatusReply) : State :=
  match (s.entry r).reference with
  | some serial => if !reply.fresh && identityByte serial ≠ reply.identity then s.handIdent r else s
  | none => s

/-- R142: the re-send comparison. -/
def State.resendCompare (s : State) (r : SlotRef) (shownSeq : Nibble) : State :=
  let sh := s.shadow r
  if shownSeq ≠ sh.seq ∧ !s.displayQueued r ∧ !(s.entry r).presence.silent then
    (s.appendDisplay r sh.wholeKind).count r.seg fun c => { c with resends := c.resends + 1 }
  else s

/-- R136 steps 3 and 5: an accepted STATUS reply. -/
def State.handStatus (s : State) (r : SlotRef) (payload : List Byte) : State :=
  match statusOf payload with
  | some reply => ((s.identityByteCheck r reply).takeStatus r reply).resendCompare r reply.shownSeq
  | none => s

/-- R136 step 4: an accepted IDENT reply. -/
def State.handSerial (s : State) (r : SlotRef) (payload : List Byte) : State :=
  s.identityCheck r (BitVec.ofNat 32 (leValue payload))

/-- R136 steps 3 to 5. In HOLDING the reply of an ABSENT or LOST entry is not handed on (R110). -/
def State.handReply (s : State) (r : SlotRef) (kind : LineKind) : ReplyClass → State
  | .accepted _ payload =>
    if (s.entry r).presence.silent then s
    else if kind = .ident then s.handSerial r payload
    else s.handStatus r payload
  | .heldLine | .noReply | .corrupt | .misaddressed | .offWindow _ => s

/-- R136 steps 1 to 5. In HOLDING presence stands still (R110) and the tracker learns nothing (R148). -/
def State.handOn (s : State) (r : SlotRef) (kind : LineKind) (cls : ReplyClass) : State :=
  if s.segState r.seg = .running then
    let s1 := s.takeOutcome r cls.good
    let s2 := match cls.delay? with
      | some d => s1.track r.seg d
      | none => s1
    s2.handReply r kind cls
  else s.handReply r kind cls

/-- The display command kind of a line command. -/
def LineKind.display : LineKind → Option DisplayKind
  | .showCmd => some .showCmd
  | .digits => some .digitsCmd
  | .dark => some .darkCmd
  | .poll | .ident | .assign | .sync | .enumerate => none

/-- R140: a display command that ended in a miss. -/
def State.requeueDisplay (s : State) (r : SlotRef) (k : DisplayKind) : State :=
  if (s.entry r).kind = .empty ∨ (s.entry r).presence.silent then s
  else s.queueDisplay r k

/-- R116, occasion 3: an IDENT that ended in a miss is handed again. -/
def State.retryIdent (s : State) (r : SlotRef) : State :=
  if s.segState r.seg = .running ∧ (s.entry r).kind ≠ .empty ∧ !(s.entry r).presence.silent then s.handIdent r else s

/-- R136 step 6. -/
def State.settleExchange (s : State) (r : SlotRef) (kind : LineKind) (good : Bool) : State :=
  if good then s
  else
    match kind.display with
    | some k => s.requeueDisplay r k
    | none => if kind = .ident then s.retryIdent r else s

/-- R135: for how long the line stays active after a held line; the next command waits for it. -/
def State.keepActive (s : State) (g : Seg) (activity : List Pulse) : State :=
  s.updLine g fun l => { l with activeMs := ticksMs (s.seg g).config.lineRate (heldRest (lineActivity activity)) }

/-- R135: a held line hands one LOW observation to line sense, and the line may stay active after it. -/
def State.heldLine (s : State) (g : Seg) (held : Bool) (activity : List Pulse) : State :=
  if held then (s.keepActive g activity).observe g .low else s

/-! ### The end of an addressed exchange -/

/-- R134: the exchange leaves the line, counted as sent if its frame was not counted before. -/
def State.clearExchange (s : State) (g : Seg) (e : Exchange) : State :=
  (s.updLine g fun l => { l with inFlight := none, activeMs := 0 }).count g (countSent e.stage .sent)

/-- R134 to R136: the exchange with entry `ix` as its target ends with this class after this activity. -/
def State.concludeAddressed (s : State) (g : Seg) (e : Exchange) (ix : Fin 62) (cls : ReplyClass) (activity : List Pulse) :
    State :=
  let r : SlotRef := ⟨g, ix⟩
  let s1 := s.count g cls.count
  let s2 := if e.orphaned ∨ (s1.entry r).kind = .empty then s1 else s1.handOn r e.kind cls
  (s2.settleExchange r e.kind cls.good).heldLine g (cls = .heldLine) activity

/-- R133, R134: the modules take the command, and the controller listens and classifies. -/
def State.endAddressed (s : State) (g : Seg) (e : Exchange) (ix : Fin 62) (h : Heard) : State :=
  let x := s.seg g
  let activity := s.activityAfter g e.address e.kind e.payload h
  let cls := classify e.kind ix x.tracker x.config (receive activity)
  ((s.afterCommand g e.address e.kind e.payload h).clearExchange g e).concludeAddressed g e ix cls activity

/-- R135: with nothing in flight, the wait for a line that is still active after a held line runs to its end, so that the
next exchange is chosen (notes/assumptions/7.md). -/
def State.whenFree (s : State) (g : Seg) : State :=
  if (s.seg g).line.idle then s.wait none (s.seg g).line.activeMs else s

/-- The meaning of the end of an addressed exchange of this kind. With no such exchange in flight nothing ends. -/
def endOfKind (kind : LineKind) (g : Seg) (h : Heard) (s : State) : Host.Outcome State Fault Refusal :=
  let u := s.whenFree g
  match (u.seg g).line.inFlight with
  | none => done s
  | some e =>
    match e.target with
    | none => done s
    | some ix => if e.kind = kind then done (u.endAddressed g e ix h).finish else done s

def execPoll (g : Seg) (h : Heard) (s : State) : Host.Outcome State Fault Refusal := endOfKind .poll g h s

def execShowDisplay (g : Seg) (h : Heard) (s : State) : Host.Outcome State Fault Refusal := endOfKind .showCmd g h s

def execDigits (g : Seg) (h : Heard) (s : State) : Host.Outcome State Fault Refusal := endOfKind .digits g h s

def execDark (g : Seg) (h : Heard) (s : State) : Host.Outcome State Fault Refusal := endOfKind .dark g h s

def execIdent (g : Seg) (h : Heard) (s : State) : Host.Outcome State Fault Refusal := endOfKind .ident g h s

def execAssign (g : Seg) (h : Heard) (s : State) : Host.Outcome State Fault Refusal := endOfKind .assign g h s

/-! ### SYNC (R131) -/

/-- R131, R138: the mark is cleared, the modules' phases begin, and a pass held back may begin. -/
def State.endSync (s : State) (g : Seg) (e : Exchange) (taken : Bool) : State :=
  let s1 := if taken then s.modulesTake g e.address e.kind e.payload else s
  (s1.clearExchange g e).updLine g fun l => { l with syncDue := false, passHeld := false }

def execSync (g : Seg) (taken : Bool) (s : State) : Host.Outcome State Fault Refusal :=
  let u := s.whenFree g
  match (u.seg g).line.inFlight with
  | none => done s
  | some e => if e.kind = .sync then done (u.endSync g e taken).finish else done s

/-! ### ENUMERATE (R122 to R124, R144) -/

/-- R122: the figures a round adds. -/
def State.countRound (s : State) (g : Seg) (slots : List SlotHeard) : State :=
  s.updDiscovery g fun d => { d with rounds := d.rounds + 1, garbled := d.garbled + slots.count .garbled }

/-- R123: the CLEAN serials of a round, in slot order. -/
def State.handleSlot (g : Seg) (s : State) : SlotHeard → State
  | .clean serial => s.handleSerial g serial
  | .empty | .garbled => s

/-- R122 to R124. -/
def State.handleRound (s : State) (g : Seg) (slots : List SlotHeard) : State :=
  (slots.foldl (State.handleSlot g) (s.countRound g slots)).judgeRound g (slots.all fun x => x = .empty)

/-- R144: a round ends. -/
def State.endRound (s : State) (g : Seg) (e : Exchange) (activity : List Pulse) : State :=
  (((s.modulesSee g activity).clearExchange g e).handleRound g (contentionRound activity)).heldLine g (roundHeld activity) activity

def execEnumerate (g : Seg) (round : Round) (s : State) : Host.Outcome State Fault Refusal :=
  let u := s.whenFree g
  match (u.seg g).line.inFlight with
  | none => done s
  | some e => if e.kind = .enumerate then done (u.endRound g e (u.roundActivity g round)).finish else done s

/-! ### RAW_EXCHANGE_END (R169) -/

/-- R169: the expected source: the address named, or for an ASSIGN the new address in its payload. -/
def Raw.expectedSource (x : Raw) : Nat :=
  if x.op = .command .assign then (x.payload.getD 4 0).toNat else x.address.toNat

/-- R169: the result and the figures. The address is in bits 0 to 5 of the address byte. -/
def rawResult (x : Raw) (t : Tracker) (c : SegConfig) : Reception → OpResult × Figures
  | .held => (.noReply, .raw .heldLine 0 0 false 0 [])
  | .silence => (.noReply, .raw .noReply 0 0 false 0 [])
  | .invalid _ => (.noReply, .raw .corrupt 0 0 false 0 [])
  | .frame delay body =>
    if inWindow t c delay then
      let source := (body.getD 0 0).toNat % 64
      (.complete, .raw .inWindow delay source (source = x.expectedSource) (body.getD 1 0) (body.drop 2))
    else (.noReply, .raw .offWindow delay 0 false 0 [])

/-- R134, R169: the raw exchange has left the line, counted as sent if its frame was not counted before. -/
def State.clearRaw (s : State) (g : Seg) (x : Raw) : State :=
  (s.updLine g fun l => { l with activeMs := 0 }).count g (countSent x.stage .sent)

/-- R169: a raw command that expects a reply. -/
def State.endRawReply (s : State) (g : Seg) (x : Raw) (kind : LineKind) (h : Heard) : State :=
  let activity := s.activityAfter g x.address kind x.payload h
  let reception := receive activity
  let res := rawResult x (s.seg g).tracker (s.seg g).config reception
  (((s.afterCommand g x.address kind x.payload h).clearRaw g x).endRaw g res.1 res.2).heldLine g (reception = .held) activity

/-- R169: the raw operation in flight ends. -/
def State.concludeRaw (s : State) (g : Seg) (x : Raw) (h : Heard) : State :=
  match x.op with
  | .brk => ((s.resetModules g).clearRaw g x).endRaw g .complete .none
  | .command .sync => ((s.afterCommand g x.address .sync x.payload h).clearRaw g x).endRaw g .complete .none
  | .command k => s.endRawReply g x k h

def execRawExchangeEnd (g : Seg) (h : Heard) (s : State) : Host.Outcome State Fault Refusal :=
  match (s.seg g).sup.raw with
  | none => done s
  | some x => done (s.concludeRaw g x h).finish

end Sys2Proof.Machine
end

