-- ==== Sys2Proof/Machine/Events.lean ====
section
/-! DEFINITION. The events that reach the part from outside its lines' exchanges: reset, the link, breaks and
start-up, line sense, the trip input, timers, the phase clock, buttons and modules. -/

namespace Sys2Proof.Machine

/-! ### RESET (R181) -/

def execReset (s : State) : Host.Outcome State Fault Refusal := done s.resetAll

/-! ### The host link (R173, R174, R178) -/

def execFrameReceived (bytes : List Byte) (s : State) : Host.Outcome State Fault Refusal :=
  done (s.updLink fun l => l.receiveBytes bytes).finish

/-- R173: the partial frame is discarded once more than 20 ms have passed. -/
def execFrameTimedOut (s : State) : Host.Outcome State Fault Refusal :=
  if s.link.rx = [] then done s
  else done ((s.wait (some .frameTimeout) (Config.frameGapMs - s.link.gapMs)).takeDue .frameTimeout)

/-- R180, R181: what the end of a reply sets off. -/
def State.afterReply (s : State) : AfterSent → State
  | .nothing => s
  | .setRate baud => s.updLink fun l => { l with rate := baud }
  | .restart => s.resetAll

/-- R178: the transmitter has sent its frame. -/
def State.frameSent (s : State) : Sending → State
  | .reply r => (s.updLink fun l => { l with sending := none, lastNotice := false }).afterReply r.after
  | .notice => s.updLink fun l => { l with sending := none, lastNotice := true, notices := l.notices.tail }

def execFrameSent (s : State) : Host.Outcome State Fault Refusal :=
  match s.link.sending with
  | none => done s
  | some x => done (s.frameSent x).finish

/-! ### Breaks and start-up (R132, R161, R170) -/

/-- R161: the start-up break is on the line. -/
def State.startupBreak (s : State) (g : Seg) : Bool := s.segState g = .starting && (s.seg g).sup.stage = .breaking

/-- R132, R170: a break and its idle time have ended. A break that still waits for a probe has not begun. -/
def State.endBreak (s : State) (g : Seg) : State :=
  ((s.resetModules g).updLine g fun l => { l with breaking := false, probeFirst := false, breakMs := 0 }).updSup g
    fun v => { v with breakPending := false }

def execBreakEnd (g : Seg) (s : State) : Host.Outcome State Fault Refusal :=
  if s.startupBreak g then done ((s.resetModules g).beginQuiet g).finish
  else if (s.seg g).line.breaking && !(s.seg g).line.probeFirst then done (s.endBreak g).finish
  else done s

/-- The ms until the start-up stage of a segment ends. -/
def State.stageWait (s : State) (g : Seg) : Nat := s.msUntil (s.seg g).sup.stageEnd

/-- R161: the settle stage runs to its end. -/
def execSettleEnd (g : Seg) (s : State) : Host.Outcome State Fault Refusal :=
  if s.inStage g .settle then done ((s.wait (some (.settleEnd g)) (s.stageWait g)).takeDue (.settleEnd g)) else done s

/-- R161: the quiet stage runs to its end. -/
def execQuietEnd (g : Seg) (s : State) : Host.Outcome State Fault Refusal :=
  if s.inStage g .quiet then done ((s.wait (some (.quietEnd g)) (s.stageWait g)).takeDue (.quietEnd g)) else done s

/-! ### Line sense (R164) -/

/-- An exchange chosen and still in the gap before its frame. -/
def LineCtl.inGap (l : LineCtl) : Bool :=
  match l.inFlight with
  | none => true
  | some e => e.stage = .gap

/-- R164: no raw exchange holds the line: none is in flight, or it is a break in its idle time. -/
def Supervisor.rawFree (v : Supervisor) : Bool :=
  match v.raw with
  | none => true
  | some x => x.op = .brk && x.stage = .sent

/-- R164: a break lets a probe be made: before the break that waits for it, or in the idle time after it. -/
def Segment.breakFree (x : Segment) : Bool :=
  x.line.probeFirst || frameMs x.config.lineRate Config.breakBits ≤ x.line.breakMs

/-- R164: the line is free for a probe. -/
def Segment.probeFree (x : Segment) : Bool :=
  match x.sup.state with
  | .off | .fault => true
  | .starting => x.sup.stage = .settle || x.sup.stage = .quiet
  | .running => if x.line.breaking then x.breakFree else x.line.inGap
  | .holding => if x.line.breaking then x.breakFree else x.line.inFlight.isNone
  | .held => x.sup.rawFree

/-- R164, R165: the probe's time is kept and its observation taken; a break that waited for it follows. -/
def State.probe (s : State) (g : Seg) (o : Observation) : State :=
  let now := s.time
  ((s.updSup g fun v => { v with lastProbe := now }).updLine g fun l => { l with probeFirst := false }).observe g o

def execLineSenseProbe (g : Seg) (o : Observation) (s : State) : Host.Outcome State Fault Refusal :=
  let s1 := s.wait none (s.probeWait g)
  if (s1.seg g).probeFree then done (s1.probe g o).finish else done s

/-! ### The trip input (R163) -/

def State.setTrip (s : State) (g : Seg) (on : Bool) : State := s.updSeg g fun x => { x with trip := on }

def execSupplyTrip (g : Seg) (s : State) : Host.Outcome State Fault Refusal :=
  done ((s.setTrip g true).enterFault g .supplyTrip).finish

def execTripInputReturnToClear (g : Seg) (s : State) : Host.Outcome State Fault Refusal := done (s.setTrip g false)

/-! ### Timers and the phase clock (R26, R28, R131, R183) -/

/-- R28: the timer runs to its end. -/
def execTaskExpiry (id : TaskId) (s : State) : Host.Outcome State Fault Refusal :=
  match s.timed id with
  | none => done s
  | some t => done ((s.wait (some (.expiry id)) t.timeLeft).takeDue (.expiry id))

/-- R183: the phase runs to its end. -/
def execBlinkPhaseAdvance (s : State) : Host.Outcome State Fault Refusal :=
  done ((s.wait (some .phase) (Config.phaseMs - s.phaseMs)).takeDue .phase)

/-! ### Buttons and modules (R61) -/

/-- The module with this serial is acted on. -/
def State.atModule (s : State) (serial : Serial) (f : Module → Module) : State :=
  { s with modules := s.modules.map fun m => if m.serial = serial then f m else m }

/-- R61: a module without power counts and latches nothing; only the position of the button changes. -/
def Module.push (m : Module) : Button → Module
  | .confirm => { m with confirmHeld := true }
  | .adjust => { m with adjustHeld := true }

def execButtonPress (serial : Serial) (b : Button) (s : State) : Host.Outcome State Fault Refusal :=
  done (s.atModule serial fun m => if s.powered m then m.press b else m.push b)

def execButtonRelease (serial : Serial) (b : Button) (s : State) : Host.Outcome State Fault Refusal :=
  done (s.atModule serial fun m => m.release b)

/-- A module leaves its line. -/
def State.unfit (s : State) (replaced : Option Serial) : State :=
  { s with modules := s.modules.filter fun m => some m.serial ≠ replaced }

/-- R61: the module resets on this segment; one not seen before is fitted. -/
def State.fit (s : State) (g : Seg) (serial : Serial) (address : BitVec 6) : State :=
  if s.modules.any fun m => m.serial = serial then
    { s with modules := s.modules.map fun m => if m.serial = serial then { m.reset with seg := g } else m }
  else { s with modules := s.modules ++ [Module.fitted serial g address] }

def execModuleReset (g : Seg) (serial : Serial) (address : BitVec 6) (replaced : Option Serial) (s : State) :
    Host.Outcome State Fault Refusal :=
  if address.toNat ≤ 62 then done ((s.unfit replaced).fit g serial address) else .fault .illFormed

end Sys2Proof.Machine
end

