-- ==== Sys2Proof/Machine/LinkRequests.lean ====
section
/-! DEFINITION. The requests of the link (R175, R179 to R181) and READ_STATS (R185, R186). -/

namespace Sys2Proof.Machine

/-! ### Unknown kinds (R175) -/

/-- R175 step 1. -/
def unknownKindRule (kind : Byte) (s : State) : Answer := answer s .unknownKind [kind]

def execUnknownKindRequest (kind : Byte) (tag : Tag) (payload : List Byte) (s : State) : Host.Outcome State Fault Refusal :=
  if requestKindCodes.contains kind then .fault .illFormed
  else request kind tag payload (unknownKindRule kind) s

/-! ### IDENTIFY and READ_TIME (R179) -/

/-- R179: vendor, part, revision and capacities. -/
def identityData : List Byte :=
  leBytes 2 Config.vendorCode ++ leBytes 2 Config.partCode ++ [byteOf Config.revision, 4, 62] ++
  leBytes 2 Config.taskTableSize ++ [12, 16, byteOf Config.noticeQueueSize]

def identifyRule (s : State) : Answer := answer s .ok identityData

def execIdentify (tag : Tag) (payload : List Byte) (s : State) : Host.Outcome State Fault Refusal :=
  fixedRequest 0x01 0 tag payload identifyRule s

/-- R179: the time base and the blink phase. -/
def readTimeRule (s : State) : Answer := answer s .ok (stampBytes s.time ++ [byteOf s.phase.val])

def execReadTime (tag : Tag) (payload : List Byte) (s : State) : Host.Outcome State Fault Refusal :=
  fixedRequest 0x02 0 tag payload readTimeRule s

/-! ### SET_LINK_RATE (R180) -/

def linkRates : List Nat := [57600, 115200, 230400, 460800, 921600]

/-- R180: the rate takes effect when the reply has been sent. That a refused reply's rate field is 0 is the model's reading
(notes/assumptions/15.md). -/
def setLinkRateRule (payload : List Byte) (s : State) : Answer :=
  let rate := fieldAt payload 0 4
  if linkRates.contains rate then ⟨s, .ok, leBytes 4 rate, .setRate rate⟩ else answer s .badValue (zeros 4)

def execSetLinkRate (tag : Tag) (payload : List Byte) (s : State) : Host.Outcome State Fault Refusal :=
  fixedRequest 0x03 4 tag payload (setLinkRateRule payload) s

/-! ### RESTART (R181) -/

/-- R181: the reset follows when the reply has been sent. -/
def restartRule (s : State) : Answer := ⟨s, .ok, [], .restart⟩

def execRestart (tag : Tag) (payload : List Byte) (s : State) : Host.Outcome State Fault Refusal :=
  fixedRequest 0x04 0 tag payload restartRule s

/-! ### READ_STATS (R185, R186) -/

/-- What READ_STATS names. -/
inductive Scope where
  | segment (g : Seg)
  | link
  deriving DecidableEq, Repr

def scopeOf (n : Nat) : Option Scope := if n = 0xFF then some .link else (segOf n).map .segment

/-- R185: the statistics of the scope, at one instant. -/
def State.statistics (s : State) : Scope → List Byte
  | .segment g => segmentStats (s.seg g)
  | .link => linkStats s.link

/-- R186: the counters of the scope become 0. -/
def State.clearCounters (s : State) : Scope → State
  | .segment g => s.count g fun _ => SegCounters.zero
  | .link => s.updLink fun l => { l with counters := LinkCounters.zero }

/-- The bytes of a scope's statistics. -/
def Scope.length : Scope → Nat
  | .segment _ => 106
  | .link => 25

/-- R185, R186. For a scope that names nothing the manual does not say how many statistics bytes the refused reply has: it
carries the scope and time fields only, 0 (notes/assumptions/42.md). -/
def readStatsRule (payload : List Byte) (s : State) : Answer :=
  match scopeOf (fieldAt payload 0 1) with
  | none => answer s .badValue (zeros 5)
  | some sc =>
    match onOffOf (fieldAt payload 1 1) with
    | none => answer s .badValue (zeros (5 + sc.length))
    | some clear =>
      answer (if clear then s.clearCounters sc else s) .ok
        (byteOf (fieldAt payload 0 1) :: (stampBytes s.time ++ s.statistics sc))

def execReadStats (tag : Tag) (payload : List Byte) (s : State) : Host.Outcome State Fault Refusal :=
  fixedRequest 0x50 2 tag payload (readStatsRule payload) s

end Sys2Proof.Machine
end

