-- ==== Sys2Proof/Machine/PickerRequests.lean ====
section
/-! DEFINITION. The requests of the picker table (chapter 1). -/

namespace Sys2Proof.Machine

/-- A reply that carries the named picker's record as it stands. -/
def pickerAnswer (s : State) (p : Fin 12) (status : Status) : Answer := answer s status (pickerRecord p (s.picker p))

/-- The same with the number of tasks moved. -/
def movedAnswer (s : State) (p : Fin 12) (status : Status) (moved : Nat) : Answer :=
  answer s status (pickerRecord p (s.picker p) ++ [byteOf moved])

/-! ### SET_PICKER (R3 to R7) -/

/-- The values a SET_PICKER results in, after clamping and filling. -/
structure PickerValues where
  colour : Fin 8
  pattern : Pattern
  level : Nat
  priority : Nat
  quota : Nat
  deriving DecidableEq, Repr

/-- R3: a colour given: 1 to 7. -/
def givenColour (n : Nat) : Option (Fin 8) := if h : 1 ≤ n ∧ n < 8 then some ⟨n, h.2⟩ else none

/-- R3: the value checks. `payload` is mask, colour, pattern, level, priority, quota; none is BAD_VALUE. An ABSENT
record holds the values an absent field takes at a registration, and its colour and pattern must be given. -/
def pickerValues (x : Picker) (mask colour pattern level priority quota : Nat) : Option PickerValues :=
  let needed : Bool := x.state = .absent
  let c := if mask.testBit 0 then givenColour colour else if needed then none else some x.colour
  let pt := if mask.testBit 1 then patternOf pattern else if needed then none else some x.pattern
  let q := if mask.testBit 4 then (if quota = 0 then none else some quota) else some x.quota
  if 32 ≤ mask then none
  else
    match c, pt, q with
    | some c, some pt, some q =>
      some ⟨c, pt, if mask.testBit 2 then max 1 (min 16 level) else x.level,
        if mask.testBit 3 then min 3 priority else x.priority, q⟩
    | _, _, _ => none

/-- R6: a task that names the picker is in WAIT_LOAD, SHOWN or BLOCKED. -/
def State.holdsCurrent (s : State) (p : Fin 12) : Bool := s.tasks.any fun t => t.picker = p && t.state.isCurrent

/-- R6: the request would change the colour, the pattern or the level. -/
def restyles (x : Picker) (v : PickerValues) : Bool := v.colour ≠ x.colour || v.pattern ≠ x.pattern || v.level ≠ x.level

/-- R5: the style is held by another picker that is not ABSENT. -/
def State.styleTaken (s : State) (p : Fin 12) (v : PickerValues) : Bool :=
  (List.finRange 12).any fun q =>
    q ≠ p && (s.picker q).state ≠ .absent && (s.picker q).colour = v.colour && (s.picker q).pattern = v.pattern

/-- R4: the record takes the values; a registration makes it ACTIVE with no task. -/
def Picker.take (x : Picker) (v : PickerValues) : Picker :=
  { state := if x.state = .absent then .active else x.state, colour := v.colour, pattern := v.pattern, level := v.level
    priority := v.priority, quota := v.quota, openCount := if x.state = .absent then 0 else x.openCount }

/-- R7: a change of priority moves the picker's admission requests, segment by segment. R7 gives the segments no order;
they are taken in ascending segment number, and so are their LOAD_ECONOMY notices (notes/assumptions/38.md). -/
def State.handPriority (s : State) (p : Fin 12) (before after : Nat) : State :=
  if before = after then s else allSegs.foldl (fun acc g => acc.reprioritise g p after) s

def setPickerRule (payload : List Byte) (s : State) : Answer :=
  match pickerOf (fieldAt payload 0 1) with
  | none => answer s .badValue (zeros 8)
  | some p =>
    let x := s.picker p
    match pickerValues x (fieldAt payload 1 1) (fieldAt payload 2 1) (fieldAt payload 3 1) (fieldAt payload 4 1)
        (fieldAt payload 5 1) (fieldAt payload 6 1) with
    | none => pickerAnswer s p .badValue
    | some v =>
      if restyles x v ∧ s.holdsCurrent p then pickerAnswer s p .wrongState
      else if s.styleTaken p v then pickerAnswer s p .styleInUse
      else if v.quota < x.openCount then pickerAnswer s p .quotaBelowOpen
      else pickerAnswer ((s.updPicker p fun y => y.take v).handPriority p x.priority v.priority) p .ok

def execSetPicker (tag : Tag) (payload : List Byte) (s : State) : Host.Outcome State Fault Refusal :=
  fixedRequest 0x10 7 tag payload (setPickerRule payload) s

/-! ### PAUSE_PICKER (R9) -/

/-- R9 step 2: the picker's tasks that are live at their slots, in ascending table index. -/
def State.liveTasks (s : State) (p : Fin 12) : List Task :=
  s.tasks.filter fun t => t.picker = p && !t.state.terminal && t.state ≠ .paused

/-- R9 step 2: the live tasks become PAUSED and their timers are discarded. -/
def State.pauseTasks (s : State) (p : Fin 12) : State :=
  { s with
    tasks := s.tasks.map fun t =>
      if t.picker = p ∧ !t.state.terminal ∧ t.state ≠ .paused then { t with state := .paused, timeLeft := 0 } else t }

/-- R9 step 3: one task, as it was before the pause, gives up its slot. -/
def State.yieldSlot (s : State) (t : Task) : State :=
  let r := t.slot
  match t.state with
  | .shown => ((s.clearCurrent r).darken r).release r
  | .waitLoad => (s.clearCurrent r).withdrawAndSettle r
  | .blocked => s.clearCurrent r
  | _ => s

/-- R9: all four steps; the tasks moved are counted. -/
def pauseRule (p : Fin 12) (s : State) : Answer :=
  let moved := s.liveTasks p
  let current := moved.filter fun t => t.state.isCurrent
  let s1 := (s.updPicker p fun x => { x with state := .paused }).pauseTasks p
  let s2 := current.foldl State.yieldSlot s1
  let s3 := s2.selectAll (allSlots.filter fun r => current.any fun t => t.slot = r)
  movedAnswer s3 p .ok moved.length

def pausePickerRule (payload : List Byte) (s : State) : Answer :=
  match pickerOf (fieldAt payload 0 1) with
  | none => answer s .badValue (zeros 9)
  | some p =>
    match (s.picker p).state with
    | .absent => movedAnswer s p .noSuchPicker 0
    | .paused => movedAnswer s p .wrongState 0
    | .active => pauseRule p s

def execPausePicker (tag : Tag) (payload : List Byte) (s : State) : Host.Outcome State Fault Refusal :=
  fixedRequest 0x11 1 tag payload (pausePickerRule payload) s

/-! ### RESUME_PICKER (R10) -/

def State.pausedTasks (s : State) (p : Fin 12) : List Task := s.tasks.filter fun t => t.picker = p && t.state = .paused

/-- R10 step 2. -/
def State.requeueTasks (s : State) (p : Fin 12) : State :=
  { s with tasks := s.tasks.map fun t => if t.picker = p ∧ t.state = .paused then { t with state := .queued } else t }

/-- R10: all three steps; the tasks moved are counted. -/
def resumeRule (p : Fin 12) (s : State) : Answer :=
  let moved := s.pausedTasks p
  let s1 := (s.updPicker p fun x => { x with state := .active }).requeueTasks p
  let s2 := s1.selectAll (allSlots.filter fun r => moved.any fun t => t.slot = r)
  movedAnswer s2 p .ok moved.length

def resumePickerRule (payload : List Byte) (s : State) : Answer :=
  match pickerOf (fieldAt payload 0 1) with
  | none => answer s .badValue (zeros 9)
  | some p =>
    match (s.picker p).state with
    | .absent => movedAnswer s p .noSuchPicker 0
    | .active => movedAnswer s p .wrongState 0
    | .paused => resumeRule p s

def execResumePicker (tag : Tag) (payload : List Byte) (s : State) : Host.Outcome State Fault Refusal :=
  fixedRequest 0x12 1 tag payload (resumePickerRule payload) s

/-! ### DROP_PICKER (R8) -/

def dropPickerRule (payload : List Byte) (s : State) : Answer :=
  match pickerOf (fieldAt payload 0 1) with
  | none => answer s .badValue (zeros 8)
  | some p =>
    if (s.picker p).state = .absent then pickerAnswer s p .noSuchPicker
    else if 0 < (s.picker p).openCount then pickerAnswer s p .wrongState
    else pickerAnswer (s.updPicker p fun _ => Picker.reset) p .ok

def execDropPicker (tag : Tag) (payload : List Byte) (s : State) : Host.Outcome State Fault Refusal :=
  fixedRequest 0x13 1 tag payload (dropPickerRule payload) s

end Sys2Proof.Machine
end

