-- ==== Sys2Proof/Machine/SegmentRequests.lean ====
section
/-! DEFINITION. The requests of a segment: SET_SEGMENT, SET_COLOUR_CURRENTS, SEGMENT_POWER, BREAK_SEGMENT,
HOLD_SEGMENT, RELEASE_SEGMENT and RAW_EXCHANGE (chapters 5 and 9). -/

namespace Sys2Proof.Machine

/-! ### SET_SEGMENT (R171) -/

/-- R182: an absent field keeps its value, a given one is clamped. -/
def clampField (given : Bool) (low high new old : Nat) : Nat := if given then max low (min high new) else old

/-- R182: a given field that may be refused. -/
def checkedField {α : Type} (given : Bool) (new : Option α) (old : α) : Option α := if given then new else some old

/-- R171: the configuration a request results in, after clamping; none is BAD_VALUE. -/
def newConfig (payload : List Byte) (c : SegConfig) : Option SegConfig :=
  let mask := fieldAt payload 1 3
  if 2 ^ 17 ≤ mask then none
  else
    match checkedField (mask.testBit 0) (lineRateOf (fieldAt payload 4 2)) c.lineRate,
        checkedField (mask.testBit 10) (intervalOf (fieldAt payload 18 1)) c.interval,
        checkedField (mask.testBit 13) (onOffOf (fieldAt payload 21 1)) c.postFilter,
        checkedField (mask.testBit 14) (onOffOf (fieldAt payload 22 1)) c.toggleHold,
        checkedField (mask.testBit 15) (onOffOf (fieldAt payload 23 1)) c.jump with
    | some rate, some interval, some postFilter, some toggleHold, some jump =>
      some
        { lineRate := rate
          budget := clampField (mask.testBit 1) 50 3000 (fieldAt payload 6 2) c.budget
          baseCurrent := clampField (mask.testBit 2) 0 50 (fieldAt payload 8 1) c.baseCurrent
          economyLevel := clampField (mask.testBit 3) 1 16 (fieldAt payload 9 1) c.economyLevel
          guardMs := clampField (mask.testBit 4) 0 1000 (fieldAt payload 10 2) c.guardMs
          stuckTime := clampField (mask.testBit 5) 2 60 (fieldAt payload 12 1) c.stuckTime
          lock := clampField (mask.testBit 6) 1 15 (fieldAt payload 13 1) c.lock
          unlock := clampField (mask.testBit 7) 1 255 (fieldAt payload 14 1) c.unlock
          delay0 := clampField (mask.testBit 8) 0 1023 (fieldAt payload 15 2) c.delay0
          window := clampField (mask.testBit 9) 4 255 (fieldAt payload 17 1) c.window
          interval := interval
          shift := clampField (mask.testBit 11) 0 3 (fieldAt payload 19 1) c.shift
          slew := clampField (mask.testBit 12) 1 255 (fieldAt payload 20 1) c.slew
          postFilter := postFilter, toggleHold := toggleHold, jump := jump
          jumpOver := clampField (mask.testBit 16) 16 512 (fieldAt payload 24 2) c.jumpOver }
    | _, _, _, _, _ => none

/-- R113: an entry's runs under changed thresholds. -/
def Entry.adjustRuns (lockChanged unlockChanged : Bool) (c : SegConfig) (e : Entry) : Entry :=
  match e.presence with
  | .acquiring => if lockChanged then { e with goodRun := min e.goodRun (c.lock - 1) } else e
  | .coasting => if unlockChanged then { e with missRun := min e.missRun (c.unlock - 1) } else e
  | .absent | .present | .lost => e

/-- R156: one of the nine tracker fields changed. -/
def trackerChanged (a b : SegConfig) : Bool :=
  a.delay0 ≠ b.delay0 || a.window ≠ b.window || a.interval ≠ b.interval || a.shift ≠ b.shift || a.slew ≠ b.slew ||
    a.postFilter ≠ b.postFilter || a.toggleHold ≠ b.toggleHold || a.jump ≠ b.jump || a.jumpOver ≠ b.jumpOver

/-- R171: the fields, the presence runs (R113) and the tracker (R156). -/
def Segment.reconfigure (c : SegConfig) (x : Segment) : Segment :=
  { x with
    config := c
    entries := x.entries.map (Entry.adjustRuns (x.config.lock ≠ c.lock) (x.config.unlock ≠ c.unlock) c)
    tracker := if trackerChanged x.config c then x.tracker.clearWork else x.tracker }

/-- R100: the governor takes its three fields as one load change. An economy level that moves alone while economy is OFF
is just kept. -/
def State.takeGovernorFields (s : State) (g : Seg) (before after : SegConfig) : State :=
  if before.budget = after.budget ∧ before.baseCurrent = after.baseCurrent ∧
      (before.economyLevel = after.economyLevel ∨ (s.gov g).economy = false) then s
  else
    let s1 := if (s.gov g).economy then s.relevel g (economyLevelOf after.economyLevel) else s
    s1.baseChange g

/-- A refused SET_SEGMENT's fields (R175). -/
def setSegmentRefused (s : State) (st : Status) : Answer := answer s st (zeros 25)

def setSegmentRule (payload : List Byte) (s : State) : Answer :=
  match segOf (fieldAt payload 0 1) with
  | none => setSegmentRefused s .badValue
  | some g =>
    let old := (s.seg g).config
    match newConfig payload old with
    | none => setSegmentRefused s .badValue
    | some c =>
      if c.lineRate ≠ old.lineRate ∧ s.segState g ≠ .off then setSegmentRefused s .wrongState
      else
        let s1 := (s.updSeg g (Segment.reconfigure c)).takeGovernorFields g old c
        answer s1 .ok (segmentFields (s1.seg g))

def execSetSegment (tag : Tag) (payload : List Byte) (s : State) : Host.Outcome State Fault Refusal :=
  fixedRequest 0x30 26 tag payload (setSegmentRule payload) s

/-! ### SET_COLOUR_CURRENTS (R83, R101) -/

/-- R83: the table after the request. -/
def newCurrents (payload : List Byte) (old : Vector Nat 7) : Vector Nat 7 :=
  Vector.ofFn fun i : Fin 7 => if (fieldAt payload 0 1).testBit i.val then fieldAt payload (1 + i.val) 1 else old[i]

def setColourCurrentsRule (payload : List Byte) (s : State) : Answer :=
  if 128 ≤ fieldAt payload 0 1 then answer s .badValue (zeros 7)
  else
    let table := newCurrents payload s.currents
    answer (allSegs.foldl State.loadChange { s with currents := table }) .ok (table.toList.map byteOf)

def execSetColourCurrents (tag : Tag) (payload : List Byte) (s : State) : Host.Outcome State Fault Refusal :=
  fixedRequest 0x31 8 tag payload (setColourCurrentsRule payload) s

/-! ### Requests answered with the segment state -/

/-- A reply that carries the segment's state as it stands. -/
def segAnswer (s : State) (g : Seg) (st : Status) : Answer := answer s st [(s.segState g).code]

/-- A refused reply whose rule names no data (R175). -/
def segRefused (s : State) (st : Status) : Answer := answer s st (zeros 1)

/-- A request whose first byte names a segment; above 3 it is refused with BAD_VALUE. -/
def onSegment (payload : List Byte) (rule : Seg → State → Answer) (s : State) : Answer :=
  match segOf (fieldAt payload 0 1) with
  | none => segRefused s .badValue
  | some g => rule g s

/-! ### SEGMENT_POWER (R160) -/

def powerOn (g : Seg) (s : State) : Answer :=
  if s.segState g = .off ∨ s.segState g = .fault then segAnswer (s.enterStarting g) g .ok else segAnswer s g .wrongState

/-- R160: the reply carries the state after the request. -/
def segmentPowerRule (payload : List Byte) : State → Answer :=
  onSegment payload fun g s =>
    match onOffOf (fieldAt payload 1 1) with
    | none => segAnswer s g .badValue
    | some true => powerOn g s
    | some false => segAnswer (s.enterOff g) g .ok

def execSegmentPower (tag : Tag) (payload : List Byte) (s : State) : Host.Outcome State Fault Refusal :=
  fixedRequest 0x32 2 tag payload (segmentPowerRule payload) s

/-! ### BREAK_SEGMENT (R170) -/

/-- R170: the mark is set; a line that is idle takes the break at once. -/
def State.markBreak (s : State) (g : Seg) : State :=
  let s1 := s.updSup g fun v => { v with breakPending := true }
  if (s.seg g).line.idle && (s.seg g).line.activeMs = 0 then s1.updLine g fun l => { l with breaking := true } else s1

def breakSegmentRule (payload : List Byte) : State → Answer :=
  onSegment payload fun g s =>
    if s.segState g ≠ .running then segRefused s .wrongState
    else if (s.seg g).sup.breakPending then segRefused s .inProgress
    else segAnswer (s.markBreak g) g .ok

def execBreakSegment (tag : Tag) (payload : List Byte) (s : State) : Host.Outcome State Fault Refusal :=
  fixedRequest 0x33 1 tag payload (breakSegmentRule payload) s

/-! ### HOLD_SEGMENT (R166) -/

/-- R166: RUNNING to HOLDING, and to HELD at once if the line is idle. -/
def State.beginHold (s : State) (g : Seg) (tag : Tag) : State :=
  ((s.updSup g fun v => { v with holdTag := some tag, holdReply := s.link.nextId }).setSegState g .holding .hold).settleLine g

def holdSegmentRule (tag : Tag) (payload : List Byte) : State → Answer :=
  onSegment payload fun g s =>
    if s.segState g ≠ .running then segRefused s .wrongState
    else if (s.seg g).sup.discovery.isSome then segRefused s .inProgress
    else segAnswer (s.beginHold g tag) g .started

def execHoldSegment (tag : Tag) (payload : List Byte) (s : State) : Host.Outcome State Fault Refusal :=
  fixedRequest 0x34 1 tag payload (holdSegmentRule tag payload) s

/-! ### RELEASE_SEGMENT (R167) -/

def releaseSegmentRule (payload : List Byte) : State → Answer :=
  onSegment payload fun g s =>
    match s.segState g with
    | .holding => segAnswer (s.releaseHold g) g .ok
    | .held => if (s.seg g).sup.raw.isSome then segRefused s .inProgress else segAnswer (s.releaseHold g) g .ok
    | .off | .starting | .running | .fault => segRefused s .wrongState

def execReleaseSegment (tag : Tag) (payload : List Byte) (s : State) : Host.Outcome State Fault Refusal :=
  fixedRequest 0x35 1 tag payload (releaseSegmentRule payload) s

/-! ### RAW_EXCHANGE (R168) -/

/-- R168: the raw operation a code names. ENUMERATE is not one. -/
def rawOpOf (n : Nat) : Option RawOp :=
  match n with
  | 0x00 => some .brk
  | 0x21 => some (.command .poll)
  | 0x22 => some (.command .showCmd)
  | 0x23 => some (.command .digits)
  | 0x24 => some (.command .dark)
  | 0x25 => some (.command .ident)
  | 0x26 => some (.command .assign)
  | 0x27 => some (.command .sync)
  | _ => none

def RawOp.payloadLength : RawOp → Nat
  | .brk => 0
  | .command k => k.payloadLength

/-- R168: the address byte is not used for BREAK. -/
def addressAllowed (op : RawOp) (address : Nat) : Bool := op = .brk || address ≤ 63

/-- R169: a SYNC is sent to address 63, any other command to the address named. -/
def rawAddress (op : RawOp) (address : Nat) : Byte := if op = .command .sync then 63 else byteOf address

/-- R168: the raw exchange record. -/
def rawRecord (tag : Tag) (op : RawOp) (payload : List Byte) (reply : Nat) : Raw :=
  { tag := tag, op := op, address := rawAddress op (fieldAt payload 2 1), payload := payload.drop 3, stage := .gap
    reply := reply }

/-- R168: the checks, in order. -/
def rawChecks (tag : Tag) (payload : List Byte) (s : State) : Answer :=
  match segOf (fieldAt payload 0 1), rawOpOf (fieldAt payload 1 1) with
  | some g, some op =>
    if !addressAllowed op (fieldAt payload 2 1) then segRefused s .badValue
    else if payload.length ≠ 3 + op.payloadLength then answer s .badLength []
    else if s.segState g ≠ .held then segRefused s .wrongState
    else if (s.seg g).sup.raw.isSome then segRefused s .inProgress
    else segAnswer (s.updSup g fun v => { v with raw := some (rawRecord tag op payload s.link.nextId) }) g .started
  | _, _ => segRefused s .badValue

def rawExchangeRule (tag : Tag) (payload : List Byte) (s : State) : Answer :=
  if payload.length < 3 then answer s .badLength [] else rawChecks tag payload s

def execRawExchange (tag : Tag) (payload : List Byte) (s : State) : Host.Outcome State Fault Refusal :=
  request 0x36 tag payload (rawExchangeRule tag payload) s

end Sys2Proof.Machine
end

