-- ==== Sys2Proof/Machine/SlotRequests.lean ====
section
/-! DEFINITION. The requests of the module directory: PROVISION_SLOT, UNPROVISION_SLOT, QUERY_SLOT and DISCOVER
(chapter 6). -/

namespace Sys2Proof.Machine

/-! ### PROVISION_SLOT (R106, R107) -/

/-- R106: another PROVISIONED entry expects the serial. -/
def State.expectedElsewhere (s : State) (r : SlotRef) (serial : Serial) : Bool :=
  allSlots.any fun q => q ≠ r && (s.entry q).kind = .provisioned && (s.entry q).expected = some serial

/-- R106: the entry after the request. -/
def Entry.provision (serial : Serial) (e : Entry) : Entry :=
  match e.kind with
  | .empty => { Entry.reset with kind := .provisioned, expected := some serial }
  | .provisioned | .learned => { e with kind := .provisioned, expected := some serial }

/-- R106, R107: the entry, and what a change of binding does at the slot. -/
def State.provisionSlot (s : State) (r : SlotRef) (serial : Serial) : State :=
  (s.rebind r (Entry.provision serial)).reevaluate r

def provisionSlotRule (payload : List Byte) (s : State) : Answer :=
  let serial : Serial := BitVec.ofNat 32 (fieldAt payload 1 4)
  match slotOfNumber (fieldAt payload 0 1) with
  | none => answer s .noSuchSlot (zeros 66)
  | some r =>
    if s.expectedElsewhere r serial then answer s .duplicateId (zeros 66)
    else answer (s.provisionSlot r serial) .ok ((s.provisionSlot r serial).slotReport r)

def execProvisionSlot (tag : Tag) (payload : List Byte) (s : State) : Host.Outcome State Fault Refusal :=
  fixedRequest 0x40 5 tag payload (provisionSlotRule payload) s

/-! ### UNPROVISION_SLOT (R108) -/

/-- R108: the entry becomes EMPTY, the load falls, and a queued command is removed. -/
def State.unprovisionSlot (s : State) (r : SlotRef) : State :=
  let counted := (s.entry r).presence.counted
  let s1 := s.emptyEntry r
  let s2 := if counted then s1.baseChange r.seg else s1
  (s2.dropDisplay r).reevaluate r

def unprovisionSlotRule (payload : List Byte) (s : State) : Answer :=
  match slotOfNumber (fieldAt payload 0 1) with
  | none => answer s .noSuchSlot []
  | some r =>
    if (s.entry r).kind = .empty then answer s .noSuchSlot []
    else if s.named r then answer s .slotInUse []
    else answer (s.unprovisionSlot r) .ok []

def execUnprovisionSlot (tag : Tag) (payload : List Byte) (s : State) : Host.Outcome State Fault Refusal :=
  fixedRequest 0x41 1 tag payload (unprovisionSlotRule payload) s

/-! ### QUERY_SLOT (R109) -/

def querySlotRule (payload : List Byte) (s : State) : Answer :=
  match slotOfNumber (fieldAt payload 0 1) with
  | none => answer s .noSuchSlot (zeros 66)
  | some r => answer s .ok (s.slotReport r)

def execQuerySlot (tag : Tag) (payload : List Byte) (s : State) : Host.Outcome State Fault Refusal :=
  fixedRequest 0x42 1 tag payload (querySlotRule payload) s

/-! ### DISCOVER (R121) -/

/-- R121: a run's record at its start. -/
def newDiscovery (tag : Tag) (reply : Nat) : Discovery :=
  { tag := tag, reply := reply, rounds := 0, emptyRounds := 0, assigned := 0, noRoom := 0, garbled := 0 }

def discoverRule (tag : Tag) (payload : List Byte) : State → Answer :=
  onSegment payload fun g s =>
    if s.segState g ≠ .running then segRefused s .wrongState
    else if (s.seg g).sup.discovery.isSome then segRefused s .inProgress
    else segAnswer (s.updSup g fun v => { v with discovery := some (newDiscovery tag s.link.nextId) }) g .started

def execDiscover (tag : Tag) (payload : List Byte) (s : State) : Host.Outcome State Fault Refusal :=
  fixedRequest 0x43 1 tag payload (discoverRule tag payload) s

end Sys2Proof.Machine
end

