-- ==== Sys2Proof/Machine/TaskRequests.lean ====
section
/-! DEFINITION. The requests of the task table (chapter 2). -/

namespace Sys2Proof.Machine

/-! ### SUBMIT (R17 to R20) -/

/-- A task record of SUBMIT, as it comes on the link (chapter 10, "Task record of SUBMIT"). -/
structure TaskRecord where
  id : TaskId
  picker : Nat
  slot : Nat
  requested : Nat
  limit : Nat
  presence : Nat
  digit1 : Nat
  digit2 : Nat
  digit3 : Nat
  deriving DecidableEq, Repr

/-- The record whose twelve bytes begin at `at_`. -/
def taskRecordAt (payload : List Byte) (at_ : Nat) : TaskRecord :=
  { id := BitVec.ofNat 16 (fieldAt payload at_ 2), picker := fieldAt payload (at_ + 2) 1
    slot := fieldAt payload (at_ + 3) 1, requested := fieldAt payload (at_ + 4) 2, limit := fieldAt payload (at_ + 6) 2
    presence := fieldAt payload (at_ + 8) 1, digit1 := fieldAt payload (at_ + 9) 1
    digit2 := fieldAt payload (at_ + 10) 1, digit3 := fieldAt payload (at_ + 11) 1 }

/-- The `n` records of a payload. -/
def taskRecords (payload : List Byte) (n : Nat) : List TaskRecord := (List.range n).map fun i => taskRecordAt payload (1 + 12 * i)

/-- A prompt digit, 0 to 9. -/
def promptDigit (n : Nat) : Option (Fin 10) := if h : n < 10 then some ⟨n, h⟩ else none

/-- R18, R182: the prompt code of a record; the outer none is a BAD_VALUE. -/
def TaskRecord.prompt (x : TaskRecord) : Option (Option Digits) :=
  match onOffOf x.presence with
  | none => none
  | some false => some none
  | some true =>
    match promptDigit x.digit1, promptDigit x.digit2, promptDigit x.digit3 with
    | some a, some b, some c => some (some ⟨some a, some b, some c⟩)
    | _, _, _ => none

/-- R15: the expiry limit, clamped to 3600 s; 0 is absent. -/
def TaskRecord.expiry (x : TaskRecord) : Option Nat := if x.limit = 0 then none else some (min 3600 x.limit)

/-- R13: the free entry with the lowest table index. -/
def State.freeIndex (s : State) : Option (Fin 256) :=
  (List.finRange 256).find? fun i => s.tasks.all fun t => t.index ≠ i

/-- A record that has passed the checks of R18. -/
structure CheckedRecord where
  picker : Fin 12
  slot : SlotRef
  prompt : Option Digits
  index : Fin 256
  deriving DecidableEq, Repr

/-- R18: the checks of a record, in order; the first that fails gives the status. -/
def State.checkRecord (s : State) (x : TaskRecord) : Except Status CheckedRecord :=
  match pickerOf x.picker, x.prompt with
  | some p, some prompt =>
    if x.id = 0 ∨ x.requested < 1 ∨ 999 < x.requested then .error .badValue
    else if (s.task? x.id).isSome then .error .duplicateId
    else if (s.picker p).state = .absent then .error .noSuchPicker
    else
      match slotOfNumber x.slot with
      | none => .error .noSuchSlot
      | some r =>
        if (s.entry r).kind = .empty then .error .noSuchSlot
        else if (s.picker p).quota ≤ (s.picker p).openCount then .error .quota
        else
          match s.freeIndex with
          | none => .error .tableFull
          | some i => if Config.waitingSetSize ≤ (s.slot r).waiting.length then .error .slotFull else .ok ⟨p, r, prompt, i⟩
  | _, _ => .error .badValue

/-- R19 steps 1 to 5: the new entry. -/
def State.newTask (s : State) (x : TaskRecord) (c : CheckedRecord) : Task :=
  { index := c.index, id := x.id, picker := c.picker, slot := c.slot, requested := x.requested
    displayed := x.requested, state := if (s.picker c.picker).state = .active then .queued else .paused
    step := if c.prompt.isSome then .prompt else .quantity, stamp := s.submitCounter, limit := x.expiry
    prompt := c.prompt, shownSince := 0, timeLeft := 0, confirmed := 0, endStamp := 0 }

/-- The table keeps its used entries in ascending index. -/
def insertTask (t : Task) : List Task → List Task
  | [] => [t]
  | u :: us => if t.index.val < u.index.val then t :: u :: us else u :: insertTask t us

/-- R19 steps 1 to 7: a record is accepted. -/
def State.acceptTask (s : State) (t : Task) : State :=
  let s1 := { s with tasks := insertTask t s.tasks, submitCounter := s.submitCounter + 1 }
  (s1.updPicker t.picker fun p => { p with openCount := p.openCount + 1 }).updSlot t.slot fun x =>
    { x with waiting := x.waiting ++ [t.id] }

/-- What a batch has come to: the state, the reply's entries, and the slots that gained a QUEUED task. -/
structure Batch where
  state : State
  entries : List Byte
  gained : List SlotRef
  deriving DecidableEq, Repr

/-- R17, R20: one record of a batch. The manual gives no table index and state to the entry of a refused record in the
reply; they are 0 (notes/assumptions/40.md). -/
def Batch.takeRecord (b : Batch) (x : TaskRecord) : Batch :=
  match b.state.checkRecord x with
  | .error st => { b with entries := b.entries ++ [st.code, 0, 0] }
  | .ok c =>
    let t := b.state.newTask x c
    { state := b.state.acceptTask t, entries := b.entries ++ [Status.ok.code, byteOf t.index.val, t.state.code]
      gained := if t.state = .queued then b.gained ++ [t.slot] else b.gained }

/-- R17, R20: the batch, then the slots that gained a QUEUED task select. -/
def submitBatch (records : List TaskRecord) (s : State) : Answer :=
  let b := records.foldl Batch.takeRecord ⟨s, [], []⟩
  answer (b.state.selectAll (allSlots.filter fun r => b.gained.contains r)) .ok b.entries

/-- R17: the checks of the request as a whole. -/
def submitRule (payload : List Byte) (s : State) : Answer :=
  let n := fieldAt payload 0 1
  if payload = [] then answer s .badLength []
  else if n = 0 ∨ 8 < n then answer s .badValue []
  else if payload.length ≠ 1 + 12 * n then answer s .badLength []
  else submitBatch (taskRecords payload n) s

def execSubmit (tag : Tag) (payload : List Byte) (s : State) : Host.Outcome State Fault Refusal :=
  request 0x20 tag payload (submitRule payload) s

/-! ### Naming one task -/

/-- The task a request names: NO_SUCH_TASK, or BAD_VALUE for 0 (R31, R34, R35). -/
def State.named? (s : State) (id : TaskId) : Except Status Task :=
  if id = 0 then .error .badValue
  else
    match s.task? id with
    | none => .error .noSuchTask
    | some t => .ok t

def taskIdAt (payload : List Byte) : TaskId := BitVec.ofNat 16 (fieldAt payload 0 2)

/-- R2, R13: a task's entry is freed and its picker's open count falls by one. -/
def State.dropTask (s : State) (t : Task) : State :=
  (s.freeTask t.id).updPicker t.picker fun p => { p with openCount := p.openCount - 1 }

/-! ### CANCEL (R31, R32) -/

/-- R32: the task's place at its slot, by the state it was in. R32 and R94 do not say whether the attempt and exit check
after the release of a SHOWN task come before the slot's own DARK; they come before it (notes/assumptions/43.md). -/
def State.vacatePlace (s : State) (t : Task) : State :=
  let r := t.slot
  match t.state with
  | .waitLoad => ((s.withdrawAndSettle r).clearCurrent r).select r
  | .shown => (((s.release r).clearCurrent r).darken r).select r
  | .blocked => (s.clearCurrent r).select r
  | _ => s

/-- R32. -/
def State.cancelTask (s : State) (t : Task) : State := ((s.dropTask t).leaveWaiting t.slot t.id).vacatePlace t

def cancelRule (payload : List Byte) (s : State) : Answer :=
  match s.named? (taskIdAt payload) with
  | .error st => answer s st (zeros 1)
  | .ok t =>
    if t.state.terminal then answer s .wrongState [t.state.code] else answer (s.cancelTask t) .ok [t.state.code]

def execCancel (tag : Tag) (payload : List Byte) (s : State) : Host.Outcome State Fault Refusal :=
  fixedRequest 0x21 2 tag payload (cancelRule payload) s

/-! ### RETIRE (R34) -/

def retireRule (payload : List Byte) (s : State) : Answer :=
  match s.named? (taskIdAt payload) with
  | .error st => answer s st (zeros 3)
  | .ok t =>
    if t.state.terminal then
      answer (s.dropTask t) .ok
        (t.state.code :: leBytes 2 (validIn (t.state = .done || t.state = .short) t.confirmed))
    else answer s .wrongState (t.state.code :: zeros 2)

def execRetire (tag : Tag) (payload : List Byte) (s : State) : Host.Outcome State Fault Refusal :=
  fixedRequest 0x22 2 tag payload (retireRule payload) s

/-! ### QUERY_TASK (R35) -/

def queryTaskRule (payload : List Byte) (s : State) : Answer :=
  match s.named? (taskIdAt payload) with
  | .error st => answer s st (zeros 36)
  | .ok t => answer s .ok (taskEntry t (s.segState t.slot.seg))

def execQueryTask (tag : Tag) (payload : List Byte) (s : State) : Host.Outcome State Fault Refusal :=
  fixedRequest 0x23 2 tag payload (queryTaskRule payload) s

/-! ### LIST_TASKS (R36, R37) -/

/-- R36: the filters. An empty state set stands for all eight; an absent picker or segment is none. -/
structure TaskFilter where
  states : Byte
  picker : Option (Fin 12)
  seg : Option Seg
  deriving DecidableEq, Repr

/-- R36: an entry matches. -/
def TaskFilter.matches (f : TaskFilter) (t : Task) : Bool :=
  (f.states = 0 || f.states.getLsbD t.state.code.toNat) &&
    (match f.picker with
      | none => true
      | some p => t.picker = p) &&
    (match f.seg with
      | none => true
      | some g => t.slot.seg = g)

/-- R182: a field that 0xFF marks absent; the outer none is out of range. -/
def optionalField {α : Type} (f : Nat → Option α) (n : Nat) : Option (Option α) :=
  if n = 0xFF then some none else (f n).map some

/-- R36: the filters of a payload; none is BAD_VALUE. -/
def taskFilterOf (payload : List Byte) : Option TaskFilter :=
  match optionalField pickerOf (fieldAt payload 3 1), optionalField segOf (fieldAt payload 4 1) with
  | some p, some g => some ⟨byteOf (fieldAt payload 2 1), p, g⟩
  | _, _ => none

/-- R37: the cursor after the summaries taken; END is 0xFFFF. -/
def nextCursor (taken : List Task) : Nat :=
  if taken.length < Config.listSize then 0xFFFF
  else
    match taken.getLast? with
    | some t => if t.index.val = 255 then 0xFFFF else t.index.val + 1
    | none => 0xFFFF

/-- R37: the entries summarised. -/
def State.listed (s : State) (f : TaskFilter) (cursor : Nat) : List Task :=
  (s.tasks.filter fun t => cursor ≤ t.index.val && f.matches t).take Config.listSize

def listTasksRule (payload : List Byte) (s : State) : Answer :=
  let cursor := fieldAt payload 0 2
  match taskFilterOf payload with
  | none => answer s .badValue (zeros 3)
  | some f =>
    if 255 < cursor then answer s .badValue (zeros 3)
    else
      let ts := s.listed f cursor
      answer s .ok (leBytes 2 (nextCursor ts) ++ [byteOf ts.length] ++ ts.flatMap taskSummary)

def execListTasks (tag : Tag) (payload : List Byte) (s : State) : Host.Outcome State Fault Refusal :=
  fixedRequest 0x24 5 tag payload (listTasksRule payload) s

/-! ### CLEAR_TASKS (R38) -/

/-- R38 steps 1, 2 and 5: entries, waiting sets, current tasks, open counts and captures. -/
def State.forgetTasks (s : State) : State :=
  { s with
    tasks := []
    pickers := s.pickers.map fun p => { p with openCount := 0 }
    captures := Vector.replicate 16 none
    segs := s.segs.map fun x =>
      { x with slots := x.slots.map fun y => { y with waiting := [], current := none, tenure := none } } }

/-- R38 step 4 on one segment. -/
def State.clearGovernor (s : State) (g : Seg) : State :=
  let on := (s.gov g).economy
  let s1 := (s.updGov g fun v => { v with lit := [], queue := [], economy := false }).recompute g
  if on then s1.notify (.loadEconomy g false) else s1

/-- R38: the whole clear. The manual gives no order in which the slots of one segment go dark; they do in ascending
slot number (notes/assumptions/35.md). -/
def State.clearTasks (s : State) : State :=
  allSegs.foldl State.clearGovernor (allSlots.foldl State.clearShadow s.forgetTasks)

def clearTasksRule (s : State) : Answer := answer s.clearTasks .ok (leBytes 2 s.tasks.length)

def execClearTasks (tag : Tag) (payload : List Byte) (s : State) : Host.Outcome State Fault Refusal :=
  fixedRequest 0x05 0 tag payload clearTasksRule s

end Sys2Proof.Machine
end

