-- ==== Sys2Proof/Machine/Dispatch.lean ====
section
/-! DEFINITION. The dispatch: one arm for each command, one direct call of its meaning. -/

namespace Sys2Proof.Machine

def exec (i : Instr) (s : State) : Host.Outcome State Fault Refusal :=
  match i with
  | .reset => Sys2Proof.Machine.execReset s
  | .frameReceived bytes => Sys2Proof.Machine.execFrameReceived bytes s
  | .frameTimedOut => Sys2Proof.Machine.execFrameTimedOut s
  | .frameSent => Sys2Proof.Machine.execFrameSent s
  | .unknownKindRequest kind tag payload => Sys2Proof.Machine.execUnknownKindRequest kind tag payload s
  | .identify tag payload => Sys2Proof.Machine.execIdentify tag payload s
  | .readTime tag payload => Sys2Proof.Machine.execReadTime tag payload s
  | .setLinkRate tag payload => Sys2Proof.Machine.execSetLinkRate tag payload s
  | .restart tag payload => Sys2Proof.Machine.execRestart tag payload s
  | .clearTasks tag payload => Sys2Proof.Machine.execClearTasks tag payload s
  | .setPicker tag payload => Sys2Proof.Machine.execSetPicker tag payload s
  | .pausePicker tag payload => Sys2Proof.Machine.execPausePicker tag payload s
  | .resumePicker tag payload => Sys2Proof.Machine.execResumePicker tag payload s
  | .dropPicker tag payload => Sys2Proof.Machine.execDropPicker tag payload s
  | .submit tag payload => Sys2Proof.Machine.execSubmit tag payload s
  | .cancel tag payload => Sys2Proof.Machine.execCancel tag payload s
  | .retire tag payload => Sys2Proof.Machine.execRetire tag payload s
  | .queryTask tag payload => Sys2Proof.Machine.execQueryTask tag payload s
  | .listTasks tag payload => Sys2Proof.Machine.execListTasks tag payload s
  | .armCapture tag payload => Sys2Proof.Machine.execArmCapture tag payload s
  | .disarmCapture tag payload => Sys2Proof.Machine.execDisarmCapture tag payload s
  | .setSegment tag payload => Sys2Proof.Machine.execSetSegment tag payload s
  | .setColourCurrents tag payload => Sys2Proof.Machine.execSetColourCurrents tag payload s
  | .segmentPower tag payload => Sys2Proof.Machine.execSegmentPower tag payload s
  | .breakSegment tag payload => Sys2Proof.Machine.execBreakSegment tag payload s
  | .holdSegment tag payload => Sys2Proof.Machine.execHoldSegment tag payload s
  | .releaseSegment tag payload => Sys2Proof.Machine.execReleaseSegment tag payload s
  | .rawExchange tag payload => Sys2Proof.Machine.execRawExchange tag payload s
  | .provisionSlot tag payload => Sys2Proof.Machine.execProvisionSlot tag payload s
  | .unprovisionSlot tag payload => Sys2Proof.Machine.execUnprovisionSlot tag payload s
  | .querySlot tag payload => Sys2Proof.Machine.execQuerySlot tag payload s
  | .discover tag payload => Sys2Proof.Machine.execDiscover tag payload s
  | .readStats tag payload => Sys2Proof.Machine.execReadStats tag payload s
  | .poll seg heard => Sys2Proof.Machine.execPoll seg heard s
  | .showDisplay seg heard => Sys2Proof.Machine.execShowDisplay seg heard s
  | .digits seg heard => Sys2Proof.Machine.execDigits seg heard s
  | .dark seg heard => Sys2Proof.Machine.execDark seg heard s
  | .ident seg heard => Sys2Proof.Machine.execIdent seg heard s
  | .assign seg heard => Sys2Proof.Machine.execAssign seg heard s
  | .sync seg taken => Sys2Proof.Machine.execSync seg taken s
  | .enumerate seg round => Sys2Proof.Machine.execEnumerate seg round s
  | .rawExchangeEnd seg heard => Sys2Proof.Machine.execRawExchangeEnd seg heard s
  | .breakEnd seg => Sys2Proof.Machine.execBreakEnd seg s
  | .settleEnd seg => Sys2Proof.Machine.execSettleEnd seg s
  | .quietEnd seg => Sys2Proof.Machine.execQuietEnd seg s
  | .lineSenseProbe seg observation => Sys2Proof.Machine.execLineSenseProbe seg observation s
  | .supplyTrip seg => Sys2Proof.Machine.execSupplyTrip seg s
  | .taskExpiry task => Sys2Proof.Machine.execTaskExpiry task s
  | .blinkPhaseAdvance => Sys2Proof.Machine.execBlinkPhaseAdvance s
  | .tripInputReturnToClear seg => Sys2Proof.Machine.execTripInputReturnToClear seg s
  | .buttonPress serial button => Sys2Proof.Machine.execButtonPress serial button s
  | .buttonRelease serial button => Sys2Proof.Machine.execButtonRelease serial button s
  | .moduleReset seg serial address replaced => Sys2Proof.Machine.execModuleReset seg serial address replaced s

end Sys2Proof.Machine
end

