-- ==== Sys2Proof/Safety.lean ====
section
/-! DEFINITION. The terms that claims are stated in: which request a command carries, when the decoder takes it and
what a taken request leaves on the link, what the part's own blocks leave alone, and what holds in every state the
part can be in between two commands. -/

namespace Sys2Proof.Machine

/-! ### The request a command carries -/

/-- The request a row of the link stands for: kind code, tag and payload (chapter 10, "Request kind codes"). -/
def requestOf : Instr → Option Request
  | .unknownKindRequest kind tag payload => some ⟨kind, tag, payload⟩
  | .identify tag payload => some ⟨0x01, tag, payload⟩
  | .readTime tag payload => some ⟨0x02, tag, payload⟩
  | .setLinkRate tag payload => some ⟨0x03, tag, payload⟩
  | .restart tag payload => some ⟨0x04, tag, payload⟩
  | .clearTasks tag payload => some ⟨0x05, tag, payload⟩
  | .setPicker tag payload => some ⟨0x10, tag, payload⟩
  | .pausePicker tag payload => some ⟨0x11, tag, payload⟩
  | .resumePicker tag payload => some ⟨0x12, tag, payload⟩
  | .dropPicker tag payload => some ⟨0x13, tag, payload⟩
  | .submit tag payload => some ⟨0x20, tag, payload⟩
  | .cancel tag payload => some ⟨0x21, tag, payload⟩
  | .retire tag payload => some ⟨0x22, tag, payload⟩
  | .queryTask tag payload => some ⟨0x23, tag, payload⟩
  | .listTasks tag payload => some ⟨0x24, tag, payload⟩
  | .armCapture tag payload => some ⟨0x28, tag, payload⟩
  | .disarmCapture tag payload => some ⟨0x29, tag, payload⟩
  | .setSegment tag payload => some ⟨0x30, tag, payload⟩
  | .setColourCurrents tag payload => some ⟨0x31, tag, payload⟩
  | .segmentPower tag payload => some ⟨0x32, tag, payload⟩
  | .breakSegment tag payload => some ⟨0x33, tag, payload⟩
  | .holdSegment tag payload => some ⟨0x34, tag, payload⟩
  | .releaseSegment tag payload => some ⟨0x35, tag, payload⟩
  | .rawExchange tag payload => some ⟨0x36, tag, payload⟩
  | .provisionSlot tag payload => some ⟨0x40, tag, payload⟩
  | .unprovisionSlot tag payload => some ⟨0x41, tag, payload⟩
  | .querySlot tag payload => some ⟨0x42, tag, payload⟩
  | .discover tag payload => some ⟨0x43, tag, payload⟩
  | .readStats tag payload => some ⟨0x50, tag, payload⟩
  | .reset | .frameReceived _ | .frameTimedOut | .frameSent | .poll _ _ | .showDisplay _ _ | .digits _ _ | .dark _ _
  | .ident _ _ | .assign _ _ | .sync _ _ | .enumerate _ _ | .rawExchangeEnd _ _ | .breakEnd _ | .settleEnd _
  | .quietEnd _ | .lineSenseProbe _ _ | .supplyTrip _ | .taskExpiry _ | .blinkPhaseAdvance
  | .tripInputReturnToClear _ | .buttonPress _ _ | .buttonRelease _ _ | .moduleReset _ _ _ _ => none

/-- The payload length a request kind calls for, where it is one length (chapter 10, "Request payloads"). SUBMIT and
RAW_EXCHANGE have lengths of their own, and an unknown kind none. -/
def fixedLength (kind : Byte) : Option Nat :=
  match kind.toNat with
  | 0x01 | 0x02 | 0x04 | 0x05 => some 0
  | 0x03 => some 4
  | 0x10 => some 7
  | 0x11 | 0x12 | 0x13 | 0x33 | 0x34 | 0x35 | 0x41 | 0x42 | 0x43 => some 1
  | 0x21 | 0x22 | 0x23 | 0x32 | 0x50 => some 2
  | 0x24 | 0x40 => some 5
  | 0x28 | 0x29 => some 3
  | 0x30 => some 26
  | 0x31 => some 8
  | _ => none

/-! ### Rest: the part between two commands -/

/-- R135, R137, R138, R166, R170: what a free line of the segment still had to do has been done. -/
def LineSettled (x : Segment) : Prop :=
  x.line.idle = true →
    (x.sup.state = .running →
      x.line.activeMs = 0 →
        x.sup.breakPending = false ∧ x.line.syncDue = false ∧ x.line.services = [] ∧ x.line.displays = [] ∧
          x.line.passEnded = true ∧ x.line.passHeld = true ∧ x.sup.discovery = none) ∧
    x.sup.state ≠ .holding

/-- Every line has chosen (R137) and the transmitter has looked at its sources (R178). -/
structure AtRest (s : State) : Prop where
  lines : ∀ g, LineSettled (s.seg g)
  link : s.link.kick = s.link

/-! ### Taking a request -/

/-- R174, R175, R181: the decoder takes this request now: it is the head of the request list, or, with the list empty
and the framer HUNTING, its frame arrives now; the reply list has room and no RESTART has been taken. -/
structure Reaches (s : State) (f : Request) : Prop where
  head : s.link.requests.head? = some f ∨ s.link.requests = [] ∧ s.link.rx = []
  room : s.link.replies.length < Config.replyListSize
  going : s.link.stopped = false

/-- R174, R175: the request has left the request list; a frame that arrives now has been counted; notices queued from
here on wait for its reply (R178). -/
def State.begun (s : State) : State :=
  s.updLink fun l =>
    { l with
      requests := l.requests.tail, taking := some l.nextId
      counters := if l.requests = [] then { l.counters with framesReceived := l.counters.framesReceived + 1 } else l.counters }

/-- R174, R178: a reply joins the reply list, or is sent at once by a transmitter that is free. -/
def Link.withReply (l : Link) (r : Reply) : Link :=
  if l.sending.isSome then { l with replies := l.replies ++ [r] } else { l with sending := some (.reply r) }

/-- R175: the reply to the request that has been taken: its kind code plus 0x80, its tag, the status byte and the
data. -/
def State.replied (s : State) (kind : Byte) (tag : Tag) (payload : List Byte) (after : AfterSent) : State :=
  s.updLink fun l =>
    ({ l with nextId := l.nextId + 1, taking := none } : Link).withReply ⟨l.nextId, replyKind kind, tag, payload, after⟩

/-! ### What the part's own blocks leave as it is -/

/-- The fields of a task that are fixed at SUBMIT (R19). -/
def Task.fixed (t : Task) : Task :=
  { t with displayed := 0, state := .queued, step := .quantity, shownSince := 0, timeLeft := 0, confirmed := 0, endStamp := 0 }

/-- The link without its notices. -/
def Link.quiet (l : Link) : Link :=
  { l with notices := [], dropMark := false, counters := { l.counters with noticesDropped := 0 } }

/-- What the blocks below the requests leave as it is: the time base, the modules, the pickers, the configuration, the
trip inputs, the link but for its notices, and the fixed fields of the tasks. -/
structure Untouched where
  link : Link
  pickers : Vector Picker 12
  tasks : List Task
  submitCounter : Stamp
  currents : Vector Nat 7
  configs : Vector SegConfig 4
  trips : Vector Bool 4
  time : Stamp
  phase : Fin 8
  phaseMs : Nat
  modules : List Module
  ties : Nat
  pending : List Instr

def State.untouched (s : State) : Untouched :=
  { link := s.link.quiet, pickers := s.pickers, tasks := s.tasks.map Task.fixed, submitCounter := s.submitCounter
    currents := s.currents, configs := s.segs.map Segment.config, trips := s.segs.map Segment.trip, time := s.time
    phase := s.phase, phaseMs := s.phaseMs, modules := s.modules, ties := s.ties, pending := s.pending }

/-- The same but for what the transmitter is sending: a notice queued by an event may be sent at once. -/
def State.still (s : State) : Untouched :=
  { s.untouched with link := { s.link.quiet with sending := none } }

/-- The segments other than `g`, each with its line, supply, entries, slots, governor, tracker and counters. -/
def State.away (s : State) (g : Seg) : Vector (Option Segment) 4 :=
  Vector.ofFn fun h => if h = g then none else some s.segs[h]

/-! ### Terms of the rules -/

/-- R6, R9: the picker holds the current task of some slot. -/
def State.holdsSlot (s : State) (p : Fin 12) : Prop :=
  ∃ t ∈ s.tasks, t.picker = p ∧ (t.state = .waitLoad ∨ t.state = .shown ∨ t.state = .blocked)

/-- R5: another picker that is not ABSENT holds the style. -/
def State.styleElsewhere (s : State) (p : Fin 12) (c : Fin 8) (pat : Pattern) : Prop :=
  ∃ o : Fin 12, o ≠ p ∧ (s.picker o).state ≠ .absent ∧ (s.picker o).colour = c ∧ (s.picker o).pattern = pat

/-- R9 step 2: the states that PAUSE_PICKER takes a task out of. -/
def Task.live (t : Task) : Bool :=
  t.state = .queued || t.state = .waitLoad || t.state = .shown || t.state = .blocked

/-- R55: a shadow that goes dark: with the next seq, unless it is dark already. -/
def Shadow.darkened (x : Shadow) : Shadow :=
  match x.owner with
  | none => x
  | some _ =>
    { seq := x.seq + 1, owner := none, colour := 0, pattern := .steady, rotation := 0, level := 16
      digits := ⟨none, none, none⟩ }

/-- R171, R182: the fields of a SET_SEGMENT that are refused with BAD_VALUE: a mask bit without a field, or a line rate, an
interval or an on/off field given at another than its values. -/
def segmentFieldsBad (payload : List Byte) : Prop :=
  let mask := fieldAt payload 1 3
  2 ^ 17 ≤ mask ∨
    (mask.testBit 0 ∧ fieldAt payload 4 2 ∉ [192, 384, 768]) ∨
    (mask.testBit 10 ∧ fieldAt payload 18 1 ∉ [1, 16, 64]) ∨
    (mask.testBit 13 ∧ 1 < fieldAt payload 21 1) ∨ (mask.testBit 14 ∧ 1 < fieldAt payload 22 1) ∨
    (mask.testBit 15 ∧ 1 < fieldAt payload 23 1)

/-- The commands that end an addressed exchange, with the kind of exchange each ends. -/
def lineEnds (g : Seg) (h : Heard) : List (Instr × LineKind) :=
  [(.poll g h, .poll), (.showDisplay g h, .showCmd), (.digits g h, .digits), (.dark g h, .dark), (.ident g h, .ident),
   (.assign g h, .assign)]

/-- A reply stands in the reply list or is being sent. -/
def Link.carries (l : Link) (r : Reply) : Prop := r ∈ l.replies ∨ l.sending = some (.reply r)

/-- R115, R162 step 6: an entry of a segment that leaves service. -/
def Entry.dropped (e : Entry) : Entry :=
  { e with
    presence := .absent, goodRun := 0, missRun := 0, skip := 7, wasPresent := false
    press := { e.press with confirmHeld := none, adjustHeld := none, confirmStuck := false, adjustStuck := false } }

/-- R162: what leaving service has made of segment `g` of `s`. -/
structure LeftService (s t : State) (g : Seg) (new : SegState) (cause : Option FaultCause) : Prop where
  state : (t.seg g).sup.state = new
  cause : (t.seg g).sup.cause = cause
  supply : (t.seg g).sup.supply = false
  operations : (t.seg g).sup.breakPending = false ∧ (t.seg g).sup.holdTag = none ∧ (t.seg g).sup.raw = none ∧
    (t.seg g).sup.discovery = none
  line : (t.seg g).line.inFlight = none ∧ (t.seg g).line.breaking = false ∧ (t.seg g).line.displays = [] ∧
    (t.seg g).line.services = [] ∧ (t.seg g).line.syncDue = false
  entries : ∀ ix : Fin 62, (t.seg g).entries[ix] = ((s.seg g).entries[ix]).dropped
  slots : ∀ ix : Fin 62, ((t.seg g).slots[ix]).serviceable = false ∧
    ((t.seg g).slots[ix]).current = ((s.seg g).slots[ix]).current ∧
    ((t.seg g).slots[ix]).waiting = ((s.seg g).slots[ix]).waiting
  tasks : ∀ ix : Fin 62, ∀ x, t.currentTask ⟨g, ix⟩ = some x → x.state ≠ .waitLoad ∧ x.state ≠ .shown
  governor : (t.seg g).gov = Governor.reset
  others : t.away g = s.away g

/-- R177, R178: the notices that these bodies become, queued one after the other now with room for all of them, each with
the number of the reply it waits for. -/
def State.noticesOf (s : State) : List (NoticeBody × Option Nat) → List Notice
  | [] => []
  | x :: rest => ⟨s.time, s.link.dropMark, x.1, x.2⟩ :: rest.map fun y => ⟨s.time, false, y.1, y.2⟩

/-- R47: the slot's current task, if it has one in WAIT_LOAD or SHOWN. -/
def State.blockable (s : State) (r : SlotRef) : Option Task :=
  (s.currentTask r).filter fun u => u.state = .waitLoad || u.state = .shown

/-- R162 steps 4, 7 and 8: the notices behind those of the change of state itself: the OPERATION_DONEs of what is ended
ABORTED, the TASK_BLOCKEDs in ascending slot number, and the end of economy. -/
def State.endNotices (s : State) (g : Seg) : List (NoticeBody × Option Nat) :=
  let v := (s.seg g).sup
  let ended := fun (reply : Nat) (tag : Tag) (op : Operation) (figures : Figures) =>
    (NoticeBody.operationDone tag g op .aborted figures, some (s.link.taking.getD reply))
  (v.discovery.toList.map fun d =>
      ended d.reply d.tag .discover (.discover d.rounds d.assigned d.noRoom d.garbled)) ++
    (v.holdTag.toList.map fun tag => ended v.holdReply tag .hold .none) ++
    (v.raw.toList.map fun x => ended x.reply x.tag .rawExchange .none) ++
    (allIx.filterMap fun ix => (s.blockable ⟨g, ix⟩).map fun u =>
      (NoticeBody.taskBlocked u.id ⟨g, ix⟩ u.picker .segmentDown, s.link.taking)) ++
    (if (s.seg g).gov.economy then [(.loadEconomy g false, s.link.taking)] else [])

/-- R22, R47, R48, R55, R102, R162: what the end of service on segment `g` does to the tasks and shadows of its slots, and
the notices it queues: those of the event that ended it (`first`), and then its own. -/
structure ServiceEnded (s t : State) (g : Seg) (first : List NoticeBody) : Prop where
  blocked : ∀ ix u, s.blockable ⟨g, ix⟩ = some u → t.task? u.id = some { u with state := .blocked, timeLeft := 0 }
  others : ∀ id, (∀ ix, (s.slot ⟨g, ix⟩).current ≠ some id) → t.task? id = s.task? id
  dark : ∀ ix u, s.blockable ⟨g, ix⟩ = some u → (∀ jx < ix, (s.slot ⟨g, jx⟩).current ≠ some u.id) →
    t.shadow ⟨g, ix⟩ = (s.shadow ⟨g, ix⟩).darkened
  kept : ∀ ix, s.blockable ⟨g, ix⟩ = none → t.shadow ⟨g, ix⟩ = s.shadow ⟨g, ix⟩
  notices : (∀ ix jx id, (s.slot ⟨g, ix⟩).current = some id → (s.slot ⟨g, jx⟩).current = some id → ix = jx) →
    let queued := first.map (fun b => (b, s.link.taking)) ++ s.endNotices g
    s.link.notices.length + queued.length ≤ 32 → t.link.notices = s.link.notices ++ s.noticesOf queued

/-! ### The choice of a free line (R114, R137 to R139, R143) -/

/-- The exchange is in flight; it is then the latest on the segment. -/
def Segment.sends (x : Segment) (e : Exchange) : Segment :=
  { x with line := { x.line with inFlight := some e, latestPoll := decide (e.kind = .poll) } }

/-- R143: a service command at the head that has nothing to speak to. -/
def Segment.mute (x : Segment) : ServiceCmd → Bool
  | .ident ix => x.entries[ix].kind = .empty || x.entries[ix].presence = .absent || x.entries[ix].presence = .lost
  | .assign _ ix => x.entries[ix].kind = .empty

/-- R143: a service command is sent: IDENT to its address; ASSIGN to address 0, with the new address as its target. -/
def Segment.sendsService (x : Segment) (rest : List ServiceCmd) (c : ServiceCmd) : Segment :=
  { x with line := { x.line with services := rest } }.sends (match c with
    | .ident ix => ⟨.ident, byteOf (ix.val + 1), [], some ix, false, .gap⟩
    | .assign serial ix => ⟨.assign, 0, leBytes 4 serial.toNat ++ [byteOf (ix.val + 1)], some ix, false, .gap⟩)

/-- R139: a display command is sent, built from the shadow as it stands. -/
def Segment.sendsDisplay (x : Segment) (rest : List DisplayCmd) (d : DisplayCmd) : Segment :=
  let sh := x.slots[d.ix].shadow
  let seq : Byte := sh.seq.setWidth 8
  let frame := fun (kind : LineKind) (payload : List Byte) =>
    (⟨kind, byteOf (d.ix.val + 1), payload, some d.ix, false, .gap⟩ : Exchange)
  { x with line := { x.line with displays := rest } }.sends (match d.kind with
    | .showCmd => frame .showCmd
        ([seq, byteOf sh.colour.val, sh.pattern.code, byteOf sh.rotation.val, byteOf sh.level] ++ sh.digits.bytes)
    | .digitsCmd => frame .digits (seq :: sh.digits.bytes)
    | .darkCmd => frame .dark [seq])

/-- R114: a visit to the entry is a poll. -/
def Entry.takesPoll (e : Entry) : Bool :=
  e.kind ≠ .empty && (e.presence ≠ .absent && e.presence ≠ .lost || 7 ≤ e.skip)

/-- R138: the lowest entry above the position whose visit is a poll. -/
def Segment.nextPoll (x : Segment) : Option (Fin 62) :=
  allIx.find? fun ix => x.line.position < ix.val + 1 && x.entries[ix].takesPoll

/-- R114, R138: the entries after the search: the skip count of each silent one visited has moved, from 7 to 0. -/
def Segment.searched (x : Segment) (found : Option (Fin 62)) : Vector Entry 62 :=
  Vector.ofFn fun k : Fin 62 =>
    let e := x.entries[k]
    if x.line.position < k.val + 1 ∧ (∀ ix, found = some ix → k ≤ ix) ∧ e.kind ≠ .empty ∧
        (e.presence = .absent ∨ e.presence = .lost) then
      { e with skip := if 7 ≤ e.skip then 0 else e.skip + 1 }
    else e

/-- R138: the search has found a poll, which is sent; the position is its address. -/
def Segment.polls (x : Segment) (ix : Fin 62) : Segment :=
  { x with
    entries := x.searched (some ix)
    line := { x.line with position := ix.val + 1, passPolled := true } }.sends
      ⟨.poll, byteOf (ix.val + 1), [], some ix, false, .gap⟩

/-- R138: the search has found none, and the pass ends; the next is held back if this one sent no poll. -/
def Segment.endsPass (x : Segment) : Segment :=
  { x with
    entries := x.searched none
    line := { x.line with position := 0, passEnded := true, passHeld := !x.line.passPolled } }

/-- R138: a pass begins. -/
def Segment.beginsPass (x : Segment) : Segment :=
  { x with line := { x.line with passEnded := false, passPolled := false, passHeld := false } }

/-- R137 item 4, R138, R144: at the end of a pass: a discovery round, after which the next pass begins; nothing, where the
next pass is held back until a SYNC; or the next pass, whose first poll is sent, and which ends at once if it has none. -/
structure PassEndChoice (x y : Segment) : Prop where
  round : x.sup.discovery ≠ none → y = x.beginsPass.sends ⟨.enumerate, 0, [8], none, false, .gap⟩
  held : x.sup.discovery = none → x.line.passHeld = true → y = x
  poll : x.sup.discovery = none → x.line.passHeld = false → ∀ ix, x.nextPoll = some ix → y = x.beginsPass.polls ix
  none : x.sup.discovery = none → x.line.passHeld = false → x.nextPoll = none → y = x.beginsPass.endsPass

/-- R137 items 3 and 4: a display command after a poll or with the pass ended, and a poll otherwise; a search that ends the
pass leaves the choice to the display command, and with none to item 4. -/
structure TrafficChoice (x y : Segment) : Prop where
  display : ∀ d ds, x.line.displays = d :: ds → x.line.latestPoll = true ∨ x.line.passEnded = true → y = x.sendsDisplay ds d
  poll : x.line.displays = [] ∨ x.line.latestPoll = false → x.line.passEnded = false →
    ∀ ix, x.nextPoll = some ix → y = x.polls ix
  noPoll : ∀ d ds, x.line.displays = d :: ds → x.line.latestPoll = false → x.line.passEnded = false → x.nextPoll = none →
    y = x.endsPass.sendsDisplay ds d
  ends : x.line.displays = [] → x.line.passEnded = false → x.nextPoll = none → PassEndChoice x.endsPass y
  ended : x.line.displays = [] → x.line.passEnded = true → PassEndChoice x y

/-- R137: what the scheduler of a RUNNING segment whose line is free makes of the segment: SYNC if it is due; else the
first service command with something to speak to, those before it dropped; else the traffic. The exchange is in flight from
then on (notes/assumptions/11.md). -/
structure SchedulerChoice (x y : Segment) : Prop where
  sync : x.line.syncDue = true → y = x.sends ⟨.sync, 63, [], none, false, .gap⟩
  service : x.line.syncDue = false → ∀ c rest, x.line.services.dropWhile x.mute = c :: rest → y = x.sendsService rest c
  traffic : x.line.syncDue = false → x.line.services.dropWhile x.mute = [] →
    TrafficChoice { x with line := { x.line with services := [] } } y

/-- Within the next `n` ms no event of the clock other than `c` falls due, and no line that is active after a held line
comes free. -/
structure State.Undisturbed (s : State) (c : Option ClockEvent) (n : Nat) : Prop where
  phase : c ≠ some .phase → s.phaseMs + n < 125
  frame : c ≠ some .frameTimeout → s.link.rx ≠ [] → s.link.gapMs + n < 21
  settle : ∀ g, c ≠ some (.settleEnd g) → (s.seg g).sup.state = .starting → (s.seg g).sup.stage = .settle →
    n < s.msUntil (s.seg g).sup.stageEnd
  quiet : ∀ g, c ≠ some (.quietEnd g) → (s.seg g).sup.state = .starting → (s.seg g).sup.stage = .quiet →
    n < s.msUntil (s.seg g).sup.stageEnd
  timers : ∀ u ∈ s.tasks, c ≠ some (.expiry u.id) → u.state = .shown → u.limit ≠ none →
    (s.seg u.slot.seg).sup.state = .running → n < u.timeLeft
  lines : ∀ g, (s.seg g).line.activeMs = 0 ∨ n < (s.seg g).line.activeMs

/-! ### What holds between two commands -/

/-- R174, R177: the lists of the host link hold no more than they have room for. -/
structure LinkBounded (l : Link) : Prop where
  requests : l.requests.length ≤ Config.requestListSize
  replies : l.replies.length ≤ Config.replyListSize
  notices : l.notices.length ≤ Config.noticeQueueSize

/-- R1: the values a picker record can hold. -/
def Picker.inRange (x : Picker) : Prop :=
  if x.state = .absent then x = Picker.reset
  else x.colour ≠ 0 ∧ 1 ≤ x.level ∧ x.level ≤ 16 ∧ x.priority ≤ 3 ∧ 1 ≤ x.quota ∧ x.quota ≤ 255

/-- R1, R2, R5: the picker table on its own. -/
structure PickersSound (ps : Vector Picker 12) : Prop where
  ranges : ∀ p : Fin 12, ps[p].inRange
  quotas : ∀ p : Fin 12, ps[p].openCount ≤ ps[p].quota
  styles : ∀ p q : Fin 12, p ≠ q → ps[p].state ≠ .absent → ps[q].state ≠ .absent →
    ¬(ps[p].colour = ps[q].colour ∧ ps[p].pattern = ps[q].pattern)

/-- R13, R18, R31: the task table: distinct ids, none of them 0, one entry for each index in use, quantities in
range. -/
structure TasksSound (ts : List Task) : Prop where
  ids : (ts.map Task.id).Nodup
  nonzero : ∀ t ∈ ts, t.id ≠ 0
  indexes : ts.Pairwise fun a b => a.index.val < b.index.val
  requested : ∀ t ∈ ts, 1 ≤ t.requested ∧ t.requested ≤ 999

/-- R2: the pickers and the task table agree: an open count is the number of used entries that name the picker. -/
structure TableSound (s : State) : Prop where
  pickers : PickersSound s.pickers
  tasks : TasksSound s.tasks
  counts : ∀ p : Fin 12, s.pickers[p].openCount = s.tasks.countP fun t => t.picker = p

/-- R41 to R43, R51, R52: a slot record: the waiting set names tasks of the slot that have not ended, each once; the
current task is one of them in WAIT_LOAD, SHOWN or BLOCKED; and the shadow belongs to it with its step and digits exactly
while it is SHOWN, and is dark otherwise. -/
structure SlotSound (s : State) (r : SlotRef) : Prop where
  room : (s.slot r).waiting.length ≤ 8
  distinct : (s.slot r).waiting.Nodup
  members : ∀ id ∈ (s.slot r).waiting, ∃ u ∈ s.tasks, u.id = id ∧ u.slot = r ∧ u.state.terminal = false
  current : ∀ id, (s.slot r).current = some id → ∃ u ∈ s.tasks, u.id = id ∧ u.slot = r ∧ u.state.isCurrent = true
  tenure : (s.slot r).current = none → (s.slot r).tenure = none
  owned : ∀ u, s.currentTask r = some u → u.state = .shown →
    (s.shadow r).owner = some ⟨u.id, u.step⟩ ∧
      (s.shadow r).digits = match u.step with
        | .prompt => u.prompt.getD ⟨none, none, none⟩
        | .quantity => quantityDigits u.displayed
  dark : (∀ u, s.currentTask r = some u → u.state ≠ .shown) →
    s.shadow r =
      { seq := (s.shadow r).seq, owner := none, colour := 0, pattern := .steady, rotation := 0, level := 16
        digits := ⟨none, none, none⟩ }

/-- R88, R89: a segment's admission queue and lit list on the one side, and the tasks and shadows of its slots on the
other. -/
structure GovernorSound (s : State) (g : Seg) : Prop where
  queueSlots : ((s.gov g).queue.map Admission.ix).Nodup
  queue : ∀ a ∈ (s.gov g).queue, ∃ u ∈ s.tasks, u.id = a.task ∧ u.slot = ⟨g, a.ix⟩ ∧ u.state = .waitLoad ∧
    (s.slot ⟨g, a.ix⟩).tenure = some a.stamp
  litSlots : ((s.gov g).lit.map LitEntry.ix).Nodup
  lit : ∀ e ∈ (s.gov g).lit, ∃ u ∈ s.tasks, u.id = e.task ∧ u.slot = ⟨g, e.ix⟩ ∧ u.state = .shown
  styles : ∀ e ∈ (s.gov g).lit, (s.shadow ⟨g, e.ix⟩).colour = e.colour ∧ (s.shadow ⟨g, e.ix⟩).pattern = e.pattern ∧
    (s.shadow ⟨g, e.ix⟩).rotation = e.rotation ∧ (s.shadow ⟨g, e.ix⟩).level = e.effective

/-- R42, R43, R52, R88, R89: the task table, the slots and the governors agree: every task that has not ended waits at its
slot; one in WAIT_LOAD, SHOWN or BLOCKED is its slot's current task; a task is in WAIT_LOAD exactly when its request stands
in its segment's admission queue, with the tenure's stamp, and SHOWN exactly when it is lit. -/
structure ArbiterSound (s : State) : Prop where
  slots : ∀ r, SlotSound s r
  governors : ∀ g, GovernorSound s g
  waits : ∀ u ∈ s.tasks, u.state.terminal = false → u.id ∈ (s.slot u.slot).waiting
  currents : ∀ u ∈ s.tasks, u.state.isCurrent = true → (s.slot u.slot).current = some u.id
  tenures : ∀ u ∈ s.tasks, u.state = .shown → (s.slot u.slot).tenure.isSome = true
  queued : ∀ u ∈ s.tasks, u.state = .waitLoad → ∃ a ∈ (s.gov u.slot.seg).queue, a.task = u.id
  lit : ∀ u ∈ s.tasks, u.state = .shown → ∃ e ∈ (s.gov u.slot.seg).lit, e.task = u.id

/-- R104, R105: a directory entry's serials and binding by its kind; an EMPTY entry holds its reset values. -/
def Entry.Sound (e : Entry) : Prop :=
  match e.kind with
  | .empty => e = Entry.reset
  | .provisioned => ∃ x, e.expected = some x ∧ e.binding = match e.seen with
    | none => .unbound
    | some y => if y = x then .bound else .mismatch
  | .learned => e.expected = none ∧ e.seen.isSome = true ∧ e.binding = .bound

/-- R104 to R106, R118: the directory: sound entries, no two of which have seen one serial, and no two of which expect
one. -/
structure DirectorySound (s : State) : Prop where
  entries : ∀ r, (s.entry r).Sound
  seen : ∀ q r n, (s.entry q).seen = some n → (s.entry r).seen = some n → q = r
  expected : ∀ q r n, (s.entry q).expected = some n → (s.entry r).expected = some n → q = r

/-- R139, R143: a line's queues: one display command for an address, at most 16 service commands, and one IDENT for an
address. -/
structure QueuesSound (l : LineCtl) : Prop where
  displays : (l.displays.map DisplayCmd.ix).Nodup
  services : l.services.length ≤ 16
  idents : ∀ ix, l.services.count (.ident ix) ≤ 1

/-- R104, R138: a segment's poll rotation: the position of a pass, the marks of its end, and the skip counts. -/
structure RotationSound (x : Segment) : Prop where
  position : x.line.position ≤ 62
  ended : x.line.passEnded = true → x.line.position = 0
  held : x.line.passHeld = true → x.line.passEnded = true
  skips : ∀ ix : Fin 62, x.entries[ix].skip ≤ 7

/-- R171, R182: every field of a segment configuration is in its range. -/
structure SegConfig.InRange (c : SegConfig) : Prop where
  budget : 50 ≤ c.budget ∧ c.budget ≤ 3000
  baseCurrent : c.baseCurrent ≤ 50
  economyLevel : 1 ≤ c.economyLevel ∧ c.economyLevel ≤ 16
  guardMs : c.guardMs ≤ 1000
  stuckTime : 2 ≤ c.stuckTime ∧ c.stuckTime ≤ 60
  lock : 1 ≤ c.lock ∧ c.lock ≤ 15
  unlock : 1 ≤ c.unlock ∧ c.unlock ≤ 255
  delay0 : c.delay0 ≤ 1023
  window : 4 ≤ c.window ∧ c.window ≤ 255
  shift : c.shift ≤ 3
  slew : 1 ≤ c.slew ∧ c.slew ≤ 255
  jumpOver : 16 ≤ c.jumpOver ∧ c.jumpOver ≤ 512

/-- R83, R171: the configuration of the four segments and the colour currents are in range. -/
structure ConfigSound (s : State) : Prop where
  segs : ∀ g, (s.seg g).config.InRange
  currents : ∀ c : Fin 7, s.currents[c] ≤ 255

/-- R145, R149: the ranges of a tracker record; the sum is that of the start delays, below 1024, of the `n` replies
gathered, so it is at most 64 449 and within its range of 65 472. -/
structure Tracker.InRange (t : Tracker) : Prop where
  delay : t.delay ≤ 1023
  gathered : t.n ≤ 63
  sum : t.sum ≤ 1023 * t.n
  proposals : t.proposals.length ≤ 4
  applied : t.applied.length ≤ 4
  steps : ∀ x ∈ t.applied, x ≠ Sign.zero

/-- R84: the level a lit display has by the segment's economy state. -/
def State.levelNow (s : State) (g : Seg) (e : LitEntry) : Nat :=
  if (s.gov g).economy then min e.level (s.seg g).config.economyLevel else e.level

/-- R84, R87, R92, R97: every lit display has the level of the segment's economy state; the phase loads are the base
load and the lit displays' contributions; and no phase exceeds U unless nothing is lit. -/
structure LoadSound (s : State) (g : Seg) : Prop where
  levels : ∀ e ∈ (s.gov g).lit, e.effective = s.levelNow g e
  loads : (s.gov g).loads = s.loadsAt g LitEntry.effective
  budget : maxLoad (s.gov g).loads ≤ s.units g ∨ (s.gov g).lit = []

end Sys2Proof.Machine
end

