-- ==== Sys2Proof/Certificates/Slice0/Obligations.lean ====
section
/-! DEFINITION. The statements about the AC4, each a Prop. Payload bytes, field values and status codes are those of
chapter 10; `begun` and `replied` are what taking a request leaves on the link (Safety.lean). -/

open Sys2Proof Sys2Proof.Machine

/-! ### The machine -/

/-- The command at the front of the queue runs on the queue's rest. -/
def Obligations.StepTakesFront : Prop :=
  ∀ (c : Instr) (s : State), step { s with pending := c :: s.pending } = exec c s

/-- R26, R131, R135, R137, R161, R164, R173, R183: with no command waiting a step is one millisecond of the time base.
What falls due in it waits as a command: the blink phase at 125 ms, the end of a partial frame, the end of a start-up
stage, and each expiry. While a line stays active after a held line no exchange and no raw exchange begins on it; when it
comes free in RUNNING, a pending break goes first, and without one the scheduler chooses. That a step with an empty queue
is a tick, that what falls due joins the queue as a command, and that several join it in an order left free, is the
model's choice (notes/assumptions/2.md and 6.md), and so are the milliseconds for which a line stays active and that a
break waits as well (notes/assumptions/8.md). That the exchange chosen is in flight at once is its reading
(notes/assumptions/11.md). -/
def Obligations.IdleStepPassesOneMillisecond : Prop :=
  ∀ s : State, s.pending = [] →
    let timed := fun x : Task => x.state = .shown ∧ x.limit.isSome ∧ (s.seg x.slot.seg).sup.state = .running
    let stage := fun g : Seg =>
      let v := (s.seg g).sup
      if v.state = .starting ∧ (s.time + 1 - v.stageEnd).toNat < 2 ^ 31 then
        match v.stage with
        | .settle => [Instr.settleEnd g]
        | .breaking => []
        | .quiet => [Instr.quietEnd g]
      else []
    let due : List Instr :=
      (if 125 ≤ s.phaseMs + 1 then [.blinkPhaseAdvance] else []) ++
      (if s.link.rx ≠ [] ∧ 21 ≤ s.link.gapMs + 1 then [.frameTimedOut] else []) ++
      (List.finRange 4).flatMap stage ++
      (s.tasks.filter fun x => timed x ∧ x.timeLeft ≤ 1).map (fun x => .taskExpiry x.id)
    ∃ t, step s = .next t ∧ t.pending.Perm due ∧ t.ties = s.ties + (if 2 ≤ due.length then 1 else 0) ∧
      t.time = s.time + 1 ∧ t.phase = s.phase ∧ t.phaseMs = s.phaseMs + 1 ∧
      t.pickers = s.pickers ∧ t.captures = s.captures ∧ t.submitCounter = s.submitCounter ∧ t.currents = s.currents ∧
      t.link = { s.link with gapMs := if s.link.rx = [] then 0 else s.link.gapMs + 1 } ∧
      t.tasks = s.tasks.map (fun x => if timed x then { x with timeLeft := x.timeLeft - 1 } else x) ∧
      t.modules = s.modules.map (fun m =>
        { m with phase := m.phase + Fin.ofNat 8 ((m.phaseMs + 1) / 125), phaseMs := (m.phaseMs + 1) % 125 }) ∧
      ∀ g,
        let x := s.seg g
        let y := t.seg g
        let comesFree := x.sup.state = .running ∧ x.line.activeMs = 1
        let free := { x with line := { x.line with activeMs := 0 } }
        y.slots = x.slots ∧ y.gov = x.gov ∧ y.tracker = x.tracker ∧ y.config = x.config ∧ y.sup.state = x.sup.state ∧
          y.line.activeMs = x.line.activeMs - 1 ∧
          (¬comesFree → y.entries = x.entries) ∧
          (0 < x.line.activeMs → y.sup = x.sup) ∧
          (0 < x.line.activeMs → ¬comesFree → x.line.inFlight = none → x.line.breaking = false →
            y = { x with line := { x.line with activeMs := x.line.activeMs - 1 } }) ∧
          (comesFree → x.line.inFlight = none → x.line.breaking = false → x.sup.breakPending = true →
            y = { x with line := { x.line with
              activeMs := 0, breaking := true, breakMs := 0
              probeFirst := decide (250 ≤ (s.time + 1 - x.sup.lastProbe).toNat) } }) ∧
          (comesFree → x.line.inFlight = none → x.line.breaking = false → x.sup.breakPending = false →
            SchedulerChoice free y)

/-- R1, R13, R16, R40, R41, R51, R63, R77, R83, R86, R104, R121, R138, R141, R143, R145, R146, R158, R171, R181, R183,
R184: what RESET leaves, in every field of every block. That the modules, the trip inputs and the queue of waiting
commands lie outside the part and stay is the model's choice (notes/assumptions/3.md). So is the value of a working field
that the manual gives none (notes/assumptions/24.md): the SYNC due mark, the marks of a pass other than its end, the
latest exchange, the marks and times of a break, the rest of a held line, the gap and the phase count, and the
serviceability last evaluated; and the numbers by which the model keeps replies (notes/assumptions/25.md). -/
def Obligations.ResetLeavesResetValues : Prop :=
  ∀ s : State, ∃ t, exec .reset s = .next t ∧
    t.link =
      { rate := 115200, rx := [], gapMs := 0, requests := [], replies := [], notices := [], dropMark := false
        sending := none, lastNotice := true, stopped := false, counters := ⟨0, 0, 0, 0, 0⟩, nextId := 0, taking := none } ∧
    (∀ p : Fin 12, t.picker p =
      { state := .absent, colour := 0, pattern := .steady, level := 16, priority := 0, quota := 64, openCount := 0 }) ∧
    t.tasks = [] ∧ t.submitCounter = 0 ∧ (∀ i : Fin 16, t.captures[i] = none) ∧
    t.currents.toList = [20, 18, 22, 38, 40, 42, 60] ∧ t.time = 0 ∧ t.phase = 0 ∧ t.phaseMs = 0 ∧ t.ties = s.ties ∧
    (∀ g : Seg,
      (t.seg g).sup =
        { state := .off, cause := none, stage := .settle, stageEnd := 0, holdTag := none, holdReply := 0, raw := none
          breakPending := false, condition := .normal, candidate := none, senseRun := 0, lastProbe := 0, supply := false
          discovery := none } ∧
      (t.seg g).config =
        { lineRate := .r38400, budget := 500, baseCurrent := 3, economyLevel := 8, guardMs := 300, stuckTime := 10
          lock := 3, unlock := 8, delay0 := 48, window := 24, interval := .n16, shift := 1, slew := 8
          postFilter := true, toggleHold := false, jump := true, jumpOver := 96 } ∧
      (t.seg g).counters = ⟨0, 0, 0, 0, 0, 0, 0, 0, 0, 0, 0, 0, 0, 0, 0⟩ ∧
      (t.seg g).gov = { baseLoad := 0, loads := Vector.replicate 8 0, economy := false, lit := [], queue := [] } ∧
      (t.seg g).tracker = { delay := 48, sum := 0, n := 0, proposals := [], applied := [], hold := false } ∧
      (t.seg g).line =
        { syncDue := false, position := 0, passEnded := false, passPolled := false, passHeld := false, latestPoll := false
          displays := [], services := [], inFlight := none, breaking := false, probeFirst := false, breakMs := 0
          activeMs := 0 } ∧
      (t.seg g).trip = (s.seg g).trip ∧
      ∀ ix : Fin 62,
        (t.seg g).entries[ix] =
          { kind := .empty, expected := none, seen := none, binding := .unbound, presence := .absent, goodRun := 0
            missRun := 0, wasPresent := false, skip := 7
            press :=
              { confirmBase := 0, adjustBase := 0, lastConfirm := none, confirmHeld := none, adjustHeld := none
                confirmStuck := false, adjustStuck := false } } ∧
        (t.seg g).slots[ix] =
          { waiting := [], current := none, tenure := none, serviceable := false
            shadow :=
              { seq := 0, owner := none, colour := 0, pattern := .steady, rotation := 0, level := 16
                digits := ⟨none, none, none⟩ } }) ∧
    t.modules = s.modules ∧ t.pending = s.pending

/-- The state after reset meets the invariants that the other statements take as premises. -/
def Obligations.ResetMeetsInvariants : Prop :=
  AtRest State.reset ∧ LinkBounded State.reset.link ∧ TableSound State.reset ∧ ConfigSound State.reset ∧
    ArbiterSound State.reset ∧ DirectorySound State.reset ∧
    ∀ g, (State.reset.seg g).tracker.InRange ∧ LoadSound State.reset g ∧ QueuesSound (State.reset.seg g).line ∧
      RotationSound (State.reset.seg g)

/-! ### The host link -/

/-- R172 to R174: a well-formed frame that arrives whole joins the request list and is counted; its kind, tag and
payload are read as they were framed. A byte that is no start byte is passed over. A candidate whose length byte is below
3 or above 252, or whose CRC differs, is counted, and the framer hunts again from the byte after its start byte. One that
is not complete is kept until more bytes come, and goes on with them; after a gap of more than 20 ms it is discarded,
counted, and the bytes that come are examined without it. -/
def Obligations.FrameJoinsRequestList : Prop :=
  (∀ (kind : Byte) (tag : Tag) (payload : List Byte) (s : State), payload.length ≤ 249 → AtRest s → s.link.rx = [] →
    s.link.requests.length < 4 →
    exec (.frameReceived (linkFrame kind tag payload)) s =
      .next (s.updLink fun l =>
        { l with
          requests := l.requests ++ [⟨kind, tag, payload⟩], gapMs := 0
          counters := { l.counters with framesReceived := l.counters.framesReceived + 1 } })) ∧
  (∀ (first len : Byte) (rest : List Byte) (s : State), s.link.rx = [] →
    let hunting := fun u : State => exec (.frameReceived (len :: rest)) u
    let rejected := s.updLink fun l => { l with counters := { l.counters with badCrc := l.counters.badCrc + 1 } }
    let candidate := exec (.frameReceived (0xC3 :: len :: rest)) s
    let body := rest.take len.toNat
    let crc := (rest.drop len.toNat).take 2
    (first ≠ 0xC3 → exec (.frameReceived (first :: len :: rest)) s = hunting s) ∧
    (len.toNat < 3 ∨ 252 < len.toNat → candidate = hunting rejected) ∧
    (3 ≤ len.toNat → len.toNat ≤ 252 → len.toNat + 2 ≤ rest.length → crc ≠ crcBytes (len :: body) →
      candidate = hunting rejected) ∧
    (3 ≤ len.toNat → len.toNat ≤ 252 → rest.length < len.toNat + 2 → AtRest s →
      candidate = .next (s.updLink fun l => { l with rx := 0xC3 :: len :: rest, gapMs := 0 }))) ∧
  (∀ (more : List Byte) (s : State), more ≠ [] → s.link.rx ≠ [] →
    (s.link.gapMs < 21 → exec (.frameReceived more) s =
      exec (.frameReceived (s.link.rx ++ more)) (s.updLink fun l => { l with rx := [] })) ∧
    (21 ≤ s.link.gapMs → exec (.frameReceived more) s = exec (.frameReceived more) (s.updLink fun l =>
      { l with rx := [], gapMs := 0, counters := { l.counters with timedOut := l.counters.timedOut + 1 } })))

/-- R174: a well-formed frame that finds the request list full is counted and answered LINK_BUSY, or dropped without an
answer if the reply list is full too. That the reply to a frame whose kind is 0x80 or above has the kind 0xFF is the
model's choice (notes/assumptions/16.md). -/
def Obligations.FullRequestListAnswersLinkBusy : Prop :=
  ∀ (kind : Byte) (tag : Tag) (payload : List Byte) (s : State), payload.length ≤ 249 → AtRest s → s.link.rx = [] →
    4 ≤ s.link.requests.length →
    let counted := s.updLink fun l =>
      { l with
        gapMs := 0
        counters := { l.counters with framesReceived := l.counters.framesReceived + 1, linkBusy := l.counters.linkBusy + 1 } }
    exec (.frameReceived (linkFrame kind tag payload)) s =
      if s.link.replies.length < 16 then
        .next (counted.updLink fun l =>
          ({ l with nextId := l.nextId + 1 } : Link).withReply ⟨l.nextId, replyKind kind, tag, [0x1F], .nothing⟩)
      else .next counted

/-- R173: a partial frame whose next byte is more than 20 ms late is discarded and counted, and the framer hunts. That
the command lets the time pass until the frame is late, here with no other event of the clock falling due in it, is the
model's choice (notes/assumptions/7.md). -/
def Obligations.PartialFrameTimesOut : Prop :=
  ∀ s : State, AtRest s → s.link.rx ≠ [] →
    (s.link.gapMs < 21 → s.Undisturbed (some .frameTimeout) (21 - s.link.gapMs)) →
    exec .frameTimedOut s =
      .next ((s.passTime (21 - s.link.gapMs)).updLink fun l =>
        { l with rx := [], gapMs := 0, counters := { l.counters with timedOut := l.counters.timedOut + 1 } })

/-- R178, R180, R181: when a reply has gone, a notice that may go is sent next, else the next reply; when a notice has
gone, the next reply is sent, else a notice that may go. A SET_LINK_RATE reply sets the rate once it has gone; a RESTART
reply resets the part. -/
def Obligations.TransmitterAlternates : Prop :=
  ∀ s : State, AtRest s →
    (∀ r, s.link.sending = some (.reply r) → r.after ≠ .restart →
      exec .frameSent s = .next (s.updLink fun l =>
        let l1 := { l with
          sending := none, lastNotice := false
          rate := match r.after with
            | .setRate baud => baud
            | _ => l.rate }
        if l1.noticeWaits then { l1 with sending := some .notice }
        else match l1.replies with
          | [] => l1
          | x :: xs => { l1 with replies := xs, sending := some (.reply x) })) ∧
    (∀ r, s.link.sending = some (.reply r) → r.after = .restart → exec .frameSent s = exec .reset s) ∧
    (s.link.sending = some .notice →
      exec .frameSent s = .next (s.updLink fun l =>
        let l1 := { l with sending := none, lastNotice := true, notices := l.notices.tail }
        match l1.replies with
        | x :: xs => { l1 with replies := xs, sending := some (.reply x) }
        | [] => if l1.noticeWaits then { l1 with sending := some .notice } else l1))

/-- R174, R175, R181: a request command is the arrival of its frame and then the taking of it; one that does not reach
the decoder waits, and apart from its frame's own arrival nothing changes. That a request command is its frame's arrival
is the model's choice (notes/assumptions/4.md). -/
def Obligations.RequestArrivesThenIsTakenOrWaits : Prop :=
  ∀ (c : Instr) (f : Request) (s : State), requestOf c = some f →
    (s.link.requests = [] → s.link.rx = [] →
      exec c s = exec c (s.updLink fun l =>
        { l with
          requests := [f], counters := { l.counters with framesReceived := l.counters.framesReceived + 1 } })) ∧
    (c.wf = true → (s.link.offer f).takes f = false →
      exec c s = .next (s.updLink fun l => (l.offer f).kick))

/-- R175 steps 1 and 2: a request whose payload is not of the length its kind calls for is refused with BAD_LENGTH, the
status being the whole payload of the reply; one of an unknown kind is answered UNKNOWN_KIND with the kind code. Nothing
else changes. -/
def Obligations.RefusedBeforeItsRule : Prop :=
  (∀ (c : Instr) (f : Request) (n : Nat) (s : State), requestOf c = some f → fixedLength f.kind = some n →
       c.wf = true → f.payload.length ≠ n → AtRest s → Reaches s f →
       exec c s = .next (s.begun.replied f.kind f.tag [0x11] .nothing)) ∧
  (∀ (kind : Byte) (tag : Tag) (payload : List Byte) (s : State), kind ∉ requestKindCodes → payload.length ≤ 249 →
       AtRest s → Reaches s ⟨kind, tag, payload⟩ →
       exec (.unknownKindRequest kind tag payload) s = .next (s.begun.replied kind tag [0x10, kind] .nothing))

/-- R179: IDENTIFY gives codes, revision and capacities; READ_TIME gives the time base and the blink phase; neither
changes anything. -/
def Obligations.IdentifyAndReadTime : Prop :=
  ∀ (tag : Tag) (s : State), AtRest s →
    (Reaches s ⟨0x01, tag, []⟩ →
      exec (.identify tag []) s = .next (s.begun.replied 0x01 tag
        [0x00, 0x57, 0x0E, 0xA4, 0x04, 1, 4, 62, 0x00, 0x01, 12, 16, 32] .nothing)) ∧
    (Reaches s ⟨0x02, tag, []⟩ →
      exec (.readTime tag []) s = .next (s.begun.replied 0x02 tag
        (0x00 :: (leBytes 4 s.time.toNat ++ [byteOf s.phase.val])) .nothing))

/-- R180, R181: a rate of the table is accepted and takes effect when its reply has gone; any other is refused with
BAD_VALUE and changes nothing; that the rate field of that reply is 0 is the model's reading (notes/assumptions/15.md).
RESTART is answered OK; the decoder takes no further request, and the reset follows when the reply has gone. -/
def Obligations.LinkRateAndRestartAnswered : Prop :=
  (∀ (tag : Tag) (payload : List Byte) (s : State), payload.length = 4 → AtRest s → Reaches s ⟨0x03, tag, payload⟩ →
       exec (.setLinkRate tag payload) s =
         if leValue payload ∈ [57600, 115200, 230400, 460800, 921600] then
           .next (s.begun.replied 0x03 tag (0x00 :: payload) (.setRate (leValue payload)))
         else .next (s.begun.replied 0x03 tag [0x12, 0, 0, 0, 0] .nothing)) ∧
  (∀ (tag : Tag) (s : State), AtRest s → Reaches s ⟨0x04, tag, []⟩ →
       exec (.restart tag []) s =
         .next ((s.begun.replied 0x04 tag [0x00] .restart).updLink fun l => { l with stopped := true }))

/-- R103, R157, R184, R185, R186: READ_STATS answers with the statistics of its scope at one instant, and with the clear
byte set makes the counters of that scope, and only those, 0 after they have been read. A scope that names nothing and a
clear byte other than 0 or 1 are refused with BAD_VALUE; how many bytes the first of these refusals has is the model's
choice (notes/assumptions/42.md). -/
def Obligations.ReadStatsSnapshotsAndClears : Prop :=
  (∀ (tag : Tag) (clear : Bool) (s : State), AtRest s →
    (∀ g : Seg, Reaches s ⟨0x50, tag, [byteOf g.val, boolByte clear]⟩ →
      let x := s.seg g
      let c := x.counters
      let counters := [c.exchangesSent, c.accepted, c.offWindow, c.corrupt, c.misaddressed, c.windowMisses, c.superseded,
        c.resends, c.stale, c.chatter, c.atFloor, c.trackerSteps, c.trackerJumps, c.admissionsWaited, c.sheds]
      let statistics := (counters.flatMap fun n => leBytes 4 n.toNat) ++
        [boolByte x.gov.economy] ++ leBytes 2 (16 * x.config.budget) ++ leBytes 2 x.gov.baseLoad ++
        x.gov.loads.toList.flatMap (leBytes 4) ++ [byteOf x.gov.lit.length, byteOf x.gov.queue.length] ++
        (match x.gov.queue with
          | [] => [0, 0]
          | a :: _ => leBytes 2 a.task.toNat) ++
        leBytes 2 x.tracker.delay ++ [byteOf x.tracker.n, boolByte x.tracker.hold, x.sup.state.code]
      exec (.readStats tag [byteOf g.val, boolByte clear]) s =
        .next (((if clear then s.begun.updSeg g fun x =>
              { x with counters := ⟨0, 0, 0, 0, 0, 0, 0, 0, 0, 0, 0, 0, 0, 0, 0⟩ } else s.begun).replied 0x50 tag
          (0x00 :: byteOf g.val :: (leBytes 4 s.time.toNat ++ statistics)) .nothing))) ∧
    (Reaches s ⟨0x50, tag, [0xFF, boolByte clear]⟩ →
      let c := s.begun.link.counters
      let counters := [c.framesReceived, c.badCrc, c.timedOut, c.linkBusy, c.noticesDropped]
      let statistics := (counters.flatMap fun n => leBytes 4 n.toNat) ++ leBytes 4 s.link.rate ++
        [byteOf s.link.notices.length]
      exec (.readStats tag [0xFF, boolByte clear]) s =
        .next ((if clear then s.begun.updLink fun l => { l with counters := ⟨0, 0, 0, 0, 0⟩ } else s.begun).replied 0x50 tag
          (0x00 :: 0xFF :: (leBytes 4 s.time.toNat ++ statistics)) .nothing))) ∧
  (∀ (tag : Tag) (scope clear : Byte) (s : State), AtRest s → Reaches s ⟨0x50, tag, [scope, clear]⟩ →
    let refused := fun n : Nat =>
      exec (.readStats tag [scope, clear]) s = .next (s.begun.replied 0x50 tag (0x12 :: List.replicate n 0) .nothing)
    (3 < scope.toNat → scope ≠ 0xFF → refused 5) ∧
    (scope.toNat ≤ 3 → 1 < clear.toNat → refused 111) ∧
    (scope = 0xFF → 1 < clear.toNat → refused 30))

/-! ### Pickers -/

/-- R3, R4, R7, R90: a SET_PICKER that passes every check gives the record its values, clamped, and the reply carries it.
With the priority kept nothing else changes. A changed priority takes each of the picker's requests out of its admission
queue and puts it back at the place that the new priority and its own stamp give, stamp and waited mark kept, behind those
that rank the same; and each segment with such a request makes its admission attempt and exit check. That the segments
follow one another in ascending number, and that one attempt follows the last of several requests moved, in the order in
which they stood, is the model's choice (notes/assumptions/37.md and 38.md). -/
def Obligations.SetPickerTakesValues : Prop :=
  (∀ (tag : Tag) (p : Fin 12) (mask colour pattern level priority quota : Byte) (c : Fin 8) (pat : Pattern) (q : Nat)
    (s : State),
    let payload := [byteOf p.val, mask, colour, pattern, level, priority, quota]
    let x := s.picker p
    let y : Picker :=
      { state := if x.state = .absent then .active else x.state, colour := c, pattern := pat
        level := if mask.getLsbD 2 then max 1 (min 16 level.toNat) else if x.state = .absent then 16 else x.level
        priority := if mask.getLsbD 3 then min 3 priority.toNat else if x.state = .absent then 0 else x.priority
        quota := q, openCount := if x.state = .absent then 0 else x.openCount }
    AtRest s → Reaches s ⟨0x10, tag, payload⟩ → x.inRange → mask.toNat < 32 →
    (if mask.getLsbD 0 then colour.toNat = c.val ∧ c ≠ 0 else x.state ≠ .absent ∧ c = x.colour) →
    (if mask.getLsbD 1 then pattern = pat.code else x.state ≠ .absent ∧ pat = x.pattern) →
    (if mask.getLsbD 4 then quota.toNat = q ∧ q ≠ 0 else q = if x.state = .absent then 64 else x.quota) →
    ¬((c ≠ x.colour ∨ pat ≠ x.pattern ∨ y.level ≠ x.level) ∧ s.holdsSlot p) →
    ¬s.styleElsewhere p c pat → x.openCount ≤ q →
    let set := { s.begun with pickers := s.pickers.set p y }
    let taken := set.replied 0x10 tag (0x00 :: pickerRecord p y) .nothing
    let mine := fun g : Seg => (s.gov g).queue.filter fun a => match s.task? a.task with
      | some u => u.picker = p
      | none => false
    let moved := fun (acc : State) (g : Seg) =>
      if mine g = [] then acc
      else (acc.updSeg g fun z =>
        { z with gov := { z.gov with queue := (mine g).foldl (moveRequest s.time y.priority) z.gov.queue } }).settle g
    (∃ t, exec (.setPicker tag payload) s = .next t ∧ t.untouched = taken.untouched ∧ t.captures = s.captures) ∧
    (y.priority = x.priority → exec (.setPicker tag payload) s = .next taken) ∧
    (y.priority ≠ x.priority → exec (.setPicker tag payload) s =
      .next (([0, 1, 2, 3].foldl moved set).settleLines.replied 0x10 tag (0x00 :: pickerRecord p y) .nothing))) ∧
  ∀ (now : Stamp) (priority : Nat) (queue : List Admission) (a : Admission),
    let age := fun x : Stamp => (now - x).toNat
    ∃ before after, queue.filter (fun b => b.ix ≠ a.ix) = before ++ after ∧
      moveRequest now priority queue a = before ++ { a with priority := priority } :: after ∧
      (∀ b ∈ before, priority < b.priority ∨ b.priority = priority ∧ age a.stamp ≤ age b.stamp) ∧
      ∀ b, after.head? = some b → b.priority < priority ∨ b.priority = priority ∧ age b.stamp < age a.stamp

/-- R3, R4, R5, R6: a SET_PICKER that fails a check changes nothing and carries the status of the first that fails; a
picker id above 11 is refused with BAD_VALUE. -/
def Obligations.SetPickerRefusalsInOrder : Prop :=
  (∀ (tag : Tag) (p : Fin 12) (mask colour pattern level priority quota : Byte) (s : State),
     let payload := [byteOf p.val, mask, colour, pattern, level, priority, quota]
     let x := s.picker p
     let refused := fun status : Byte =>
       exec (.setPicker tag payload) s = .next (s.begun.replied 0x10 tag (status :: pickerRecord p x) .nothing)
     AtRest s → Reaches s ⟨0x10, tag, payload⟩ →
     let bad := 32 ≤ mask.toNat ∨ (mask.getLsbD 0 ∧ ¬(1 ≤ colour.toNat ∧ colour.toNat ≤ 7)) ∨
       (mask.getLsbD 1 ∧ 2 < pattern.toNat) ∨ (mask.getLsbD 4 ∧ quota = 0) ∨
       (x.state = .absent ∧ ¬(mask.getLsbD 0 ∧ mask.getLsbD 1))
     (bad → refused 0x12) ∧
     ∀ (c : Fin 8) (pat : Pattern) (q : Nat), ¬bad →
       (if mask.getLsbD 0 then colour.toNat = c.val else c = x.colour) →
       (if mask.getLsbD 1 then pattern = pat.code else pat = x.pattern) →
       (q = if mask.getLsbD 4 then quota.toNat else x.quota) →
       let restyled := c ≠ x.colour ∨ pat ≠ x.pattern ∨
         (mask.getLsbD 2 ∧ max 1 (min 16 level.toNat) ≠ x.level)
       (restyled ∧ s.holdsSlot p → refused 0x1D) ∧
       (¬(restyled ∧ s.holdsSlot p) → s.styleElsewhere p c pat → refused 0x1A) ∧
       (¬(restyled ∧ s.holdsSlot p) → ¬s.styleElsewhere p c pat → q < x.openCount → refused 0x18)) ∧
  (∀ (tag : Tag) (picker mask colour pattern level priority quota : Byte) (s : State),
    let payload := [picker, mask, colour, pattern, level, priority, quota]
    11 < picker.toNat → AtRest s → Reaches s ⟨0x10, tag, payload⟩ →
    exec (.setPicker tag payload) s = .next (s.begun.replied 0x10 tag (0x12 :: List.replicate 8 0) .nothing))

/-- R8: DROP_PICKER returns a registered picker without entries to its reset values, and is refused otherwise; a picker
id above 11 is a BAD_VALUE. -/
def Obligations.DropPicker : Prop :=
  (∀ (tag : Tag) (p : Fin 12) (s : State), AtRest s → Reaches s ⟨0x13, tag, [byteOf p.val]⟩ →
     let x := s.picker p
     let dropped : Picker :=
       { state := .absent, colour := 0, pattern := .steady, level := 16, priority := 0, quota := 64, openCount := 0 }
     exec (.dropPicker tag [byteOf p.val]) s = .next (
       if x.state = .absent then s.begun.replied 0x13 tag (0x19 :: pickerRecord p x) .nothing
       else if 0 < x.openCount then s.begun.replied 0x13 tag (0x1D :: pickerRecord p x) .nothing
       else ({ s.begun with pickers := s.pickers.set p dropped }).replied 0x13 tag
         [0x00, byteOf p.val, 0, 0, 0, 16, 0, 64, 0] .nothing)) ∧
  (∀ (tag : Tag) (picker : Byte) (s : State), 11 < picker.toNat → AtRest s → Reaches s ⟨0x13, tag, [picker]⟩ →
    exec (.dropPicker tag [picker]) s = .next (s.begun.replied 0x13 tag (0x12 :: List.replicate 8 0) .nothing))

/-- R9: PAUSE_PICKER of an ACTIVE picker pauses the picker and every live task of it, and the reply counts the tasks;
where none of them was a slot's current task nothing else changes. A current task of it loses its slot, with its lit
display or its admission request; a slot with no other QUEUED task is left empty, and dark with a new seq. -/
def Obligations.PausePickerPausesTasks : Prop :=
  (∀ (tag : Tag) (p : Fin 12) (s : State), AtRest s → Reaches s ⟨0x11, tag, [byteOf p.val]⟩ →
     let x := s.picker p
     let y := { x with state := .paused }
     let moved := s.tasks.countP fun t => t.picker = p && t.live
     let paused := fun t : Task => if t.picker = p ∧ t.live then { t with state := .paused, timeLeft := 0 } else t
     let taken := ({ s.begun with pickers := s.pickers.set p y }).replied 0x11 tag
       (0x00 :: (pickerRecord p y ++ [byteOf moved])) .nothing
     (x.state = .active → TasksSound s.tasks →
       ∃ t, exec (.pausePicker tag [byteOf p.val]) s = .next t ∧ t.untouched = taken.untouched ∧
         t.captures = s.captures ∧ ∀ u ∈ s.tasks, u.picker = p → paused u ∈ t.tasks ∧
           (u.state = .waitLoad ∨ u.state = .shown ∨ u.state = .blocked →
             let y := s.slot u.slot
             let gov := (t.seg u.slot.seg).gov
             (t.slot u.slot).current ≠ some u.id ∧ (t.slot u.slot).waiting = y.waiting ∧
             (u.state = .shown → ∀ e ∈ gov.lit, ¬(e.ix = u.slot.ix ∧ e.task = u.id)) ∧
             (u.state = .waitLoad → ∀ a ∈ gov.queue, ¬(a.ix = u.slot.ix ∧ a.task = u.id)) ∧
             ((∀ v ∈ s.tasks, v.id ∈ y.waiting → v.state = .queued → v.picker = p) →
               (t.slot u.slot).current = none ∧
               (t.slot u.slot).tenure = none ∧
               (u.state = .shown → y.shadow.owner ≠ none → (∀ a ∈ (s.seg u.slot.seg).gov.queue, a.ix ≠ u.slot.ix) →
                 (t.slot u.slot).shadow = y.shadow.darkened)))) ∧
     (x.state = .active → ¬s.holdsSlot p →
       exec (.pausePicker tag [byteOf p.val]) s = .next { taken with tasks := s.tasks.map paused }) ∧
     (x.state = .absent → exec (.pausePicker tag [byteOf p.val]) s =
       .next (s.begun.replied 0x11 tag (0x19 :: (pickerRecord p x ++ [0])) .nothing)) ∧
     (x.state = .paused → exec (.pausePicker tag [byteOf p.val]) s =
       .next (s.begun.replied 0x11 tag (0x1D :: (pickerRecord p x ++ [0])) .nothing))) ∧
  (∀ (tag : Tag) (picker : Byte) (s : State), 11 < picker.toNat → AtRest s → Reaches s ⟨0x11, tag, [picker]⟩ →
    exec (.pausePicker tag [picker]) s = .next (s.begun.replied 0x11 tag (0x12 :: List.replicate 9 0) .nothing))

/-- R10, R44, R45: RESUME_PICKER of a PAUSED picker makes it ACTIVE and every PAUSED task of it QUEUED, counted in the reply.
Then each slot of such a task that has no current task selects, in ascending slot number: the QUEUED task of its waiting
set that R44 ranks first becomes current, in WAIT_LOAD or at once SHOWN where the slot is serviceable, and BLOCKED where it
is not; a task not selected stays QUEUED. A slot with a current task, or without such a task, selects nothing. A picker id
above 11 is refused. -/
def Obligations.ResumePickerRequeuesTasks : Prop :=
  (∀ (tag : Tag) (p : Fin 12) (s : State), AtRest s → Reaches s ⟨0x12, tag, [byteOf p.val]⟩ →
     let x := s.picker p
     let y := { x with state := .active }
     let moved := s.tasks.countP fun t => t.picker = p && t.state = .paused
     let queued := fun t : Task => if t.picker = p ∧ t.state = .paused then { t with state := .queued } else t
     let set := { s.begun with pickers := s.pickers.set p y }
     let taken := set.replied 0x12 tag (0x00 :: (pickerRecord p y ++ [byteOf moved])) .nothing
     let resumes := fun r : SlotRef => ∃ u ∈ s.tasks, u.picker = p ∧ u.state = .paused ∧ u.slot = r
     let slots := ((List.finRange 4).flatMap fun g => (List.finRange 62).map fun ix => (⟨g, ix⟩ : SlotRef)).filter
       fun r => resumes r
     (x.state = .paused →
       exec (.resumePicker tag [byteOf p.val]) s = .next ((slots.foldl State.select { set with
         tasks := s.tasks.map queued }).settleLines.replied 0x12 tag (0x00 :: (pickerRecord p y ++ [byteOf moved])) .nothing)) ∧
     (x.state = .paused →
       ∃ t, exec (.resumePicker tag [byteOf p.val]) s = .next t ∧ t.untouched = taken.untouched ∧
         t.captures = s.captures ∧ (∀ u ∈ t.tasks, u.picker = p → u.state ≠ .paused) ∧
         (∀ r, (s.slot r).current.isSome ∨ ¬resumes r → (t.slot r).current = (s.slot r).current ∧
           (t.slot r).tenure = (s.slot r).tenure) ∧
         (∀ r, (t.slot r).waiting = (s.slot r).waiting) ∧
         (TasksSound s.tasks → ArbiterSound s → ∀ u ∈ s.tasks, u.picker = p → u.state = .paused →
           ((t.slot u.slot).current ≠ some u.id → { u with state := .queued } ∈ t.tasks) ∧
           ((s.slot u.slot).current = none →
             ∃ v w, v ∈ s.tasks ∧ v.slot = u.slot ∧ (v.state = .queued ∨ v.picker = p ∧ v.state = .paused) ∧
               (∀ o ∈ s.tasks, o.slot = u.slot → (o.state = .queued ∨ o.picker = p ∧ o.state = .paused) → o ≠ v →
                 let pv := (s.picker v.picker).priority
                 let po := (s.picker o.picker).priority
                 po < pv ∨ po = pv ∧ (v.stamp.toNat < o.stamp.toNat ∨ v.stamp = o.stamp ∧ v.index.val < o.index.val)) ∧
               (t.slot u.slot).current = some v.id ∧ t.task? v.id = some w ∧ w.fixed = v.fixed ∧
               (if (s.slot u.slot).serviceable then
                 (t.slot u.slot).tenure = some s.time ∧ (w.state = .waitLoad ∨ w.state = .shown)
               else (t.slot u.slot).tenure = none ∧ w.state = .blocked)))) ∧
     (x.state = .paused → (∀ u ∈ s.tasks, u.picker = p → u.state = .paused → (s.slot u.slot).current.isSome) →
       exec (.resumePicker tag [byteOf p.val]) s = .next { taken with tasks := s.tasks.map queued }) ∧
     (x.state = .absent → exec (.resumePicker tag [byteOf p.val]) s =
       .next (s.begun.replied 0x12 tag (0x19 :: (pickerRecord p x ++ [0])) .nothing)) ∧
     (x.state = .active → exec (.resumePicker tag [byteOf p.val]) s =
       .next (s.begun.replied 0x12 tag (0x1D :: (pickerRecord p x ++ [0])) .nothing))) ∧
  (∀ (tag : Tag) (picker : Byte) (s : State), 11 < picker.toNat → AtRest s → Reaches s ⟨0x12, tag, [picker]⟩ →
    exec (.resumePicker tag [picker]) s = .next (s.begun.replied 0x12 tag (0x12 :: List.replicate 9 0) .nothing))

/-! ### Tasks -/

/-- R15, R16, R18, R19, R20, R44, R45, R90, R94: a SUBMIT of one record that passes the checks takes the lowest free entry with
the next stamp, raises the open count and joins the slot's waiting set. At a slot with a current task, or for a PAUSED
picker, that is all; at an empty slot it is selected, into BLOCKED where the slot is not serviceable, and into
WAIT_LOAD with a request to the governor, and perhaps at once into SHOWN, where it is. A request of up to eight records is answered with an entry for
each; where the first one leaves no empty slot to select, the others are judged as if it had come alone before them. Of
several QUEUED tasks a slot selects the one of the highest priority, and then of the lowest stamp and index. -/
def Obligations.SubmitAcceptsOneRecord : Prop :=
  (∀ (tag : Tag) (id : TaskId) (p : Fin 12) (r : SlotRef) (i : Fin 256) (quantity limit : Nat)
     (prompt : Option (Fin 10 × Fin 10 × Fin 10)) (s : State),
     let presence : List Byte := match prompt with
       | none => [0, 0, 0, 0]
       | some (a, b, c) => [1, byteOf a.val, byteOf b.val, byteOf c.val]
     let payload := 1 :: (leBytes 2 id.toNat ++ [byteOf p.val, byteOf (64 * r.seg.val + r.ix.val + 1)] ++ leBytes 2 quantity ++
       leBytes 2 limit ++ presence)
     let x := s.picker p
     let new : Task :=
       { index := i, id := id, picker := p, slot := r, requested := quantity, displayed := quantity
         state := if x.state = .active then .queued else .paused
         step := if prompt.isSome then .prompt else .quantity, stamp := s.submitCounter
         limit := if limit = 0 then none else some (min 3600 limit)
         prompt := prompt.map fun d => ⟨some d.1, some d.2.1, some d.2.2⟩
         shownSince := 0, timeLeft := 0, confirmed := 0, endStamp := 0 }
     AtRest s → Reaches s ⟨0x20, tag, payload⟩ → limit < 65536 → id ≠ 0 → 1 ≤ quantity → quantity ≤ 999 →
     (∀ t ∈ s.tasks, t.id ≠ id) → x.state ≠ .absent → (s.entry r).kind ≠ .empty → x.openCount < x.quota →
     (∀ t ∈ s.tasks, t.index ≠ i) → (∀ j < i, ∃ t ∈ s.tasks, t.index = j) → (s.slot r).waiting.length < 8 →
     let accepted := (({ s.begun with
         tasks := insertTask new s.tasks, submitCounter := s.submitCounter + 1
         pickers := s.pickers.set p { x with openCount := x.openCount + 1 } }).updSlot r fun y =>
           { y with waiting := y.waiting ++ [id] }).replied 0x20 tag [0x00, 0x00, byteOf i.val, new.state.code] .nothing
     (x.state = .paused ∨ (s.slot r).current.isSome → exec (.submit tag payload) s = .next accepted) ∧
     (x.state = .active → (s.slot r).current = none → (s.slot r).waiting = [] → (s.slot r).serviceable = false →
       exec (.submit tag payload) s = .next (({ accepted with
         tasks := insertTask { new with state := .blocked } s.tasks }).updSlot r fun y =>
           { y with current := some id, tenure := none })) ∧
     (x.state = .active → (s.slot r).current = none → (s.slot r).waiting = [] → (s.slot r).serviceable = true →
       let chosen := ({ s.begun with
         tasks := insertTask { new with state := .waitLoad } s.tasks, submitCounter := s.submitCounter + 1
         pickers := s.pickers.set p { x with openCount := x.openCount + 1 } }).updSlot r fun y =>
           { y with waiting := y.waiting ++ [id], current := some id, tenure := some s.time }
       exec (.submit tag payload) s = .next (((chosen.place r new s.time).settle r.seg).settleLines.replied 0x20 tag
         [0x00, 0x00, byteOf i.val, new.state.code] .nothing) ∧
       ∃ t, exec (.submit tag payload) s = .next t ∧ t.untouched = accepted.untouched ∧ t.captures = s.captures ∧
         t.away r.seg = s.away r.seg ∧ (t.slot r).current = some id ∧ (t.slot r).tenure = some s.time ∧
         ∃ u, t.task? id = some u ∧ (u.state = .waitLoad ∨ u.state = .shown) ∧ u.fixed = new.fixed)) ∧
  (∀ (tag : Tag) (n : Nat) (records : List Byte) (s : State), 1 ≤ n → n ≤ 8 → records.length = 12 * n → AtRest s →
    Reaches s ⟨0x20, tag, byteOf n :: records⟩ →
    ∃ t entries, exec (.submit tag (byteOf n :: records)) s = .next t ∧ entries.length = 3 * n ∧
      t.link.carries ⟨s.link.nextId, 0xA0, tag, 0x00 :: entries, .nothing⟩) ∧
  (∀ (n : Nat) (first rest : List Byte) (s : State), 1 ≤ n → n ≤ 7 → first.length = 12 → rest.length = 12 * n →
    (∀ (p : Fin 12) (r : SlotRef), fieldAt first 2 1 = p.val → fieldAt first 3 1 = 64 * r.seg.val + r.ix.val + 1 →
      (s.picker p).state ≠ .active ∨ (s.slot r).current.isSome) →
    let one := submitRule (1 :: first) s
    let others := submitRule (byteOf n :: rest) one.state
    submitRule (byteOf (n + 1) :: (first ++ rest)) s = ⟨others.state, .ok, one.data ++ others.data, .nothing⟩) ∧
  (∀ (s : State) (r : SlotRef) (u : Task), TasksSound s.tasks → (s.slot r).current = none → u ∈ s.tasks →
    u.id ∈ (s.slot r).waiting → u.state = .queued →
    (∀ v ∈ s.tasks, v.id ∈ (s.slot r).waiting → v.state = .queued → v ≠ u →
      let pu := (s.picker u.picker).priority
      let pv := (s.picker v.picker).priority
      pv < pu ∨ pv = pu ∧ (u.stamp.toNat < v.stamp.toNat ∨ u.stamp = v.stamp ∧ u.index.val < v.index.val)) →
    ((s.select r).slot r).current = some u.id ∧
      ((s.select r).slot r).tenure = if (s.slot r).serviceable then some s.time else none)

/-- R17, R18: the checks of a task record, in order: BAD_VALUE, DUPLICATE_ID, NO_SUCH_PICKER, NO_SUCH_SLOT, QUOTA,
TABLE_FULL, SLOT_FULL; a record that fails one changes nothing. A SUBMIT without a count or of another length than its
count calls for is refused as a whole with BAD_LENGTH, and one with a count outside 1 to 8 with BAD_VALUE. That a
refused record's index and state are 0 is the model's choice (notes/assumptions/40.md). -/
def Obligations.SubmitRefusalsInOrder : Prop :=
  (∀ (tag : Tag) (id : TaskId) (picker slot presence d1 d2 d3 : Byte) (quantity limit : Nat) (s : State),
     let payload := 1 :: (leBytes 2 id.toNat ++ [picker, slot] ++ leBytes 2 quantity ++ leBytes 2 limit ++
       [presence, d1, d2, d3])
     let refused := fun status : Byte =>
       exec (.submit tag payload) s = .next (s.begun.replied 0x20 tag [0x00, status, 0, 0] .nothing)
     AtRest s → Reaches s ⟨0x20, tag, payload⟩ → quantity < 65536 → limit < 65536 →
     let bad := 11 < picker.toNat ∨ id = 0 ∨ quantity = 0 ∨ 999 < quantity ∨ 1 < presence.toNat ∨
       (presence = 1 ∧ (9 < d1.toNat ∨ 9 < d2.toNat ∨ 9 < d3.toNat))
     (bad → refused 0x12) ∧
     ∀ p : Fin 12, ¬bad → picker.toNat = p.val →
       ((∃ t ∈ s.tasks, t.id = id) → refused 0x14) ∧
       ((∀ t ∈ s.tasks, t.id ≠ id) →
         ((s.picker p).state = .absent → refused 0x19) ∧
         ((s.picker p).state ≠ .absent →
           (slot.toNat % 64 = 0 ∨ slot.toNat % 64 = 63 → refused 0x1B) ∧
           ∀ r : SlotRef, slot.toNat = 64 * r.seg.val + r.ix.val + 1 →
             ((s.entry r).kind = .empty → refused 0x1B) ∧
             ((s.entry r).kind ≠ .empty →
               ((s.picker p).quota ≤ (s.picker p).openCount → refused 0x17) ∧
               ((s.picker p).openCount < (s.picker p).quota →
                 ((∀ i : Fin 256, ∃ t ∈ s.tasks, t.index = i) → refused 0x15) ∧
                 ((∃ i : Fin 256, ∀ t ∈ s.tasks, t.index ≠ i) → 8 ≤ (s.slot r).waiting.length → refused 0x16)))))) ∧
  (∀ (tag : Tag) (payload : List Byte) (s : State), payload.length ≤ 249 → AtRest s → Reaches s ⟨0x20, tag, payload⟩ →
    let refused := fun status : Byte => exec (.submit tag payload) s = .next (s.begun.replied 0x20 tag [status] .nothing)
    (payload = [] → refused 0x11) ∧
    ∀ (n : Byte) (records : List Byte), payload = n :: records →
      (n = 0 ∨ 8 < n.toNat → refused 0x12) ∧
      (n ≠ 0 → n.toNat ≤ 8 → records.length ≠ 12 * n.toNat → refused 0x11))

/-- R31, R32, R43, R90: CANCEL of a QUEUED or PAUSED task frees its entry and takes it out of its waiting set; of a
current task it also gives up the slot, with its lit display or its admission request: a slot with no QUEUED task is
left empty, and dark with a new seq if the task was SHOWN. A terminal task, an unknown id and id 0 are refused. -/
def Obligations.CancelFreesTask : Prop :=
  ∀ (tag : Tag) (id : TaskId) (s : State), AtRest s → Reaches s ⟨0x21, tag, leBytes 2 id.toNat⟩ →
    (id = 0 → exec (.cancel tag (leBytes 2 id.toNat)) s = .next (s.begun.replied 0x21 tag [0x12, 0] .nothing)) ∧
    (id ≠ 0 → s.task? id = none →
      exec (.cancel tag (leBytes 2 id.toNat)) s = .next (s.begun.replied 0x21 tag [0x13, 0] .nothing)) ∧
    ∀ u, id ≠ 0 → s.task? id = some u →
      let freed := (((s.begun.freeTask id).updPicker u.picker fun x => { x with openCount := x.openCount - 1 }).updSlot
        u.slot fun y => { y with waiting := y.waiting.filter (· ≠ id) }).replied 0x21 tag [0x00, u.state.code] .nothing
      (u.state = .done ∨ u.state = .short ∨ u.state = .expired →
        exec (.cancel tag (leBytes 2 id.toNat)) s =
          .next (s.begun.replied 0x21 tag [0x1D, u.state.code] .nothing)) ∧
      (u.state = .queued ∨ u.state = .paused → exec (.cancel tag (leBytes 2 id.toNat)) s = .next freed) ∧
      (u.state = .waitLoad ∨ u.state = .shown ∨ u.state = .blocked →
        ∃ t, exec (.cancel tag (leBytes 2 id.toNat)) s = .next t ∧ t.untouched = freed.untouched ∧
          t.captures = s.captures ∧ t.task? id = none ∧ t.away u.slot.seg = s.away u.slot.seg ∧
          (t.slot u.slot).current ≠ some id ∧
          (t.slot u.slot).waiting = (s.slot u.slot).waiting.filter (· ≠ id) ∧
          (u.state = .shown → ∀ e ∈ (t.seg u.slot.seg).gov.lit, ¬(e.ix = u.slot.ix ∧ e.task = id)) ∧
          (u.state = .waitLoad → ∀ a ∈ (t.seg u.slot.seg).gov.queue, ¬(a.ix = u.slot.ix ∧ a.task = id)) ∧
          ((∀ v ∈ s.tasks, v.id ≠ id → v.id ∈ (s.slot u.slot).waiting → v.state ≠ .queued) →
            (t.slot u.slot).current = none ∧ (t.slot u.slot).tenure = none ∧
            (u.state = .shown → (∀ a ∈ (s.seg u.slot.seg).gov.queue, a.ix ≠ u.slot.ix) →
              (t.slot u.slot).shadow = (s.slot u.slot).shadow.darkened)))

/-- R34: RETIRE frees a terminal entry and tells what it ended with; any other is refused. -/
def Obligations.RetireFreesTerminalEntry : Prop :=
  ∀ (tag : Tag) (id : TaskId) (s : State), AtRest s → Reaches s ⟨0x22, tag, leBytes 2 id.toNat⟩ →
    (id = 0 → exec (.retire tag (leBytes 2 id.toNat)) s = .next (s.begun.replied 0x22 tag [0x12, 0, 0, 0] .nothing)) ∧
    (id ≠ 0 → s.task? id = none →
      exec (.retire tag (leBytes 2 id.toNat)) s = .next (s.begun.replied 0x22 tag [0x13, 0, 0, 0] .nothing)) ∧
    ∀ u, id ≠ 0 → s.task? id = some u →
      exec (.retire tag (leBytes 2 id.toNat)) s = .next (
        if u.state = .done ∨ u.state = .short then
          ((s.begun.freeTask id).updPicker u.picker fun x => { x with openCount := x.openCount - 1 }).replied 0x22 tag
            (0x00 :: u.state.code :: leBytes 2 u.confirmed) .nothing
        else if u.state = .expired then
          ((s.begun.freeTask id).updPicker u.picker fun x => { x with openCount := x.openCount - 1 }).replied 0x22 tag
            [0x00, u.state.code, 0, 0] .nothing
        else s.begun.replied 0x22 tag [0x1D, u.state.code, 0, 0] .nothing)

/-- R35, R36, R37: QUERY_TASK gives the entry as it stands. LIST_TASKS gives the first sixteen matching entries from its
cursor on, in ascending table index, and the index to go on from, or END. Neither changes anything. That the digits
behind an absent prompt's presence byte are 0 is the model's choice (notes/assumptions/41.md). -/
def Obligations.TaskReadsChangeNothing : Prop :=
  (∀ (tag : Tag) (id : TaskId) (s : State), AtRest s → Reaches s ⟨0x23, tag, leBytes 2 id.toNat⟩ →
       (id = 0 → exec (.queryTask tag (leBytes 2 id.toNat)) s =
         .next (s.begun.replied 0x23 tag (0x12 :: List.replicate 36 0) .nothing)) ∧
       (id ≠ 0 → s.task? id = none → exec (.queryTask tag (leBytes 2 id.toNat)) s =
         .next (s.begun.replied 0x23 tag (0x13 :: List.replicate 36 0) .nothing)) ∧
       ∀ u, id ≠ 0 → s.task? id = some u →
         let shown := u.state = .shown
         let timed := u.state = .shown ∧ u.limit.isSome
         let ended := u.state = .done ∨ u.state = .short
         exec (.queryTask tag (leBytes 2 id.toNat)) s = .next (s.begun.replied 0x23 tag
           (0x00 :: byteOf u.index.val :: (leBytes 2 u.id.toNat ++
             [byteOf u.picker.val, byteOf (64 * u.slot.seg.val + u.slot.ix.val + 1)] ++ leBytes 2 u.requested ++
             leBytes 2 u.displayed ++ [u.state.code, u.step.code] ++ leBytes 4 u.stamp.toNat ++
             leBytes 2 (u.limit.getD 0) ++
             (match u.prompt with
               | none => [0, 0, 0, 0]
               | some d => [1, digitCode d.d1, digitCode d.d2, digitCode d.d3]) ++
             leBytes 4 (if shown then u.shownSince.toNat else 0) ++ leBytes 4 (if timed then u.timeLeft else 0) ++
             leBytes 2 (if ended then u.confirmed else 0) ++
             leBytes 4 (if ended ∨ u.state = .expired then u.endStamp.toNat else 0) ++
             [if timed then (if (s.seg u.slot.seg).sup.state = .running then 1 else 2) else 0])) .nothing)) ∧
  (∀ (tag : Tag) (cursor : Nat) (states picker segment : Byte) (s : State),
       let payload := leBytes 2 cursor ++ [states, picker, segment]
       AtRest s → Reaches s ⟨0x24, tag, payload⟩ → cursor < 65536 →
       let bad := 255 < cursor ∨ (11 < picker.toNat ∧ picker ≠ 0xFF) ∨ (3 < segment.toNat ∧ segment ≠ 0xFF)
       let listed := (s.tasks.filter fun t =>
         cursor ≤ t.index.val && (states = 0 || states.getLsbD t.state.code.toNat) &&
           (picker = 0xFF || t.picker.val = picker.toNat) && (segment = 0xFF || t.slot.seg.val = segment.toNat)).take 16
       let next := match listed.getLast? with
         | some u => if listed.length = 16 ∧ u.index.val < 255 then u.index.val + 1 else 0xFFFF
         | none => 0xFFFF
       (bad → exec (.listTasks tag payload) s = .next (s.begun.replied 0x24 tag [0x12, 0, 0, 0] .nothing)) ∧
       (¬bad → exec (.listTasks tag payload) s = .next (s.begun.replied 0x24 tag
         (0x00 :: (leBytes 2 next ++ [byteOf listed.length] ++ listed.flatMap fun u =>
           byteOf u.index.val :: (leBytes 2 u.id.toNat ++
             [byteOf u.picker.val, byteOf (64 * u.slot.seg.val + u.slot.ix.val + 1), u.state.code, u.step.code] ++
             leBytes 2 u.displayed ++ leBytes 2 u.requested))) .nothing)))

/-- R38, R57, R137, R139, R184: CLEAR_TASKS frees every entry, darkens every slot that is not dark, empties the governors
but for their base loads, frees the captures, and keeps the submit counter, the pickers' other fields, the directory and
the counters. On a segment in RUNNING, HOLDING or HELD each slot darkened gets a DARK, handed as R57 hands a change: it
takes the place of a command queued for its address or joins at the tail; and a free RUNNING line then chooses. The end of
economy is reported, segment by segment. That the DARKs of one segment join in ascending address is the model's choice
(notes/assumptions/35.md), and that taking a command's place is not counted is its reading (notes/assumptions/36.md); so
is that the exchange chosen is in flight at once (notes/assumptions/11.md). -/
def Obligations.ClearTasksEmptiesTheTable : Prop :=
  ∀ (tag : Tag) (s : State), AtRest s → Reaches s ⟨0x05, tag, []⟩ →
    ∃ t, exec (.clearTasks tag []) s = .next t ∧ t.tasks = [] ∧
      t.untouched = (({ s.begun with tasks := [], pickers := s.pickers.map fun x : Picker => { x with openCount := 0 } }).replied
        0x05 tag (0x00 :: leBytes 2 s.tasks.length) .nothing).untouched ∧
      (∀ i : Fin 16, t.captures[i] = none) ∧
      (let left := (List.finRange 4).filter fun g => (s.seg g).gov.economy
       s.link.notices.length + left.length ≤ 32 → t.link.notices = s.link.notices ++
         s.noticesOf (left.map fun g => (.loadEconomy g false, some s.link.nextId))) ∧
      ∀ g,
        let x := s.seg g
        let gov := { x.gov with lit := [], queue := [], economy := false, loads := Vector.replicate 8 x.gov.baseLoad }
        let slots := x.slots.map fun y : Slot =>
          { y with waiting := [], current := none, tenure := none, shadow := y.shadow.darkened }
        let serving := x.sup.state = .running ∨ x.sup.state = .holding ∨ x.sup.state = .held
        let handed := fun ix : Fin 62 => serving ∧ x.slots[ix].shadow.owner ≠ none ∧
          x.entries[ix].presence ≠ .absent ∧ x.entries[ix].presence ≠ .lost
        let displays := x.line.displays.map (fun d => if handed d.ix then { d with kind := .darkCmd } else d) ++
          ((List.finRange 62).filter fun ix => handed ix ∧ ∀ d ∈ x.line.displays, d.ix ≠ ix).map (⟨·, .darkCmd⟩)
        let before := { x with gov := gov, slots := slots, line := { x.line with displays := displays } }
        if x.sup.state = .running ∧ x.line.inFlight = none ∧ x.line.breaking = false ∧ x.line.activeMs = 0 then
          SchedulerChoice before (t.seg g) ∧ (t.seg g).gov = gov ∧ (t.seg g).entries = x.entries ∧ (t.seg g).sup = x.sup ∧
            (t.seg g).tracker = x.tracker ∧ (t.seg g).counters = x.counters ∧ (t.seg g).slots = slots
        else t.seg g = before

/-! ### Press captures -/

/-- R78: ARM_CAPTURE arms the lowest FREE entry, or is refused by the first check that fails. -/
def Obligations.ArmCapture : Prop :=
  ∀ (tag key : Tag) (slot : Byte) (s : State),
    let payload := leBytes 2 key.toNat ++ [slot]
    let refused := fun status : Byte =>
      exec (.armCapture tag payload) s = .next (s.begun.replied 0x28 tag [status, 0] .nothing)
    AtRest s → Reaches s ⟨0x28, tag, payload⟩ →
    (key = 0 → refused 0x12) ∧
    (key ≠ 0 → slot.toNat % 64 = 0 ∨ slot.toNat % 64 = 63 → refused 0x1B) ∧
    ∀ r : SlotRef, key ≠ 0 → slot.toNat = 64 * r.seg.val + r.ix.val + 1 →
      ((s.entry r).kind = .empty → refused 0x1B) ∧
      ((s.entry r).kind ≠ .empty → (∀ i : Fin 16, s.captures[i] ≠ none) → refused 0x15) ∧
      ((s.entry r).kind ≠ .empty → ∀ i : Fin 16, s.captures[i] = none → (∀ j < i, s.captures[j] ≠ none) →
        exec (.armCapture tag payload) s =
          .next (({ s.begun with captures := s.captures.set i (some ⟨key, r⟩) }).replied 0x28 tag
            [0x00, byteOf i.val] .nothing))

/-- R79: DISARM_CAPTURE frees the entry armed with the tag and names its slot; an index above 15, a FREE entry and
another tag are refused, and nothing changes. That the capture state in the OK reply is FREE, the state after the
request, is the model's choice (notes/assumptions/47.md). -/
def Obligations.DisarmCapture : Prop :=
  ∀ (tag key : Tag) (index : Byte) (s : State),
    let payload := index :: leBytes 2 key.toNat
    AtRest s → Reaches s ⟨0x29, tag, payload⟩ →
    (15 < index.toNat →
      exec (.disarmCapture tag payload) s = .next (s.begun.replied 0x29 tag [0x12, 0, 0] .nothing)) ∧
    ∀ i : Fin 16, index.toNat = i.val →
      exec (.disarmCapture tag payload) s = .next (
        match s.captures[i] with
        | none => s.begun.replied 0x29 tag [0x1D, 0, 0] .nothing
        | some c =>
          if c.tag = key then
            ({ s.begun with captures := s.captures.set i none }).replied 0x29 tag
              [0x00, byteOf (64 * c.slot.seg.val + c.slot.ix.val + 1), 0] .nothing
          else s.begun.replied 0x29 tag [0x1D, 0, 1] .nothing)

/-! ### Segment configuration and the governor -/

/-- R171, R182: the configuration a SET_SEGMENT results in: a field whose mask bit is clear keeps its value, a given
field is clamped to its range, and the line rate, the interval and the on/off fields are taken only at their values. It
results in none, a BAD_VALUE, exactly if the mask has a bit without a field or one of those fields is given another
value. -/
def Obligations.SegmentFieldsClampedOrKept : Prop :=
  (∀ (payload : List Byte) (old c : SegConfig), newConfig payload old = some c →
     let given := fun i : Nat => (fieldAt payload 1 3).testBit i
     let number := fun (i low high new kept got : Nat) =>
       got = if given i then (if new < low then low else if high < new then high else new) else kept
     let onOff := fun (i new : Nat) (kept got : Bool) => if given i then new = got.toNat else got = kept
     fieldAt payload 1 3 < 2 ^ 17 ∧
     (if given 0 then 100 * fieldAt payload 4 2 = c.lineRate.bitPerS else c.lineRate = old.lineRate) ∧
     number 1 50 3000 (fieldAt payload 6 2) old.budget c.budget ∧
     number 2 0 50 (fieldAt payload 8 1) old.baseCurrent c.baseCurrent ∧
     number 3 1 16 (fieldAt payload 9 1) old.economyLevel c.economyLevel ∧
     number 4 0 1000 (fieldAt payload 10 2) old.guardMs c.guardMs ∧
     number 5 2 60 (fieldAt payload 12 1) old.stuckTime c.stuckTime ∧
     number 6 1 15 (fieldAt payload 13 1) old.lock c.lock ∧
     number 7 1 255 (fieldAt payload 14 1) old.unlock c.unlock ∧
     number 8 0 1023 (fieldAt payload 15 2) old.delay0 c.delay0 ∧
     number 9 4 255 (fieldAt payload 17 1) old.window c.window ∧
     (if given 10 then fieldAt payload 18 1 = c.interval.count else c.interval = old.interval) ∧
     number 11 0 3 (fieldAt payload 19 1) old.shift c.shift ∧
     number 12 1 255 (fieldAt payload 20 1) old.slew c.slew ∧
     onOff 13 (fieldAt payload 21 1) old.postFilter c.postFilter ∧
     onOff 14 (fieldAt payload 22 1) old.toggleHold c.toggleHold ∧
     onOff 15 (fieldAt payload 23 1) old.jump c.jump ∧
     number 16 16 512 (fieldAt payload 24 2) old.jumpOver c.jumpOver) ∧
  (∀ (payload : List Byte) (old : SegConfig), newConfig payload old = none ↔ segmentFieldsBad payload)

/-- R85, R100, R113, R156, R171: an accepted SET_SEGMENT gives the segment its configuration, adjusts the runs of ACQUIRING
and COASTING entries to changed thresholds and clears the tracker's work on a changed tracker field. Where the supply
budget and the base current keep their values, and the economy level too unless economy is OFF, that is all; otherwise a
load change follows, with the base load that the new base current and the modules present give. A changed line rate is
refused unless the segment is OFF, and a value out of its range, a mask bit without a field and a segment number above 3
are refused. That it is the clamped values that are compared is the model's reading (notes/assumptions/22.md). -/
def Obligations.SetSegmentReconfigures : Prop :=
  (∀ (tag : Tag) (g : Seg) (fields : List Byte) (s : State),
     let payload := byteOf g.val :: fields
     let old := (s.seg g).config
     fields.length = 25 → AtRest s → Reaches s ⟨0x30, tag, payload⟩ →
     (newConfig payload old = none →
       exec (.setSegment tag payload) s = .next (s.begun.replied 0x30 tag (0x12 :: List.replicate 25 0) .nothing)) ∧
     (segmentFieldsBad payload →
       exec (.setSegment tag payload) s = .next (s.begun.replied 0x30 tag (0x12 :: List.replicate 25 0) .nothing)) ∧
     (¬segmentFieldsBad payload → ∃ c, newConfig payload old = some c) ∧
     ∀ c, newConfig payload old = some c →
       let report := fun x : Segment => 0x00 :: x.sup.state.code :: faultCauseCode x.sup.cause :: x.sup.condition.code ::
         configFields c
       let kept := old.delay0 = c.delay0 ∧ old.window = c.window ∧ old.interval = c.interval ∧ old.shift = c.shift ∧
         old.slew = c.slew ∧ old.postFilter = c.postFilter ∧ old.toggleHold = c.toggleHold ∧ old.jump = c.jump ∧
         old.jumpOver = c.jumpOver
       let run := fun e : Entry => match e.presence with
         | .acquiring => if old.lock = c.lock then e else { e with goodRun := min e.goodRun (c.lock - 1) }
         | .coasting => if old.unlock = c.unlock then e else { e with missRun := min e.missRun (c.unlock - 1) }
         | _ => e
       let taken := (s.begun.updSeg g fun x =>
           { x with
             config := c, entries := x.entries.map run
             tracker := if kept then x.tracker else
               { delay := x.tracker.delay, sum := 0, n := 0, proposals := [], applied := [], hold := false } }).replied
         0x30 tag (report (s.seg g)) .nothing
       (c.lineRate ≠ old.lineRate → (s.seg g).sup.state ≠ .off →
         exec (.setSegment tag payload) s = .next (s.begun.replied 0x30 tag (0x1D :: List.replicate 25 0) .nothing)) ∧
       (c.lineRate = old.lineRate ∨ (s.seg g).sup.state = .off →
         (c.budget = old.budget → c.baseCurrent = old.baseCurrent →
           c.economyLevel = old.economyLevel ∨ (s.seg g).gov.economy = false →
           exec (.setSegment tag payload) s = .next taken) ∧
         ∃ t, exec (.setSegment tag payload) s = .next t ∧ t.untouched = taken.untouched ∧ t.captures = s.captures ∧
           t.away g = s.away g ∧ (t.seg g).entries = (taken.seg g).entries ∧ (t.seg g).tracker = (taken.seg g).tracker ∧
           (t.seg g).sup = (s.seg g).sup ∧
           (c.budget ≠ old.budget ∨ c.baseCurrent ≠ old.baseCurrent ∨
               (c.economyLevel ≠ old.economyLevel ∧ (s.seg g).gov.economy = true) →
             (t.seg g).gov.baseLoad = 16 * c.baseCurrent *
               (s.seg g).entries.toList.countP (fun y => y.presence = .present ∨ y.presence = .coasting)) ∧
           (LoadSound s g → LoadSound t g))) ∧
  (∀ (tag : Tag) (segment : Byte) (fields : List Byte) (s : State), 3 < segment.toNat → fields.length = 25 → AtRest s →
    Reaches s ⟨0x30, tag, segment :: fields⟩ →
    exec (.setSegment tag (segment :: fields)) s =
      .next (s.begun.replied 0x30 tag (0x12 :: List.replicate 25 0) .nothing))

/-- R21, R54, R57, R83, R88, R89, R90 to R98, R101: SET_COLOUR_CURRENTS replaces the currents whose mask bits are set, and the load
change on every segment leaves no phase above U with a display lit. A mask bit with no colour is refused. In a load
change a display takes the first rotation with the least largest phase load; entering economy lowers every lit display's
level to Le and is reported; economy is left exactly if nothing waits and no phase would exceed 7/8 of U at full levels;
and of the lit displays the one of the lowest priority, the latest admitted of several, is shed, its task waiting again
with the tenure's stamp. A request is placed by priority and then by age, behind those that rank the same. An admission
attempt takes the head of the queue: one that fits leaves the queue, joins the lit list with its rotation and level, adds
its contribution, and its task is SHOWN with a full timer, the shadow its own with a new seq, and a SHOW handed; one that
does not fit brings economy and is judged again, and with economy ON it stays at the head, is marked and counted once, and
nothing behind it is judged. -/
def Obligations.SetColourCurrentsMakesLoadChanges : Prop :=
  (∀ (tag : Tag) (mask : Byte) (given : Vector Byte 7) (s : State),
     let payload := mask :: given.toList
     let table : Vector Nat 7 := Vector.ofFn fun i : Fin 7 => if mask.getLsbD i then given[i].toNat else s.currents[i]
     AtRest s → Reaches s ⟨0x31, tag, payload⟩ →
     (128 ≤ mask.toNat →
       exec (.setColourCurrents tag payload) s = .next (s.begun.replied 0x31 tag (0x12 :: List.replicate 7 0) .nothing)) ∧
     (mask.toNat < 128 → ∃ t, exec (.setColourCurrents tag payload) s = .next t ∧
       t.untouched = (({ s.begun with currents := table }).replied 0x31 tag
         (0x00 :: table.toList.map byteOf) .nothing).untouched ∧
       t.captures = s.captures ∧
       ∀ g, (t.seg g).entries = (s.seg g).entries ∧ (t.seg g).sup = (s.seg g).sup ∧
         (t.seg g).tracker = (s.seg g).tracker ∧
         ((∀ e ∈ (s.gov g).lit, e.effective = s.levelNow g e) → LoadSound t g))) ∧
  (∀ (s : State) (g : Seg) (p : Picker) (level : Nat),
    let litAt := fun rotation phase : Fin 8 => match p.pattern with
      | .steady => true
      | .blink => (phase.val + 8 - rotation.val) % 8 < 4
      | .flicker => (phase.val + 8 - rotation.val) % 2 = 0
    let most := fun rotation : Fin 8 => ((List.finRange 8).map fun phase : Fin 8 =>
      (s.seg g).gov.loads[phase] + if litAt rotation phase then s.current p.colour * level else 0).foldl max 0
    let chosen := s.chooseRotation g p level
    (p.pattern = .steady → chosen = 0) ∧
    (p.pattern ≠ .steady → ∀ r : Fin 8, most chosen ≤ most r ∧ (most r = most chosen → chosen ≤ r))) ∧
  (∀ (s : State) (g : Seg), s.link.notices.length < 32 →
    let x := s.seg g
    let full := fun phase : Fin 8 => x.gov.baseLoad +
      (x.gov.lit.map fun e => if litIn e.pattern e.rotation phase then s.current e.colour * e.level else 0).sum
    let exits := x.gov.economy = true ∧ x.gov.queue = [] ∧ ∀ phase, 8 * full phase ≤ 7 * (16 * x.config.budget)
    (((s.enterEconomy g).seg g).gov.economy = true ∧ ((s.enterEconomy g).seg g).gov.queue = x.gov.queue ∧
      ((s.enterEconomy g).seg g).gov.lit =
        x.gov.lit.map (fun e => { e with effective := min e.level x.config.economyLevel }) ∧
      (s.enterEconomy g).link.notices = s.link.notices ++
        [⟨s.time, s.link.dropMark, .loadEconomy g true, s.link.taking⟩]) ∧
    (¬exits → s.exitCheck g = s) ∧
    (exits → ((s.exitCheck g).seg g).gov.economy = false ∧
      ((s.exitCheck g).seg g).gov.lit = x.gov.lit.map (fun e => { e with effective := e.level }) ∧
      (∀ phase : Fin 8, ((s.exitCheck g).seg g).gov.loads[phase] = full phase) ∧
      (s.exitCheck g).link.notices = s.link.notices ++
        [⟨s.time, s.link.dropMark, .loadEconomy g false, s.link.taking⟩])) ∧
  (∀ (s : State) (g : Seg) (before after : List LitEntry) (e : LitEntry),
    let x := s.seg g
    let rank := fun a : LitEntry => match s.task? a.task with
      | some u => (s.picker u.picker).priority
      | none => 0
    x.gov.lit = before ++ e :: after → (∀ a ∈ before, rank e ≤ rank a) → (∀ a ∈ after, rank e < rank a) →
    let t := s.shedOne g
    (t.seg g).gov.lit = x.gov.lit.filter (fun a => a.ix ≠ e.ix) ∧
      (t.seg g).counters.sheds = x.counters.sheds + 1 ∧ (t.shadow ⟨g, e.ix⟩) = (s.shadow ⟨g, e.ix⟩).darkened ∧
      ∀ u, s.task? e.task = some u → t.task? e.task = some { u with state := .waitLoad, timeLeft := 0 } ∧
        ∃ a ∈ (t.seg g).gov.queue, a.ix = e.ix ∧ a.task = u.id ∧ a.priority = (s.picker u.picker).priority ∧
          a.stamp = (s.slot ⟨g, e.ix⟩).tenure.getD s.time ∧ a.waited = false) ∧
  (∀ (s : State) (r : SlotRef) (u : Task) (stamp : Stamp),
    let a : Admission := ⟨r.ix, u.id, (s.picker u.picker).priority, stamp, false⟩
    let age := fun x : Stamp => (s.time - x).toNat
    ∃ before after, (s.seg r.seg).gov.queue = before ++ after ∧
      s.place r u stamp = s.updSeg r.seg (fun y => { y with gov := { y.gov with queue := before ++ a :: after } }) ∧
      (∀ b ∈ before, a.priority < b.priority ∨ b.priority = a.priority ∧ age stamp ≤ age b.stamp) ∧
      ∀ b, after.head? = some b → b.priority < a.priority ∨ b.priority = a.priority ∧ age b.stamp < age stamp) ∧
  (∀ (s : State) (g : Seg), ((s.seg g).gov.queue = [] → s.attempt g = s) ∧ s.settle g = (s.attempt g).exitCheck g) ∧
  (∀ (s : State) (g : Seg) (a : Admission) (rest : List Admission) (u : Task),
    let x := s.seg g
    let p := s.picker u.picker
    let level := if x.gov.economy = true then min p.level x.config.economyLevel else p.level
    let rotation := s.chooseRotation g p level
    let adds := fun phase : Fin 8 => if litIn p.pattern rotation phase then s.current p.colour * level else 0
    let fits := ∀ phase : Fin 8, x.gov.loads[phase] + adds phase ≤ 16 * x.config.budget
    let r : SlotRef := ⟨g, a.ix⟩
    let handed := (x.sup.state = .running ∨ x.sup.state = .holding ∨ x.sup.state = .held) ∧
      (s.entry r).presence ≠ .absent ∧ (s.entry r).presence ≠ .lost
    let t := s.admitHead g a u
    let y := t.seg g
    x.gov.queue = a :: rest → s.task? a.task = some u → u.state = .waitLoad →
    (fits → s.attempt g = t.attempt g) ∧
    (¬fits → x.gov.economy = false → s.attempt g = (s.enterEconomy g).attempt g) ∧
    (¬fits → x.gov.economy = true → s.attempt g = if a.waited = true then s else s.updSeg g fun z =>
      { z with
        gov := { z.gov with queue := { a with waited := true } :: rest }
        counters := { z.counters with admissionsWaited := z.counters.admissionsWaited + 1 } }) ∧
    t.untouched = s.untouched ∧ t.captures = s.captures ∧ t.link = s.link ∧ t.away g = s.away g ∧
    y.entries = x.entries ∧ y.sup = x.sup ∧ y.tracker = x.tracker ∧
    y.gov.queue = rest ∧ y.gov.economy = x.gov.economy ∧ y.gov.baseLoad = x.gov.baseLoad ∧
    y.gov.lit = x.gov.lit ++ [⟨a.ix, u.id, p.colour, p.pattern, rotation, p.level, level⟩] ∧
    (x.gov.loads = s.loadsAt g LitEntry.effective → ∀ phase : Fin 8, y.gov.loads[phase] = x.gov.loads[phase] + adds phase) ∧
    t.task? u.id = some { u with state := .shown, shownSince := s.time, timeLeft := 1000 * u.limit.getD 0 } ∧
    (∀ id, id ≠ u.id → t.task? id = s.task? id) ∧
    t.slot r = { s.slot r with shadow :=
      { seq := (s.shadow r).seq + 1, owner := some ⟨u.id, u.step⟩, colour := p.colour, pattern := p.pattern
        rotation := rotation, level := level
        digits := match u.step with
          | .prompt => u.prompt.getD ⟨none, none, none⟩
          | .quantity => quantityDigits u.displayed } } ∧
    (∀ q, q ≠ r → t.slot q = s.slot q) ∧
    (¬handed → y.line = x.line) ∧
    (handed → (∀ d ∈ x.line.displays, d.ix ≠ a.ix) → y.line = { x.line with
      displays := x.line.displays ++ [⟨a.ix, .showCmd⟩] }) ∧
    (handed → (∃ d ∈ x.line.displays, d.ix = a.ix) →
      y.line = { x.line with
        displays := x.line.displays.map fun d => if d.ix = a.ix then { d with kind := .showCmd } else d } ∧
      y.counters = { x.counters with superseded := x.counters.superseded + 1 }))

/-! ### Segment states and service -/

/-- R22, R47, R48, R55, R102, R115, R159 to R163: SEGMENT_POWER on, in OFF or FAULT with the trip input clear, starts
the settle stage with the supply ON; with the trip input asserted the segment ends in FAULT, with the notices of both
changes and of what R162 ends; in any other state it is refused. A segment number above 3 and a setting that is neither
on nor off are refused with BAD_VALUE. That the modules reset at the moment the supply comes ON is the model's choice
(notes/assumptions/18.md; the blink phase of a reset module: notes/assumptions/44.md), and so is the state carried with
a refused setting (notes/assumptions/15.md); that an OPERATION_DONE that an event ends waits for the reply to its own
request is the model's reading (notes/assumptions/34.md). -/
def Obligations.PowerOnStartsSegment : Prop :=
  (∀ (tag : Tag) (g : Seg) (s : State),
     let payload := [byteOf g.val, 1]
     let old := (s.seg g).sup.state
     AtRest s → Reaches s ⟨0x32, tag, payload⟩ →
     (old = .off ∨ old = .fault → (s.seg g).trip = false →
       exec (.segmentPower tag payload) s = .next (
         ({ s.begun with modules := s.modules.map fun m : Module => if m.seg = g then m.reset else m }.updSeg g fun x =>
             { x with
               sup := { x.sup with
                 cause := none, supply := true, stage := .settle, stageEnd := s.time + 200, state := .starting }
               tracker :=
                 { delay := x.config.delay0, sum := 0, n := 0, proposals := [], applied := [], hold := false }
               }).notify (.segmentState g .starting old .powerOn) |>.replied 0x32 tag [0x00, 1] .nothing)) ∧
     (old = .off ∨ old = .fault → (s.seg g).trip = true →
       ∃ t, exec (.segmentPower tag payload) s = .next t ∧ LeftService s t g .fault (some .supplyTrip) ∧
         ServiceEnded s.begun t g [.segmentState g .starting old .powerOn, .segmentState g .fault .starting .supplyTrip] ∧
         t.link.carries ⟨s.link.nextId, 0xB2, tag, [0x00, 5], .nothing⟩) ∧
     (old = .starting ∨ old = .running ∨ old = .holding ∨ old = .held →
       exec (.segmentPower tag payload) s = .next (s.begun.replied 0x32 tag [0x1D, old.code] .nothing))) ∧
  (∀ (tag : Tag) (segment setting : Byte) (s : State), AtRest s → Reaches s ⟨0x32, tag, [segment, setting]⟩ →
    (3 < segment.toNat → exec (.segmentPower tag [segment, setting]) s =
      .next (s.begun.replied 0x32 tag [0x12, 0] .nothing)) ∧
    ∀ g : Seg, segment.toNat = g.val → 1 < setting.toNat → exec (.segmentPower tag [segment, setting]) s =
      .next (s.begun.replied 0x32 tag [0x12, (s.seg g).sup.state.code] .nothing))

/-- R22, R47, R48, R55, R102, R115, R131, R160, R162: SEGMENT_POWER off changes nothing in OFF; in FAULT the state, the
cause and the SYNC due mark, which is cleared; and it takes a segment in service to OFF: its WAIT_LOAD and SHOWN tasks
are BLOCKED, their shadows dark with a new seq, and its notices come in the order of R162. A segment number above 3 is
refused. That an OPERATION_DONE that an event ends waits for the reply to its own request is the model's reading
(notes/assumptions/34.md). -/
def Obligations.PowerOffLeavesService : Prop :=
  (∀ (tag : Tag) (g : Seg) (s : State),
     let payload := [byteOf g.val, 0]
     let old := (s.seg g).sup.state
     AtRest s → Reaches s ⟨0x32, tag, payload⟩ →
     (old = .off → exec (.segmentPower tag payload) s = .next (s.begun.replied 0x32 tag [0x00, 0] .nothing)) ∧
     (old = .fault → exec (.segmentPower tag payload) s = .next (
       ((s.begun.updSeg g fun x =>
         { x with sup := { x.sup with cause := none, state := .off }, line := { x.line with syncDue := false } }).notify
         (.segmentState g .off .fault .powerOff)).replied 0x32 tag [0x00, 0] .nothing)) ∧
     (old = .starting ∨ old = .running ∨ old = .holding ∨ old = .held →
       ∃ t, exec (.segmentPower tag payload) s = .next t ∧ LeftService s t g .off none ∧
         ServiceEnded s.begun t g [.segmentState g .off old .powerOff] ∧
         t.untouched = (s.begun.replied 0x32 tag [0x00, 0] .nothing).untouched ∧ t.captures = s.captures ∧
         (s.link.notices.length < 32 → ∃ rest, t.link.notices = s.link.notices ++
           ⟨s.time, s.link.dropMark, .segmentState g .off old .powerOff, some s.link.nextId⟩ :: rest))) ∧
  (∀ (tag : Tag) (segment : Byte) (s : State), 3 < segment.toNat → AtRest s → Reaches s ⟨0x32, tag, [segment, 0]⟩ →
    exec (.segmentPower tag [segment, 0]) s = .next (s.begun.replied 0x32 tag [0x12, 0] .nothing))

/-- R137, R170: BREAK_SEGMENT marks a break in RUNNING; an idle line starts it at once. Elsewhere, or with a break
already pending, it is refused; and so is a segment number above 3. That a line still active after a held line is not
idle for a break is the model's choice (notes/assumptions/8.md), and the state byte of its replies is the model's reading
(notes/assumptions/15.md). -/
def Obligations.BreakSegmentMarksBreak : Prop :=
  (∀ (tag : Tag) (g : Seg) (s : State),
     let payload := [byteOf g.val]
     let v := (s.seg g).sup
     AtRest s → Reaches s ⟨0x33, tag, payload⟩ →
     exec (.breakSegment tag payload) s = .next (
       if v.state ≠ .running then s.begun.replied 0x33 tag [0x1D, 0] .nothing
       else if v.breakPending then s.begun.replied 0x33 tag [0x1E, 0] .nothing
       else (s.begun.updSeg g fun x =>
         { x with
           sup := { x.sup with breakPending := true }
           line := if x.line.inFlight.isNone ∧ x.line.breaking = false ∧ x.line.activeMs = 0 then
             { x.line with breaking := true } else x.line }).replied 0x33 tag [0x00, 2] .nothing)) ∧
  (∀ (tag : Tag) (segment : Byte) (s : State), 3 < segment.toNat → AtRest s → Reaches s ⟨0x33, tag, [segment]⟩ →
    exec (.breakSegment tag [segment]) s = .next (s.begun.replied 0x33 tag [0x12, 0] .nothing))

/-- R135, R159, R164, R166: HOLD_SEGMENT takes a RUNNING segment without a discovery run to HOLDING, and at once to HELD
where nothing is in flight and no break pending. A segment number above 3 is refused. What it finds on an idle line that
is still active after a held line is the model's choice (notes/assumptions/8.md): nothing is in flight on it, so a break
that waited for it starts, or the segment is HELD at once with activity left. That the reply carries the state after the
request is the model's reading (notes/assumptions/15.md), and so is that an exchange chosen and still in its gap is in
flight (notes/assumptions/11.md); the number of the STARTED reply is kept so that the notice of the hold's end can wait
for it (notes/assumptions/34.md). -/
def Obligations.HoldSegmentHolds : Prop :=
  (∀ (tag : Tag) (g : Seg) (s : State),
     let payload := [byteOf g.val]
     let v := (s.seg g).sup
     AtRest s → Reaches s ⟨0x34, tag, payload⟩ →
     (v.state ≠ .running →
       exec (.holdSegment tag payload) s = .next (s.begun.replied 0x34 tag [0x1D, 0] .nothing)) ∧
     (v.state = .running → v.discovery ≠ none →
       exec (.holdSegment tag payload) s = .next (s.begun.replied 0x34 tag [0x1E, 0] .nothing)) ∧
     (v.state = .running → v.discovery = none → (s.seg g).line.idle = false →
       exec (.holdSegment tag payload) s = .next (
         ((s.begun.updSup g fun w => { w with
           holdTag := some tag, holdReply := s.link.nextId, state := .holding }).notify
           (.segmentState g .holding .running .hold)).replied 0x34 tag [0x01, 3] .nothing)) ∧
     (v.state = .running → v.discovery = none → (s.seg g).line.idle = true → v.breakPending = true →
       exec (.holdSegment tag payload) s = .next (
         ((s.begun.updSeg g fun x =>
           { x with
             sup := { x.sup with holdTag := some tag, holdReply := s.link.nextId, state := .holding }
             line := { x.line with
               breaking := true, breakMs := 0
               probeFirst := decide (250 ≤ (s.time - x.sup.lastProbe).toNat) } }).notify
           (.segmentState g .holding .running .hold)).replied 0x34 tag [0x01, 3] .nothing)) ∧
     (v.state = .running → v.discovery = none → (s.seg g).line.idle = true → v.breakPending = false →
       exec (.holdSegment tag payload) s = .next (
         ((((s.begun.updSup g fun w => { w with
           holdTag := none, holdReply := s.link.nextId, state := .held }).notify
           (.segmentState g .holding .running .hold)).notify (.segmentState g .held .holding .held)).notify
           (.operationDone tag g .hold .complete .none)).replied 0x34 tag [0x01, 4] .nothing))) ∧
  (∀ (tag : Tag) (segment : Byte) (s : State), 3 < segment.toNat → AtRest s → Reaches s ⟨0x34, tag, [segment]⟩ →
    exec (.holdSegment tag [segment]) s = .next (s.begun.replied 0x34 tag [0x12, 0] .nothing))

/-- R135, R137, R167: RELEASE_SEGMENT takes HOLDING, cancelling the hold, and HELD without a raw exchange to RUNNING,
where a free line sends SYNC first, and one still active after a held line waits; it is refused in any other state and
during a raw exchange, and with a segment number above 3. That the OK reply carries RUNNING, the state after the
request, and a refused one 0 is the model's reading (notes/assumptions/15.md), and so is that the SYNC is in flight as
soon as it is chosen (notes/assumptions/11.md); how long a line stays active after a held line is the model's choice
(notes/assumptions/8.md). -/
def Obligations.ReleaseSegmentResumes : Prop :=
  (∀ (tag : Tag) (g : Seg) (s : State),
     let payload := [byteOf g.val]
     let v := (s.seg g).sup
     AtRest s → Reaches s ⟨0x35, tag, payload⟩ →
     (v.state ≠ .holding → v.state ≠ .held →
       exec (.releaseSegment tag payload) s = .next (s.begun.replied 0x35 tag [0x1D, 0] .nothing)) ∧
     (v.state = .held → v.raw ≠ none →
       exec (.releaseSegment tag payload) s = .next (s.begun.replied 0x35 tag [0x1E, 0] .nothing)) ∧
     (∀ hold, v.state = .holding → v.holdTag = some hold →
       exec (.releaseSegment tag payload) s = .next (
         (((s.begun.updSeg g fun x =>
           { x with
             sup := { x.sup with state := .running, holdTag := none }, line := { x.line with syncDue := true } }).notify
           (.segmentState g .running .holding .release)).notify (.operationDone hold g .hold .cancelled .none)).replied
           0x35 tag [0x00, 2] .nothing)) ∧
     (v.state = .held → v.raw = none → v.holdTag = none → v.breakPending = false → (s.seg g).line.idle = true →
       exec (.releaseSegment tag payload) s = .next (
         ((s.begun.updSeg g fun x =>
           { x with
             sup := { x.sup with state := .running }
             line := if 0 < x.line.activeMs then { x.line with syncDue := true } else
               { x.line with syncDue := true, latestPoll := false, inFlight := some syncExchange } }).notify
           (.segmentState g .running .held .release)).replied 0x35 tag [0x00, 2] .nothing))) ∧
  (∀ (tag : Tag) (segment : Byte) (s : State), 3 < segment.toNat → AtRest s → Reaches s ⟨0x35, tag, [segment]⟩ →
    exec (.releaseSegment tag [segment]) s = .next (s.begun.replied 0x35 tag [0x12, 0] .nothing))

/-- R168, R169: RAW_EXCHANGE in HELD, with no raw exchange in flight, records the operation; its checks come in the
order value, length, state, progress. One too short for its first three bytes is refused with BAD_LENGTH before them. A
SYNC is sent to address 63. That a BREAK uses no line address, so that one above 63 is no BAD_VALUE with it, is the
model's reading (notes/assumptions/26.md), and so are the state byte of its replies (notes/assumptions/15.md) and the
number of the STARTED reply, kept so that the notice of the end can wait for it (notes/assumptions/34.md); that the
exchange then stands in its gap is how the model keeps its place (notes/assumptions/8.md). -/
def Obligations.RawExchangeChecksAndStarts : Prop :=
  (∀ (tag : Tag) (segment code address : Byte) (data : List Byte) (s : State),
     let payload := segment :: code :: address :: data
     let op : Option RawOp := match code.toNat with
       | 0x00 => some .brk
       | 0x21 => some (.command .poll)
       | 0x22 => some (.command .showCmd)
       | 0x23 => some (.command .digits)
       | 0x24 => some (.command .dark)
       | 0x25 => some (.command .ident)
       | 0x26 => some (.command .assign)
       | 0x27 => some (.command .sync)
       | _ => none
     let length := fun x : RawOp => match x with
       | .command .showCmd => 8
       | .command .digits => 4
       | .command .dark => 1
       | .command .assign => 5
       | _ => 0
     let refused := fun p : List Byte => exec (.rawExchange tag payload) s = .next (s.begun.replied 0x36 tag p .nothing)
     AtRest s → Reaches s ⟨0x36, tag, payload⟩ → payload.length ≤ 249 →
     (3 < segment.toNat ∨ op = none ∨ (op ≠ some .brk ∧ 63 < address.toNat) → refused [0x12, 0]) ∧
     ∀ (g : Seg) (x : RawOp), segment.toNat = g.val → op = some x → (x = .brk ∨ address.toNat ≤ 63) →
       let raw : Raw :=
         { tag := tag, op := x, address := if x = .command .sync then 63 else address, payload := data, stage := .gap
           reply := s.link.nextId }
       (data.length ≠ length x → refused [0x11]) ∧
       (data.length = length x → (s.seg g).sup.state ≠ .held → refused [0x1D, 0]) ∧
       (data.length = length x → (s.seg g).sup.state = .held → (s.seg g).sup.raw ≠ none → refused [0x1E, 0]) ∧
       (data.length = length x → (s.seg g).sup.state = .held → (s.seg g).sup.raw = none →
         exec (.rawExchange tag payload) s =
           .next ((s.begun.updSup g fun v => { v with raw := some raw }).replied 0x36 tag [0x01, 4] .nothing))) ∧
  (∀ (tag : Tag) (payload : List Byte) (s : State), payload.length < 3 → AtRest s → Reaches s ⟨0x36, tag, payload⟩ →
    exec (.rawExchange tag payload) s = .next (s.begun.replied 0x36 tag [0x11] .nothing))

/-! ### The module directory -/

/-- R105, R106, R107: PROVISION_SLOT makes an entry PROVISIONED with the serial expected, and the binding follows; an
EMPTY entry takes reset values for the rest. An invalid slot and a serial expected at another slot are refused. -/
def Obligations.ProvisionSlotSetsExpected : Prop :=
  ∀ (tag : Tag) (slot : Byte) (serial : Serial) (s : State),
    let payload := slot :: leBytes 4 serial.toNat
    let refused := fun status : Byte =>
      exec (.provisionSlot tag payload) s = .next (s.begun.replied 0x40 tag (status :: List.replicate 66 0) .nothing)
    AtRest s → Reaches s ⟨0x40, tag, payload⟩ →
    (slot.toNat % 64 = 0 ∨ slot.toNat % 64 = 63 → refused 0x1B) ∧
    ∀ r : SlotRef, slot.toNat = 64 * r.seg.val + r.ix.val + 1 →
      let elsewhere := ∃ q : SlotRef, q ≠ r ∧ (s.entry q).kind = .provisioned ∧ (s.entry q).expected = some serial
      (elsewhere → refused 0x14) ∧
      (¬elsewhere → ∃ t, exec (.provisionSlot tag payload) s = .next t ∧
        t.untouched = (s.begun.replied 0x40 tag (0x00 :: t.slotReport r) .nothing).untouched ∧ t.captures = s.captures ∧
        t.away r.seg = s.away r.seg ∧
        ((s.entry r).kind = .empty → t.entry r = { Entry.reset with kind := .provisioned, expected := some serial }) ∧
        ((s.entry r).kind ≠ .empty → t.entry r =
          { s.entry r with
            kind := .provisioned, expected := some serial
            binding := match (s.entry r).seen with
              | none => .unbound
              | some x => if x = serial then .bound else .mismatch }))

/-- R104, R108, R141: UNPROVISION_SLOT empties an entry that no task and no capture names, and removes its queued
display command; it is refused otherwise. -/
def Obligations.UnprovisionSlotEmptiesEntry : Prop :=
  ∀ (tag : Tag) (slot : Byte) (s : State),
    let refused := fun status : Byte =>
      exec (.unprovisionSlot tag [slot]) s = .next (s.begun.replied 0x41 tag [status] .nothing)
    AtRest s → Reaches s ⟨0x41, tag, [slot]⟩ →
    (slot.toNat % 64 = 0 ∨ slot.toNat % 64 = 63 → refused 0x1B) ∧
    ∀ r : SlotRef, slot.toNat = 64 * r.seg.val + r.ix.val + 1 →
      let named := (∃ u ∈ s.tasks, u.slot = r) ∨ ∃ (i : Fin 16) (c : Capture), s.captures[i] = some c ∧ c.slot = r
      ((s.entry r).kind = .empty → refused 0x1B) ∧
      ((s.entry r).kind ≠ .empty → named → refused 0x1C) ∧
      ((s.entry r).kind ≠ .empty → ¬named → ∃ t, exec (.unprovisionSlot tag [slot]) s = .next t ∧
        t.untouched = (s.begun.replied 0x41 tag [0x00] .nothing).untouched ∧ t.captures = s.captures ∧
        t.away r.seg = s.away r.seg ∧ t.entry r = Entry.reset ∧
        (∀ c ∈ (t.seg r.seg).line.displays, c.ix ≠ r.ix) ∧
        ∀ ix : Fin 62, ix ≠ r.ix → (t.seg r.seg).entries[ix] = (s.seg r.seg).entries[ix])

/-- R41, R46, R51, R60, R63, R104, R109: QUERY_SLOT reports a valid slot as it stands, 66 bytes, and changes nothing.
The bytes behind a presence byte of 0, and the owner step of a dark shadow, are 0 by the model's choice
(notes/assumptions/41.md). -/
def Obligations.QuerySlotReports : Prop :=
  let serial := fun n : Option Serial => match n with
    | none => [0, 0, 0, 0, 0]
    | some n => 1 :: leBytes 4 n.toNat
  let bit := fun (value : Nat) (given : Bool) => if given then value else 0
  let report := fun (s : State) (r : SlotRef) =>
    let x := s.entry r
    let y := s.slot r
    let sup := (s.seg r.seg).sup
    let waiting := s.tasks.filter fun t => y.waiting.contains t.id
    let head : List Byte := [byteOf (64 * r.seg.val + r.ix.val + 1), x.kind.code] ++ serial x.expected ++ serial x.seen
    let press : List Byte := [x.binding.code, x.presence.code, byteOf x.goodRun, byteOf x.missRun, boolByte x.wasPresent,
      byteOf x.skip, x.press.confirmBase.setWidth 8, x.press.adjustBase.setWidth 8,
      byteOf (bit 1 x.press.confirmStuck + bit 2 x.press.adjustStuck + bit 4 x.press.confirmHeld.isSome +
        bit 8 x.press.adjustHeld.isSome)]
    let tasks : List Byte := [byteOf waiting.length] ++
      ((waiting.take 8).flatMap fun t => leBytes 2 t.id.toNat ++ [t.state.code]) ++ List.replicate (3 * (8 - waiting.length)) 0
    let current : List Byte :=
      (match y.current with
        | none => [0, 0]
        | some id => leBytes 2 id.toNat) ++
      (match y.tenure with
        | none => [0, 0, 0, 0, 0]
        | some n => 1 :: leBytes 4 n.toNat)
    let shadow : List Byte := [y.shadow.seq.setWidth 8] ++
      (match y.shadow.owner with
        | none => [0, 0, 0]
        | some o => leBytes 2 o.task.toNat ++ [o.step.code]) ++
      [byteOf y.shadow.colour.val, y.shadow.pattern.code, byteOf y.shadow.rotation.val, byteOf y.shadow.level,
        digitCode y.shadow.digits.d1, digitCode y.shadow.digits.d2, digitCode y.shadow.digits.d3]
    let service : List Byte :=
      if y.serviceable then [1, 0xFF]
      else if sup.state = .off ∨ sup.state = .starting ∨ sup.state = .fault then [0, 2]
      else if x.binding = .mismatch then [0, 1]
      else [0, 0]
    head ++ press ++ tasks ++ current ++ shadow ++ service
  (∀ (s : State) (r : SlotRef), s.slotReport r = report s r) ∧
  ∀ (tag : Tag) (slot : Byte) (s : State), AtRest s → Reaches s ⟨0x42, tag, [slot]⟩ →
    (slot.toNat % 64 = 0 ∨ slot.toNat % 64 = 63 →
      exec (.querySlot tag [slot]) s = .next (s.begun.replied 0x42 tag (0x1B :: List.replicate 66 0) .nothing)) ∧
    ∀ r : SlotRef, slot.toNat = 64 * r.seg.val + r.ix.val + 1 →
      exec (.querySlot tag [slot]) s = .next (s.begun.replied 0x42 tag (0x00 :: report s r) .nothing)

/-- R121, R122, R137: DISCOVER starts a run in RUNNING with its counts at 0; a free line at the end of its pass sends
the first round at once. It is refused in any other state and during a run, and with a segment number above 3. The state
byte of its replies is the model's reading (notes/assumptions/15.md), and so is that the round is in flight as soon as it
is chosen (notes/assumptions/11.md) and that the number of the STARTED reply is kept for the notice of the run's end
(notes/assumptions/34.md); how long a line stays active after a held line is the model's choice
(notes/assumptions/8.md). -/
def Obligations.DiscoverStartsRun : Prop :=
  (∀ (tag : Tag) (g : Seg) (s : State),
     let payload := [byteOf g.val]
     let v := (s.seg g).sup
     AtRest s → Reaches s ⟨0x43, tag, payload⟩ →
     exec (.discover tag payload) s = .next (
       if v.state ≠ .running then s.begun.replied 0x43 tag [0x1D, 0] .nothing
       else if v.discovery.isSome then s.begun.replied 0x43 tag [0x1E, 0] .nothing
       else (s.begun.updSeg g fun x =>
         { x with
           sup := { x.sup with
             discovery := some
               { tag := tag, reply := s.link.nextId, rounds := 0, emptyRounds := 0, assigned := 0, noRoom := 0, garbled := 0 } }
           line := if x.line.inFlight.isNone ∧ x.line.breaking = false ∧ x.line.activeMs = 0 then
               { x.line with
                 passEnded := false, passPolled := false, passHeld := false, latestPoll := false
                 inFlight := some roundExchange }
             else x.line }).replied 0x43 tag [0x01, 2] .nothing)) ∧
  (∀ (tag : Tag) (segment : Byte) (s : State), 3 < segment.toNat → AtRest s → Reaches s ⟨0x43, tag, [segment]⟩ →
    exec (.discover tag [segment]) s = .next (s.begun.replied 0x43 tag [0x12, 0] .nothing))

/-! ### The ends of line exchanges -/

/-- R22, R46 to R48, R55, R85, R99, R102, R110 to R112, R115, R134 to R136, R140, R148, R162, R165: an addressed
exchange that ends in silence is counted as sent and as a window miss; in RUNNING its entry takes the miss, in HOLDING
the entry's presence stands still; and a display command of an entry that is not ABSENT or LOST waits again, or is in
flight again. The end of an exchange whose entry is EMPTY, or became so while it was in flight, is counted alike and
handed to nothing else. The same holds of a held line, a corrupt, a misaddressed and an off-window reply, each with its
counter; an off-window start delay still goes to the tracker in RUNNING, and a held line gives line sense a LOW, the
third of which in a row is a short, which takes the segment to FAULT and blocks its tasks together. A miss moves
presence by the table, and entering LOST is reported, lowers the base load and ends serviceability: the slot's task
becomes BLOCKED, its shadow dark. The LOW is taken after the miss, whose notices come before those of the short
(notes/assumptions/14.md), and an OPERATION_DONE that the short ends waits for its STARTED reply
(notes/assumptions/34.md). How long the line stays active after a held line is the model's choice
(notes/assumptions/8.md), and so is that TASK_BLOCKED comes before what the governor's attempt brings
(notes/assumptions/39.md). -/
def Obligations.SilentExchangeIsAMiss : Prop :=
  let missed := fun (x : Entry) (unlock : Nat) => match x.presence with
    | .absent => (Presence.absent, x.goodRun, x.missRun)
    | .lost => (.lost, x.goodRun, x.missRun)
    | .acquiring => (if x.wasPresent then .lost else .absent, 0, 0)
    | .present => if unlock ≤ 1 then (.lost, 0, 0) else (.coasting, x.goodRun, 1)
    | .coasting => if unlock ≤ x.missRun + 1 then (.lost, 0, 0) else (.coasting, x.goodRun, x.missRun + 1)
  (∀ (c : Instr) (kind : LineKind) (g : Seg) (ix : Fin 62) (e : Exchange) (s : State),
     (c, kind) ∈ lineEnds g (.line false []) → AtRest s → (s.seg g).line.inFlight = some e → e.kind = kind →
     e.target = some ix → e.orphaned = false → (s.entry ⟨g, ix⟩).kind ≠ .empty →
     let x := s.entry ⟨g, ix⟩
     ∃ t, exec c s = .next t ∧ t.still = s.still ∧ t.captures = s.captures ∧ t.away g = s.away g ∧
       (t.seg g).counters.windowMisses = (s.seg g).counters.windowMisses + 1 ∧
       (t.seg g).counters.exchangesSent = (s.seg g).counters.exchangesSent + (if e.stage = .sent then 0 else 1) ∧
       (t.seg g).tracker = (s.seg g).tracker ∧
       ((t.entry ⟨g, ix⟩).presence, (t.entry ⟨g, ix⟩).goodRun, (t.entry ⟨g, ix⟩).missRun) =
         (if (s.seg g).sup.state = .running then missed x (s.seg g).config.unlock
           else (x.presence, x.goodRun, x.missRun)) ∧
       (kind = .showCmd ∨ kind = .digits ∨ kind = .dark → (t.entry ⟨g, ix⟩).presence.silent = false →
         (∃ d ∈ (t.seg g).line.displays, d.ix = ix) ∨
         ∃ e', (t.seg g).line.inFlight = some e' ∧ e'.target = some ix ∧
           (e'.kind = .showCmd ∨ e'.kind = .digits ∨ e'.kind = .dark))) ∧
  (∀ (c : Instr) (kind : LineKind) (g : Seg) (h : Heard) (ix : Fin 62) (e : Exchange) (s : State),
    (c, kind) ∈ lineEnds g h → AtRest s → (s.seg g).line.inFlight = some e → e.kind = kind → e.target = some ix →
    let x := s.entry ⟨g, ix⟩
    let v := (s.seg g).sup
    let takes := v.state = .running ∧ e.orphaned = false ∧ x.kind ≠ .empty
    let heard := receive (s.activityAfter g e.address e.kind e.payload h)
    let took := s.afterCommand g e.address e.kind e.payload h
    let code : Byte := if kind = .ident then 0x32 else 0x31
    let wellFormed := fun (address replyKind : Byte) (payload : List Byte) =>
      replyKind = code ∧ address.toNat ≤ 63 ∧ (kind = .ident ∨ (statusOf payload).isSome)
    let within := fun delay : Nat => delay ≤ (s.seg g).tracker.delay + (s.seg g).config.window ∧
      (s.seg g).tracker.delay ≤ delay + (s.seg g).config.window
    let ends := fun (off corrupt misaddressed missed' : Nat) (learnt : Option Nat) (t : State) =>
      let a := (s.seg g).counters
      let b := (t.seg g).counters
      exec c s = .next t ∧ t.still = took.still ∧ t.captures = s.captures ∧ t.away g = s.away g ∧
      b.accepted = a.accepted ∧ b.offWindow = a.offWindow + BitVec.ofNat 32 off ∧
      b.corrupt = a.corrupt + BitVec.ofNat 32 corrupt ∧
      b.misaddressed = a.misaddressed + BitVec.ofNat 32 misaddressed ∧
      b.windowMisses = a.windowMisses + BitVec.ofNat 32 missed' ∧
      b.exchangesSent = a.exchangesSent + (if e.stage = .sent then 0 else 1) ∧
      (t.seg g).tracker = (match learnt with
        | some delay => if takes then (trackDelay (s.seg g).config (s.seg g).tracker delay).tracker else (s.seg g).tracker
        | none => (s.seg g).tracker) ∧
      ((t.entry ⟨g, ix⟩).presence, (t.entry ⟨g, ix⟩).goodRun, (t.entry ⟨g, ix⟩).missRun) =
        (if takes then missed x (s.seg g).config.unlock else (x.presence, x.goodRun, x.missRun)) ∧
      (kind = .showCmd ∨ kind = .digits ∨ kind = .dark → x.kind ≠ .empty → (t.entry ⟨g, ix⟩).presence.silent = false →
        (∃ d ∈ (t.seg g).line.displays, d.ix = ix) ∨
        ∃ e', (t.seg g).line.inFlight = some e' ∧ e'.target = some ix ∧
          (e'.kind = .showCmd ∨ e'.kind = .digits ∨ e'.kind = .dark))
    let run := if v.candidate = some .low then v.senseRun + 1 else 1
    (heard = .silence → ∃ t, ends 0 0 0 1 none t) ∧
    ((∃ delay, heard = .invalid delay) ∨
      (∃ delay address replyKind payload, heard = .frame delay (address :: replyKind :: payload) ∧
        ¬wellFormed address replyKind payload) → ∃ t, ends 0 1 0 0 none t) ∧
    (∀ delay address replyKind payload, heard = .frame delay (address :: replyKind :: payload) →
      wellFormed address replyKind payload →
      (address.toNat ≠ ix.val + 1 → ∃ t, ends 0 0 1 0 none t) ∧
      (address.toNat = ix.val + 1 → ¬within delay → ∃ t, ends 1 0 0 0 (some delay) t)) ∧
    (heard = .held → v.condition = .shorted ∨ run < 3 → ∃ t, ends 0 0 0 1 none t ∧
      (t.seg g).sup.condition = v.condition ∧
      (t.seg g).sup.candidate = (if v.condition = .shorted then none else some .low) ∧
      (t.seg g).sup.senseRun = (if v.condition = .shorted then 0 else run) ∧
      (t.seg g).line.activeMs = ticksMs (s.seg g).config.lineRate
        (heldRest (lineActivity (s.activityAfter g e.address e.kind e.payload h)))) ∧
    (heard = .held → v.condition ≠ .shorted → 3 ≤ run → v.state ≠ .off → v.state ≠ .fault →
      ∃ t, exec c s = .next t ∧ LeftService s t g .fault (some .lineShort) ∧ t.still = took.still ∧
        (t.seg g).sup.condition = .shorted ∧
        ServiceEnded (if takes then took.takeOutcome ⟨g, ix⟩ false else took) t g
          [.lineCondition g .shorted, .segmentState g .fault v.state .lineShort])) ∧
  (∀ (s : State) (r : SlotRef),
    let x := s.entry r
    let c := (s.seg r.seg).config
    let t := s.takeOutcome r false
    (x.presence = .absent ∨ x.presence = .lost → t = s) ∧
    (x.presence = .acquiring → t = (s.updEntry r fun y =>
        { y with presence := if y.wasPresent then .lost else .absent, goodRun := 0, missRun := 0, skip := 0 }).updLine
      r.seg fun l => { l with displays := l.displays.filter fun d => d.ix ≠ r.ix }) ∧
    (x.presence = .present → 1 < c.unlock → t = s.updEntry r fun y => { y with presence := .coasting, missRun := 1 }) ∧
    (x.presence = .coasting → x.missRun + 1 < c.unlock →
      t = s.updEntry r fun y => { y with missRun := y.missRun + 1 }) ∧
    (x.presence = .present ∧ c.unlock ≤ 1 ∨ x.presence = .coasting ∧ c.unlock ≤ x.missRun + 1 →
      t.entry r = { x with presence := .lost, goodRun := 0, missRun := 0, skip := 0 } ∧
      (∀ d ∈ (t.seg r.seg).line.displays, d.ix ≠ r.ix) ∧ (t.slot r).serviceable = false ∧
      (t.seg r.seg).gov.baseLoad = 16 * c.baseCurrent *
        (t.seg r.seg).entries.toList.countP (fun y => y.presence = .present ∨ y.presence = .coasting) ∧
      (s.link.notices.length < 32 → ∃ rest, t.link.notices = s.link.notices ++
        ⟨s.time, s.link.dropMark, .modulePresence r false false, s.link.taking⟩ :: rest))) ∧
  (∀ (s : State) (r : SlotRef), TasksSound s.tasks → (s.slot r).serviceable = true →
    let x := s.entry r
    let y := s.slot r
    let v := (s.seg r.seg).sup
    let serving := v.state = .running ∨ v.state = .holding ∨ v.state = .held
    let now := serving ∧ (x.presence = .present ∨ x.presence = .coasting) ∧ x.binding ≠ .mismatch
    let cause : SlotCause := if ¬serving then .segmentDown else if x.binding = .mismatch then .mismatch else .moduleLost
    let lost := s.updSlot r fun z => { z with serviceable := false }
    let t := s.reevaluate r
    (now → t = s) ∧
    (¬now → y.current = none → t = lost) ∧
    ∀ u, ¬now → y.current = some u.id → s.task? u.id = some u →
      (u.state = .blocked → t = lost) ∧
      (u.state = .waitLoad ∨ u.state = .shown →
        t.untouched = s.untouched ∧ t.captures = s.captures ∧ t.away r.seg = s.away r.seg ∧
        (t.slot r).serviceable = false ∧ (t.slot r).current = some u.id ∧ (t.slot r).waiting = y.waiting ∧
        (t.slot r).tenure = y.tenure ∧ t.task? u.id = some { u with state := .blocked, timeLeft := 0 } ∧
        (u.state = .waitLoad → ∀ a ∈ (t.seg r.seg).gov.queue, a.ix ≠ r.ix) ∧
        (u.state = .shown → ∀ e ∈ (t.seg r.seg).gov.lit, ¬(e.ix = r.ix ∧ e.task = u.id)) ∧
        ((u.state = .waitLoad → ∀ e ∈ (s.seg r.seg).gov.lit, e.ix ≠ r.ix) →
          (u.state = .shown → ∀ a ∈ (s.seg r.seg).gov.queue, a.ix ≠ r.ix) → (t.slot r).shadow = y.shadow.darkened) ∧
        (s.link.notices.length < 32 →
          ∃ rest, t.link.notices = s.link.notices ++
            ⟨s.time, s.link.dropMark, .taskBlocked u.id r u.picker cause, s.link.taking⟩ :: rest)))

/-- R46, R49, R62, R110, R111, R112, R116, R117, R118, R129, R134, R136, R142, R148: an addressed exchange whose reply
is accepted is counted; in RUNNING its entry takes the good outcome and the tracker the start delay; the modules have
taken the command. Then, in this order, the outcome and the start delay are taken in RUNNING; of a STATUS reply the
identity byte is checked, the press interpreter takes the reply and the shown seq is compared, of an IDENT reply the
serial; and the line chooses again. Where the entry is EMPTY, or became so while the exchange was in flight, none of
these happens, and where it is ABSENT or LOST in HOLDING only the count. An identity byte that differs from the entry's
serial hands an IDENT. A STATUS reply that reports no FRESH, no new press and nothing held, from a PRESENT module that
shows the shadow's seq, does nothing at the slot. The serial of an IDENT reply becomes the entry's seen serial. A good
outcome moves presence by the table, and entering PRESENT is reported and raises the base load; a slot that becomes
serviceable selects, or its BLOCKED task waits for load again; a module that shows another seq is sent the shadow whole
unless a command for it waits; and a serial seen elsewhere vacates that entry. That MODULE_IDENTITY is queued before the
vacated slot is evaluated is the model's reading (notes/assumptions/27.md). -/
def Obligations.AcceptedReplyIsAGoodOutcome : Prop :=
  ((let heard := fun (x : Entry) (lock : Nat) => match x.presence with
      | .absent | .lost => if lock ≤ 1 then (Presence.present, 0, 0) else (.acquiring, 1, 0)
      | .acquiring => if lock ≤ x.goodRun + 1 then (.present, 0, 0) else (.acquiring, x.goodRun + 1, x.missRun)
      | .present => (.present, x.goodRun, x.missRun)
      | .coasting => (.present, x.goodRun, 0)
    ∀ (c : Instr) (kind : LineKind) (g : Seg) (h : Heard) (ix : Fin 62) (e : Exchange) (delay : Nat) (payload : List Byte)
      (s : State),
      (c, kind) ∈ lineEnds g h → AtRest s → (s.seg g).line.inFlight = some e → e.kind = kind → e.target = some ix →
      e.orphaned = false → (s.entry ⟨g, ix⟩).kind ≠ .empty →
      receive (s.activityAfter g e.address e.kind e.payload h) =
        .frame delay (byteOf (ix.val + 1) :: (if kind = .ident then 0x32 else 0x31) :: payload) →
      (kind ≠ .ident → (statusOf payload).isSome) →
      delay ≤ (s.seg g).tracker.delay + (s.seg g).config.window →
      (s.seg g).tracker.delay ≤ delay + (s.seg g).config.window →
      let r : SlotRef := ⟨g, ix⟩
      let x := s.entry r
      let took := s.afterCommand g e.address e.kind e.payload h
      let running := (s.seg g).sup.state = .running
      ∃ t, exec c s = .next t ∧ t.still = took.still ∧
        (t.seg g).counters.accepted = (s.seg g).counters.accepted + 1 ∧
        (t.seg g).counters.exchangesSent = (s.seg g).counters.exchangesSent + (if e.stage = .sent then 0 else 1) ∧
        (t.seg g).tracker = (if running then (trackDelay (s.seg g).config (s.seg g).tracker delay).tracker
          else (s.seg g).tracker) ∧
        ((t.entry r).presence, (t.entry r).goodRun, (t.entry r).missRun) =
          (if running then heard x (s.seg g).config.lock else (x.presence, x.goodRun, x.missRun)) ∧
        (kind = .ident → running → ∀ n : Serial, n = BitVec.ofNat 32 (leValue payload) →
          (∀ q, q ≠ r → (s.entry q).seen ≠ some n) →
          (t.entry r).kind = x.kind ∧ (t.entry r).expected = x.expected ∧ (t.entry r).seen = some n ∧
          (t.entry r).binding = (if x.kind = .provisioned ∧ x.expected = some n then .bound
            else if x.seen = some n then x.binding
            else if x.kind = .provisioned then .mismatch else .bound)) ∧
        ∀ reply, kind ≠ .ident → running → x.presence = .present → statusOf payload = some reply →
          reply.fresh = false → reply.confirmHeld = false → reply.adjustHeld = false →
          reply.confirmCount = x.press.confirmBase → reply.adjustCount = x.press.adjustBase →
          reply.shownSeq = (s.shadow r).seq →
          x.press.confirmHeld = none → x.press.adjustHeld = none → x.press.confirmStuck = false →
          x.press.adjustStuck = false →
          t.tasks = s.tasks ∧ t.captures = s.captures ∧ t.link.notices = s.link.notices ∧ t.slot r = s.slot r ∧
            (t.entry r).press = x.press) ∧
   (∀ (s : State) (r : SlotRef),
     let x := s.entry r
     let v := (s.seg r.seg).sup
     let c := (s.seg r.seg).config
     let t := s.takeOutcome r true
     (x.presence = .absent ∨ x.presence = .lost → 1 < c.lock →
       t = s.updEntry r fun y => { y with presence := .acquiring, goodRun := 1, missRun := 0 }) ∧
     (x.presence = .acquiring → x.goodRun + 1 < c.lock → t = s.updEntry r fun y => { y with goodRun := y.goodRun + 1 }) ∧
     (x.presence = .present → t = s) ∧
     (x.presence = .coasting → t = s.updEntry r fun y => { y with presence := .present, missRun := 0 }) ∧
     ((x.presence = .absent ∨ x.presence = .lost) ∧ c.lock ≤ 1 ∨ x.presence = .acquiring ∧ c.lock ≤ x.goodRun + 1 →
       t.entry r = { x with presence := .present, goodRun := 0, missRun := 0, wasPresent := true } ∧
       ((t.slot r).serviceable = true ↔
         (v.state = .running ∨ v.state = .holding ∨ v.state = .held) ∧ x.binding ≠ .mismatch) ∧
       (t.seg r.seg).gov.baseLoad = 16 * c.baseCurrent *
         (t.seg r.seg).entries.toList.countP (fun y => y.presence = .present ∨ y.presence = .coasting) ∧
       (s.link.notices.length < 32 → ∃ rest, t.link.notices = s.link.notices ++
         ⟨s.time, s.link.dropMark, .modulePresence r true x.wasPresent, s.link.taking⟩ :: rest))) ∧
   (∀ (s : State) (r : SlotRef), TasksSound s.tasks → (s.slot r).serviceable = false →
     let x := s.entry r
     let y := s.slot r
     let v := (s.seg r.seg).sup
     let now := (v.state = .running ∨ v.state = .holding ∨ v.state = .held) ∧
       (x.presence = .present ∨ x.presence = .coasting) ∧ x.binding ≠ .mismatch
     let gained := s.updSlot r fun z => { z with serviceable := true }
     let t := s.reevaluate r
     (¬now → t = s) ∧
     (now → y.current = none → t = gained.select r) ∧
     ∀ u, now → y.current = some u.id → s.task? u.id = some u →
       (u.state ≠ .blocked → t = gained) ∧
       (u.state = .blocked →
         t.untouched = s.untouched ∧ t.captures = s.captures ∧ t.away r.seg = s.away r.seg ∧
         (t.slot r).serviceable = true ∧ (t.slot r).current = some u.id ∧ (t.slot r).waiting = y.waiting ∧
         (t.slot r).tenure = some (y.tenure.getD s.time) ∧
         ∃ w, t.task? u.id = some w ∧ (w.state = .waitLoad ∨ w.state = .shown) ∧ w.fixed = u.fixed ∧
           w.displayed = u.displayed ∧ w.step = u.step)) ∧
   (∀ (s : State) (r : SlotRef) (seq : Nibble),
     let y := (s.slot r).shadow
     let kind : DisplayKind := if y.owner.isSome then .showCmd else .darkCmd
     let sends := seq ≠ y.seq ∧ (∀ d ∈ (s.seg r.seg).line.displays, d.ix ≠ r.ix) ∧ (s.entry r).presence ≠ .absent ∧
       (s.entry r).presence ≠ .lost
     (¬sends → s.resendCompare r seq = s) ∧
     (sends → s.resendCompare r seq = s.updSeg r.seg fun z =>
       { z with
         line := { z.line with displays := z.line.displays ++ [⟨r.ix, kind⟩] }
         counters := { z.counters with resends := z.counters.resends + 1 } })) ∧
   (∀ (s : State) (r : SlotRef) (n : Serial), (∀ q, q ≠ r → (s.entry q).seen ≠ some n) →
     let x := s.entry r
     let t := s.identityCheck r n
     let expects := x.kind = .provisioned ∧ x.expected = some n
     (x.kind = .empty ∨ ¬expects ∧ x.seen = some n → t = s) ∧
     (x.kind ≠ .empty → expects ∨ x.seen ≠ some n →
       t.entry r = { x with seen := some n, binding := if x.kind = .provisioned ∧ ¬expects then .mismatch else .bound } ∧
       t.untouched = s.untouched ∧ t.captures = s.captures ∧ t.away r.seg = s.away r.seg ∧
       (¬expects → s.link.notices.length < 32 → ∃ rest, t.link.notices = s.link.notices ++
         ⟨s.time, s.link.dropMark, .moduleIdentity r (if x.kind = .provisioned then .mismatch else .swapped) n,
           s.link.taking⟩ :: rest))) ∧
   (∀ (s : State) (r q : SlotRef) (n : Serial), q ≠ r → (s.entry q).seen = some n →
     (∀ p, p ≠ r → (s.entry p).seen = some n → p = q) →
     let x := s.entry q
     let t := s.vacate q n
     s.identityCheck r n = t.identityCheck r n ∧
     t.entry q = (if x.kind = .learned then Entry.reset else { x.dropped with seen := none, binding := .unbound }) ∧
     (∀ d ∈ (t.seg q.seg).line.displays, d.ix ≠ q.ix) ∧ (t.slot q).serviceable = false ∧
     (x.presence = .present ∨ x.presence = .coasting → (t.seg q.seg).gov.baseLoad = 16 * (s.seg q.seg).config.baseCurrent *
       (t.seg q.seg).entries.toList.countP (fun y => y.presence = .present ∨ y.presence = .coasting)) ∧
     t.untouched = s.untouched ∧ t.captures = s.captures ∧ t.away q.seg = s.away q.seg ∧
     (s.link.notices.length < 32 → ∃ rest, t.link.notices = s.link.notices ++
       ⟨s.time, s.link.dropMark, .moduleIdentity q .vacated n, s.link.taking⟩ :: rest))) ∧
  (∀ (c : Instr) (kind : LineKind) (g : Seg) (h : Heard) (ix : Fin 62) (e : Exchange) (delay : Nat) (payload : List Byte)
    (s : State),
    (c, kind) ∈ lineEnds g h → AtRest s → (s.seg g).line.inFlight = some e → e.kind = kind → e.target = some ix →
    receive (s.activityAfter g e.address e.kind e.payload h) =
      .frame delay (byteOf (ix.val + 1) :: (if kind = .ident then 0x32 else 0x31) :: payload) →
    (kind ≠ .ident → (statusOf payload).isSome) →
    delay ≤ (s.seg g).tracker.delay + (s.seg g).config.window →
    (s.seg g).tracker.delay ≤ delay + (s.seg g).config.window →
    let r : SlotRef := ⟨g, ix⟩
    let ended := (s.afterCommand g e.address e.kind e.payload h).updSeg g fun x =>
      { x with
        line := { x.line with inFlight := none, activeMs := 0 }
        counters := { x.counters with
          exchangesSent := x.counters.exchangesSent + (if e.stage = .sent then 0 else 1)
          accepted := x.counters.accepted + 1 } }
    let learnt := if (s.seg g).sup.state = .running then (ended.takeOutcome r true).track g delay else ended
    let gone := e.orphaned = true ∨ (s.entry r).kind = .empty
    let silent := (learnt.entry r).presence = .absent ∨ (learnt.entry r).presence = .lost
    (gone → exec c s = .next ended.finish) ∧
    (¬gone → silent → exec c s = .next learnt.finish) ∧
    (¬gone → ¬silent → kind = .ident →
      exec c s = .next (learnt.identityCheck r (BitVec.ofNat 32 (leValue payload))).finish) ∧
    (¬gone → ¬silent → kind ≠ .ident → ∀ reply, statusOf payload = some reply →
      exec c s =
        .next (((learnt.identityByteCheck r reply).takeStatus r reply).resendCompare r reply.shownSeq).finish)) ∧
  (∀ (s : State) (r : SlotRef) (reply : StatusReply),
    let x := s.entry r
    let l := (s.seg r.seg).line
    let reference := match x.seen with
      | some n => some n
      | none => if x.kind = .provisioned then x.expected else none
    let differs := reply.fresh = false ∧ ∃ n, reference = some n ∧ n.setWidth 8 ≠ reply.identity
    let pending := ServiceCmd.ident r.ix ∈ l.services ∨
      ∃ e, l.inFlight = some e ∧ e.kind = .ident ∧ e.target = some r.ix
    (¬differs ∨ pending ∨ 16 ≤ l.services.length → s.identityByteCheck r reply = s) ∧
    (differs → ¬pending → l.services.length < 16 → s.identityByteCheck r reply =
      s.updLine r.seg fun l => { l with services := l.services ++ [.ident r.ix] }))

/-- R131, R137, R138: the end of a SYNC clears the mark, and the next pass is no longer held back; the modules that took it
begin their blink cycles. In RUNNING, with no break pending, the scheduler then chooses; that the exchange chosen is in
flight at once is the model's reading (notes/assumptions/11.md). -/
def Obligations.SyncClearsMark : Prop :=
  ∀ (g : Seg) (taken : Bool) (e : Exchange) (s : State), AtRest s → (s.seg g).line.inFlight = some e → e.kind = .sync →
    ∃ t, exec (.sync g taken) s = .next t ∧ (t.seg g).line.syncDue = false ∧
      t.still = { s with modules := s.modules.map fun m : Module =>
        if taken ∧ m.seg = g ∧ e.address = 63 then { m with phase := 0, phaseMs := 0 } else m }.still ∧
      t.tasks = s.tasks ∧ t.captures = s.captures ∧ t.away g = s.away g ∧ (t.seg g).slots = (s.seg g).slots ∧
      (t.seg g).tracker = (s.seg g).tracker ∧ (t.seg g).gov = (s.seg g).gov ∧
      (t.seg g).counters.exchangesSent = (s.seg g).counters.exchangesSent + (if e.stage = .sent then 0 else 1) ∧
      ((s.seg g).sup.state = .running → (s.seg g).sup.breakPending = false → (s.seg g).line.breaking = false →
        let x := s.seg g
        SchedulerChoice
          { x with
            line := { x.line with inFlight := none, activeMs := 0, syncDue := false, passHeld := false }
            counters := { x.counters with exchangesSent := x.counters.exchangesSent + (if e.stage = .sent then 0 else 1) } }
          (t.seg g))

/-- R22, R47, R48, R55, R102, R115, R118, R122 to R124, R135, R144, R162, R165, R176: a discovery round with no answer
is a round of eight empty slots; after two of them in a row, or at round 32, the run ends COMPLETE with its figures.
Garbled slots are counted and make the round no empty one. Every round is taken alike: it is counted, its CLEAN serials
are placed in slot order, and then it is judged. A held line ends it, with a LOW for line sense, of which the third in a
row is a short. The serial of a CLEAN slot goes to the PROVISIONED entry that expects it, or makes the lowest free
address a LEARNED entry, with an ASSIGN for it in the service queue; a full service queue, a MISMATCH and no free
address are counted as no room; an entry elsewhere that had seen the serial is vacated first, whether an entry expects
the serial or not. That the LOW of a held round is taken only after its serials are placed and the run is judged, so
that on a third LOW the run may end COMPLETE before the FAULT, is the model's reading (notes/assumptions/14.md). That
the OPERATION_DONE is held until the STARTED reply has gone is the model's reading (notes/assumptions/34.md); what
counts as activity in a slot, and as a held line of the round, is too (notes/assumptions/13.md). How long the line stays
active after it is the model's choice (notes/assumptions/8.md), and so is the class of a slot in which a held line
begins behind a whole reply (notes/assumptions/46.md). -/
def Obligations.SilentRoundCounts : Prop :=
  ((∀ (g : Seg) (e : Exchange) (d : Discovery) (s : State), AtRest s → (s.seg g).sup.state = .running →
      (s.seg g).line.inFlight = some e → e.kind = .enumerate → (s.seg g).sup.discovery = some d →
      ∃ t, exec (.enumerate g (.line [])) s = .next t ∧ t.still = s.still ∧ t.tasks = s.tasks ∧
        t.captures = s.captures ∧ t.away g = s.away g ∧ (t.seg g).slots = (s.seg g).slots ∧
        (d.emptyRounds = 0 → d.rounds + 1 < 32 →
          (t.seg g).sup.discovery = some { d with rounds := d.rounds + 1, emptyRounds := 1 } ∧
          t.link.notices = s.link.notices) ∧
        (1 ≤ d.emptyRounds ∨ 32 ≤ d.rounds + 1 →
          (t.seg g).sup.discovery = none ∧
          (s.link.notices.length < 32 → t.link.notices = s.link.notices ++
            [⟨s.time, s.link.dropMark,
              .operationDone d.tag g .discover .complete (.discover (d.rounds + 1) d.assigned d.noRoom d.garbled),
              some (s.link.taking.getD d.reply)⟩]))) ∧
   (∀ (g : Seg) (round : Round) (e : Exchange) (d : Discovery) (s : State), AtRest s → (s.seg g).sup.state = .running →
     (s.seg g).line.inFlight = some e → e.kind = .enumerate → (s.seg g).sup.discovery = some d →
     let activity := s.roundActivity g round
     let heard := contentionRound activity
     roundHeld activity = false → (∀ n, SlotHeard.clean n ∉ heard) → SlotHeard.garbled ∈ heard →
     ∃ t, exec (.enumerate g round) s = .next t ∧ t.still = (s.modulesSee g activity).still ∧ t.tasks = s.tasks ∧
       t.away g = s.away g ∧ (t.seg g).slots = (s.seg g).slots ∧
       (d.rounds + 1 < 32 → (t.seg g).sup.discovery =
         some { d with rounds := d.rounds + 1, emptyRounds := 0, garbled := d.garbled + heard.count .garbled }) ∧
       (32 ≤ d.rounds + 1 → (t.seg g).sup.discovery = none)) ∧
   (∀ (g : Seg) (n : Serial) (s : State),
     let t := s.handleSerial g n
     let counted := fun (s : State) (f : Discovery → Discovery) =>
       s.updSup g fun v => { v with discovery := v.discovery.map f }
     let noRoom := counted s fun d => { d with noRoom := d.noRoom + 1 }
     let assigned := fun (s : State) (ix : Fin 62) (f : Entry → Entry) => counted (s.updSeg g fun x =>
         { x with
           entries := x.entries.set ix (f x.entries[ix])
           line := { x.line with services := x.line.services ++ [.assign n ix] } })
       fun d => { d with assigned := d.assigned + 1 }
     let expects := fun ix : Fin 62 => (s.entry ⟨g, ix⟩).kind = .provisioned ∧ (s.entry ⟨g, ix⟩).expected = some n
     let free := fun ix : Fin 62 => (s.entry ⟨g, ix⟩).kind = .empty ∧ (∀ u ∈ s.tasks, u.slot ≠ ⟨g, ix⟩) ∧
       ∀ (i : Fin 16) (c : Capture), s.captures[i] = some c → c.slot ≠ ⟨g, ix⟩
     (16 ≤ (s.seg g).line.services.length → t = noRoom) ∧
     ((s.seg g).line.services.length < 16 →
       (∀ ix, expects ix → (∀ j, expects j → j = ix) →
         ((s.entry ⟨g, ix⟩).binding = .mismatch → t = noRoom) ∧
         ((s.entry ⟨g, ix⟩).binding ≠ .mismatch → (∀ q, q ≠ ⟨g, ix⟩ → (s.entry q).seen ≠ some n) →
           t = assigned s ix fun x => { x with seen := some n, binding := .bound }) ∧
         ∀ q, (s.entry ⟨g, ix⟩).binding ≠ .mismatch → q ≠ ⟨g, ix⟩ → (s.entry q).seen = some n →
           (∀ p, p ≠ ⟨g, ix⟩ → (s.entry p).seen = some n → p = q) →
           t = assigned (s.vacate q n) ix fun x => { x with seen := some n, binding := .bound }) ∧
       ((∀ ix, ¬expects ix) → (∀ q, (s.entry q).seen ≠ some n) →
         (∀ ix, free ix → (∀ j < ix, ¬free j) →
           t = assigned s ix fun _ => { Entry.reset with kind := .learned, seen := some n, binding := .bound }) ∧
         ((∀ ix, ¬free ix) → t = noRoom)) ∧
       ∀ q, (∀ ix, ¬expects ix) → (s.entry q).seen = some n → (∀ p, (s.entry p).seen = some n → p = q) →
         t = (s.vacate q n).handleSerial g n)) ∧
   (∀ (g : Seg) (n : Serial) (more : List SlotHeard) (s : State),
     (SlotHeard.clean n :: more).foldl (State.handleSlot g) s = more.foldl (State.handleSlot g) (s.handleSerial g n))) ∧
  (∀ (g : Seg) (round : Round) (e : Exchange) (s : State), AtRest s → (s.seg g).line.inFlight = some e →
    e.kind = .enumerate →
    let activity := s.roundActivity g round
    let heard := contentionRound activity
    let counted := (s.modulesSee g activity).updSeg g fun x =>
      { x with
        sup := { x.sup with
          discovery := x.sup.discovery.map fun d =>
            { d with rounds := d.rounds + 1, garbled := d.garbled + heard.count .garbled } }
        line := { x.line with inFlight := none, activeMs := 0 }
        counters := { x.counters with
          exchangesSent := x.counters.exchangesSent + (if e.stage = .sent then 0 else 1) } }
    let placed := heard.foldl (State.handleSlot g) counted
    let judged := match (placed.seg g).sup.discovery with
      | none => placed
      | some d =>
        let empty := if ∀ x ∈ heard, x = SlotHeard.empty then d.emptyRounds + 1 else 0
        if 2 ≤ empty ∨ 32 ≤ d.rounds then
          (placed.updSup g fun v => { v with discovery := none }).notifyDone d.reply
            (.operationDone d.tag g .discover .complete (.discover d.rounds d.assigned d.noRoom d.garbled))
        else placed.updSup g fun v => { v with discovery := some { d with emptyRounds := empty } }
    let v := (s.seg g).sup
    let run := if v.candidate = some .low then v.senseRun + 1 else 1
    let held := judged.updLine g fun l =>
      { l with activeMs := ticksMs (s.seg g).config.lineRate (heldRest (lineActivity activity)) }
    (roundHeld activity = false → exec (.enumerate g round) s = .next judged.finish) ∧
    (roundHeld activity = true → v.condition = .shorted ∨ run < 3 → exec (.enumerate g round) s =
      .next (held.updSup g fun w =>
        { w with
          candidate := if v.condition = .shorted then none else some .low
          senseRun := if v.condition = .shorted then 0 else run }).finish) ∧
    (roundHeld activity = true → v.condition ≠ .shorted → 3 ≤ run → v.state ≠ .off → v.state ≠ .fault →
      let short := (held.updSup g fun w => { w with condition := .shorted, candidate := none, senseRun := 0 }).notify
        (.lineCondition g .shorted)
      exec (.enumerate g round) s = .next (short.enterFault g .lineShort).finish ∧
        LeftService short (short.enterFault g .lineShort) g .fault (some .lineShort) ∧
        ServiceEnded short (short.enterFault g .lineShort) g [.segmentState g .fault v.state .lineShort])) ∧
  (∀ (g : Seg) (s : State), State.handleSlot g s .empty = s ∧ State.handleSlot g s .garbled = s)

/-- R22, R47, R48, R55, R102, R115, R135, R162, R165, R169, R176: a raw break ends COMPLETE and resets the modules, and
a raw SYNC ends COMPLETE; a raw command that meets silence, a held line, a corrupt reply or one off the window ends
NO_REPLY with that class, and one whose reply begins in the window ends COMPLETE with what it brought. The raw exchange
is over, and OPERATION_DONE is queued, held until the STARTED reply has gone (notes/assumptions/34.md). A held line
gives line sense a LOW; that it does so after the operation is over, so that on a third LOW OPERATION_DONE comes before
LINE_CONDITION and SEGMENT_STATE, is the model's reading (notes/assumptions/14.md), and how long the line stays active
is its choice (notes/assumptions/8.md). That the source is the low six bits of the address byte, and that a reply with
reserved bits set is carried as it came, is the model's reading (notes/assumptions/26.md); the blink phase of a reset
module is the model's choice (notes/assumptions/44.md). -/
def Obligations.RawExchangeEnds : Prop :=
  ∀ (g : Seg) (x : Raw) (s : State), AtRest s → (s.seg g).sup.state = .held → (s.seg g).sup.raw = some x →
    let ended := fun (ms : List Module) (result : OpResult) (figures : Figures) =>
      ((({ s with modules := ms }.updSeg g fun y =>
        { y with
          sup := { y.sup with raw := none }, line := { y.line with activeMs := 0 }
          counters := { y.counters with
            exchangesSent := y.counters.exchangesSent + (if x.stage = Stage.sent then 0 else 1) } }).notifyDone x.reply
        (.operationDone x.tag g .rawExchange result figures)).kick)
    (∀ h, x.op = .brk → exec (.rawExchangeEnd g h) s =
      .next (ended (s.modules.map fun m : Module => if m.seg = g then m.reset else m) .complete .none)) ∧
    (∀ kind, x.op = .command kind → kind ≠ .sync → exec (.rawExchangeEnd g (.line false [])) s =
      .next (ended s.modules .noReply (.raw .noReply 0 0 false 0 []))) ∧
    (∀ h, x.op = .command .sync → exec (.rawExchangeEnd g h) s =
      .next (ended (s.afterCommand g x.address .sync x.payload h).modules .complete .none)) ∧
    (∀ kind h, x.op = .command kind → kind ≠ .sync →
      let activity := s.activityAfter g x.address kind x.payload h
      let took := (s.afterCommand g x.address kind x.payload h).modules
      (∀ delay, receive activity = .invalid delay → exec (.rawExchangeEnd g h) s =
        .next (ended took .noReply (.raw .corrupt 0 0 false 0 []))) ∧
      (∀ delay body, receive activity = .frame delay body →
        (s.seg g).tracker.delay + (s.seg g).config.window < delay ∨
          delay + (s.seg g).config.window < (s.seg g).tracker.delay →
        exec (.rawExchangeEnd g h) s = .next (ended took .noReply (.raw .offWindow delay 0 false 0 []))) ∧
      (receive activity = .held →
        let v := (s.seg g).sup
        let run := if v.candidate = some .low then v.senseRun + 1 else 1
        let concluded := ended took .noReply (.raw .heldLine 0 0 false 0 [])
        (v.condition = .shorted ∨ run < 3 → exec (.rawExchangeEnd g h) s = .next (concluded.updSeg g fun y =>
          { y with
            sup := { y.sup with
              candidate := if v.condition = .shorted then none else some .low
              senseRun := if v.condition = .shorted then 0 else run }
            line := { y.line with activeMs := ticksMs y.config.lineRate (heldRest (lineActivity activity)) } })) ∧
        (v.condition ≠ .shorted → 3 ≤ run → ∃ t, exec (.rawExchangeEnd g h) s = .next t ∧
          LeftService s t g .fault (some .lineShort) ∧ (t.seg g).sup.condition = .shorted ∧ t.still = concluded.still ∧
          ServiceEnded concluded t g [.lineCondition g .shorted, .segmentState g .fault .held .lineShort]))) ∧
    (∀ kind h delay address replyKind payload, x.op = .command kind → kind ≠ .sync →
      receive (s.activityAfter g x.address kind x.payload h) = .frame delay (address :: replyKind :: payload) →
      delay ≤ (s.seg g).tracker.delay + (s.seg g).config.window →
      (s.seg g).tracker.delay ≤ delay + (s.seg g).config.window →
      let source := address.toNat % 64
      let expected := if kind = .assign then (x.payload.getD 4 0).toNat else x.address.toNat
      exec (.rawExchangeEnd g h) s =
        .next (ended (s.afterCommand g x.address kind x.payload h).modules .complete
          (.raw .inWindow delay source (source = expected) replyKind payload)))

/-! ### Events -/

/-- R132, R161, R164, R170: the end of the start-up break begins the quiet stage; the end of a requested break frees the
line and takes a HOLDING segment to HELD. Every module on the segment resets. A break that waits for the probe due
before it has not begun and does not end: that such an end changes nothing, and when the waiting break begins, are the
model's choices (notes/assumptions/5.md and 23.md); the blink phase of a reset module is too (notes/assumptions/44.md). -/
def Obligations.BreakEndResetsModules : Prop :=
  ∀ (g : Seg) (s : State), AtRest s →
    let reset := { s with modules := s.modules.map fun m : Module => if m.seg = g then m.reset else m }
    ((s.seg g).sup.state = .starting → (s.seg g).sup.stage = .breaking →
      exec (.breakEnd g) s =
        .next (reset.updSup g fun v => { v with stage := .quiet, stageEnd := s.time + 50 })) ∧
    ((s.seg g).sup.state = .running ∨ (s.seg g).sup.state = .holding → (s.seg g).line.breaking = true →
      (s.seg g).line.probeFirst = false → (s.seg g).line.inFlight = none →
      ∃ t, exec (.breakEnd g) s = .next t ∧ t.still = reset.still ∧ t.tasks = s.tasks ∧ t.captures = s.captures ∧
        t.away g = s.away g ∧ (t.seg g).slots = (s.seg g).slots ∧
        (t.seg g).line.breaking = false ∧ (t.seg g).sup.breakPending = false ∧
        (t.seg g).sup.state = if (s.seg g).sup.state = .running then .running else .held) ∧
    ((s.seg g).sup.state = .running ∨ (s.seg g).sup.state = .holding → (s.seg g).line.probeFirst = true →
      exec (.breakEnd g) s = .next s)

/-- R22, R47, R48, R55, R102, R115, R131, R137, R161, R162: the settle stage passes to the break, or to FAULT over a
shorted line, with the notices of R162; the quiet stage passes to RUNNING, whose free line sends SYNC first. The SYNC is
in flight as soon as it is chosen (notes/assumptions/11.md), and an OPERATION_DONE that an event ends waits for its
STARTED reply (notes/assumptions/34.md). That the command lets the stage run to its end, here with no other event of the
clock falling due in it, is the model's choice (notes/assumptions/7.md). -/
def Obligations.StartupStagesEnd : Prop :=
  ∀ (g : Seg) (s : State), AtRest s → (s.seg g).sup.state = .starting →
    let n := s.msUntil (s.seg g).sup.stageEnd
    let u := s.passTime n
    let settles := 0 < n → s.Undisturbed (some (.settleEnd g)) n
    let quiets := 0 < n → s.Undisturbed (some (.quietEnd g)) n
    (settles → (s.seg g).sup.stage = .settle → (s.seg g).sup.condition ≠ .shorted →
      exec (.settleEnd g) s = .next (u.updSup g fun v => { v with stage := .breaking })) ∧
    (settles → (s.seg g).sup.stage = .settle → (s.seg g).sup.condition = .shorted →
      ∃ t, exec (.settleEnd g) s = .next t ∧ LeftService u t g .fault (some .lineShort) ∧ t.still = u.still ∧
        ServiceEnded u t g [.segmentState g .fault .starting .lineShort]) ∧
    (quiets → (s.seg g).sup.stage = .quiet → (s.seg g).sup.breakPending = false → (s.seg g).line.idle = true →
      (s.seg g).line.activeMs = 0 → exec (.quietEnd g) s = .next (
        ((u.updSeg g fun x =>
          { x with
            sup := { x.sup with state := .running }
            line := { x.line with
              syncDue := true, position := 0, passEnded := false, passPolled := false, passHeld := false
              latestPoll := false, inFlight := some syncExchange } }).notify
          (.segmentState g .running .starting .started)).kick))

/-- R22, R47, R48, R55, R102, R115, R162, R164, R165: a probe waits out its 250 ms and happens only on a free line; a
break that waited for it may then begin. An observation that agrees with the condition clears the run; one that does not
lengthens it, and the third in a row changes the condition, is reported, and over a short takes a segment in service to
FAULT: its WAIT_LOAD and SHOWN tasks are BLOCKED, their shadows dark with a new seq, and its notices come in the order
of R162, an OPERATION_DONE waiting for its STARTED reply (notes/assumptions/34.md). That the command lets the rest of
the 250 ms pass, here with no event of the clock falling due in it, and that a probe of a line that is not free then
changes nothing, are the model's choices (notes/assumptions/7.md and 5.md). -/
def Obligations.LineSenseProbe : Prop :=
  ∀ (g : Seg) (o : Observation) (s : State), AtRest s →
    let n := 250 - (s.time - (s.seg g).sup.lastProbe).toNat
    let u := s.passTime n
    let v := (s.seg g).sup
    let seen : LineCondition := match o with
      | .high => .normal
      | .low => .shorted
      | .float => .opened
    let run := if v.candidate = some o then v.senseRun + 1 else 1
    let probed := fun f : Supervisor → Supervisor => u.updSeg g fun x =>
      { x with sup := f { x.sup with lastProbe := u.time }, line := { x.line with probeFirst := false } }
    let changed := (probed fun w => { w with condition := seen, candidate := none, senseRun := 0 }).notify
      (.lineCondition g seen)
    (0 < n → s.Undisturbed none n) →
    ((u.seg g).probeFree = false → exec (.lineSenseProbe g o) s = .next s) ∧
    ((u.seg g).probeFree = true →
      (seen = v.condition → exec (.lineSenseProbe g o) s =
        .next (probed fun w => { w with candidate := none, senseRun := 0 })) ∧
      (seen ≠ v.condition → run < 3 → exec (.lineSenseProbe g o) s =
        .next (probed fun w => { w with candidate := some o, senseRun := run })) ∧
      (seen ≠ v.condition → 3 ≤ run → o ≠ .low ∨ v.state = .off ∨ v.state = .fault →
        exec (.lineSenseProbe g o) s = .next changed.kick) ∧
      (seen ≠ v.condition → 3 ≤ run → o = .low → v.state ≠ .off → v.state ≠ .fault →
        ∃ t, exec (.lineSenseProbe g o) s = .next t ∧ LeftService u t g .fault (some .lineShort) ∧
          (t.seg g).sup.condition = .shorted ∧ t.still = u.still ∧
          ServiceEnded u t g [.lineCondition g .shorted, .segmentState g .fault v.state .lineShort]))

/-- R22, R47, R48, R55, R102, R115, R159, R162, R163: a supply trip takes a segment in service to FAULT and reports it:
its WAIT_LOAD and SHOWN tasks are BLOCKED, their shadows dark with a new seq, and its notices come in the order of R162;
in OFF and FAULT only the input changes. The input's return to clear changes nothing else. That an OPERATION_DONE that
an event ends waits for its STARTED reply is the model's reading (notes/assumptions/34.md). -/
def Obligations.SupplyTripFaultsSegment : Prop :=
  ∀ (g : Seg) (s : State), AtRest s →
    ((s.seg g).sup.state = .off ∨ (s.seg g).sup.state = .fault →
      exec (.supplyTrip g) s = .next (s.updSeg g fun x => { x with trip := true })) ∧
    ((s.seg g).sup.state ≠ .off → (s.seg g).sup.state ≠ .fault →
      ∃ t, exec (.supplyTrip g) s = .next t ∧ LeftService s t g .fault (some .supplyTrip) ∧
        ServiceEnded s t g [.segmentState g .fault (s.seg g).sup.state .supplyTrip] ∧
        t.still = (s.updSeg g fun x => { x with trip := true }).still ∧ t.captures = s.captures ∧
        (s.link.notices.length < 32 → ∃ rest, t.link.notices = s.link.notices ++
          ⟨s.time, s.link.dropMark, .segmentState g .fault (s.seg g).sup.state .supplyTrip, s.link.taking⟩ :: rest)) ∧
    exec (.tripInputReturnToClear g) s = .next (s.updSeg g fun x => { x with trip := false })

/-- R61: a button that goes down at a powered module counts a press, CONFIRM latching the seq shown; without power, or
with the button already down, nothing is counted; a button that comes up counts nothing. A module that resets keeps its
address, its serial and its buttons' positions and comes back FRESH and dark; one not seen before is fitted FRESH and
dark, with its buttons up, and the module it replaces is gone. That nothing is counted without power is the model's
choice (notes/assumptions/18.md), and so are fitting, replacing and what is kept (notes/assumptions/19.md), and that a
module's own blink phase starts at phase 0 at its reset (notes/assumptions/44.md). -/
def Obligations.ButtonsAndModuleResets : Prop :=
  (∀ (serial : Serial) (s : State),
    let powered := fun m : Module => (s.seg m.seg).sup.supply
    let changed := fun f : Module → Module =>
      { s with modules := s.modules.map fun m : Module => if m.serial = serial then f m else m }
    exec (.buttonPress serial .confirm) s = .next (changed fun m =>
      if powered m ∧ m.confirmHeld = false then
        { m with confirmHeld := true, confirmCount := m.confirmCount + 1, latchedSeq := m.shownSeq }
      else { m with confirmHeld := true }) ∧
    exec (.buttonPress serial .adjust) s = .next (changed fun m =>
      if powered m ∧ m.adjustHeld = false then { m with adjustHeld := true, adjustCount := m.adjustCount + 1 }
      else { m with adjustHeld := true }) ∧
    exec (.buttonRelease serial .confirm) s = .next (changed fun m => { m with confirmHeld := false }) ∧
    exec (.buttonRelease serial .adjust) s = .next (changed fun m => { m with adjustHeld := false })) ∧
  (∀ (g : Seg) (serial : Serial) (address : BitVec 6) (replaced : Option Serial) (s : State), address.toNat ≤ 62 →
    let left := s.modules.filter fun m => some m.serial ≠ replaced
    let known := left.any fun m => m.serial = serial
    let fresh := fun m : Module =>
      { m with
        seg := g, confirmCount := 0, adjustCount := 0, shownSeq := 0, latchedSeq := 0, fresh := true, colour := 0
        pattern := .steady, rotation := 0, level := 16, digits := ⟨none, none, none⟩, phase := 0, phaseMs := 0 }
    let fitted : Module :=
      { serial := serial, seg := g, address := address, confirmCount := 0, adjustCount := 0, shownSeq := 0
        latchedSeq := 0, confirmHeld := false, adjustHeld := false, fresh := true, colour := 0, pattern := .steady
        rotation := 0, level := 16, digits := ⟨none, none, none⟩, phase := 0, phaseMs := 0 }
    let after := if known then left.map fun m => if m.serial = serial then fresh m else m else left ++ [fitted]
    exec (.moduleReset g serial address replaced) s = .next { s with modules := after })

/-- R26, R28: when the running timer of a SHOWN task runs out the task ends EXPIRED with a confirmed quantity of 0,
keeping its step and displayed quantity; TASK_ENDED is queued; the slot lets it go. That the command lets the timer run
out, here with no other event of the clock falling due in it, is the model's choice (notes/assumptions/7.md). -/
def Obligations.TaskExpiryEndsTask : Prop :=
  ∀ (id : TaskId) (u : Task) (s : State), AtRest s → TasksSound s.tasks → s.task? id = some u → u.state = .shown →
    u.limit ≠ none → (s.seg u.slot.seg).sup.state = .running →
    (0 < u.timeLeft → s.Undisturbed (some (.expiry id)) u.timeLeft) →
    let v := s.passTime u.timeLeft
    ∃ t, exec (.taskExpiry id) s = .next t ∧ t.still = v.still ∧ t.captures = s.captures ∧
      t.away u.slot.seg = v.away u.slot.seg ∧
      t.task? id = some { u with state := .expired, confirmed := 0, endStamp := v.time, timeLeft := 0 } ∧
      (t.slot u.slot).current ≠ some id ∧ id ∉ (t.slot u.slot).waiting ∧
      (s.link.notices.length < 32 → ∃ rest, t.link.notices = s.link.notices ++
        ⟨v.time, s.link.dropMark, .taskEnded id u.slot u.picker .expired 0 (v.time - u.shownSince), s.link.taking⟩ :: rest)

/-- R131, R137, R183: the phase clock enters the next phase when its 125 ms are over; on entering phase 0 SYNC is due on
every segment, and a free line of a RUNNING one chooses it. That the SYNC is in flight as soon as it is chosen is the
model's reading (notes/assumptions/11.md); that the command lets the phase run out, here with no other event of the clock
falling due in it, is its choice (notes/assumptions/7.md). -/
def Obligations.BlinkPhaseAdvances : Prop :=
  ∀ s : State, AtRest s →
    let n := 125 - s.phaseMs
    (0 < n → s.Undisturbed (some .phase) n) →
    let u := s.passTime n
    let advanced := { u with phase := s.phase + 1, phaseMs := u.phaseMs - 125 }
    (s.phase ≠ 7 → exec .blinkPhaseAdvance s = .next advanced) ∧
    (s.phase = 7 → ∃ t, exec .blinkPhaseAdvance s = .next t ∧ t.still = advanced.still ∧ t.phase = 0 ∧
      t.tasks = u.tasks ∧ t.captures = s.captures ∧ t.link.notices = s.link.notices ∧
      ∀ g, (t.seg g).line.syncDue = true ∧ (t.seg g).entries = (s.seg g).entries ∧
        (t.seg g).slots = (s.seg g).slots ∧ (t.seg g).gov = (s.seg g).gov ∧
        ((s.seg g).sup.state = .running → (s.seg g).line.idle = true → (s.seg g).line.activeMs = 0 →
          (t.seg g).line.inFlight = some syncExchange))

/-! ### Presses, load, alignment and the line -/

/-- R23, R24, R64, R69 to R74, R80: the CONFIRM step of an accepted reply: what is no press, chatter or stale is counted and
acts on nothing; an accepted press goes to the shadow's owner, to the lowest capture armed for a dark slot, or is
reported unsolicited. A task that it ends leaves the waiting set and the slot, which is left dark with a new seq where
no other QUEUED task waits. -/
def Obligations.ConfirmPressIsJudged : Prop :=
  ∀ (s : State) (r : SlotRef) (reply : StatusReply),
    let x := (s.entry r).press
    let delta := (reply.confirmCount - x.confirmBase).toNat
    let based := s.updPress r fun p => { p with confirmBase := reply.confirmCount }
    let late := based.count r.seg fun c => { c with chatter := c.chatter + BitVec.ofNat 32 (delta - 1) }
    let taken := late.updPress r fun p => { p with lastConfirm := some s.time }
    let void := delta = 0 ∨ x.confirmStuck = true ∨ (s.entry r).binding = .mismatch
    let guarded := ∃ last, x.lastConfirm = some last ∧ (s.time - last).toNat < (s.seg r.seg).config.guardMs
    (void → s.confirmStep r reply = based) ∧
    (¬void → guarded → s.confirmStep r reply = late.count r.seg fun c => { c with chatter := c.chatter + 1 }) ∧
    (¬void → ¬guarded → reply.latchedSeq ≠ (s.shadow r).seq →
      s.confirmStep r reply = late.count r.seg fun c => { c with stale := c.stale + 1 }) ∧
    (¬void → ¬guarded → reply.latchedSeq = (s.shadow r).seq →
      ((s.shadow r).owner = none → (∀ (i : Fin 16) c, s.captures[i] = some c → c.slot ≠ r) →
        s.confirmStep r reply = taken.notify (.pressUnsolicited r)) ∧
      (∀ (i : Fin 16) c, (s.shadow r).owner = none → s.captures[i] = some c → c.slot = r →
        (∀ (j : Fin 16) d, j < i → s.captures[j] = some d → d.slot ≠ r) →
        s.confirmStep r reply =
          { taken with captures := s.captures.set i none }.notify (.pressCaptured c.tag r i)) ∧
      (∀ o u, (s.shadow r).owner = some o → s.task? o.task = some u → o.step = .prompt →
        (s.confirmStep r reply).untouched = s.untouched ∧ (s.confirmStep r reply).captures = s.captures ∧
          (s.confirmStep r reply).task? u.id = some { u with step := .quantity } ∧
          (s.confirmStep r reply).shadow r = { s.shadow r with
            seq := (s.shadow r).seq + 1, owner := some ⟨u.id, .quantity⟩, digits := quantityDigits u.displayed } ∧
          (s.link.notices.length < 32 → (s.confirmStep r reply).link.notices = s.link.notices ++
            [⟨s.time, s.link.dropMark, .taskStep u.id r u.picker, s.link.taking⟩])) ∧
      (∀ o u, (s.shadow r).owner = some o → s.task? o.task = some u → o.step = .quantity →
        (s.confirmStep r reply).untouched = s.untouched ∧ (s.confirmStep r reply).captures = s.captures ∧
          (s.confirmStep r reply).task? u.id = some
            { u with
              state := if u.displayed = u.requested then .done else .short
              confirmed := u.displayed, endStamp := s.time, timeLeft := 0 } ∧
          (TasksSound s.tasks → u.slot = r →
            let t := s.confirmStep r reply
            let how : EndKind := if u.displayed = u.requested then .done else .short
            u.id ∉ (t.slot r).waiting ∧ (t.slot r).current ≠ some u.id ∧
            (s.link.notices.length < 32 → ∃ rest, t.link.notices = s.link.notices ++
              ⟨s.time, s.link.dropMark, .taskEnded u.id r u.picker how u.displayed (s.time - u.shownSince),
                s.link.taking⟩ :: rest) ∧
            ((∀ w ∈ s.tasks, w.id ≠ u.id → w.id ∈ (s.slot r).waiting → w.state ≠ .queued) →
              (∀ a ∈ (s.seg r.seg).gov.queue, a.ix ≠ r.ix) →
              (t.slot r).current = none ∧ (t.slot r).tenure = none ∧
              (t.slot r).shadow = (s.slot r).shadow.darkened ∧ ∀ a ∈ (t.seg r.seg).gov.lit, a.ix ≠ r.ix))))

/-- R64, R65, R67, R68, R75, R76: the ADJUST step of an accepted reply: presses at the quantity the module shows lower
it, not below 0; others are counted stale. A reply with FRESH counts no press: it sets both baselines, hands an IDENT
unless one waits or is in flight, and the shadow whole. The held flags set and clear the held-since stamps; a button
held for the stuck time is STUCK and reported, and so is the end of it. -/
def Obligations.AdjustPressLowersQuantity : Prop :=
  (∀ (s : State) (r : SlotRef) (reply : StatusReply),
     let x := (s.entry r).press
     let delta := (reply.adjustCount - x.adjustBase).toNat
     let based := s.updPress r fun p => { p with adjustBase := reply.adjustCount }
     let void := delta = 0 ∨ x.adjustStuck = true ∨ (s.entry r).binding = .mismatch
     let applies := fun u : Task => ∃ o, (s.shadow r).owner = some o ∧ o.step = .quantity ∧ s.task? o.task = some u ∧
       reply.shownSeq = (s.shadow r).seq
     (void → s.adjustStep r reply = based) ∧
     (¬void → (¬∃ u, applies u) → s.adjustStep r reply = based.count r.seg fun c =>
       { c with stale := c.stale + BitVec.ofNat 32 delta }) ∧
     (∀ u, ¬void → applies u →
       (s.adjustStep r reply).untouched = s.untouched ∧
       (s.adjustStep r reply).task? u.id = some { u with displayed := u.displayed - delta } ∧
       ((s.adjustStep r reply).seg r.seg).counters.atFloor =
         (s.seg r.seg).counters.atFloor + BitVec.ofNat 32 (delta - u.displayed) ∧
       ((s.adjustStep r reply).shadow r).seq = (s.shadow r).seq ∧
       (0 < u.displayed → ((s.adjustStep r reply).shadow r).digits = quantityDigits (u.displayed - delta)))) ∧
  (∀ (s : State) (r : SlotRef) (reply : StatusReply),
    (reply.fresh = true → s.takeStatus r reply = (s.freshStep r reply).heldStep r reply) ∧
    (reply.fresh = false →
      s.takeStatus r reply = (((s.adjustStep r reply).confirmStep r reply)).heldStep r reply ∧ s.freshStep r reply = s)) ∧
  (∀ (s : State) (r : SlotRef) (reply : StatusReply), reply.fresh = true →
    let x := s.entry r
    let y := s.slot r
    let l := (s.seg r.seg).line
    let v := (s.seg r.seg).sup
    let t := s.freshStep r reply
    let whole : DisplayKind := if y.shadow.owner.isSome then .showCmd else .darkCmd
    let pending := ServiceCmd.ident r.ix ∈ l.services ∨
      ∃ e, l.inFlight = some e ∧ e.kind = .ident ∧ e.target = some r.ix
    let handed := (v.state = .running ∨ v.state = .holding ∨ v.state = .held) ∧ x.presence ≠ .absent ∧
      x.presence ≠ .lost
    t.entry r = { x with press := { x.press with confirmBase := reply.confirmCount, adjustBase := reply.adjustCount } } ∧
    t.tasks = s.tasks ∧ t.captures = s.captures ∧ t.link = s.link ∧ t.slot r = y ∧ t.away r.seg = s.away r.seg ∧
    (pending ∨ 16 ≤ l.services.length → (t.seg r.seg).line.services = l.services) ∧
    (¬pending → l.services.length < 16 → (t.seg r.seg).line.services = l.services ++ [.ident r.ix]) ∧
    (¬handed → (t.seg r.seg).line.displays = l.displays) ∧
    (handed → (∀ d ∈ l.displays, d.ix ≠ r.ix) → (t.seg r.seg).line.displays = l.displays ++ [⟨r.ix, whole⟩]) ∧
    (handed → ∀ d ∈ l.displays, d.ix = r.ix → (t.seg r.seg).line.displays =
      l.displays.map fun d => if d.ix = r.ix then { d with kind := whole } else d)) ∧
  (∀ (s : State) (r : SlotRef) (reply : StatusReply),
    let p := (s.entry r).press
    let t := s.heldStep r reply
    let after := fun (flag : Bool) (since : Option Stamp) (stuck : Bool) =>
      if flag = false then (none, false)
      else match since with
        | none => (some s.time, stuck)
        | some n => (some n, stuck || 1000 * (s.seg r.seg).config.stuckTime ≤ (s.time - n).toNat)
    let confirm := after reply.confirmHeld p.confirmHeld p.confirmStuck
    let adjust := after reply.adjustHeld p.adjustHeld p.adjustStuck
    let first := confirm.2 ≠ p.confirmStuck
    let second := adjust.2 ≠ p.adjustStuck
    t.entry r = { s.entry r with press := { p with
      confirmHeld := confirm.1, confirmStuck := confirm.2, adjustHeld := adjust.1, adjustStuck := adjust.2 } } ∧
    t.untouched = s.untouched ∧ t.tasks = s.tasks ∧ t.captures = s.captures ∧ t.slot r = s.slot r ∧
    t.away r.seg = s.away r.seg ∧
    (s.link.notices.length + 2 ≤ 32 → t.link.notices = s.link.notices ++
      (if first then [⟨s.time, s.link.dropMark, .buttonStuck r .confirm confirm.2, s.link.taking⟩] else []) ++
      (if second then [⟨s.time, if first then false else s.link.dropMark, .buttonStuck r .adjust adjust.2, s.link.taking⟩]
        else [])))

/-- R149 to R154: a start delay joins the interval. At its end the tracker jumps to the average when jump is on and
the difference exceeds J, with both histories empty, hold OFF and the jump counted. Otherwise it proposes a step: the
difference divided by 2 to the power of the shift, truncated toward zero and clamped to S, whose sign joins the proposal
history. In hold nothing applies unless the difference exceeds half the window, which ends the hold with an empty applied
history. The post filter lets a nonzero step apply only as the fourth of one sign; one that applies moves D, is counted,
and enters hold where toggle hold is on and four applied signs alternate. -/
def Obligations.TrackerJumps : Prop :=
  ∀ (s : State) (g : Seg) (delay : Nat),
    let c := (s.seg g).config
    let x := (s.seg g).tracker
    let n := x.n + 1
    let average := (x.sum + delay + n / 2) / n
    let difference : Int := (average : Int) - (x.delay : Int)
    let quotient : Int := difference.tdiv (2 ^ c.shift)
    let step : Int := if quotient < -(c.slew : Int) then -(c.slew : Int) else if (c.slew : Int) < quotient then c.slew else quotient
    let sign : Sign := if 0 < step then .plus else if step < 0 then .minus else .zero
    let lastFour := fun h : List Sign => h.drop (h.length - 4)
    let proposals := lastFour (x.proposals ++ [sign])
    let before := if x.hold = true then [] else x.applied
    let applied := lastFour (before ++ [sign])
    let passes := step ≠ 0 ∧ (c.postFilter = false ∨ proposals = [.plus, .plus, .plus, .plus] ∨
      proposals = [.minus, .minus, .minus, .minus])
    let becomes := fun y : Tracker => s.updSeg g fun z => { z with tracker := y }
    let moved : Tracker :=
      { delay := min 1023 ((x.delay : Int) + step).toNat, sum := 0, n := 0, proposals := proposals, applied := applied
        hold := decide (c.toggleHold = true ∧
          (applied = [.plus, .minus, .plus, .minus] ∨ applied = [.minus, .plus, .minus, .plus])) }
    (n < c.interval.count → s.track g delay = becomes { x with sum := x.sum + delay, n := n }) ∧
    (c.interval.count ≤ n →
      (c.jump = true → c.jumpOver < difference.natAbs →
        s.track g delay = s.updSeg g fun y =>
          { y with
            tracker := { delay := average, sum := 0, n := 0, proposals := [], applied := [], hold := false }
            counters := { y.counters with trackerJumps := y.counters.trackerJumps + 1 } }) ∧
      (c.jump = false ∨ difference.natAbs ≤ c.jumpOver →
        (x.hold = true → difference.natAbs ≤ c.window / 2 →
          s.track g delay = becomes { x with sum := 0, n := 0, proposals := proposals }) ∧
        (x.hold = false ∨ c.window / 2 < difference.natAbs →
          (¬passes → s.track g delay =
            becomes { delay := x.delay, sum := 0, n := 0, proposals := proposals, applied := before, hold := false }) ∧
          (passes → s.track g delay = s.updSeg g fun y =>
            { y with
              tracker := moved, counters := { y.counters with trackerSteps := y.counters.trackerSteps + 1 } }))))

/-- R145, R149, R151, R153, R155, R156: a start delay below 1024 keeps the tracker record in its ranges, and unless it
jumps D moves by at most S. Every step of the machine keeps every segment's tracker record in them. -/
def Obligations.TrackerStaysInRange : Prop :=
  (∀ (c : SegConfig) (x : Tracker) (delay : Nat), x.InRange → delay ≤ 1023 →
    (trackDelay c x delay).tracker.InRange ∧
    ((trackDelay c x delay).jumped = false →
      (trackDelay c x delay).tracker.delay ≤ x.delay + c.slew ∧
        x.delay ≤ (trackDelay c x delay).tracker.delay + c.slew)) ∧
  ∀ s t : State, ConfigSound s → (∀ g, (s.seg g).tracker.InRange) → step s = .next t → ∀ g, (t.seg g).tracker.InRange

/-- R52, R53, R61, R84, R129, R130, R139: what a SHOW or DARK command built from a shadow brings, the module shows, and
its STATUS reply to that command carries the shadow's seq and FRESH as it was before; its reply to a later POLL carries
what the module then holds. Its lamp has the colour and level in the lit phases of its own blink phase; with colour 0,
and without power, it shows nothing; that a DIGITS taken at colour 0 leaves it so is the model's choice
(notes/assumptions/45.md). -/
def Obligations.ModuleShowsTheShadow : Prop :=
  (let status := fun (m : Module) (seq : Nibble) =>
     some [m.address.setWidth 8, 0x31, seq.setWidth 8, m.confirmCount.setWidth 8, m.latchedSeq.setWidth 8,
       m.adjustCount.setWidth 8,
       byteOf ((if m.confirmHeld then 1 else 0) + (if m.adjustHeld then 2 else 0) + (if m.fresh then 4 else 0)),
       byteOf (m.serial.toNat % 256)]
   (∀ (m : Module) (x : Shadow), 1 ≤ x.level → x.level ≤ 16 →
     m.act .showCmd (x.payload .showCmd) =
       ({ m with
          shownSeq := x.seq, colour := x.colour, pattern := x.pattern, rotation := x.rotation, level := x.level
          digits := x.digits, fresh := false }, status m x.seq) ∧
     m.act .dark (x.payload .darkCmd) =
       ({ m with
          shownSeq := x.seq, colour := 0, pattern := .steady, rotation := 0, level := 16, digits := ⟨none, none, none⟩
          fresh := false }, status m x.seq) ∧
     (m.fresh = false → m.shownSeq = x.seq →
       m.act .digits (x.payload .digitsCmd) = ({ m with digits := x.digits }, status m x.seq))) ∧
   ∀ (m : Module) (payload : List Byte), m.act .poll payload = (m, status m m.shownSeq)) ∧
  ∀ (m : Module) (s : State),
    let offset := (m.phase.val + 8 - m.rotation.val) % 8
    let litNow := match m.pattern with
      | .steady => true
      | .blink => decide (offset < 4)
      | .flicker => decide (offset % 2 = 0)
    let on := (s.seg m.seg).sup.supply = true ∧ m.colour ≠ 0
    (on → (s.shows m).2 = m.digits ∧ (s.shows m).1 = if litNow then some (m.colour, m.level) else none) ∧
    (¬on → s.shows m = (none, ⟨none, none, none⟩))

/-- R126 to R128, R133: a reply frame sent with any start delay within the listen period is received as it was sent. -/
def Obligations.ReplyFrameReceived : Prop :=
  ∀ (delay : Nat) (address kind : Byte) (payload : List Byte), delay < 1024 →
    replyFrameLength kind = some (payload.length + 4) →
    receive (frameActivity delay (address :: kind :: payload)) = .frame delay (address :: kind :: payload)

/-! ### What every step keeps -/

/-- R114, R137 to R139, R143, R144, R166, R170, R178: every step leaves the free lines with nothing left to choose and a
free transmitter with nothing left to send. What a free line does at the end of a command: in RUNNING a pending break goes
first, and without one the scheduler chooses: SYNC, the service queue's head, a display command or a poll, or at the end of
a pass a discovery round, the next pass, or nothing. A line that is not free, or whose segment is neither RUNNING nor
HOLDING, is left alone. That a break, like an exchange, waits while a line is active after a held line is the model's
choice (notes/assumptions/8.md); that the exchange chosen is in flight at once, built then, is its reading
(notes/assumptions/11.md). -/
def Obligations.EveryStepEndsAtRest : Prop :=
  (∀ s t : State, AtRest s → step s = .next t → AtRest t) ∧
  (∀ s : State, s.finish.segs = s.settleLines.segs) ∧
  ∀ (s : State) (g : Seg),
    let x := s.seg g
    let y := s.settleLines.seg g
    let free := x.line.inFlight = none ∧ x.line.breaking = false
    let active := x.sup.state = .running ∧ 0 < x.line.activeMs
    (¬free ∨ active ∨ (x.sup.state ≠ .running ∧ x.sup.state ≠ .holding) → y = x) ∧
    (free → ¬active → x.sup.state = .running → x.sup.breakPending = true →
      y = { x with line := { x.line with
        breaking := true, breakMs := 0, probeFirst := decide (250 ≤ (s.time - x.sup.lastProbe).toNat) } }) ∧
    (free → ¬active → x.sup.state = .running → x.sup.breakPending = false → SchedulerChoice x y)

/-- R1, R2, R5, R13, R42, R43, R51, R52, R88, R89, R104 to R106, R118, R138, R139, R143, R171, R174, R177, R182: every
step keeps the link's lists within their room, the pickers and the task table in agreement, and the configuration in
range; the slots and the governors in agreement with the task table: at most one task of a slot in WAIT_LOAD, SHOWN or
BLOCKED, the shadow its own exactly while it is SHOWN, its request queued exactly while it is in WAIT_LOAD; the directory's
serials distinct and its bindings true; on every line one display command for an address, one IDENT for an address and at
most 16 service commands; and the poll rotation within the addresses, at 0 once its pass has ended, a skip count within 7.
-/
def Obligations.EveryStepKeepsRecordsSound : Prop :=
  (∀ s t : State, LinkBounded s.link → TableSound s → ConfigSound s → step s = .next t →
    LinkBounded t.link ∧ TableSound t ∧ ConfigSound t) ∧
  (∀ s t : State, TableSound s → ArbiterSound s → step s = .next t → ArbiterSound t) ∧
  (∀ s t : State, DirectorySound s → step s = .next t → DirectorySound t) ∧
  (∀ s t : State, (∀ g, QueuesSound (s.seg g).line) → step s = .next t → ∀ g, QueuesSound (t.seg g).line) ∧
  ∀ s t : State, (∀ g, RotationSound (s.seg g)) → step s = .next t → ∀ g, RotationSound (t.seg g)

/-- R84, R87, R92, R97: every step keeps the phase loads true to what is lit, and no phase above U with a display lit.
-/
def Obligations.EveryStepKeepsLoadSound : Prop :=
  ∀ s t : State, (∀ g, LoadSound s g) → step s = .next t → ∀ g, LoadSound t g
end

