-- ==== Sys2Proof/Laws/State.lean ====
section
/-! SUPPORT. The state's updates: one lemma per field per update, so that no later proof unfolds a record update. -/

namespace Sys2Proof.Machine

variable (s : State)

/-! ### updSeg -/

@[simp] theorem State.updSeg_link (g : Seg) (f : Segment → Segment) : (s.updSeg g f).link = s.link := rfl
@[simp] theorem State.updSeg_pickers (g : Seg) (f : Segment → Segment) : (s.updSeg g f).pickers = s.pickers := rfl
@[simp] theorem State.updSeg_tasks (g : Seg) (f : Segment → Segment) : (s.updSeg g f).tasks = s.tasks := rfl
@[simp] theorem State.updSeg_submitCounter (g : Seg) (f : Segment → Segment) : (s.updSeg g f).submitCounter = s.submitCounter := rfl
@[simp] theorem State.updSeg_captures (g : Seg) (f : Segment → Segment) : (s.updSeg g f).captures = s.captures := rfl
@[simp] theorem State.updSeg_currents (g : Seg) (f : Segment → Segment) : (s.updSeg g f).currents = s.currents := rfl
@[simp] theorem State.updSeg_time (g : Seg) (f : Segment → Segment) : (s.updSeg g f).time = s.time := rfl
@[simp] theorem State.updSeg_phase (g : Seg) (f : Segment → Segment) : (s.updSeg g f).phase = s.phase := rfl
@[simp] theorem State.updSeg_phaseMs (g : Seg) (f : Segment → Segment) : (s.updSeg g f).phaseMs = s.phaseMs := rfl
@[simp] theorem State.updSeg_modules (g : Seg) (f : Segment → Segment) : (s.updSeg g f).modules = s.modules := rfl
@[simp] theorem State.updSeg_ties (g : Seg) (f : Segment → Segment) : (s.updSeg g f).ties = s.ties := rfl
@[simp] theorem State.updSeg_pending (g : Seg) (f : Segment → Segment) : (s.updSeg g f).pending = s.pending := rfl

/-! ### updSup -/

@[simp] theorem State.updSup_link (g : Seg) (f : Supervisor → Supervisor) : (s.updSup g f).link = s.link := rfl
@[simp] theorem State.updSup_pickers (g : Seg) (f : Supervisor → Supervisor) : (s.updSup g f).pickers = s.pickers := rfl
@[simp] theorem State.updSup_tasks (g : Seg) (f : Supervisor → Supervisor) : (s.updSup g f).tasks = s.tasks := rfl
@[simp] theorem State.updSup_submitCounter (g : Seg) (f : Supervisor → Supervisor) : (s.updSup g f).submitCounter = s.submitCounter := rfl
@[simp] theorem State.updSup_captures (g : Seg) (f : Supervisor → Supervisor) : (s.updSup g f).captures = s.captures := rfl
@[simp] theorem State.updSup_currents (g : Seg) (f : Supervisor → Supervisor) : (s.updSup g f).currents = s.currents := rfl
@[simp] theorem State.updSup_time (g : Seg) (f : Supervisor → Supervisor) : (s.updSup g f).time = s.time := rfl
@[simp] theorem State.updSup_phase (g : Seg) (f : Supervisor → Supervisor) : (s.updSup g f).phase = s.phase := rfl
@[simp] theorem State.updSup_phaseMs (g : Seg) (f : Supervisor → Supervisor) : (s.updSup g f).phaseMs = s.phaseMs := rfl
@[simp] theorem State.updSup_modules (g : Seg) (f : Supervisor → Supervisor) : (s.updSup g f).modules = s.modules := rfl
@[simp] theorem State.updSup_ties (g : Seg) (f : Supervisor → Supervisor) : (s.updSup g f).ties = s.ties := rfl
@[simp] theorem State.updSup_pending (g : Seg) (f : Supervisor → Supervisor) : (s.updSup g f).pending = s.pending := rfl

/-! ### updGov -/

@[simp] theorem State.updGov_link (g : Seg) (f : Governor → Governor) : (s.updGov g f).link = s.link := rfl
@[simp] theorem State.updGov_pickers (g : Seg) (f : Governor → Governor) : (s.updGov g f).pickers = s.pickers := rfl
@[simp] theorem State.updGov_tasks (g : Seg) (f : Governor → Governor) : (s.updGov g f).tasks = s.tasks := rfl
@[simp] theorem State.updGov_submitCounter (g : Seg) (f : Governor → Governor) : (s.updGov g f).submitCounter = s.submitCounter := rfl
@[simp] theorem State.updGov_captures (g : Seg) (f : Governor → Governor) : (s.updGov g f).captures = s.captures := rfl
@[simp] theorem State.updGov_currents (g : Seg) (f : Governor → Governor) : (s.updGov g f).currents = s.currents := rfl
@[simp] theorem State.updGov_time (g : Seg) (f : Governor → Governor) : (s.updGov g f).time = s.time := rfl
@[simp] theorem State.updGov_phase (g : Seg) (f : Governor → Governor) : (s.updGov g f).phase = s.phase := rfl
@[simp] theorem State.updGov_phaseMs (g : Seg) (f : Governor → Governor) : (s.updGov g f).phaseMs = s.phaseMs := rfl
@[simp] theorem State.updGov_modules (g : Seg) (f : Governor → Governor) : (s.updGov g f).modules = s.modules := rfl
@[simp] theorem State.updGov_ties (g : Seg) (f : Governor → Governor) : (s.updGov g f).ties = s.ties := rfl
@[simp] theorem State.updGov_pending (g : Seg) (f : Governor → Governor) : (s.updGov g f).pending = s.pending := rfl

/-! ### updLine -/

@[simp] theorem State.updLine_link (g : Seg) (f : LineCtl → LineCtl) : (s.updLine g f).link = s.link := rfl
@[simp] theorem State.updLine_pickers (g : Seg) (f : LineCtl → LineCtl) : (s.updLine g f).pickers = s.pickers := rfl
@[simp] theorem State.updLine_tasks (g : Seg) (f : LineCtl → LineCtl) : (s.updLine g f).tasks = s.tasks := rfl
@[simp] theorem State.updLine_submitCounter (g : Seg) (f : LineCtl → LineCtl) : (s.updLine g f).submitCounter = s.submitCounter := rfl
@[simp] theorem State.updLine_captures (g : Seg) (f : LineCtl → LineCtl) : (s.updLine g f).captures = s.captures := rfl
@[simp] theorem State.updLine_currents (g : Seg) (f : LineCtl → LineCtl) : (s.updLine g f).currents = s.currents := rfl
@[simp] theorem State.updLine_time (g : Seg) (f : LineCtl → LineCtl) : (s.updLine g f).time = s.time := rfl
@[simp] theorem State.updLine_phase (g : Seg) (f : LineCtl → LineCtl) : (s.updLine g f).phase = s.phase := rfl
@[simp] theorem State.updLine_phaseMs (g : Seg) (f : LineCtl → LineCtl) : (s.updLine g f).phaseMs = s.phaseMs := rfl
@[simp] theorem State.updLine_modules (g : Seg) (f : LineCtl → LineCtl) : (s.updLine g f).modules = s.modules := rfl
@[simp] theorem State.updLine_ties (g : Seg) (f : LineCtl → LineCtl) : (s.updLine g f).ties = s.ties := rfl
@[simp] theorem State.updLine_pending (g : Seg) (f : LineCtl → LineCtl) : (s.updLine g f).pending = s.pending := rfl

/-! ### updTracker -/

@[simp] theorem State.updTracker_link (g : Seg) (f : Tracker → Tracker) : (s.updTracker g f).link = s.link := rfl
@[simp] theorem State.updTracker_pickers (g : Seg) (f : Tracker → Tracker) : (s.updTracker g f).pickers = s.pickers := rfl
@[simp] theorem State.updTracker_tasks (g : Seg) (f : Tracker → Tracker) : (s.updTracker g f).tasks = s.tasks := rfl
@[simp] theorem State.updTracker_submitCounter (g : Seg) (f : Tracker → Tracker) : (s.updTracker g f).submitCounter = s.submitCounter := rfl
@[simp] theorem State.updTracker_captures (g : Seg) (f : Tracker → Tracker) : (s.updTracker g f).captures = s.captures := rfl
@[simp] theorem State.updTracker_currents (g : Seg) (f : Tracker → Tracker) : (s.updTracker g f).currents = s.currents := rfl
@[simp] theorem State.updTracker_time (g : Seg) (f : Tracker → Tracker) : (s.updTracker g f).time = s.time := rfl
@[simp] theorem State.updTracker_phase (g : Seg) (f : Tracker → Tracker) : (s.updTracker g f).phase = s.phase := rfl
@[simp] theorem State.updTracker_phaseMs (g : Seg) (f : Tracker → Tracker) : (s.updTracker g f).phaseMs = s.phaseMs := rfl
@[simp] theorem State.updTracker_modules (g : Seg) (f : Tracker → Tracker) : (s.updTracker g f).modules = s.modules := rfl
@[simp] theorem State.updTracker_ties (g : Seg) (f : Tracker → Tracker) : (s.updTracker g f).ties = s.ties := rfl
@[simp] theorem State.updTracker_pending (g : Seg) (f : Tracker → Tracker) : (s.updTracker g f).pending = s.pending := rfl

/-! ### count -/

@[simp] theorem State.count_link (g : Seg) (f : SegCounters → SegCounters) : (s.count g f).link = s.link := rfl
@[simp] theorem State.count_pickers (g : Seg) (f : SegCounters → SegCounters) : (s.count g f).pickers = s.pickers := rfl
@[simp] theorem State.count_tasks (g : Seg) (f : SegCounters → SegCounters) : (s.count g f).tasks = s.tasks := rfl
@[simp] theorem State.count_submitCounter (g : Seg) (f : SegCounters → SegCounters) : (s.count g f).submitCounter = s.submitCounter := rfl
@[simp] theorem State.count_captures (g : Seg) (f : SegCounters → SegCounters) : (s.count g f).captures = s.captures := rfl
@[simp] theorem State.count_currents (g : Seg) (f : SegCounters → SegCounters) : (s.count g f).currents = s.currents := rfl
@[simp] theorem State.count_time (g : Seg) (f : SegCounters → SegCounters) : (s.count g f).time = s.time := rfl
@[simp] theorem State.count_phase (g : Seg) (f : SegCounters → SegCounters) : (s.count g f).phase = s.phase := rfl
@[simp] theorem State.count_phaseMs (g : Seg) (f : SegCounters → SegCounters) : (s.count g f).phaseMs = s.phaseMs := rfl
@[simp] theorem State.count_modules (g : Seg) (f : SegCounters → SegCounters) : (s.count g f).modules = s.modules := rfl
@[simp] theorem State.count_ties (g : Seg) (f : SegCounters → SegCounters) : (s.count g f).ties = s.ties := rfl
@[simp] theorem State.count_pending (g : Seg) (f : SegCounters → SegCounters) : (s.count g f).pending = s.pending := rfl

/-! ### updEntry -/

@[simp] theorem State.updEntry_link (r : SlotRef) (f : Entry → Entry) : (s.updEntry r f).link = s.link := rfl
@[simp] theorem State.updEntry_pickers (r : SlotRef) (f : Entry → Entry) : (s.updEntry r f).pickers = s.pickers := rfl
@[simp] theorem State.updEntry_tasks (r : SlotRef) (f : Entry → Entry) : (s.updEntry r f).tasks = s.tasks := rfl
@[simp] theorem State.updEntry_submitCounter (r : SlotRef) (f : Entry → Entry) : (s.updEntry r f).submitCounter = s.submitCounter := rfl
@[simp] theorem State.updEntry_captures (r : SlotRef) (f : Entry → Entry) : (s.updEntry r f).captures = s.captures := rfl
@[simp] theorem State.updEntry_currents (r : SlotRef) (f : Entry → Entry) : (s.updEntry r f).currents = s.currents := rfl
@[simp] theorem State.updEntry_time (r : SlotRef) (f : Entry → Entry) : (s.updEntry r f).time = s.time := rfl
@[simp] theorem State.updEntry_phase (r : SlotRef) (f : Entry → Entry) : (s.updEntry r f).phase = s.phase := rfl
@[simp] theorem State.updEntry_phaseMs (r : SlotRef) (f : Entry → Entry) : (s.updEntry r f).phaseMs = s.phaseMs := rfl
@[simp] theorem State.updEntry_modules (r : SlotRef) (f : Entry → Entry) : (s.updEntry r f).modules = s.modules := rfl
@[simp] theorem State.updEntry_ties (r : SlotRef) (f : Entry → Entry) : (s.updEntry r f).ties = s.ties := rfl
@[simp] theorem State.updEntry_pending (r : SlotRef) (f : Entry → Entry) : (s.updEntry r f).pending = s.pending := rfl

/-! ### updSlot -/

@[simp] theorem State.updSlot_link (r : SlotRef) (f : Slot → Slot) : (s.updSlot r f).link = s.link := rfl
@[simp] theorem State.updSlot_pickers (r : SlotRef) (f : Slot → Slot) : (s.updSlot r f).pickers = s.pickers := rfl
@[simp] theorem State.updSlot_tasks (r : SlotRef) (f : Slot → Slot) : (s.updSlot r f).tasks = s.tasks := rfl
@[simp] theorem State.updSlot_submitCounter (r : SlotRef) (f : Slot → Slot) : (s.updSlot r f).submitCounter = s.submitCounter := rfl
@[simp] theorem State.updSlot_captures (r : SlotRef) (f : Slot → Slot) : (s.updSlot r f).captures = s.captures := rfl
@[simp] theorem State.updSlot_currents (r : SlotRef) (f : Slot → Slot) : (s.updSlot r f).currents = s.currents := rfl
@[simp] theorem State.updSlot_time (r : SlotRef) (f : Slot → Slot) : (s.updSlot r f).time = s.time := rfl
@[simp] theorem State.updSlot_phase (r : SlotRef) (f : Slot → Slot) : (s.updSlot r f).phase = s.phase := rfl
@[simp] theorem State.updSlot_phaseMs (r : SlotRef) (f : Slot → Slot) : (s.updSlot r f).phaseMs = s.phaseMs := rfl
@[simp] theorem State.updSlot_modules (r : SlotRef) (f : Slot → Slot) : (s.updSlot r f).modules = s.modules := rfl
@[simp] theorem State.updSlot_ties (r : SlotRef) (f : Slot → Slot) : (s.updSlot r f).ties = s.ties := rfl
@[simp] theorem State.updSlot_pending (r : SlotRef) (f : Slot → Slot) : (s.updSlot r f).pending = s.pending := rfl

/-! ### updShadow -/

@[simp] theorem State.updShadow_link (r : SlotRef) (f : Shadow → Shadow) : (s.updShadow r f).link = s.link := rfl
@[simp] theorem State.updShadow_pickers (r : SlotRef) (f : Shadow → Shadow) : (s.updShadow r f).pickers = s.pickers := rfl
@[simp] theorem State.updShadow_tasks (r : SlotRef) (f : Shadow → Shadow) : (s.updShadow r f).tasks = s.tasks := rfl
@[simp] theorem State.updShadow_submitCounter (r : SlotRef) (f : Shadow → Shadow) : (s.updShadow r f).submitCounter = s.submitCounter := rfl
@[simp] theorem State.updShadow_captures (r : SlotRef) (f : Shadow → Shadow) : (s.updShadow r f).captures = s.captures := rfl
@[simp] theorem State.updShadow_currents (r : SlotRef) (f : Shadow → Shadow) : (s.updShadow r f).currents = s.currents := rfl
@[simp] theorem State.updShadow_time (r : SlotRef) (f : Shadow → Shadow) : (s.updShadow r f).time = s.time := rfl
@[simp] theorem State.updShadow_phase (r : SlotRef) (f : Shadow → Shadow) : (s.updShadow r f).phase = s.phase := rfl
@[simp] theorem State.updShadow_phaseMs (r : SlotRef) (f : Shadow → Shadow) : (s.updShadow r f).phaseMs = s.phaseMs := rfl
@[simp] theorem State.updShadow_modules (r : SlotRef) (f : Shadow → Shadow) : (s.updShadow r f).modules = s.modules := rfl
@[simp] theorem State.updShadow_ties (r : SlotRef) (f : Shadow → Shadow) : (s.updShadow r f).ties = s.ties := rfl
@[simp] theorem State.updShadow_pending (r : SlotRef) (f : Shadow → Shadow) : (s.updShadow r f).pending = s.pending := rfl

/-! ### updPress -/

@[simp] theorem State.updPress_link (r : SlotRef) (f : Press → Press) : (s.updPress r f).link = s.link := rfl
@[simp] theorem State.updPress_pickers (r : SlotRef) (f : Press → Press) : (s.updPress r f).pickers = s.pickers := rfl
@[simp] theorem State.updPress_tasks (r : SlotRef) (f : Press → Press) : (s.updPress r f).tasks = s.tasks := rfl
@[simp] theorem State.updPress_submitCounter (r : SlotRef) (f : Press → Press) : (s.updPress r f).submitCounter = s.submitCounter := rfl
@[simp] theorem State.updPress_captures (r : SlotRef) (f : Press → Press) : (s.updPress r f).captures = s.captures := rfl
@[simp] theorem State.updPress_currents (r : SlotRef) (f : Press → Press) : (s.updPress r f).currents = s.currents := rfl
@[simp] theorem State.updPress_time (r : SlotRef) (f : Press → Press) : (s.updPress r f).time = s.time := rfl
@[simp] theorem State.updPress_phase (r : SlotRef) (f : Press → Press) : (s.updPress r f).phase = s.phase := rfl
@[simp] theorem State.updPress_phaseMs (r : SlotRef) (f : Press → Press) : (s.updPress r f).phaseMs = s.phaseMs := rfl
@[simp] theorem State.updPress_modules (r : SlotRef) (f : Press → Press) : (s.updPress r f).modules = s.modules := rfl
@[simp] theorem State.updPress_ties (r : SlotRef) (f : Press → Press) : (s.updPress r f).ties = s.ties := rfl
@[simp] theorem State.updPress_pending (r : SlotRef) (f : Press → Press) : (s.updPress r f).pending = s.pending := rfl

/-! ### updLink -/

@[simp] theorem State.updLink_pickers (f : Link → Link) : (s.updLink f).pickers = s.pickers := rfl
@[simp] theorem State.updLink_tasks (f : Link → Link) : (s.updLink f).tasks = s.tasks := rfl
@[simp] theorem State.updLink_submitCounter (f : Link → Link) : (s.updLink f).submitCounter = s.submitCounter := rfl
@[simp] theorem State.updLink_captures (f : Link → Link) : (s.updLink f).captures = s.captures := rfl
@[simp] theorem State.updLink_currents (f : Link → Link) : (s.updLink f).currents = s.currents := rfl
@[simp] theorem State.updLink_segs (f : Link → Link) : (s.updLink f).segs = s.segs := rfl
@[simp] theorem State.updLink_time (f : Link → Link) : (s.updLink f).time = s.time := rfl
@[simp] theorem State.updLink_phase (f : Link → Link) : (s.updLink f).phase = s.phase := rfl
@[simp] theorem State.updLink_phaseMs (f : Link → Link) : (s.updLink f).phaseMs = s.phaseMs := rfl
@[simp] theorem State.updLink_modules (f : Link → Link) : (s.updLink f).modules = s.modules := rfl
@[simp] theorem State.updLink_ties (f : Link → Link) : (s.updLink f).ties = s.ties := rfl
@[simp] theorem State.updLink_pending (f : Link → Link) : (s.updLink f).pending = s.pending := rfl

/-! ### updPicker -/

@[simp] theorem State.updPicker_link (p : Fin 12) (f : Picker → Picker) : (s.updPicker p f).link = s.link := rfl
@[simp] theorem State.updPicker_tasks (p : Fin 12) (f : Picker → Picker) : (s.updPicker p f).tasks = s.tasks := rfl
@[simp] theorem State.updPicker_submitCounter (p : Fin 12) (f : Picker → Picker) : (s.updPicker p f).submitCounter = s.submitCounter := rfl
@[simp] theorem State.updPicker_captures (p : Fin 12) (f : Picker → Picker) : (s.updPicker p f).captures = s.captures := rfl
@[simp] theorem State.updPicker_currents (p : Fin 12) (f : Picker → Picker) : (s.updPicker p f).currents = s.currents := rfl
@[simp] theorem State.updPicker_segs (p : Fin 12) (f : Picker → Picker) : (s.updPicker p f).segs = s.segs := rfl
@[simp] theorem State.updPicker_time (p : Fin 12) (f : Picker → Picker) : (s.updPicker p f).time = s.time := rfl
@[simp] theorem State.updPicker_phase (p : Fin 12) (f : Picker → Picker) : (s.updPicker p f).phase = s.phase := rfl
@[simp] theorem State.updPicker_phaseMs (p : Fin 12) (f : Picker → Picker) : (s.updPicker p f).phaseMs = s.phaseMs := rfl
@[simp] theorem State.updPicker_modules (p : Fin 12) (f : Picker → Picker) : (s.updPicker p f).modules = s.modules := rfl
@[simp] theorem State.updPicker_ties (p : Fin 12) (f : Picker → Picker) : (s.updPicker p f).ties = s.ties := rfl
@[simp] theorem State.updPicker_pending (p : Fin 12) (f : Picker → Picker) : (s.updPicker p f).pending = s.pending := rfl

/-! ### updTask -/

@[simp] theorem State.updTask_link (id : TaskId) (f : Task → Task) : (s.updTask id f).link = s.link := rfl
@[simp] theorem State.updTask_pickers (id : TaskId) (f : Task → Task) : (s.updTask id f).pickers = s.pickers := rfl
@[simp] theorem State.updTask_submitCounter (id : TaskId) (f : Task → Task) : (s.updTask id f).submitCounter = s.submitCounter := rfl
@[simp] theorem State.updTask_captures (id : TaskId) (f : Task → Task) : (s.updTask id f).captures = s.captures := rfl
@[simp] theorem State.updTask_currents (id : TaskId) (f : Task → Task) : (s.updTask id f).currents = s.currents := rfl
@[simp] theorem State.updTask_segs (id : TaskId) (f : Task → Task) : (s.updTask id f).segs = s.segs := rfl
@[simp] theorem State.updTask_time (id : TaskId) (f : Task → Task) : (s.updTask id f).time = s.time := rfl
@[simp] theorem State.updTask_phase (id : TaskId) (f : Task → Task) : (s.updTask id f).phase = s.phase := rfl
@[simp] theorem State.updTask_phaseMs (id : TaskId) (f : Task → Task) : (s.updTask id f).phaseMs = s.phaseMs := rfl
@[simp] theorem State.updTask_modules (id : TaskId) (f : Task → Task) : (s.updTask id f).modules = s.modules := rfl
@[simp] theorem State.updTask_ties (id : TaskId) (f : Task → Task) : (s.updTask id f).ties = s.ties := rfl
@[simp] theorem State.updTask_pending (id : TaskId) (f : Task → Task) : (s.updTask id f).pending = s.pending := rfl

/-! ### freeTask -/

@[simp] theorem State.freeTask_link (id : TaskId) : (s.freeTask id).link = s.link := rfl
@[simp] theorem State.freeTask_pickers (id : TaskId) : (s.freeTask id).pickers = s.pickers := rfl
@[simp] theorem State.freeTask_submitCounter (id : TaskId) : (s.freeTask id).submitCounter = s.submitCounter := rfl
@[simp] theorem State.freeTask_captures (id : TaskId) : (s.freeTask id).captures = s.captures := rfl
@[simp] theorem State.freeTask_currents (id : TaskId) : (s.freeTask id).currents = s.currents := rfl
@[simp] theorem State.freeTask_segs (id : TaskId) : (s.freeTask id).segs = s.segs := rfl
@[simp] theorem State.freeTask_time (id : TaskId) : (s.freeTask id).time = s.time := rfl
@[simp] theorem State.freeTask_phase (id : TaskId) : (s.freeTask id).phase = s.phase := rfl
@[simp] theorem State.freeTask_phaseMs (id : TaskId) : (s.freeTask id).phaseMs = s.phaseMs := rfl
@[simp] theorem State.freeTask_modules (id : TaskId) : (s.freeTask id).modules = s.modules := rfl
@[simp] theorem State.freeTask_ties (id : TaskId) : (s.freeTask id).ties = s.ties := rfl
@[simp] theorem State.freeTask_pending (id : TaskId) : (s.freeTask id).pending = s.pending := rfl

/-! ### setCapture -/

@[simp] theorem State.setCapture_link (i : Fin 16) (c : Option Capture) : (s.setCapture i c).link = s.link := rfl
@[simp] theorem State.setCapture_pickers (i : Fin 16) (c : Option Capture) : (s.setCapture i c).pickers = s.pickers := rfl
@[simp] theorem State.setCapture_tasks (i : Fin 16) (c : Option Capture) : (s.setCapture i c).tasks = s.tasks := rfl
@[simp] theorem State.setCapture_submitCounter (i : Fin 16) (c : Option Capture) : (s.setCapture i c).submitCounter = s.submitCounter := rfl
@[simp] theorem State.setCapture_currents (i : Fin 16) (c : Option Capture) : (s.setCapture i c).currents = s.currents := rfl
@[simp] theorem State.setCapture_segs (i : Fin 16) (c : Option Capture) : (s.setCapture i c).segs = s.segs := rfl
@[simp] theorem State.setCapture_time (i : Fin 16) (c : Option Capture) : (s.setCapture i c).time = s.time := rfl
@[simp] theorem State.setCapture_phase (i : Fin 16) (c : Option Capture) : (s.setCapture i c).phase = s.phase := rfl
@[simp] theorem State.setCapture_phaseMs (i : Fin 16) (c : Option Capture) : (s.setCapture i c).phaseMs = s.phaseMs := rfl
@[simp] theorem State.setCapture_modules (i : Fin 16) (c : Option Capture) : (s.setCapture i c).modules = s.modules := rfl
@[simp] theorem State.setCapture_ties (i : Fin 16) (c : Option Capture) : (s.setCapture i c).ties = s.ties := rfl
@[simp] theorem State.setCapture_pending (i : Fin 16) (c : Option Capture) : (s.setCapture i c).pending = s.pending := rfl

@[simp] theorem State.updLink_link (f : Link → Link) : (s.updLink f).link = f s.link := rfl

@[simp] theorem State.updTask_tasks (id : TaskId) (f : Task → Task) :
    (s.updTask id f).tasks = s.tasks.map fun t => if t.id = id then f t else t := rfl

@[simp] theorem State.freeTask_tasks (id : TaskId) : (s.freeTask id).tasks = s.tasks.filter fun t => t.id ≠ id := rfl

/-! ### Segments after an update -/

theorem State.seg_updSeg (g h : Seg) (f : Segment → Segment) :
    (s.updSeg g f).seg h = if h = g then f (s.seg g) else s.seg h := by
  unfold State.seg State.updSeg
  by_cases e : h = g
  · subst e; simp
  · have e2 : (g : Nat) ≠ (h : Nat) := fun k => e (Fin.ext k.symm)
    simp [e, Vector.getElem_set_ne _ _ e2]

@[simp] theorem State.seg_updSeg_self (g : Seg) (f : Segment → Segment) : (s.updSeg g f).seg g = f (s.seg g) := by
  simp [State.seg_updSeg]

theorem State.seg_updSeg_ne {g h : Seg} (ne : h ≠ g) (f : Segment → Segment) : (s.updSeg g f).seg h = s.seg h := by
  simp [State.seg_updSeg, ne]

theorem State.seg_updSup (g h : Seg) (f : Supervisor → Supervisor) :
    (s.updSup g f).seg h = if h = g then { s.seg g with sup := f (s.seg g).sup } else s.seg h := s.seg_updSeg g h _

@[simp] theorem State.updSup_sup (g : Seg) (f : Supervisor → Supervisor) : ((s.updSup g f).seg g).sup = f (s.seg g).sup := by
  simp [State.seg_updSup]

@[simp] theorem State.updSup_seg_config (g h : Seg) (f : Supervisor → Supervisor) :
    ((s.updSup g f).seg h).config = (s.seg h).config := by
  rw [State.seg_updSup]; split <;> simp_all

@[simp] theorem State.updSup_seg_gov (g h : Seg) (f : Supervisor → Supervisor) :
    ((s.updSup g f).seg h).gov = (s.seg h).gov := by
  rw [State.seg_updSup]; split <;> simp_all

@[simp] theorem State.updSup_seg_line (g h : Seg) (f : Supervisor → Supervisor) :
    ((s.updSup g f).seg h).line = (s.seg h).line := by
  rw [State.seg_updSup]; split <;> simp_all

@[simp] theorem State.updSup_seg_tracker (g h : Seg) (f : Supervisor → Supervisor) :
    ((s.updSup g f).seg h).tracker = (s.seg h).tracker := by
  rw [State.seg_updSup]; split <;> simp_all

@[simp] theorem State.updSup_seg_entries (g h : Seg) (f : Supervisor → Supervisor) :
    ((s.updSup g f).seg h).entries = (s.seg h).entries := by
  rw [State.seg_updSup]; split <;> simp_all

@[simp] theorem State.updSup_seg_slots (g h : Seg) (f : Supervisor → Supervisor) :
    ((s.updSup g f).seg h).slots = (s.seg h).slots := by
  rw [State.seg_updSup]; split <;> simp_all

@[simp] theorem State.updSup_seg_counters (g h : Seg) (f : Supervisor → Supervisor) :
    ((s.updSup g f).seg h).counters = (s.seg h).counters := by
  rw [State.seg_updSup]; split <;> simp_all

@[simp] theorem State.updSup_seg_trip (g h : Seg) (f : Supervisor → Supervisor) :
    ((s.updSup g f).seg h).trip = (s.seg h).trip := by
  rw [State.seg_updSup]; split <;> simp_all

theorem State.seg_updGov (g h : Seg) (f : Governor → Governor) :
    (s.updGov g f).seg h = if h = g then { s.seg g with gov := f (s.seg g).gov } else s.seg h := s.seg_updSeg g h _

@[simp] theorem State.updGov_gov (g : Seg) (f : Governor → Governor) : ((s.updGov g f).seg g).gov = f (s.seg g).gov := by
  simp [State.seg_updGov]

@[simp] theorem State.updGov_seg_config (g h : Seg) (f : Governor → Governor) :
    ((s.updGov g f).seg h).config = (s.seg h).config := by
  rw [State.seg_updGov]; split <;> simp_all

@[simp] theorem State.updGov_seg_sup (g h : Seg) (f : Governor → Governor) :
    ((s.updGov g f).seg h).sup = (s.seg h).sup := by
  rw [State.seg_updGov]; split <;> simp_all

@[simp] theorem State.updGov_seg_line (g h : Seg) (f : Governor → Governor) :
    ((s.updGov g f).seg h).line = (s.seg h).line := by
  rw [State.seg_updGov]; split <;> simp_all

@[simp] theorem State.updGov_seg_tracker (g h : Seg) (f : Governor → Governor) :
    ((s.updGov g f).seg h).tracker = (s.seg h).tracker := by
  rw [State.seg_updGov]; split <;> simp_all

@[simp] theorem State.updGov_seg_entries (g h : Seg) (f : Governor → Governor) :
    ((s.updGov g f).seg h).entries = (s.seg h).entries := by
  rw [State.seg_updGov]; split <;> simp_all

@[simp] theorem State.updGov_seg_slots (g h : Seg) (f : Governor → Governor) :
    ((s.updGov g f).seg h).slots = (s.seg h).slots := by
  rw [State.seg_updGov]; split <;> simp_all

@[simp] theorem State.updGov_seg_counters (g h : Seg) (f : Governor → Governor) :
    ((s.updGov g f).seg h).counters = (s.seg h).counters := by
  rw [State.seg_updGov]; split <;> simp_all

@[simp] theorem State.updGov_seg_trip (g h : Seg) (f : Governor → Governor) :
    ((s.updGov g f).seg h).trip = (s.seg h).trip := by
  rw [State.seg_updGov]; split <;> simp_all

theorem State.seg_updLine (g h : Seg) (f : LineCtl → LineCtl) :
    (s.updLine g f).seg h = if h = g then { s.seg g with line := f (s.seg g).line } else s.seg h := s.seg_updSeg g h _

@[simp] theorem State.updLine_line (g : Seg) (f : LineCtl → LineCtl) : ((s.updLine g f).seg g).line = f (s.seg g).line := by
  simp [State.seg_updLine]

@[simp] theorem State.updLine_seg_config (g h : Seg) (f : LineCtl → LineCtl) :
    ((s.updLine g f).seg h).config = (s.seg h).config := by
  rw [State.seg_updLine]; split <;> simp_all

@[simp] theorem State.updLine_seg_sup (g h : Seg) (f : LineCtl → LineCtl) :
    ((s.updLine g f).seg h).sup = (s.seg h).sup := by
  rw [State.seg_updLine]; split <;> simp_all

@[simp] theorem State.updLine_seg_gov (g h : Seg) (f : LineCtl → LineCtl) :
    ((s.updLine g f).seg h).gov = (s.seg h).gov := by
  rw [State.seg_updLine]; split <;> simp_all

@[simp] theorem State.updLine_seg_tracker (g h : Seg) (f : LineCtl → LineCtl) :
    ((s.updLine g f).seg h).tracker = (s.seg h).tracker := by
  rw [State.seg_updLine]; split <;> simp_all

@[simp] theorem State.updLine_seg_entries (g h : Seg) (f : LineCtl → LineCtl) :
    ((s.updLine g f).seg h).entries = (s.seg h).entries := by
  rw [State.seg_updLine]; split <;> simp_all

@[simp] theorem State.updLine_seg_slots (g h : Seg) (f : LineCtl → LineCtl) :
    ((s.updLine g f).seg h).slots = (s.seg h).slots := by
  rw [State.seg_updLine]; split <;> simp_all

@[simp] theorem State.updLine_seg_counters (g h : Seg) (f : LineCtl → LineCtl) :
    ((s.updLine g f).seg h).counters = (s.seg h).counters := by
  rw [State.seg_updLine]; split <;> simp_all

@[simp] theorem State.updLine_seg_trip (g h : Seg) (f : LineCtl → LineCtl) :
    ((s.updLine g f).seg h).trip = (s.seg h).trip := by
  rw [State.seg_updLine]; split <;> simp_all

theorem State.seg_updTracker (g h : Seg) (f : Tracker → Tracker) :
    (s.updTracker g f).seg h = if h = g then { s.seg g with tracker := f (s.seg g).tracker } else s.seg h := s.seg_updSeg g h _

@[simp] theorem State.updTracker_tracker (g : Seg) (f : Tracker → Tracker) : ((s.updTracker g f).seg g).tracker = f (s.seg g).tracker := by
  simp [State.seg_updTracker]

@[simp] theorem State.updTracker_seg_config (g h : Seg) (f : Tracker → Tracker) :
    ((s.updTracker g f).seg h).config = (s.seg h).config := by
  rw [State.seg_updTracker]; split <;> simp_all

@[simp] theorem State.updTracker_seg_sup (g h : Seg) (f : Tracker → Tracker) :
    ((s.updTracker g f).seg h).sup = (s.seg h).sup := by
  rw [State.seg_updTracker]; split <;> simp_all

@[simp] theorem State.updTracker_seg_gov (g h : Seg) (f : Tracker → Tracker) :
    ((s.updTracker g f).seg h).gov = (s.seg h).gov := by
  rw [State.seg_updTracker]; split <;> simp_all

@[simp] theorem State.updTracker_seg_line (g h : Seg) (f : Tracker → Tracker) :
    ((s.updTracker g f).seg h).line = (s.seg h).line := by
  rw [State.seg_updTracker]; split <;> simp_all

@[simp] theorem State.updTracker_seg_entries (g h : Seg) (f : Tracker → Tracker) :
    ((s.updTracker g f).seg h).entries = (s.seg h).entries := by
  rw [State.seg_updTracker]; split <;> simp_all

@[simp] theorem State.updTracker_seg_slots (g h : Seg) (f : Tracker → Tracker) :
    ((s.updTracker g f).seg h).slots = (s.seg h).slots := by
  rw [State.seg_updTracker]; split <;> simp_all

@[simp] theorem State.updTracker_seg_counters (g h : Seg) (f : Tracker → Tracker) :
    ((s.updTracker g f).seg h).counters = (s.seg h).counters := by
  rw [State.seg_updTracker]; split <;> simp_all

@[simp] theorem State.updTracker_seg_trip (g h : Seg) (f : Tracker → Tracker) :
    ((s.updTracker g f).seg h).trip = (s.seg h).trip := by
  rw [State.seg_updTracker]; split <;> simp_all

theorem State.seg_count (g h : Seg) (f : SegCounters → SegCounters) :
    (s.count g f).seg h = if h = g then { s.seg g with counters := f (s.seg g).counters } else s.seg h := s.seg_updSeg g h _

@[simp] theorem State.count_counters (g : Seg) (f : SegCounters → SegCounters) : ((s.count g f).seg g).counters = f (s.seg g).counters := by
  simp [State.seg_count]

@[simp] theorem State.count_seg_config (g h : Seg) (f : SegCounters → SegCounters) :
    ((s.count g f).seg h).config = (s.seg h).config := by
  rw [State.seg_count]; split <;> simp_all

@[simp] theorem State.count_seg_sup (g h : Seg) (f : SegCounters → SegCounters) :
    ((s.count g f).seg h).sup = (s.seg h).sup := by
  rw [State.seg_count]; split <;> simp_all

@[simp] theorem State.count_seg_gov (g h : Seg) (f : SegCounters → SegCounters) :
    ((s.count g f).seg h).gov = (s.seg h).gov := by
  rw [State.seg_count]; split <;> simp_all

@[simp] theorem State.count_seg_line (g h : Seg) (f : SegCounters → SegCounters) :
    ((s.count g f).seg h).line = (s.seg h).line := by
  rw [State.seg_count]; split <;> simp_all

@[simp] theorem State.count_seg_tracker (g h : Seg) (f : SegCounters → SegCounters) :
    ((s.count g f).seg h).tracker = (s.seg h).tracker := by
  rw [State.seg_count]; split <;> simp_all

@[simp] theorem State.count_seg_entries (g h : Seg) (f : SegCounters → SegCounters) :
    ((s.count g f).seg h).entries = (s.seg h).entries := by
  rw [State.seg_count]; split <;> simp_all

@[simp] theorem State.count_seg_slots (g h : Seg) (f : SegCounters → SegCounters) :
    ((s.count g f).seg h).slots = (s.seg h).slots := by
  rw [State.seg_count]; split <;> simp_all

@[simp] theorem State.count_seg_trip (g h : Seg) (f : SegCounters → SegCounters) :
    ((s.count g f).seg h).trip = (s.seg h).trip := by
  rw [State.seg_count]; split <;> simp_all

theorem State.seg_updEntry (r : SlotRef) (h : Seg) (f : Entry → Entry) :
    (s.updEntry r f).seg h =
      if h = r.seg then { s.seg r.seg with entries := (s.seg r.seg).entries.set r.ix (f (s.seg r.seg).entries[r.ix]) }
      else s.seg h := s.seg_updSeg r.seg h _

@[simp] theorem State.updEntry_seg_config (r : SlotRef) (h : Seg) (f : Entry → Entry) :
    ((s.updEntry r f).seg h).config = (s.seg h).config := by
  rw [State.seg_updEntry]; split <;> simp_all

@[simp] theorem State.updEntry_seg_sup (r : SlotRef) (h : Seg) (f : Entry → Entry) :
    ((s.updEntry r f).seg h).sup = (s.seg h).sup := by
  rw [State.seg_updEntry]; split <;> simp_all

@[simp] theorem State.updEntry_seg_gov (r : SlotRef) (h : Seg) (f : Entry → Entry) :
    ((s.updEntry r f).seg h).gov = (s.seg h).gov := by
  rw [State.seg_updEntry]; split <;> simp_all

@[simp] theorem State.updEntry_seg_line (r : SlotRef) (h : Seg) (f : Entry → Entry) :
    ((s.updEntry r f).seg h).line = (s.seg h).line := by
  rw [State.seg_updEntry]; split <;> simp_all

@[simp] theorem State.updEntry_seg_tracker (r : SlotRef) (h : Seg) (f : Entry → Entry) :
    ((s.updEntry r f).seg h).tracker = (s.seg h).tracker := by
  rw [State.seg_updEntry]; split <;> simp_all

@[simp] theorem State.updEntry_seg_slots (r : SlotRef) (h : Seg) (f : Entry → Entry) :
    ((s.updEntry r f).seg h).slots = (s.seg h).slots := by
  rw [State.seg_updEntry]; split <;> simp_all

@[simp] theorem State.updEntry_seg_counters (r : SlotRef) (h : Seg) (f : Entry → Entry) :
    ((s.updEntry r f).seg h).counters = (s.seg h).counters := by
  rw [State.seg_updEntry]; split <;> simp_all

@[simp] theorem State.updEntry_seg_trip (r : SlotRef) (h : Seg) (f : Entry → Entry) :
    ((s.updEntry r f).seg h).trip = (s.seg h).trip := by
  rw [State.seg_updEntry]; split <;> simp_all

theorem State.seg_updSlot (r : SlotRef) (h : Seg) (f : Slot → Slot) :
    (s.updSlot r f).seg h =
      if h = r.seg then { s.seg r.seg with slots := (s.seg r.seg).slots.set r.ix (f (s.seg r.seg).slots[r.ix]) }
      else s.seg h := s.seg_updSeg r.seg h _

@[simp] theorem State.updSlot_seg_config (r : SlotRef) (h : Seg) (f : Slot → Slot) :
    ((s.updSlot r f).seg h).config = (s.seg h).config := by
  rw [State.seg_updSlot]; split <;> simp_all

@[simp] theorem State.updSlot_seg_sup (r : SlotRef) (h : Seg) (f : Slot → Slot) :
    ((s.updSlot r f).seg h).sup = (s.seg h).sup := by
  rw [State.seg_updSlot]; split <;> simp_all

@[simp] theorem State.updSlot_seg_gov (r : SlotRef) (h : Seg) (f : Slot → Slot) :
    ((s.updSlot r f).seg h).gov = (s.seg h).gov := by
  rw [State.seg_updSlot]; split <;> simp_all

@[simp] theorem State.updSlot_seg_line (r : SlotRef) (h : Seg) (f : Slot → Slot) :
    ((s.updSlot r f).seg h).line = (s.seg h).line := by
  rw [State.seg_updSlot]; split <;> simp_all

@[simp] theorem State.updSlot_seg_tracker (r : SlotRef) (h : Seg) (f : Slot → Slot) :
    ((s.updSlot r f).seg h).tracker = (s.seg h).tracker := by
  rw [State.seg_updSlot]; split <;> simp_all

@[simp] theorem State.updSlot_seg_entries (r : SlotRef) (h : Seg) (f : Slot → Slot) :
    ((s.updSlot r f).seg h).entries = (s.seg h).entries := by
  rw [State.seg_updSlot]; split <;> simp_all

@[simp] theorem State.updSlot_seg_counters (r : SlotRef) (h : Seg) (f : Slot → Slot) :
    ((s.updSlot r f).seg h).counters = (s.seg h).counters := by
  rw [State.seg_updSlot]; split <;> simp_all

@[simp] theorem State.updSlot_seg_trip (r : SlotRef) (h : Seg) (f : Slot → Slot) :
    ((s.updSlot r f).seg h).trip = (s.seg h).trip := by
  rw [State.seg_updSlot]; split <;> simp_all

/-- Reading one entry after changing one. -/
theorem State.entry_updEntry (r q : SlotRef) (f : Entry → Entry) :
    (s.updEntry r f).entry q = if q = r then f (s.entry r) else s.entry q := by
  obtain ⟨rg, rx⟩ := r
  obtain ⟨qg, qx⟩ := q
  simp only [State.entry, State.seg_updEntry, SlotRef.mk.injEq]
  by_cases e : qg = rg
  · subst e
    by_cases e2 : qx = rx
    · subst e2; simp
    · have e3 : (rx : Nat) ≠ (qx : Nat) := fun k => e2 (Fin.ext k.symm)
      simp [e2, Vector.getElem_set_ne _ _ e3]
  · simp [e]

/-- Reading one slot after changing one. -/
theorem State.slot_updSlot (r q : SlotRef) (f : Slot → Slot) :
    (s.updSlot r f).slot q = if q = r then f (s.slot r) else s.slot q := by
  obtain ⟨rg, rx⟩ := r
  obtain ⟨qg, qx⟩ := q
  simp only [State.slot, State.seg_updSlot, SlotRef.mk.injEq]
  by_cases e : qg = rg
  · subst e
    by_cases e2 : qx = rx
    · subst e2; simp
    · have e3 : (rx : Nat) ≠ (qx : Nat) := fun k => e2 (Fin.ext k.symm)
      simp [e2, Vector.getElem_set_ne _ _ e3]
  · simp [e]

/-! ### Notices and replies: queueing a notice touches the host link alone -/

@[simp] theorem State.notifyHeld_pickers (h : Option Nat) (b : NoticeBody) : (s.notifyHeld h b).pickers = s.pickers := by
  simp only [State.notifyHeld]; split <;> rfl

@[simp] theorem State.notifyHeld_tasks (h : Option Nat) (b : NoticeBody) : (s.notifyHeld h b).tasks = s.tasks := by
  simp only [State.notifyHeld]; split <;> rfl

@[simp] theorem State.notifyHeld_submitCounter (h : Option Nat) (b : NoticeBody) : (s.notifyHeld h b).submitCounter = s.submitCounter := by
  simp only [State.notifyHeld]; split <;> rfl

@[simp] theorem State.notifyHeld_captures (h : Option Nat) (b : NoticeBody) : (s.notifyHeld h b).captures = s.captures := by
  simp only [State.notifyHeld]; split <;> rfl

@[simp] theorem State.notifyHeld_currents (h : Option Nat) (b : NoticeBody) : (s.notifyHeld h b).currents = s.currents := by
  simp only [State.notifyHeld]; split <;> rfl

@[simp] theorem State.notifyHeld_segs (h : Option Nat) (b : NoticeBody) : (s.notifyHeld h b).segs = s.segs := by
  simp only [State.notifyHeld]; split <;> rfl

@[simp] theorem State.notifyHeld_time (h : Option Nat) (b : NoticeBody) : (s.notifyHeld h b).time = s.time := by
  simp only [State.notifyHeld]; split <;> rfl

@[simp] theorem State.notifyHeld_phase (h : Option Nat) (b : NoticeBody) : (s.notifyHeld h b).phase = s.phase := by
  simp only [State.notifyHeld]; split <;> rfl

@[simp] theorem State.notifyHeld_phaseMs (h : Option Nat) (b : NoticeBody) : (s.notifyHeld h b).phaseMs = s.phaseMs := by
  simp only [State.notifyHeld]; split <;> rfl

@[simp] theorem State.notifyHeld_modules (h : Option Nat) (b : NoticeBody) : (s.notifyHeld h b).modules = s.modules := by
  simp only [State.notifyHeld]; split <;> rfl

@[simp] theorem State.notifyHeld_ties (h : Option Nat) (b : NoticeBody) : (s.notifyHeld h b).ties = s.ties := by
  simp only [State.notifyHeld]; split <;> rfl

@[simp] theorem State.notifyHeld_pending (h : Option Nat) (b : NoticeBody) : (s.notifyHeld h b).pending = s.pending := by
  simp only [State.notifyHeld]; split <;> rfl

@[simp] theorem State.notify_pickers (b : NoticeBody) : (s.notify b).pickers = s.pickers := s.notifyHeld_pickers _ b

@[simp] theorem State.notify_tasks (b : NoticeBody) : (s.notify b).tasks = s.tasks := s.notifyHeld_tasks _ b

@[simp] theorem State.notify_submitCounter (b : NoticeBody) : (s.notify b).submitCounter = s.submitCounter := s.notifyHeld_submitCounter _ b

@[simp] theorem State.notify_captures (b : NoticeBody) : (s.notify b).captures = s.captures := s.notifyHeld_captures _ b

@[simp] theorem State.notify_currents (b : NoticeBody) : (s.notify b).currents = s.currents := s.notifyHeld_currents _ b

@[simp] theorem State.notify_segs (b : NoticeBody) : (s.notify b).segs = s.segs := s.notifyHeld_segs _ b

@[simp] theorem State.notify_time (b : NoticeBody) : (s.notify b).time = s.time := s.notifyHeld_time _ b

@[simp] theorem State.notify_phase (b : NoticeBody) : (s.notify b).phase = s.phase := s.notifyHeld_phase _ b

@[simp] theorem State.notify_phaseMs (b : NoticeBody) : (s.notify b).phaseMs = s.phaseMs := s.notifyHeld_phaseMs _ b

@[simp] theorem State.notify_modules (b : NoticeBody) : (s.notify b).modules = s.modules := s.notifyHeld_modules _ b

@[simp] theorem State.notify_ties (b : NoticeBody) : (s.notify b).ties = s.ties := s.notifyHeld_ties _ b

@[simp] theorem State.notify_pending (b : NoticeBody) : (s.notify b).pending = s.pending := s.notifyHeld_pending _ b

@[simp] theorem State.notifyDone_pickers (n : Nat) (b : NoticeBody) : (s.notifyDone n b).pickers = s.pickers := s.notifyHeld_pickers _ b

@[simp] theorem State.notifyDone_tasks (n : Nat) (b : NoticeBody) : (s.notifyDone n b).tasks = s.tasks := s.notifyHeld_tasks _ b

@[simp] theorem State.notifyDone_submitCounter (n : Nat) (b : NoticeBody) : (s.notifyDone n b).submitCounter = s.submitCounter := s.notifyHeld_submitCounter _ b

@[simp] theorem State.notifyDone_captures (n : Nat) (b : NoticeBody) : (s.notifyDone n b).captures = s.captures := s.notifyHeld_captures _ b

@[simp] theorem State.notifyDone_currents (n : Nat) (b : NoticeBody) : (s.notifyDone n b).currents = s.currents := s.notifyHeld_currents _ b

@[simp] theorem State.notifyDone_segs (n : Nat) (b : NoticeBody) : (s.notifyDone n b).segs = s.segs := s.notifyHeld_segs _ b

@[simp] theorem State.notifyDone_time (n : Nat) (b : NoticeBody) : (s.notifyDone n b).time = s.time := s.notifyHeld_time _ b

@[simp] theorem State.notifyDone_phase (n : Nat) (b : NoticeBody) : (s.notifyDone n b).phase = s.phase := s.notifyHeld_phase _ b

@[simp] theorem State.notifyDone_phaseMs (n : Nat) (b : NoticeBody) : (s.notifyDone n b).phaseMs = s.phaseMs := s.notifyHeld_phaseMs _ b

@[simp] theorem State.notifyDone_modules (n : Nat) (b : NoticeBody) : (s.notifyDone n b).modules = s.modules := s.notifyHeld_modules _ b

@[simp] theorem State.notifyDone_ties (n : Nat) (b : NoticeBody) : (s.notifyDone n b).ties = s.ties := s.notifyHeld_ties _ b

@[simp] theorem State.notifyDone_pending (n : Nat) (b : NoticeBody) : (s.notifyDone n b).pending = s.pending := s.notifyHeld_pending _ b

end Sys2Proof.Machine
end

