-- ==== Sys2Proof/Laws/Kept.lean ====
section
/-! SUPPORT. What the part's own blocks leave as it is: one lemma for each shared operation says that it leaves all of
`State.kept`. -/

namespace Sys2Proof.Machine

/-- What the part's own blocks keep: what they leave untouched, and two facts about the notices they queue. -/
structure Kept where
  untouched : Untouched
  /-- the notice queue holds at most 32 notices (R177) -/
  bounded : Bool
  /-- while a request is being taken every queued notice waits for its reply (R178) -/
  mine : Bool

def State.kept (s : State) : Kept :=
  { untouched := s.untouched, bounded := s.link.notices.length.ble Config.noticeQueueSize
    mine := s.link.taking.isNone || s.link.notices.all fun n => n.heldBy = s.link.taking }

theorem untouched_of_kept {s t : State} (h : s.kept = t.kept) : s.untouched = t.untouched := congrArg Kept.untouched h

/-! ### The primitive updates -/

theorem kept_updSeg (s : State) (g : Seg) (f : Segment → Segment) (hc : ∀ x, (f x).config = x.config)
    (ht : ∀ x, (f x).trip = x.trip) : (s.updSeg g f).kept = s.kept := by
  have e1 : (s.updSeg g f).segs.map Segment.config = s.segs.map Segment.config := by
    apply Vector.ext
    intro i hi
    simp only [State.updSeg, Vector.getElem_map, Vector.getElem_set]
    split
    · next h => subst h; simp [hc]
    · rfl
  have e2 : (s.updSeg g f).segs.map Segment.trip = s.segs.map Segment.trip := by
    apply Vector.ext
    intro i hi
    simp only [State.updSeg, Vector.getElem_map, Vector.getElem_set]
    split
    · next h => subst h; simp [ht]
    · rfl
  simp only [State.kept, State.untouched, e1, e2, State.updSeg_link, State.updSeg_pickers, State.updSeg_tasks,
    State.updSeg_submitCounter, State.updSeg_currents, State.updSeg_time, State.updSeg_phase, State.updSeg_phaseMs,
    State.updSeg_modules, State.updSeg_ties, State.updSeg_pending]
  rfl

@[simp] theorem kept_updSup (s : State) (g : Seg) (f : Supervisor → Supervisor) : (s.updSup g f).kept = s.kept :=
  kept_updSeg s g _ (fun _ => rfl) (fun _ => rfl)

@[simp] theorem kept_updGov (s : State) (g : Seg) (f : Governor → Governor) : (s.updGov g f).kept = s.kept :=
  kept_updSeg s g _ (fun _ => rfl) (fun _ => rfl)

@[simp] theorem kept_updLine (s : State) (g : Seg) (f : LineCtl → LineCtl) : (s.updLine g f).kept = s.kept :=
  kept_updSeg s g _ (fun _ => rfl) (fun _ => rfl)

@[simp] theorem kept_updTracker (s : State) (g : Seg) (f : Tracker → Tracker) : (s.updTracker g f).kept = s.kept :=
  kept_updSeg s g _ (fun _ => rfl) (fun _ => rfl)

@[simp] theorem kept_count (s : State) (g : Seg) (f : SegCounters → SegCounters) : (s.count g f).kept = s.kept :=
  kept_updSeg s g _ (fun _ => rfl) (fun _ => rfl)

@[simp] theorem kept_updEntry (s : State) (r : SlotRef) (f : Entry → Entry) : (s.updEntry r f).kept = s.kept :=
  kept_updSeg s r.seg _ (fun _ => rfl) (fun _ => rfl)

@[simp] theorem kept_updSlot (s : State) (r : SlotRef) (f : Slot → Slot) : (s.updSlot r f).kept = s.kept :=
  kept_updSeg s r.seg _ (fun _ => rfl) (fun _ => rfl)

@[simp] theorem kept_updShadow (s : State) (r : SlotRef) (f : Shadow → Shadow) : (s.updShadow r f).kept = s.kept :=
  kept_updSlot s r _

@[simp] theorem kept_updPress (s : State) (r : SlotRef) (f : Press → Press) : (s.updPress r f).kept = s.kept :=
  kept_updEntry s r _

theorem kept_updTask (s : State) (id : TaskId) (f : Task → Task) (h : ∀ t, (f t).fixed = t.fixed) :
    (s.updTask id f).kept = s.kept := by
  have e : (s.updTask id f).tasks.map Task.fixed = s.tasks.map Task.fixed := by
    simp only [State.updTask_tasks, List.map_map]
    apply List.map_congr_left
    intro t _
    simp only [Function.comp]
    split
    · exact h t
    · rfl
  simp only [State.kept, State.untouched, e]
  rfl

theorem kept_notifyHeld {s : State} {holder : Option Nat} (h : s.link.taking ≠ none → holder = s.link.taking)
    (b : NoticeBody) : (s.notifyHeld holder b).kept = s.kept := by
  unfold State.notifyHeld
  simp only []
  split
  · next hr =>
    have e : (s.link.notices.length + 1).ble Config.noticeQueueSize = s.link.notices.length.ble Config.noticeQueueSize := by
      rw [Nat.ble_eq_true_of_le hr, Nat.ble_eq_true_of_le (Nat.le_of_lt hr)]
    rcases ht : s.link.taking with _ | id
    · simp [State.kept, State.untouched, Link.quiet, e, ht]
    · simp [State.kept, State.untouched, Link.quiet, e, ht, h (by simp [ht])]
  · simp [State.kept, State.untouched, Link.quiet]

@[simp] theorem kept_notify (s : State) (b : NoticeBody) : (s.notify b).kept = s.kept := kept_notifyHeld (fun _ => rfl) b

@[simp] theorem kept_notifyDone (s : State) (n : Nat) (b : NoticeBody) : (s.notifyDone n b).kept = s.kept := by
  refine kept_notifyHeld (fun h => ?_) b
  rcases ht : s.link.taking with _ | id
  · exact absurd ht h
  · rfl

/-- A fold of steps that each leave what is kept leaves it too. -/
theorem kept_foldl {α : Type} (f : State → α → State) (h : ∀ s a, (f s a).kept = s.kept) (l : List α) (s : State) :
    (l.foldl f s).kept = s.kept := by
  induction l generalizing s with
  | nil => rfl
  | cons a l ih => rw [List.foldl_cons, ih, h]

/-! ### Display shadows and the display command queue -/

@[simp] theorem kept_mergeDisplay (s : State) (r : SlotRef) (k : DisplayKind) : (s.mergeDisplay r k).kept = s.kept := by
  simp [State.mergeDisplay]

@[simp] theorem kept_appendDisplay (s : State) (r : SlotRef) (k : DisplayKind) : (s.appendDisplay r k).kept = s.kept := by
  simp [State.appendDisplay]

@[simp] theorem kept_queueDisplay (s : State) (r : SlotRef) (k : DisplayKind) : (s.queueDisplay r k).kept = s.kept := by
  unfold State.queueDisplay; split <;> simp

@[simp] theorem kept_joinDisplay (s : State) (r : SlotRef) (k : DisplayKind) : (s.joinDisplay r k).kept = s.kept := by
  unfold State.joinDisplay; simp only []; split <;> simp

@[simp] theorem kept_handDisplay (s : State) (r : SlotRef) (k : DisplayKind) : (s.handDisplay r k).kept = s.kept := by
  unfold State.handDisplay; split <;> simp

@[simp] theorem kept_dropDisplay (s : State) (r : SlotRef) : (s.dropDisplay r).kept = s.kept := by
  simp [State.dropDisplay]

@[simp] theorem kept_darken (s : State) (r : SlotRef) : (s.darken r).kept = s.kept := by
  unfold State.darken; split <;> simp

@[simp] theorem kept_clearShadow (s : State) (r : SlotRef) : (s.clearShadow r).kept = s.kept := by
  unfold State.clearShadow; simp only []; repeat' split
  all_goals simp

@[simp] theorem kept_ownShadow (s : State) (r : SlotRef) (t : Task) (p : Picker) (rot : Fin 8) (l : Nat) :
    (s.ownShadow r t p rot l).kept = s.kept := by
  simp [State.ownShadow]

@[simp] theorem kept_stepShadow (s : State) (r : SlotRef) (t : Task) : (s.stepShadow r t).kept = s.kept := by
  simp [State.stepShadow]

@[simp] theorem kept_redigitShadow (s : State) (r : SlotRef) (q : Nat) : (s.redigitShadow r q).kept = s.kept := by
  simp [State.redigitShadow]

@[simp] theorem kept_restyleShadow (s : State) (r : SlotRef) (l : Nat) : (s.restyleShadow r l).kept = s.kept := by
  simp [State.restyleShadow]

/-! ### The load governor -/

@[simp] theorem kept_recompute (s : State) (g : Seg) : (s.recompute g).kept = s.kept := by simp [State.recompute]

@[simp] theorem kept_place (s : State) (r : SlotRef) (t : Task) (x : Stamp) : (s.place r t x).kept = s.kept := by
  simp [State.place]

@[simp] theorem kept_withdraw (s : State) (r : SlotRef) : (s.withdraw r).kept = s.kept := by simp [State.withdraw]

@[simp] theorem kept_unlight (s : State) (r : SlotRef) : (s.unlight r).kept = s.kept := by simp [State.unlight]

@[simp] theorem kept_relevel (s : State) (g : Seg) (f : LitEntry → Nat) : (s.relevel g f).kept = s.kept := by
  unfold State.relevel
  simp only []
  refine (kept_foldl (fun (acc : State) (e : LitEntry) => acc.restyleShadow ⟨g, e.ix⟩ (f e)) ?_ _ _).trans ?_
  · intro s e; exact kept_restyleShadow s ⟨g, e.ix⟩ (f e)
  · simp

@[simp] theorem kept_enterEconomy (s : State) (g : Seg) : (s.enterEconomy g).kept = s.kept := by
  simp [State.enterEconomy]

@[simp] theorem kept_exitCheck (s : State) (g : Seg) : (s.exitCheck g).kept = s.kept := by
  unfold State.exitCheck; split <;> simp

@[simp] theorem kept_admit (s : State) (g : Seg) (a : Admission) (t : Task) : (s.admitHead g a t).kept = s.kept := by
  refine (kept_updTask _ _ _ ?_).trans ?_
  · intro t; rfl
  · simp

@[simp] theorem kept_stopAtHead (s : State) (g : Seg) (a : Admission) : (s.stopAtHead g a).kept = s.kept := by
  unfold State.stopAtHead; split <;> simp

@[simp] theorem kept_attemptLoop (g : Seg) (n : Nat) (s : State) : (s.attemptLoop g n).kept = s.kept := by
  induction n generalizing s with
  | zero => rfl
  | succ n ih =>
    simp only [State.attemptLoop]
    repeat' split
    all_goals simp [ih]

@[simp] theorem kept_attempt (s : State) (g : Seg) : (s.attempt g).kept = s.kept := by simp [State.attempt]

@[simp] theorem kept_settle (s : State) (g : Seg) : (s.settle g).kept = s.kept := by simp [State.settle]

@[simp] theorem kept_shedOne (s : State) (g : Seg) : (s.shedOne g).kept = s.kept := by
  unfold State.shedOne
  split
  · rfl
  · next e _ =>
    simp only []
    rw [kept_count]
    have h : ((s.unlight ⟨g, e.ix⟩).updTask e.task fun t => { t with state := .waitLoad, timeLeft := 0 }).kept =
        s.kept := by
      refine (kept_updTask _ _ _ ?_).trans ?_
      · intro t; rfl
      · simp
    split <;> simpa using h

@[simp] theorem kept_shedLoop (g : Seg) (n : Nat) (s : State) : (s.shedLoop g n).kept = s.kept := by
  induction n generalizing s with
  | zero => rfl
  | succ n ih => simp only [State.shedLoop]; split <;> simp [ih]

@[simp] theorem kept_resolveExcess (s : State) (g : Seg) : (s.resolveExcess g).kept = s.kept := by
  unfold State.resolveExcess
  split
  · simp only []; split <;> simp
  · rfl

@[simp] theorem kept_loadChange (s : State) (g : Seg) : (s.loadChange g).kept = s.kept := by simp [State.loadChange]

@[simp] theorem kept_setBaseLoad (s : State) (g : Seg) : (s.setBaseLoad g).kept = s.kept :=
  kept_updSeg s g _ (fun _ => rfl) (fun _ => rfl)

@[simp] theorem kept_baseChange (s : State) (g : Seg) : (s.baseChange g).kept = s.kept := by simp [State.baseChange]

@[simp] theorem kept_withdrawAndSettle (s : State) (r : SlotRef) : (s.withdrawAndSettle r).kept = s.kept := by
  simp [State.withdrawAndSettle]

@[simp] theorem kept_release (s : State) (r : SlotRef) : (s.release r).kept = s.kept := by simp [State.release]

@[simp] theorem kept_placeAndSettle (s : State) (r : SlotRef) (t : Task) (x : Stamp) :
    (s.placeAndSettle r t x).kept = s.kept := by
  simp [State.placeAndSettle]

@[simp] theorem kept_reprioritise (s : State) (g : Seg) (p : Fin 12) (n : Nat) : (s.reprioritise g p n).kept = s.kept := by
  unfold State.reprioritise; simp only []; split <;> simp

@[simp] theorem kept_restGovernor (s : State) (g : Seg) : (s.restGovernor g).kept = s.kept := by
  unfold State.restGovernor; simp only []; split <;> simp

/-! ### The slot arbiter -/

@[simp] theorem kept_setCurrent (s : State) (r : SlotRef) (id : TaskId) (x : Option Stamp) :
    (s.setCurrent r id x).kept = s.kept := by
  simp [State.setCurrent]

@[simp] theorem kept_clearCurrent (s : State) (r : SlotRef) : (s.clearCurrent r).kept = s.kept := by
  simp [State.clearCurrent]

@[simp] theorem kept_setTaskState (s : State) (id : TaskId) (x : TaskState) : (s.setTaskState id x).kept = s.kept :=
  kept_updTask s id _ fun _ => rfl

@[simp] theorem kept_select (s : State) (r : SlotRef) : (s.select r).kept = s.kept := by
  unfold State.select; repeat' split
  all_goals simp

@[simp] theorem kept_selectAll (s : State) (rs : List SlotRef) : (s.selectAll rs).kept = s.kept :=
  kept_foldl _ (fun s r => kept_select s r) rs s

@[simp] theorem kept_blockTask (s : State) (r : SlotRef) (t : Task) (c : SlotCause) :
    (s.blockTask r t c).kept = s.kept := by
  simp only [State.blockTask, kept_notify, kept_darken]
  exact kept_updTask _ _ _ fun _ => rfl

@[simp] theorem kept_loseService (s : State) (r : SlotRef) (c : SlotCause) : (s.loseService r c).kept = s.kept := by
  unfold State.loseService; repeat' split
  all_goals simp

@[simp] theorem kept_loseServiceWithSegment (s : State) (r : SlotRef) : (s.loseServiceWithSegment r).kept = s.kept := by
  unfold State.loseServiceWithSegment; simp only []; repeat' split
  all_goals simp

@[simp] theorem kept_regainService (s : State) (r : SlotRef) : (s.regainService r).kept = s.kept := by
  unfold State.regainService; repeat' split
  all_goals simp

@[simp] theorem kept_reevaluate (s : State) (r : SlotRef) : (s.reevaluate r).kept = s.kept := by
  unfold State.reevaluate; simp only []; repeat' split
  all_goals simp

@[simp] theorem kept_leaveWaiting (s : State) (r : SlotRef) (id : TaskId) : (s.leaveWaiting r id).kept = s.kept := by
  simp [State.leaveWaiting]

@[simp] theorem kept_endEntry (s : State) (t : Task) (k : EndKind) (n : Nat) : (s.endEntry t k n).kept = s.kept := by
  exact kept_updTask _ _ _ fun _ => rfl

@[simp] theorem kept_endTask (s : State) (t : Task) (k : EndKind) (n : Nat) : (s.endTask t k n).kept = s.kept := by
  simp [State.endTask]

/-! ### The module directory -/

@[simp] theorem kept_rebind (s : State) (r : SlotRef) (f : Entry → Entry) : (s.rebind r f).kept = s.kept := by
  simp [State.rebind]

@[simp] theorem kept_emptyEntry (s : State) (r : SlotRef) : (s.emptyEntry r).kept = s.kept := by
  simp [State.emptyEntry]

@[simp] theorem kept_handService (s : State) (g : Seg) (c : ServiceCmd) : (s.handService g c).kept = s.kept := by
  simp [State.handService]

@[simp] theorem kept_handIdent (s : State) (r : SlotRef) : (s.handIdent r).kept = s.kept := by
  unfold State.handIdent; split <;> simp

@[simp] theorem kept_enterPresent (s : State) (r : SlotRef) : (s.enterPresent r).kept = s.kept := by
  simp [State.enterPresent]

@[simp] theorem kept_enterLost (s : State) (r : SlotRef) : (s.enterLost r).kept = s.kept := by simp [State.enterLost]

@[simp] theorem kept_failAcquiring (s : State) (r : SlotRef) : (s.failAcquiring r).kept = s.kept := by
  simp [State.failAcquiring]

@[simp] theorem kept_goodOutcome (s : State) (r : SlotRef) : (s.goodOutcome r).kept = s.kept := by
  unfold State.goodOutcome; simp only []; repeat' split
  all_goals simp

@[simp] theorem kept_missOutcome (s : State) (r : SlotRef) : (s.missOutcome r).kept = s.kept := by
  unfold State.missOutcome; simp only []; repeat' split
  all_goals simp

@[simp] theorem kept_takeOutcome (s : State) (r : SlotRef) (b : Bool) : (s.takeOutcome r b).kept = s.kept := by
  unfold State.takeOutcome; split <;> simp

@[simp] theorem kept_vacateEntry (s : State) (r : SlotRef) : (s.vacateEntry r).kept = s.kept := by
  unfold State.vacateEntry; split <;> simp

@[simp] theorem kept_vacate (s : State) (r : SlotRef) (x : Serial) : (s.vacate r x).kept = s.kept := by
  unfold State.vacate; simp only []; split <;> simp

@[simp] theorem kept_vacateOthers (s : State) (r : SlotRef) (x : Serial) : (s.vacateOthers r x).kept = s.kept := by
  unfold State.vacateOthers; split <;> simp

@[simp] theorem kept_compareSerial (s : State) (r : SlotRef) (x : Serial) : (s.compareSerial r x).kept = s.kept := by
  unfold State.compareSerial; simp only []; repeat' split
  all_goals simp

@[simp] theorem kept_identityCheck (s : State) (r : SlotRef) (x : Serial) : (s.identityCheck r x).kept = s.kept := by
  simp [State.identityCheck]

@[simp] theorem kept_updDiscovery (s : State) (g : Seg) (f : Discovery → Discovery) :
    (s.updDiscovery g f).kept = s.kept := by
  simp [State.updDiscovery]

@[simp] theorem kept_placeSerial (s : State) (g : Seg) (x : Serial) : (s.placeSerial g x).kept = s.kept := by
  unfold State.placeSerial; split <;> simp [State.countAssigned, State.countNoRoom, State.learn]

@[simp] theorem kept_handleSerial (s : State) (g : Seg) (x : Serial) : (s.handleSerial g x).kept = s.kept := by
  unfold State.handleSerial; repeat' split
  all_goals simp [State.countAssigned, State.countNoRoom]

@[simp] theorem kept_endDiscovery (s : State) (g : Seg) (x : OpResult) : (s.endDiscovery g x).kept = s.kept := by
  unfold State.endDiscovery; split <;> simp

@[simp] theorem kept_judgeRound (s : State) (g : Seg) (b : Bool) : (s.judgeRound g b).kept = s.kept := by
  unfold State.judgeRound; simp only []; repeat' split
  all_goals simp

/-! ### The reply alignment tracker -/

@[simp] theorem kept_track (s : State) (g : Seg) (d : Nat) : (s.track g d).kept = s.kept :=
  kept_updSeg s g _ (fun _ => rfl) (fun _ => rfl)

/-! ### The press interpreter -/

@[simp] theorem kept_setCaptures (s : State) (c : Vector (Option Capture) 16) : ({ s with captures := c } : State).kept = s.kept :=
  rfl

@[simp] theorem kept_freshStep (s : State) (r : SlotRef) (x : StatusReply) : (s.freshStep r x).kept = s.kept := by
  unfold State.freshStep; simp only []; split <;> simp

@[simp] theorem kept_lowerQuantity (s : State) (r : SlotRef) (t : Task) (n : Nat) : (s.lowerQuantity r t n).kept = s.kept := by
  unfold State.lowerQuantity; simp only []
  split
  · simp [State.countAtFloor]
  · simp only [kept_redigitShadow]
    refine (kept_updTask _ _ _ ?_).trans ?_
    · intro t; rfl
    · exact kept_count s r.seg _

@[simp] theorem kept_judgeAdjust (s : State) (r : SlotRef) (q : Nibble) (n : Nat) : (s.judgeAdjust r q n).kept = s.kept := by
  unfold State.judgeAdjust; split <;> simp [State.countStale]

@[simp] theorem kept_adjustStep (s : State) (r : SlotRef) (x : StatusReply) : (s.adjustStep r x).kept = s.kept := by
  unfold State.adjustStep; simp only []; split <;> simp

@[simp] theorem kept_claimCapture (s : State) (r : SlotRef) : (s.claimCapture r).kept = s.kept := by
  unfold State.claimCapture; repeat' split
  all_goals simp

@[simp] theorem kept_advanceStep (s : State) (r : SlotRef) (t : Task) : (s.advanceStep r t).kept = s.kept := by
  simp only [State.advanceStep, kept_stepShadow, kept_notify]
  exact kept_updTask _ _ _ fun _ => rfl

@[simp] theorem kept_acceptConfirm (s : State) (r : SlotRef) : (s.acceptConfirm r).kept = s.kept := by
  unfold State.acceptConfirm; simp only []; repeat' split
  all_goals simp

@[simp] theorem kept_judgeConfirm (s : State) (r : SlotRef) (q : Nibble) : (s.judgeConfirm r q).kept = s.kept := by
  unfold State.judgeConfirm; repeat' split
  all_goals simp [State.countChatter, State.countStale]

@[simp] theorem kept_confirmStep (s : State) (r : SlotRef) (x : StatusReply) : (s.confirmStep r x).kept = s.kept := by
  unfold State.confirmStep; simp only []; split <;> simp [State.countChatter]

@[simp] theorem kept_heldButton (s : State) (r : SlotRef) (b : Button) (x : Bool) : (s.heldButton r b x).kept = s.kept := by
  unfold State.heldButton; simp only []; split <;> simp

/-- R64: whatever a STATUS reply brings, what is kept is kept. -/
@[simp] theorem kept_takeStatus (s : State) (r : SlotRef) (x : StatusReply) : (s.takeStatus r x).kept = s.kept := by
  unfold State.takeStatus; simp only [State.heldStep, kept_heldButton]; split <;> simp

/-! ### The segment supervisor -/

@[simp] theorem kept_setSegState (s : State) (g : Seg) (x : SegState) (c : StateCause) : (s.setSegState g x c).kept = s.kept := by
  simp [State.setSegState]

@[simp] theorem kept_endHold (s : State) (g : Seg) (x : OpResult) : (s.endHold g x).kept = s.kept := by
  unfold State.endHold; split <;> simp

@[simp] theorem kept_endRaw (s : State) (g : Seg) (x : OpResult) (f : Figures) : (s.endRaw g x f).kept = s.kept := by
  unfold State.endRaw; split <;> simp

@[simp] theorem kept_dropPresence (s : State) (g : Seg) : (s.dropPresence g).kept = s.kept :=
  kept_updSeg s g _ (fun _ => rfl) (fun _ => rfl)

@[simp] theorem kept_leaveService (s : State) (g : Seg) (x : SegState) (f : Option FaultCause) (c : StateCause) :
    (s.leaveService g x f c).kept = s.kept := by
  unfold State.leaveService
  simp only [kept_restGovernor]
  rw [kept_foldl _ (fun s r => kept_loseServiceWithSegment s r)]
  simp [State.dropQueues, State.dropLine]

@[simp] theorem kept_enterFault (s : State) (g : Seg) (f : FaultCause) : (s.enterFault g f).kept = s.kept := by
  unfold State.enterFault; split <;> simp

@[simp] theorem kept_faultToOff (s : State) (g : Seg) : (s.faultToOff g).kept = s.kept := by simp [State.faultToOff]

@[simp] theorem kept_enterOff (s : State) (g : Seg) : (s.enterOff g).kept = s.kept := by
  unfold State.enterOff; split <;> simp

@[simp] theorem kept_enterHeld (s : State) (g : Seg) : (s.enterHeld g).kept = s.kept := by simp [State.enterHeld]

@[simp] theorem kept_releaseHold (s : State) (g : Seg) : (s.releaseHold g).kept = s.kept := by simp [State.releaseHold]

@[simp] theorem kept_enterRunning (s : State) (g : Seg) : (s.enterRunning g).kept = s.kept := by
  simp [State.enterRunning]

@[simp] theorem kept_beginQuiet (s : State) (g : Seg) : (s.beginQuiet g).kept = s.kept := by simp [State.beginQuiet]

@[simp] theorem kept_changeCondition (s : State) (g : Seg) (c : LineCondition) : (s.changeCondition g c).kept = s.kept := by
  unfold State.changeCondition; simp only []; split <;> simp

@[simp] theorem kept_observe (s : State) (g : Seg) (o : Observation) : (s.observe g o).kept = s.kept := by
  unfold State.observe; simp only []; repeat' split
  all_goals simp

/-! ### The scheduler -/

@[simp] theorem kept_begin (s : State) (g : Seg) (e : Exchange) : (s.begin g e).kept = s.kept := by simp [State.begin]

@[simp] theorem kept_beginDisplay (s : State) (g : Seg) : (s.beginDisplay g).kept = s.kept := by
  unfold State.beginDisplay; split <;> simp

@[simp] theorem kept_searchPoll (g : Seg) (l : List (Fin 62)) (s : State) : (s.searchPoll g l).kept = s.kept := by
  induction l generalizing s with
  | nil => simp [State.searchPoll, State.endPass]
  | cons ix l ih =>
    simp only [State.searchPoll]
    repeat' split
    all_goals simp [ih]

@[simp] theorem kept_takePoll (s : State) (g : Seg) : (s.takePoll g).kept = s.kept := by simp [State.takePoll]

@[simp] theorem kept_chooseTraffic (s : State) (g : Seg) : (s.chooseTraffic g).kept = s.kept := by
  unfold State.chooseTraffic; simp only []; repeat' split
  all_goals simp

@[simp] theorem kept_choosePass (s : State) (g : Seg) : (s.choosePass g).kept = s.kept := by
  unfold State.choosePass; repeat' split
  all_goals simp [State.beginPass]

@[simp] theorem kept_chooseLine (s : State) (g : Seg) : (s.chooseLine g).kept = s.kept := by
  unfold State.chooseLine; simp only []; split <;> simp

@[simp] theorem kept_chooseService (g : Seg) (n : Nat) (s : State) : (s.chooseService g n).kept = s.kept := by
  induction n generalizing s with
  | zero => simp [State.chooseService]
  | succ n ih =>
    simp only [State.chooseService]
    repeat' split
    all_goals simp [ih, State.popService]

@[simp] theorem kept_choose (s : State) (g : Seg) : (s.choose g).kept = s.kept := by
  unfold State.choose; split <;> simp

@[simp] theorem kept_startBreak (s : State) (g : Seg) : (s.startBreak g).kept = s.kept := by simp [State.startBreak]

@[simp] theorem kept_settleLine (s : State) (g : Seg) : (s.settleLine g).kept = s.kept := by
  unfold State.settleLine; repeat' split
  all_goals simp

/-- R137: the free lines' next choices leave what is kept. -/
@[simp] theorem kept_settleLines (s : State) : s.settleLines.kept = s.kept :=
  kept_foldl _ (fun s g => kept_settleLine s g) allSegs s

/-! ### The end of an exchange -/

@[simp] theorem kept_identityByteCheck (s : State) (r : SlotRef) (x : StatusReply) :
    (s.identityByteCheck r x).kept = s.kept := by
  unfold State.identityByteCheck; repeat' split
  all_goals simp

@[simp] theorem kept_resendCompare (s : State) (r : SlotRef) (q : Nibble) : (s.resendCompare r q).kept = s.kept := by
  unfold State.resendCompare; simp only []; split <;> simp

@[simp] theorem kept_handOn (s : State) (r : SlotRef) (k : LineKind) (c : ReplyClass) : (s.handOn r k c).kept = s.kept := by
  have h : ∀ u : State, (u.handReply r k c).kept = u.kept := by
    intro u
    cases c <;> simp only [State.handReply]
    repeat' split
    · rfl
    · simp [State.handSerial]
    · unfold State.handStatus
      split
      · simp
      · rfl
  unfold State.handOn
  split
  · simp only [h]; split <;> simp
  · exact h s

@[simp] theorem kept_settleExchange (s : State) (r : SlotRef) (k : LineKind) (b : Bool) :
    (s.settleExchange r k b).kept = s.kept := by
  unfold State.settleExchange
  repeat' split
  · rfl
  · unfold State.requeueDisplay; repeat' split
    all_goals simp
  · unfold State.retryIdent; split <;> simp
  · rfl

/-- R134 to R136: the conclusion of an addressed exchange leaves what is kept. -/
@[simp] theorem kept_concludeAddressed (s : State) (g : Seg) (e : Exchange) (ix : Fin 62) (c : ReplyClass)
    (a : List Pulse) : (s.concludeAddressed g e ix c a).kept = s.kept := by
  unfold State.concludeAddressed State.heldLine State.keepActive
  simp only []
  repeat' split
  all_goals simp

end Sys2Proof.Machine
end

