-- ==== Sys2Proof/Laws/Link.lean ====
section
/-! SUPPORT. The spec lemmas of the link and of a part at rest: what the free lines do when nothing is owed, and what a
request that reaches the decoder leaves. -/

namespace Sys2Proof.Machine

/-! ### Lines at rest -/

/-- A settled line has nothing to choose. -/
theorem settleLine_of_settled {s : State} {g : Seg} (h : LineSettled (s.seg g)) : s.settleLine g = s := by
  unfold State.settleLine
  split
  · next hi =>
    obtain ⟨h1, h2⟩ := h hi
    unfold State.segState at *
    split
    · next hr =>
      have hin : (s.seg g).line.inFlight = none := by
        simp only [LineCtl.idle, Bool.and_eq_true] at hi
        exact Option.isNone_iff_eq_none.mp hi.1
      by_cases hf : (s.seg g).line.activeMs = 0
      · obtain ⟨b, sy, sv, d, pe, ph, di⟩ := h1 hr hf
        simp [b, hf, State.choose, sy, sv, State.chooseService, State.chooseLine, State.chooseTraffic, d, pe,
          State.lineBusy, hin, State.choosePass, di, ph]
      · simp [Nat.pos_of_ne_zero hf]
    · next hh => exact absurd hh h2
    · rfl
    · rfl
    · rfl
    · rfl
  · rfl

/-- With every line settled, the free lines do nothing. -/
theorem settleLines_of_settled {s : State} (h : ∀ g, LineSettled (s.seg g)) : s.settleLines = s := by
  have : ∀ l : List Seg, l.foldl State.settleLine s = s := by
    intro l
    induction l with
    | nil => rfl
    | cons g l ih => rw [List.foldl_cons, settleLine_of_settled (h g), ih]
  exact this allSegs

/-! ### The transmitter at rest -/

/-- R178: a transmitter that is free and at rest has nothing to send. -/
theorem nothing_waits {l : Link} (h : l.kick = l) (hs : l.sending = none) : l.replies = [] ∧ l.notices = [] := by
  unfold Link.kick at h
  simp only [hs, Option.isSome_none, Bool.false_eq_true, if_false] at h
  have hw : l.noticeWaits = false := by
    by_contra hc
    simp only [Bool.not_eq_false] at hc
    split at h
    · unfold Link.sendReply at h
      split at h
      · simp_all
      · have := congrArg Link.sending h; simp [hs] at this
    · have := congrArg Link.sending h; simp [hs] at this
  have hr : l.replies = [] := by
    by_contra hc
    rw [if_pos ⟨hc, Or.inr (by simp [hw])⟩] at h
    unfold Link.sendReply at h
    split at h
    · simp_all
    · have := congrArg Link.sending h; simp [hs] at this
  refine ⟨hr, ?_⟩
  unfold Link.noticeWaits at hw
  split at hw
  · assumption
  · simp only [Link.held, Link.holdsReply, hr, hs] at hw
    repeat' split at hw
    all_goals simp at hw

/-! ### Taking a request -/

/-- A free transmitter would send the reply of the request being taken, and nothing before it. -/
structure ReplyNext (l : Link) : Prop where
  taking : l.taking = some l.nextId
  free : l.sending = none → l.replies = [] ∧ ∀ n ∈ l.notices, n.heldBy = some l.nextId

theorem replyNext_begun {s : State} (h : s.link.kick = s.link) : ReplyNext s.begun.link where
  taking := rfl
  free := by
    intro hs
    obtain ⟨h1, h2⟩ := nothing_waits h hs
    exact ⟨h1, by simp [State.begun, State.updLink, h2]⟩

theorem replyNext_notifyHeld {s : State} (h : ReplyNext s.link) {holder : Option Nat} (hh : holder = some s.link.nextId)
    (b : NoticeBody) : ReplyNext (s.notifyHeld holder b).link := by
  unfold State.notifyHeld
  simp only []
  split
  · refine ⟨h.taking, fun hs => ?_⟩
    obtain ⟨h1, h2⟩ := h.free hs
    refine ⟨h1, ?_⟩
    intro n hn
    rcases List.mem_append.mp hn with hn | hn
    · exact h2 n hn
    · simp only [List.mem_singleton] at hn
      subst hn
      exact hh
  · exact ⟨h.taking, h.free⟩

theorem replyNext_notify {s : State} (h : ReplyNext s.link) (b : NoticeBody) : ReplyNext (s.notify b).link :=
  replyNext_notifyHeld h h.taking b

theorem replyNext_notifyDone {s : State} (h : ReplyNext s.link) (n : Nat) (b : NoticeBody) :
    ReplyNext (s.notifyDone n b).link := replyNext_notifyHeld h (by rw [h.taking]; rfl) b

/-- R174, R178: the end of a taken request that no RESTART ends. -/
theorem endTaking_kick {u : State} {f : Request} {a : Answer} (h : ReplyNext u.link) (ha : a.after ≠ .restart) :
    (u.updLink fun l => l.endTaking f a).kick = u.replied f.kind f.tag (a.status.code :: a.data) a.after := by
  have : ∀ l : Link, ReplyNext l → (l.endTaking f a).kick =
      ({ l with nextId := l.nextId + 1, taking := none } : Link).withReply
        ⟨l.nextId, replyKind f.kind, f.tag, a.status.code :: a.data, a.after⟩ := by
    intro l h
    unfold Link.endTaking Link.kick Link.withReply Link.place
    simp only [ha, if_false]
    rcases hs : l.sending with _ | x
    · obtain ⟨h1, h2⟩ := h.free hs
      simp only [Option.isSome_none, Bool.false_eq_true, if_false, h1, List.nil_append]
      have hw : Link.noticeWaits
          { l with
            replies := [⟨l.nextId, replyKind f.kind, f.tag, a.status.code :: a.data, a.after⟩]
            nextId := l.nextId + 1, taking := none, sending := none } = false := by
        unfold Link.noticeWaits
        simp only []
        split
        · rfl
        · next n ns hn =>
          have := h2 n (by simp [hn])
          simp [Link.held, this, Link.holdsReply]
      simp [hw, Link.sendReply]
    · simp
  simp only [State.kick, State.updLink, State.replied, this u.link h]

/-- R175: a request that reaches the decoder. -/
theorem decode_reaches {s : State} {f : Request} (hr : Reaches s f) (rule : State → Answer) :
    s.decode f rule = ((rule s.begun).state.settleLines.updLink fun l => l.endTaking f (rule s.begun)).kick := by
  have key : (s.link.offer f).takes f = true ∧ (s.link.offer f).beginTaking = s.begun.link := by
    obtain ⟨h1, h2, h3⟩ := hr
    rcases h1 with h1 | ⟨h1, h4⟩
    · have hne : s.link.requests ≠ [] := by intro h; simp [h] at h1
      have ho : s.link.offer f = s.link := by simp [Link.offer, hne]
      rw [ho]
      refine ⟨by simp [Link.takes, h1, h2, h3], by simp [Link.beginTaking, State.begun, State.updLink, hne]⟩
    · have ho : s.link.offer f = { s.link with
          requests := [f], counters := { s.link.counters with framesReceived := s.link.counters.framesReceived + 1 } } := by
        simp [Link.offer, h1, h4, Link.acceptFrame, Config.requestListSize]
      rw [ho]
      refine ⟨by simp [Link.takes, h2, h3], by simp [Link.beginTaking, State.begun, State.updLink, h1]⟩
  unfold State.decode
  simp only [State.updLink_link, key.1, if_true, State.takeRequest]
  have : ((s.updLink fun l => l.offer f).updLink Link.beginTaking) = s.begun := by
    simp only [State.updLink, key.2, State.begun]
  rw [this]

/-- A request whose rule leaves the state `u` and the lines settled is answered, and nothing else follows. -/
theorem request_done {s : State} {kind : Byte} {tag : Tag} {payload : List Byte} {rule : State → Answer} {a : Answer}
    (hr : Reaches s ⟨kind, tag, payload⟩) (hp : payloadFits payload = true) (ha : rule s.begun = a)
    (hn : ReplyNext a.state.link) (hl : a.state.settleLines = a.state) (hx : a.after ≠ .restart) :
    request kind tag payload rule s = .next (a.state.replied kind tag (a.status.code :: a.data) a.after) := by
  unfold request done
  rw [if_pos hp, decode_reaches hr, ha, hl, endTaking_kick hn hx]

end Sys2Proof.Machine
end

