-- ==== Sys2Proof/Laws/PerInstr.lean ====
section
/-! SUPPORT. Facts about the commands as syntax, one lemma for each constructor of Instr. -/

namespace Sys2Proof.Laws

open Sys2Proof.Machine

/-- A payload that fits is counted exactly by the length byte of its frame (R172). -/
theorem length_byte {payload : List Byte} (h : payloadFits payload = true) :
    (byteOf (payload.length + 3)).toNat = payload.length + 3 := by
  have h : payload.length ≤ 249 := of_decide_eq_true h
  simp [byteOf]
  omega

/-- The length byte of the frame of a well-formed request counts its kind, tag and payload (R172). -/
def Fits.Statement (i : Instr) : Prop :=
  i.wf = true → ∀ f, requestOf i = some f → (byteOf (f.payload.length + 3)).toNat = f.payload.length + 3

/-- A row of the link whose well-formedness says that its payload fits. -/
theorem fits_of {i : Instr} {f : Request} (hf : requestOf i = some f) (hw : i.wf = true → payloadFits f.payload = true) :
    Fits.Statement i := by
  intro h g hg
  cases hf.symm.trans hg
  exact length_byte (hw h)

/-- An event carries no request. -/
theorem fits_none {i : Instr} (h : requestOf i = none) : Fits.Statement i := by
  intro _ f hf
  rw [h] at hf
  cases hf

theorem Fits.reset : Fits.Statement Instr.reset := fits_none rfl
theorem Fits.frameReceived (bytes : List Byte) : Fits.Statement (Instr.frameReceived bytes) := fits_none rfl
theorem Fits.frameTimedOut : Fits.Statement Instr.frameTimedOut := fits_none rfl
theorem Fits.frameSent : Fits.Statement Instr.frameSent := fits_none rfl
theorem Fits.unknownKindRequest (kind : Byte) (tag : Tag) (payload : List Byte) :
    Fits.Statement (Instr.unknownKindRequest kind tag payload) := fits_of rfl fun h => (Bool.and_eq_true_iff.mp h).1
theorem Fits.identify (tag : Tag) (payload : List Byte) :
    Fits.Statement (Instr.identify tag payload) := fits_of rfl id
theorem Fits.readTime (tag : Tag) (payload : List Byte) :
    Fits.Statement (Instr.readTime tag payload) := fits_of rfl id
theorem Fits.setLinkRate (tag : Tag) (payload : List Byte) :
    Fits.Statement (Instr.setLinkRate tag payload) := fits_of rfl id
theorem Fits.restart (tag : Tag) (payload : List Byte) : Fits.Statement (Instr.restart tag payload) := fits_of rfl id
theorem Fits.clearTasks (tag : Tag) (payload : List Byte) :
    Fits.Statement (Instr.clearTasks tag payload) := fits_of rfl id
theorem Fits.setPicker (tag : Tag) (payload : List Byte) :
    Fits.Statement (Instr.setPicker tag payload) := fits_of rfl id
theorem Fits.pausePicker (tag : Tag) (payload : List Byte) :
    Fits.Statement (Instr.pausePicker tag payload) := fits_of rfl id
theorem Fits.resumePicker (tag : Tag) (payload : List Byte) :
    Fits.Statement (Instr.resumePicker tag payload) := fits_of rfl id
theorem Fits.dropPicker (tag : Tag) (payload : List Byte) :
    Fits.Statement (Instr.dropPicker tag payload) := fits_of rfl id
theorem Fits.submit (tag : Tag) (payload : List Byte) : Fits.Statement (Instr.submit tag payload) := fits_of rfl id
theorem Fits.cancel (tag : Tag) (payload : List Byte) : Fits.Statement (Instr.cancel tag payload) := fits_of rfl id
theorem Fits.retire (tag : Tag) (payload : List Byte) : Fits.Statement (Instr.retire tag payload) := fits_of rfl id
theorem Fits.queryTask (tag : Tag) (payload : List Byte) :
    Fits.Statement (Instr.queryTask tag payload) := fits_of rfl id
theorem Fits.listTasks (tag : Tag) (payload : List Byte) :
    Fits.Statement (Instr.listTasks tag payload) := fits_of rfl id
theorem Fits.armCapture (tag : Tag) (payload : List Byte) :
    Fits.Statement (Instr.armCapture tag payload) := fits_of rfl id
theorem Fits.disarmCapture (tag : Tag) (payload : List Byte) :
    Fits.Statement (Instr.disarmCapture tag payload) := fits_of rfl id
theorem Fits.setSegment (tag : Tag) (payload : List Byte) :
    Fits.Statement (Instr.setSegment tag payload) := fits_of rfl id
theorem Fits.setColourCurrents (tag : Tag) (payload : List Byte) :
    Fits.Statement (Instr.setColourCurrents tag payload) := fits_of rfl id
theorem Fits.segmentPower (tag : Tag) (payload : List Byte) :
    Fits.Statement (Instr.segmentPower tag payload) := fits_of rfl id
theorem Fits.breakSegment (tag : Tag) (payload : List Byte) :
    Fits.Statement (Instr.breakSegment tag payload) := fits_of rfl id
theorem Fits.holdSegment (tag : Tag) (payload : List Byte) :
    Fits.Statement (Instr.holdSegment tag payload) := fits_of rfl id
theorem Fits.releaseSegment (tag : Tag) (payload : List Byte) :
    Fits.Statement (Instr.releaseSegment tag payload) := fits_of rfl id
theorem Fits.rawExchange (tag : Tag) (payload : List Byte) :
    Fits.Statement (Instr.rawExchange tag payload) := fits_of rfl id
theorem Fits.provisionSlot (tag : Tag) (payload : List Byte) :
    Fits.Statement (Instr.provisionSlot tag payload) := fits_of rfl id
theorem Fits.unprovisionSlot (tag : Tag) (payload : List Byte) :
    Fits.Statement (Instr.unprovisionSlot tag payload) := fits_of rfl id
theorem Fits.querySlot (tag : Tag) (payload : List Byte) :
    Fits.Statement (Instr.querySlot tag payload) := fits_of rfl id
theorem Fits.discover (tag : Tag) (payload : List Byte) :
    Fits.Statement (Instr.discover tag payload) := fits_of rfl id
theorem Fits.readStats (tag : Tag) (payload : List Byte) :
    Fits.Statement (Instr.readStats tag payload) := fits_of rfl id
theorem Fits.poll (seg : Seg) (heard : Heard) : Fits.Statement (Instr.poll seg heard) := fits_none rfl
theorem Fits.showDisplay (seg : Seg) (heard : Heard) : Fits.Statement (Instr.showDisplay seg heard) := fits_none rfl
theorem Fits.digits (seg : Seg) (heard : Heard) : Fits.Statement (Instr.digits seg heard) := fits_none rfl
theorem Fits.dark (seg : Seg) (heard : Heard) : Fits.Statement (Instr.dark seg heard) := fits_none rfl
theorem Fits.ident (seg : Seg) (heard : Heard) : Fits.Statement (Instr.ident seg heard) := fits_none rfl
theorem Fits.assign (seg : Seg) (heard : Heard) : Fits.Statement (Instr.assign seg heard) := fits_none rfl
theorem Fits.sync (seg : Seg) (taken : Bool) : Fits.Statement (Instr.sync seg taken) := fits_none rfl
theorem Fits.enumerate (seg : Seg) (round : Round) : Fits.Statement (Instr.enumerate seg round) := fits_none rfl
theorem Fits.rawExchangeEnd (seg : Seg) (heard : Heard) :
    Fits.Statement (Instr.rawExchangeEnd seg heard) := fits_none rfl
theorem Fits.breakEnd (seg : Seg) : Fits.Statement (Instr.breakEnd seg) := fits_none rfl
theorem Fits.settleEnd (seg : Seg) : Fits.Statement (Instr.settleEnd seg) := fits_none rfl
theorem Fits.quietEnd (seg : Seg) : Fits.Statement (Instr.quietEnd seg) := fits_none rfl
theorem Fits.lineSenseProbe (seg : Seg) (observation : Observation) :
    Fits.Statement (Instr.lineSenseProbe seg observation) := fits_none rfl
theorem Fits.supplyTrip (seg : Seg) : Fits.Statement (Instr.supplyTrip seg) := fits_none rfl
theorem Fits.taskExpiry (task : TaskId) : Fits.Statement (Instr.taskExpiry task) := fits_none rfl
theorem Fits.blinkPhaseAdvance : Fits.Statement Instr.blinkPhaseAdvance := fits_none rfl
theorem Fits.tripInputReturnToClear (seg : Seg) : Fits.Statement (Instr.tripInputReturnToClear seg) := fits_none rfl
theorem Fits.buttonPress (serial : Serial) (button : Button) :
    Fits.Statement (Instr.buttonPress serial button) := fits_none rfl
theorem Fits.buttonRelease (serial : Serial) (button : Button) :
    Fits.Statement (Instr.buttonRelease serial button) := fits_none rfl
theorem Fits.moduleReset (seg : Seg) (serial : Serial) (address : BitVec 6) (replaced : Option Serial) :
    Fits.Statement (Instr.moduleReset seg serial address replaced) := fits_none rfl

end Sys2Proof.Laws
end

