-- ==== Sys2Proof/Laws/Time.lean ====
section
/-! SUPPORT. The passing of time: it adds up, and a wait in which no other event of the clock falls due is time that
passes. -/

namespace Sys2Proof.Machine

/-! ### Time adds up -/

theorem stage_pass_add {total a b : Nat} (hb : 0 < b) (x : Stage) :
    (x.pass a total).pass b total = x.pass (a + b) total := by
  have h : ∀ m : Nat, (Stage.pass b total (if m ≤ a then .sent else .sending (m - a))) =
      if m ≤ a + b then .sent else .sending (m - (a + b)) := by
    intro m
    by_cases h : m ≤ a
    · rw [if_pos h, if_pos (by omega : m ≤ a + b)]; rfl
    · rw [if_neg h]
      simp only [Stage.pass]
      by_cases h2 : m ≤ a + b
      · rw [if_pos h2, if_pos (by omega)]
      · rw [if_neg h2, if_neg (by omega)]; congr 1; omega
  cases x with
  | gap => exact h total
  | sending left => exact h left
  | sent => rfl

theorem countSent_add {x : Stage} {a b total : Nat} (hb : 0 < b) (c : SegCounters) :
    countSent (x.pass a total) (x.pass (a + b) total) (countSent x (x.pass a total) c) =
      countSent x (x.pass (a + b) total) c := by
  unfold countSent
  by_cases h1 : x = .sent
  · subst h1; simp [Stage.pass]
  · by_cases h2 : x.pass a total = .sent
    · have h3 : x.pass (a + b) total = .sent := by rw [← stage_pass_add hb, h2]; rfl
      simp [h1, h2, h3]
    · simp [h1, h2]

theorem passExchange_add {a b : Nat} (hb : 0 < b) (x : Segment) :
    (x.passExchange a).passExchange b = x.passExchange (a + b) := by
  unfold Segment.passExchange
  cases h : x.line.inFlight with
  | none => simp [h]
  | some e => simp only [stage_pass_add hb, countSent_add hb]

theorem countSent_comm (x x' y y' : Stage) (c : SegCounters) :
    countSent x x' (countSent y y' c) = countSent y y' (countSent x x' c) := by
  unfold countSent
  split <;> split <;> rfl

/-- A stage that waits before it goes on: the waits and the times add up. -/
theorem stage_wait_add {a b : Nat} (hb : 0 < b) (wait total : Nat) (st : Stage) :
    (if b ≤ wait - a then (if a ≤ wait then st else st.pass (a - wait) total)
      else (if a ≤ wait then st else st.pass (a - wait) total).pass (b - (wait - a)) total) =
      if a + b ≤ wait then st else st.pass (a + b - wait) total := by
  by_cases h : a ≤ wait
  · have h1 : b ≤ wait - a ↔ a + b ≤ wait := by omega
    have h2 : b - (wait - a) = a + b - wait := by omega
    simp only [h, h1, h2, if_true]
  · have h1 : wait - a = 0 := by omega
    have h2 : a + b - wait = a - wait + b := by omega
    have h3 : ¬b ≤ 0 := by omega
    have h4 : ¬a + b ≤ wait := by omega
    simp only [h, h1, h2, h3, h4, if_false, Nat.sub_zero, stage_pass_add hb]

/-- What is counted as sent over two waits is what is counted over both. -/
theorem countSent_wait_add {a b : Nat} (hb : 0 < b) (wait total : Nat) (st : Stage) (c : SegCounters) :
    countSent (if a ≤ wait then st else st.pass (a - wait) total) (if a + b ≤ wait then st else st.pass (a + b - wait) total)
        (countSent st (if a ≤ wait then st else st.pass (a - wait) total) c) =
      countSent st (if a + b ≤ wait then st else st.pass (a + b - wait) total) c := by
  by_cases h : a ≤ wait
  · simp [h, countSent]
  · have h4 : ¬a + b ≤ wait := by omega
    have h2 : a + b - wait = a - wait + b := by omega
    simp only [h, h4, h2, if_false]
    exact countSent_add hb c

/-- The passing of time on one segment adds up. -/
theorem segment_pass_add {a b : Nat} (hb : 0 < b) (x : Segment) : (x.pass a).pass b = x.pass (a + b) := by
  unfold Segment.pass Segment.passRaw Segment.passExchange LineCtl.pass
  rcases h1 : x.line.inFlight with _ | e <;> rcases h2 : x.sup.raw with _ | e' <;>
    rcases h3 : x.line.breaking <;> rcases h4 : x.line.probeFirst <;>
    simp [h1, h2, h3, h4, stage_pass_add hb, countSent_add hb, Nat.add_assoc, Nat.sub_sub, stage_wait_add hb,
      countSent_wait_add hb]
  all_goals rw [countSent_comm (e.stage.pass a _) _ e'.stage, countSent_add hb, countSent_wait_add hb]

@[simp] theorem segment_pass_state (n : Nat) (x : Segment) : (x.pass n).sup.state = x.sup.state := by
  unfold Segment.pass Segment.passRaw Segment.passExchange
  rcases x.line.inFlight with _ | e <;> rcases x.sup.raw with _ | e' <;> simp

@[simp] theorem segment_pass_activeMs (n : Nat) (x : Segment) : (x.pass n).line.activeMs = x.line.activeMs - n := by
  unfold Segment.pass Segment.passRaw Segment.passExchange LineCtl.pass
  rcases x.line.inFlight with _ | e <;> rcases x.sup.raw with _ | e' <;> simp

@[simp] theorem segment_pass_stage (n : Nat) (x : Segment) : (x.pass n).sup.stage = x.sup.stage := by
  unfold Segment.pass Segment.passRaw Segment.passExchange
  rcases x.line.inFlight with _ | e <;> rcases x.sup.raw with _ | e' <;> simp

@[simp] theorem segment_pass_stageEnd (n : Nat) (x : Segment) : (x.pass n).sup.stageEnd = x.sup.stageEnd := by
  unfold Segment.pass Segment.passRaw Segment.passExchange
  rcases x.line.inFlight with _ | e <;> rcases x.sup.raw with _ | e' <;> simp

theorem task_pass_add (a b : Nat) (st : SegState) (t : Task) : (t.pass a st).pass b st = t.pass (a + b) st := by
  unfold Task.pass
  by_cases h : t.timerRuns st = true
  · have h2 : ({ t with timeLeft := t.timeLeft - a } : Task).timerRuns st = true := h
    rw [if_pos h, if_pos h2, if_pos h]
    simp [Nat.sub_sub]
  · rw [if_neg h, if_neg h, if_neg h]

theorem module_pass_add (a b : Nat) (m : Module) : (m.pass a).pass b = m.pass (a + b) := by
  unfold Module.pass Config.phaseMs
  have h1 : ((m.phaseMs + a) % 125 + b) % 125 = (m.phaseMs + (a + b)) % 125 := by omega
  have h2 : (Fin.ofNat 8 (m.phase.val + (m.phaseMs + a) / 125)).val + ((m.phaseMs + a) % 125 + b) / 125 =
      (m.phase.val + (m.phaseMs + a) / 125) % 8 + ((m.phaseMs + a) % 125 + b) / 125 := rfl
  simp only [h1, h2]
  congr 1
  apply Fin.ext
  simp only [Fin.ofNat]
  omega

theorem passTime_zero (s : State) : s.passTime 0 = s := rfl

theorem passTime_pos {n : Nat} (h : 0 < n) (s : State) : s.passTime n =
    { s with
      time := s.time + BitVec.ofNat 32 n
      phaseMs := s.phaseMs + n
      link := { s.link with gapMs := if s.link.rx.isEmpty then 0 else s.link.gapMs + n }
      tasks := s.tasks.map fun t => t.pass n (s.segState t.slot.seg)
      segs := s.segs.map (Segment.pass n)
      modules := s.modules.map (Module.pass n) } := if_neg (by omega)

theorem passTime_seg {n : Nat} (h : 0 < n) (s : State) (g : Seg) : (s.passTime n).seg g = (s.seg g).pass n := by
  rw [passTime_pos h]
  simp [State.seg]

@[simp] theorem passTime_segState (n : Nat) (s : State) (g : Seg) : (s.passTime n).segState g = s.segState g := by
  rcases Nat.eq_zero_or_pos n with rfl | h
  · rfl
  · simp only [State.segState, passTime_seg h, segment_pass_state]

/-- R183: the passing of time adds up. -/
theorem passTime_add (a b : Nat) (s : State) : (s.passTime a).passTime b = s.passTime (a + b) := by
  rcases Nat.eq_zero_or_pos a with rfl | ha
  · simp [passTime_zero]
  rcases Nat.eq_zero_or_pos b with rfl | hb
  · rfl
  have hseg := passTime_segState a s
  rw [passTime_pos hb, passTime_pos (by omega : 0 < a + b)]
  simp only [hseg]
  rw [passTime_pos ha]
  have h1 : s.time + BitVec.ofNat 32 a + BitVec.ofNat 32 b = s.time + BitVec.ofNat 32 (a + b) := by
    rw [BitVec.add_assoc, ← BitVec.ofNat_add]
  simp only [h1, List.map_map, Vector.map_map, Nat.add_assoc]
  congr 1
  · split
    · rfl
    · rw [Nat.add_assoc]
  · apply List.map_congr_left
    intro t _
    have : (t.pass a (s.segState t.slot.seg)).slot = t.slot := by unfold Task.pass; split <;> rfl
    simp only [Function.comp, this, task_pass_add]
  · congr 1; funext x; exact segment_pass_add hb x
  · congr 1; funext m; exact module_pass_add a b m

/-! ### A wait in which nothing else falls due -/

theorem msUntil_passTime {n : Nat} (s : State) (target : Stamp) (h : n < s.msUntil target) :
    (s.passTime n).msUntil target = s.msUntil target - n := by
  have ht : (s.passTime n).time = s.time + BitVec.ofNat 32 n := by
    rcases Nat.eq_zero_or_pos n with rfl | hp
    · simp [passTime_zero]
    · rw [passTime_pos hp]
  unfold State.msUntil at *
  rw [ht]
  split at h
  · omega
  · next hge =>
    have e1 := BitVec.toNat_sub s.time target
    have e2 := BitVec.toNat_sub target s.time
    have e3 := BitVec.toNat_sub (s.time + BitVec.ofNat 32 n) target
    have e4 := BitVec.toNat_sub target (s.time + BitVec.ofNat 32 n)
    have e5 := BitVec.toNat_add s.time (BitVec.ofNat 32 n)
    have e6 : (BitVec.ofNat 32 n).toNat = n % 2 ^ 32 := BitVec.toNat_ofNat n 32
    have l1 := s.time.isLt
    have l2 := target.isLt
    split <;> omega

/-- R183: what was undisturbed for `n + 1` ms is so for the rest once one has passed. -/
theorem undisturbed_next {s : State} {c : Option ClockEvent} {n : Nat} (h : s.Undisturbed c (n + 1)) :
    (s.passTime 1).Undisturbed c n where
  phase hc := by
    have := h.phase hc
    rw [passTime_pos Nat.one_pos]; simp only []; omega
  frame hc hr := by
    rw [passTime_pos Nat.one_pos] at hr ⊢
    have := h.frame hc hr
    have hr' : s.link.rx.isEmpty = false := by simpa using hr
    simp only [hr']
    simp; omega
  settle g hc h1 h2 := by
    rw [passTime_seg Nat.one_pos] at *
    simp only [segment_pass_state, segment_pass_stage, segment_pass_stageEnd] at *
    have := h.settle g hc h1 h2
    rw [msUntil_passTime s _ (by omega)]; omega
  quiet g hc h1 h2 := by
    rw [passTime_seg Nat.one_pos] at *
    simp only [segment_pass_state, segment_pass_stage, segment_pass_stageEnd] at *
    have := h.quiet g hc h1 h2
    rw [msUntil_passTime s _ (by omega)]; omega
  timers u hu hc h1 h2 h3 := by
    rw [passTime_seg Nat.one_pos] at h3
    rw [passTime_pos Nat.one_pos] at hu
    simp only [List.mem_map] at hu
    obtain ⟨t, ht, rfl⟩ := hu
    have e : ∀ st, (t.pass 1 st).id = t.id ∧ (t.pass 1 st).state = t.state ∧ (t.pass 1 st).limit = t.limit ∧
        (t.pass 1 st).slot = t.slot := by intro st; unfold Task.pass; split <;> simp
    obtain ⟨e1, e2, e3, e4⟩ := e (s.segState t.slot.seg)
    rw [e1] at hc; rw [e2] at h1; rw [e3] at h2; rw [e4] at h3
    simp only [segment_pass_state] at h3
    have := h.timers t ht hc h1 h2 h3
    unfold Task.pass
    split
    · simp only []; omega
    · omega
  lines g := by
    have := h.lines g
    rw [passTime_seg Nat.one_pos, segment_pass_activeMs]; omega

/-- R135: where no line comes free, a millisecond is time that passes. -/
theorem passOne_undisturbed {s : State} (h : ∀ g, (s.seg g).line.activeMs ≠ 1) : s.passOne = s.passTime 1 := by
  have : s.comeFree = [] := by
    rw [State.comeFree, List.filter_eq_nil_iff]
    intro g _
    simp [h g]
  rw [State.passOne, this, List.foldl_nil]

/-- Nothing but `c` is due where nothing else falls due. -/
theorem eventsDue_undisturbed {s : State} {c : Option ClockEvent} (h : s.Undisturbed c 0) :
    (s.eventsDue.filter fun e => some e ≠ c) = [] := by
  rw [List.filter_eq_nil_iff]
  intro e he
  simp only [decide_eq_true_eq, not_not]
  by_contra hc
  have hc : c ≠ some e := fun h => hc h.symm
  simp only [State.eventsDue, List.mem_append] at he
  rcases he with ((he | he) | he) | he
  · split at he
    · simp only [List.mem_singleton] at he
      subst he
      have := h.phase hc
      unfold Config.phaseMs at *; omega
    · cases he
  · split at he
    · next hx =>
      simp only [List.mem_singleton] at he
      subst he
      have := h.frame hc hx.1
      have := hx.2
      unfold Config.frameGapMs at *; omega
    · cases he
  · simp only [List.mem_flatMap] at he
    obtain ⟨g, _, he⟩ := he
    unfold State.stageDue at he
    split at he
    · cases he
    · next hm =>
      split at he
      · next hi =>
        simp only [List.mem_singleton] at he
        subst he
        simp only [State.inStage, State.segState, Bool.and_eq_true, decide_eq_true_eq] at hi
        have := h.settle g hc (of_decide_eq_true hi.1) hi.2
        omega
      · split at he
        · next hi =>
          simp only [List.mem_singleton] at he
          subst he
          simp only [State.inStage, State.segState, Bool.and_eq_true, decide_eq_true_eq] at hi
          have := h.quiet g hc (of_decide_eq_true hi.1) hi.2
          omega
        · cases he
  · simp only [State.expiriesDue, List.mem_map, List.mem_filter, Bool.and_eq_true, decide_eq_true_eq, Task.timerRuns,
      State.segState, Option.isSome_iff_ne_none] at he
    obtain ⟨u, ⟨hu, ⟨⟨h1, h2⟩, h3⟩, h4⟩, rfl⟩ := he
    have := h.timers u hu hc h1 h2 (of_decide_eq_true h3)
    omega

theorem undisturbed_weaken {s : State} {c : Option ClockEvent} {n : Nat} (h : s.Undisturbed c n) : s.Undisturbed c 0 where
  phase hc := by have := h.phase hc; omega
  frame hc hr := by have := h.frame hc hr; omega
  settle g hc h1 h2 := by have := h.settle g hc h1 h2; omega
  quiet g hc h1 h2 := by have := h.quiet g hc h1 h2; omega
  timers u hu hc h1 h2 h3 := by have := h.timers u hu hc h1 h2 h3; omega
  lines g := by have := h.lines g; omega

/-- R183: a wait in which no other event of the clock falls due is time that passes. -/
theorem wait_undisturbed {c : Option ClockEvent} {n : Nat} {s : State} (h : 0 < n → s.Undisturbed c n) :
    s.wait c n = s.passTime n := by
  induction n generalizing s with
  | zero => rfl
  | succ n ih =>
    have h0 : s.passOne = s.passTime 1 := passOne_undisturbed fun g => by
      have := (h (Nat.succ_pos n)).lines g
      omega
    have h := undisturbed_next (h (Nat.succ_pos n))
    have h1 : s.waitOne c = s.passTime 1 := by
      simp only [State.waitOne, h0, eventsDue_undisturbed (undisturbed_weaken h), State.takeAll]
    rw [State.wait, h1, ih fun _ => h, passTime_add, Nat.add_comm]

/-! ### R135: the wait before the next exchange -/

/-- With an exchange in flight, the end of it waits for nothing more. -/
theorem whenFree_of_inFlight {s : State} {g : Seg} {e : Exchange} (h : (s.seg g).line.inFlight = some e) :
    s.whenFree g = s := by
  simp [State.whenFree, LineCtl.idle, h]

/-- On a line that is no longer active after a held line, the end of an exchange waits for nothing more. -/
theorem whenFree_of_quiet {s : State} {g : Seg} (h : (s.seg g).line.activeMs = 0) : s.whenFree g = s := by
  simp [State.whenFree, h, State.wait]

end Sys2Proof.Machine
end

