-- ==== Sys2Proof/Tests/Slice0.lean ====
section
/-! SUPPORT. Tests of the model: ill-formed commands that WellFormed refuses, one-step tests whose expected values are
the manual's, and for each statement with hypotheses a state and operands that meet them. -/

namespace Sys2Proof.Tests

open Sys2Proof Sys2Proof.Machine

/- The kernel evaluates many of the theorems below; one at a time they stay within the memory a check allows. -/
set_option Elab.async false

/-! ### Checks that evaluate -/

/-- `LineSettled`, as a check. -/
def settled (x : Segment) : Bool :=
  decide (x.line.idle = true →
    (x.sup.state = .running →
      x.line.activeMs = 0 →
        x.sup.breakPending = false ∧ x.line.syncDue = false ∧ x.line.services = [] ∧ x.line.displays = [] ∧
          x.line.passEnded = true ∧ x.line.passHeld = true ∧ x.sup.discovery = none) ∧
    x.sup.state ≠ .holding)

/-- `AtRest`, as a check. -/
def resting (s : State) : Bool := (allSegs.all fun g => settled (s.seg g)) && decide (s.link.kick = s.link)

theorem settled_iff {x : Segment} : settled x = true ↔ LineSettled x := decide_eq_true_iff

theorem atRest {s : State} (h : resting s = true) : AtRest s := by
  have h := Bool.and_eq_true_iff.mp h
  exact ⟨fun g => settled_iff.mp (List.all_eq_true.mp h.1 g (List.mem_finRange g)), of_decide_eq_true h.2⟩

/-- A link on which any request reaches the decoder, its frame arriving now. -/
def listening (l : Link) : Bool :=
  l.requests.isEmpty && l.rx.isEmpty && decide (l.replies.length < Config.replyListSize) && !l.stopped

theorem reaches {s : State} (h : listening s.link = true) (f : Request) : Reaches s f := by
  simp only [listening, Bool.and_eq_true, List.isEmpty_iff, decide_eq_true_eq, Bool.not_eq_true'] at h
  exact ⟨.inr ⟨h.1.1.1, h.1.1.2⟩, h.1.2, h.2⟩

/-- `State.Undisturbed`, as a check. -/
def calm (s : State) (c : Option ClockEvent) (n : Nat) : Bool :=
  decide ((c ≠ some .phase → s.phaseMs + n < 125) ∧
    (c ≠ some .frameTimeout → s.link.rx ≠ [] → s.link.gapMs + n < 21) ∧
    (∀ g, c ≠ some (.settleEnd g) → (s.seg g).sup.state = .starting → (s.seg g).sup.stage = .settle →
      n < s.msUntil (s.seg g).sup.stageEnd) ∧
    (∀ g, c ≠ some (.quietEnd g) → (s.seg g).sup.state = .starting → (s.seg g).sup.stage = .quiet →
      n < s.msUntil (s.seg g).sup.stageEnd) ∧
    (∀ u ∈ s.tasks, c ≠ some (.expiry u.id) → u.state = .shown → u.limit ≠ none →
      (s.seg u.slot.seg).sup.state = .running → n < u.timeLeft) ∧
    ∀ g, (s.seg g).line.activeMs = 0 ∨ n < (s.seg g).line.activeMs)

theorem undisturbed {s : State} {c : Option ClockEvent} {n : Nat} (h : calm s c n = true) : s.Undisturbed c n :=
  have ⟨a, b, c, d, e, f⟩ := of_decide_eq_true h
  ⟨a, b, c, d, e, f⟩

/-! ### States -/

/-- A module just fitted on segment 0 at address 1. -/
def module1 : Module := { Module.fitted 0x5B0204D6 0 1 with fresh := false }

/-- An entry whose module has been met. -/
def entry1 : Entry :=
  { Entry.reset with
    kind := .learned, seen := some 0x5B0204D6, binding := .bound, presence := .present, wasPresent := true, skip := 0 }

/-- A task of picker 0 at slot 1. -/
def task (index : Fin 256) (id : TaskId) (st : TaskState) : Task :=
  { index := index, id := id, picker := 0, slot := ⟨0, 0⟩, requested := 5, displayed := 5, state := st, step := .quantity
    stamp := 0, limit := some 90, prompt := none, shownSince := 0, timeLeft := 90000, confirmed := 0, endStamp := 0 }

/-- A RUNNING segment whose pass has ended and whose next pass waits for a SYNC. -/
def running (x : Segment) : Segment :=
  { x with
    sup := { x.sup with state := .running, supply := true }
    line := { x.line with passEnded := true, passHeld := true } }

/-- Segment 0 RUNNING with a PRESENT module at address 1; picker 0 ACTIVE, picker 1 PAUSED. -/
def bench : State :=
  { State.reset with
    modules := [module1]
    pickers := (State.reset.pickers.set 0 ⟨.active, 1, .steady, 16, 0, 2, 1⟩).set 1 ⟨.paused, 2, .blink, 16, 0, 2, 0⟩
    segs := State.reset.segs.set 0 (running { Segment.reset with
      entries := Segment.reset.entries.set 0 entry1
      slots := Segment.reset.slots.set 0 { Slot.reset with serviceable := true } }) }

/-- The bench with one task, the current task of slot 1 unless it is QUEUED, PAUSED or ended. -/
def benchWith (st : TaskState) : State :=
  ({ bench with tasks := [task 0 7 st] }).updSlot ⟨0, 0⟩ fun x =>
    { x with waiting := if st.terminal then [] else [7], current := if st.isCurrent then some 7 else none }

/-- The bench with task 7 SHOWN at slot 1. -/
def lit : State :=
  ((benchWith .shown).updShadow ⟨0, 0⟩ fun x =>
    { x with seq := 9, owner := some ⟨7, .quantity⟩, colour := 1, digits := quantityDigits 5 }).updGov 0 fun _ =>
    { Governor.reset with lit := [⟨0, 7, 1, .steady, 0, 16, 16⟩], loads := Vector.replicate 8 320 }

/-- A reply with what its sending sets off. -/
def reply (x : AfterSent) : Reply := ⟨0, 0x82, 1, [0], x⟩

/-- The bench in another segment state. -/
def inState (st : SegState) : State := bench.updSup 0 fun x => { x with state := st }

/-- The bench with this exchange in flight on segment 0. -/
def flying (s : State) (e : Exchange) : State := s.updLine 0 fun l => { l with inFlight := some e }

/-- A start-up stage of segment 0. -/
def starting (stage : StartStage) : State :=
  bench.updSup 0 fun x => { x with state := .starting, stage := stage, stageEnd := 200 }

/-- HELD, with this raw exchange in flight. -/
def rawBench (op : RawOp) (address : Byte) : State :=
  bench.updSup 0 fun x => { x with state := .held, raw := some ⟨5, op, address, [], .gap, 0⟩ }

/-- The next state of a command, for tests that look at one field of it. -/
def after (c : Instr) (s : State) : Option State :=
  match exec c s with
  | .next t => some t
  | _ => none

/-- The reply a command leaves being sent. -/
def answered (c : Instr) (s : State) : Option (List Byte) :=
  match after c s with
  | some t => match t.link.sending with
    | some (.reply r) => some r.payload
    | _ => none
  | none => none

/-! ### WellFormed refuses ill-formed commands -/

theorem test_wf_payload_too_long : (Instr.identify 0 (List.replicate 250 0)).wf = false := by decide +kernel
theorem test_wf_payload_longest : (Instr.identify 0 (List.replicate 249 0)).wf = true := by decide +kernel
theorem test_wf_known_kind : (Instr.unknownKindRequest 0x10 0 []).wf = false := by decide
theorem test_wf_unknown_kind : (Instr.unknownKindRequest 0x06 0 []).wf = true := by decide
theorem test_wf_address_63 : (Instr.moduleReset 0 1 63 none).wf = false := by decide
theorem test_wf_address_62 : (Instr.moduleReset 0 1 62 none).wf = true := by decide
theorem test_ill_formed_faults : exec (.moduleReset 0 1 63 none) State.reset = .fault .illFormed := by rfl
theorem test_no_word_spells_a_command : decodeTableWord 8 0 = none := rfl

/-! ### Values the manual works out -/

/-- Chapter 7, "Worked case: the check over two bytes". -/
theorem test_crc : crcBytes [0x12, 0x34] = [0x3E, 0x21] := by decide

/-- 00_scope.md: slot 190 is segment 2, address 62; slot 128 is invalid. -/
theorem test_slot_190 : slotOfNumber 190 = some ⟨2, 61⟩ := by decide
theorem test_slot_128 : slotOfNumber 128 = none := by decide

/-- Chapter 8, "Worked case: gradual drift", intervals 4 and 5: a difference of 22 is a step of 8, one of 14 a step of 7. -/
theorem test_drift :
    (propose SegConfig.reset { Tracker.fresh 48 with proposals := [.plus, .plus, .plus] } 22).tracker.delay = 56 ∧
      (propose SegConfig.reset { Tracker.fresh 56 with proposals := [.plus, .plus, .plus, .plus] } 14).tracker.delay = 63 := by
  decide

/-- Chapter 8, "Worked case: a jump that saves the modules": the sixteenth reply at 180 jumps from 48 to 180. -/
theorem test_jump :
    (trackDelay SegConfig.reset { Tracker.fresh 48 with sum := 2700, n := 15 } 180).tracker.delay = 180 := by decide

/-- Chapter 8, "Worked case: two groups of modules and toggle hold", replies 4 and 7. -/
theorem test_toggle_hold :
    let c := { SegConfig.reset with interval := .n1, shift := 0, slew := 2, postFilter := false, toggleHold := true }
    (trackDelay c { Tracker.fresh 102 with applied := [.plus, .minus, .plus] } 97).tracker.hold = true ∧
      (trackDelay c { Tracker.fresh 100 with applied := [.plus, .minus, .plus, .minus], hold := true } 120).tracker.delay = 102 := by
  decide

/-- Chapter 5, "Filling the budget": over four phases at 3840 a second WHITE BLINK display takes rotation 4. -/
theorem test_rotation :
    let s := bench.updGov 0 fun v => { v with loads := #v[3840, 3840, 3840, 3840, 2880, 2880, 2880, 2880] }
    leastPeak (s.peak 0 ⟨.active, 7, .blink, 16, 2, 64, 1⟩ 16) 0 Pattern.blink.rotations = 4 := by decide +kernel

/-! ### One step -/

/-- R179. -/
theorem test_identify :
    answered (.identify 1 []) State.reset = some [0, 0x57, 0x0E, 0xA4, 0x04, 1, 4, 62, 0, 1, 12, 16, 32] := by decide +kernel
/-- R175: an unknown kind is answered with its code. -/
theorem test_unknown_kind : answered (.unknownKindRequest 6 1 []) State.reset = some [0x10, 6] := by decide +kernel
/-- R175: a payload of another length. -/
theorem test_bad_length : answered (.setLinkRate 1 [0]) State.reset = some [0x11] := by decide +kernel
/-- R36: a cursor above 255. -/
theorem test_list_cursor : answered (.listTasks 1 [0, 1, 0, 0xFF, 0xFF]) State.reset = some [0x12, 0, 0, 0] := by decide +kernel
/-- R15, R18, R19: one record with a prompt is accepted at index 0. -/
theorem test_submit_prompt :
    (after (.submit 1 [1, 0x1C, 0x0C, 0, 1, 5, 0, 0x88, 0x13, 1, 4, 1, 8]) bench).map (fun t => t.tasks.map fun u => (u.step, u.limit)) =
      some [(.prompt, some 3600)] := by decide +kernel
/-- Chapter 4: a CONFIRM at the quantity shown ends the task DONE, and the shadow goes dark with the next seq. -/
theorem test_confirm_ends_task :
    let t := lit.confirmStep ⟨0, 0⟩ ⟨9, 1, 9, 0, false, false, false, 0xD6⟩
    t.tasks.map Task.state = [.done] ∧ (t.shadow ⟨0, 0⟩).seq = 10 := by decide +kernel
/-- Chapter 4: seven ADJUST presses at quantity 5 leave 0, two at the floor. -/
theorem test_adjust_floor :
    let t := lit.adjustStep ⟨0, 0⟩ ⟨9, 0, 9, 7, false, false, false, 0xD6⟩
    t.tasks.map Task.displayed = [0] ∧ (t.seg 0).counters.atFloor = 2 := by decide +kernel
/-- R131: the phase after 7 is 0. -/
theorem test_phase_wraps : (after .blinkPhaseAdvance { bench with phase := 7 }).map State.phase = some 0 := by decide +kernel
/-- Chapter 9: the settle stage is 200 ms from SEGMENT_POWER. -/
theorem test_power_on :
    (after (.segmentPower 1 [0, 1]) State.reset).map (fun t => ((t.seg 0).sup.state, (t.seg 0).sup.stageEnd)) =
      some (.starting, 200) := by decide +kernel
/-- R165: the third LOW in a row, at 250 ms, shorts the line and takes a RUNNING segment to FAULT. -/
theorem test_third_low :
    (after (.lineSenseProbe 0 .low) ((flying { bench with time := 250 } (pollExchange 0)).updSup 0 fun v => { v with candidate := some .low, senseRun := 2 })).map
      (fun t => ((t.seg 0).sup.state, (t.seg 0).sup.condition, t.time)) = some (.fault, .shorted, 250) := by decide +kernel
/-- R132, R135: activity as long as a break is a miss, one LOW observation, and a reset of the modules that see it. -/
theorem test_held_line :
    (after (.poll 0 (.line false [⟨100, 3136⟩])) (flying bench (pollExchange 0))).map
      (fun t => (t.modules.map Module.fresh, (t.seg 0).sup.candidate, (t.seg 0).counters.windowMisses)) =
      some ([true], some .low, 1) := by decide +kernel
/-- R144: a reply that follows 32 ticks after the reply of the slot before it is CLEAN as well. -/
theorem test_contention_close :
    contentionRound (frameActivity 128 [0, 0x33, 1, 0, 0, 0] ++ frameActivity 1194 [0, 0x33, 2, 0, 0, 0]) =
      [.clean 1, .clean 2, .empty, .empty, .empty, .empty, .empty, .empty] := by decide +kernel
/-- R122, R144: after two replies that collided in slot 0 and ended with it, the reply of slot 1 is CLEAN. -/
theorem test_contention_after_collision :
    contentionRound (frameActivity 128 [0, 0x33, 1, 0, 0, 0] ++ frameActivity 128 [0, 0x33, 2, 0, 0, 0] ++
        frameActivity 1192 [0, 0x33, 3, 0, 0, 0]) =
      [.garbled, .clean 3, .empty, .empty, .empty, .empty, .empty, .empty] := by decide +kernel
/-- R144: a reply that is 16 ticks too late for its slot runs into the next. -/
theorem test_contention_late :
    contentionRound (frameActivity 144 [0, 0x33, 1, 0, 0, 0]) =
      [.garbled, .garbled, .empty, .empty, .empty, .empty, .empty, .empty] := by decide +kernel
/-- R135: while the line stays active after a held line nothing is chosen; when it comes free the next exchange is. -/
theorem test_held_line_waits :
    (after (.poll 0 (.line false [⟨100, 6272⟩])) (flying (bench.updLine 0 fun l => { l with syncDue := true })
      (pollExchange 0))).map (fun t => ((t.seg 0).line.activeMs, (t.seg 0).line.inFlight,
        ((Nat.repeat State.passOne 5 t).seg 0).line.inFlight, ((Nat.repeat State.passOne 6 t).seg 0).line.inFlight)) =
      some (6, none, none, some syncExchange) := by decide +kernel
/-- R164, R170: at the end of an exchange a probe that is due comes before the pending break, and BREAK_END waits for it. -/
theorem test_probe_before_break :
    let s := (flying { bench with time := 250 } (pollExchange 0)).updSup 0 fun v => { v with breakPending := true }
    (after (.poll 0 (.line false [])) s).bind (fun t => (after (.breakEnd 0) t).bind fun u =>
      (after (.lineSenseProbe 0 .high) u).map fun w =>
        ((t.seg 0).line.probeFirst, (u.seg 0).line.breaking, (w.seg 0).line.breaking, (w.seg 0).line.probeFirst)) =
      some (true, true, true, false) := by decide +kernel
/-- R26, R28, R183: a timer that runs out in the time a probe of another line waits ends its task, and phases pass. -/
theorem test_probe_takes_expiry :
    (after (.lineSenseProbe 1 .high)
      { lit with time := 200, phaseMs := 100, tasks := [{ task 0 7 .shown with timeLeft := 40 }] }).map
      (fun t => (t.time, t.phase, t.tasks.map fun u => (u.state, u.endStamp))) =
      some (250, 1, [(.expired, 240)]) := by decide +kernel
/-- R176, R178: an OPERATION_DONE waits for the STARTED reply of its own operation, and for no other of its kind and tag. -/
theorem test_done_waits_for_started :
    let s := (inState .held).updLink fun l =>
      { l with sending := some (.reply (reply .nothing)), replies := [⟨1, 0xB6, 5, [1, 4], .nothing⟩] }
    ((s.notifyDone 1 (.operationDone 5 0 .rawExchange .complete .none)).link.noticeWaits,
      ((s.updLink fun l => { l with sending := none }).notifyDone 0
        (.operationDone 5 0 .rawExchange .complete .none)).link.noticeWaits) = (false, true) := by decide +kernel
/-- R135, R166: HOLD_SEGMENT ends the wait for a line that is still active, and nothing is in flight. -/
theorem test_hold_ends_wait :
    (after (.holdSegment 1 [0]) (bench.updLine 0 fun l => { l with activeMs := 9, syncDue := true })).map
      (fun t => ((t.seg 0).sup.state, (t.seg 0).line.inFlight, (t.seg 0).counters.exchangesSent)) =
      some (.held, none, 0) := by decide +kernel
/-- R97, R100: an economy level changed with economy OFF is just kept, also where the base load exceeds U. -/
theorem test_economy_level_kept :
    (after (.setSegment 1 (0 :: [8, 0, 0] ++ List.replicate 5 0 ++ [4] ++ List.replicate 16 0))
      (bench.updGov 0 fun v => { v with baseLoad := 9000, loads := Vector.replicate 8 9000 })).map
      (fun t => ((t.seg 0).config.economyLevel, (t.seg 0).gov.economy, t.link.notices.length)) =
      some (4, false, 0) := by decide +kernel
/-- R130: a BLINK module at rotation 0 is lit in phases 0 to 3. -/
theorem test_lamp_blinks :
    let m := { module1 with colour := 7, pattern := .blink }
    ((bench.shows { m with phase := 3 }).1, (bench.shows { m with phase := 4 }).1) = (some (7, 16), none) := by
  decide +kernel
/-- R183: an idle step is one millisecond. -/
theorem test_tick : (State.reset.tick).time = 1 := by decide +kernel

/-! ### Witnesses: states and operands that meet the hypotheses of the statements -/

theorem bench_rest : AtRest bench := atRest (by decide +kernel)
theorem bench_reaches (f : Request) : Reaches bench f := reaches (by decide +kernel) f
theorem benchWith_rest (st : TaskState) : AtRest (benchWith st) := by cases st <;> exact atRest (by decide +kernel)
theorem benchWith_reaches (st : TaskState) (f : Request) : Reaches (benchWith st) f := reaches (by rfl) f
theorem lit_rest : AtRest lit := atRest (by decide +kernel)
theorem lit_reaches (f : Request) : Reaches lit f := reaches (by decide +kernel) f
theorem inState_rest (st : SegState) (h : st ≠ .holding) : AtRest (inState st) := by
  cases st <;> first | exact absurd rfl h | exact atRest (by decide +kernel)
theorem inState_reaches (st : SegState) (f : Request) : Reaches (inState st) f := reaches (by rfl) f

theorem bench_holdsNoSlot (p : Fin 12) : ¬bench.holdsSlot p := by
  rintro ⟨t, h, -⟩
  cases h

/-- Every entry but slot 1's is EMPTY on the bench. -/
theorem bench_nothing_provisioned (q : SlotRef) : (bench.entry q).kind ≠ .provisioned := by
  obtain ⟨g, ix⟩ := q
  revert g ix
  decide +kernel

theorem task_sound (st : TaskState) : TasksSound [task 0 7 st] :=
  ⟨by simp, by simp [task], by simp, by simp [task]⟩

/-- The bench with a line that is still active for a millisecond after a held line. -/
def stillActive : State := bench.updLine 0 fun l => { l with activeMs := 1 }

theorem witness_IdleStep :
    stillActive.pending = [] ∧ (stillActive.seg 0).sup.state = .running ∧ (stillActive.seg 0).line.activeMs = 1 ∧
      (stillActive.seg 0).line.inFlight = none ∧ (stillActive.seg 0).line.breaking = false ∧
      (stillActive.seg 0).sup.breakPending = false ∧
      ((stillActive.updLine 0 fun l => { l with syncDue := true }).seg 0).line.syncDue = true ∧
      ((stillActive.updSup 0 fun v => { v with breakPending := true }).seg 0).sup.breakPending = true ∧
      0 < ((stillActive.updSup 0 fun v => { v with state := .held }).seg 0).line.activeMs := ⟨rfl, by decide +kernel⟩

/-- A link with `n` requests waiting. -/
def waiting (n : Nat) : State := State.reset.updLink fun l => { l with requests := List.replicate n ⟨2, 0, []⟩ }

theorem witness_FrameJoinsRequestList :
    (List.replicate 249 (0 : Byte)).length ≤ 249 ∧ AtRest (waiting 3) ∧ (waiting 3).link.rx = [] ∧
      (waiting 3).link.requests.length < 4 :=
  ⟨List.length_replicate.le, atRest (by decide +kernel), rfl, by decide⟩

theorem witness_FullRequestList :
    AtRest (waiting 4) ∧ (waiting 4).link.rx = [] ∧ 4 ≤ (waiting 4).link.requests.length ∧
      (waiting 4).link.replies.length < 16 :=
  ⟨atRest (by decide +kernel), rfl, by decide, by decide⟩

theorem witness_FullRequestList_fullReplyList :
    let s := (waiting 4).updLink fun l =>
      { l with replies := List.replicate 16 (reply .nothing), sending := some .notice }
    AtRest s ∧ s.link.rx = [] ∧ 4 ≤ s.link.requests.length ∧ ¬s.link.replies.length < 16 :=
  ⟨atRest (by decide +kernel), rfl, by decide, by decide⟩

theorem witness_PartialFrameTimesOut :
    let s := State.reset.updLink fun l => { l with rx := [Config.startByte], gapMs := 20 }
    AtRest s ∧ s.link.rx ≠ [] ∧ (s.link.gapMs < 21 → s.Undisturbed (some .frameTimeout) (21 - s.link.gapMs)) :=
  ⟨atRest (by decide +kernel), by decide, fun _ => undisturbed (by decide +kernel)⟩

theorem witness_TransmitterAlternates :
    (let s := State.reset.updLink fun l => { l with sending := some (.reply (reply (.setRate 57600))) }
     AtRest s ∧ s.link.sending = some (.reply (reply (.setRate 57600))) ∧ (reply (.setRate 57600)).after ≠ .restart) ∧
    (let s := State.reset.updLink fun l => { l with sending := some (.reply (reply .restart)) }
     AtRest s ∧ s.link.sending = some (.reply (reply .restart)) ∧ (reply .restart).after = .restart) ∧
    (let s := (State.reset.notify (.lineCondition 0 .opened)).kick
     AtRest s ∧ s.link.sending = some .notice) :=
  ⟨⟨atRest (by decide +kernel), rfl, by decide⟩, ⟨atRest (by decide +kernel), rfl, rfl⟩, atRest (by decide +kernel),
    by decide +kernel⟩

theorem witness_RequestArrives :
    requestOf (.readTime 1 []) = some ⟨2, 1, []⟩ ∧ bench.link.requests = [] ∧ bench.link.rx = [] := ⟨rfl, rfl, rfl⟩

theorem witness_RequestWaits :
    (Instr.readTime 1 []).wf = true ∧ ((waiting 1).link.offer ⟨2, 1, []⟩).takes ⟨2, 1, []⟩ = false :=
  ⟨by decide, by decide⟩

theorem witness_RefusedBeforeItsRule :
    (requestOf (.readTime 1 [0]) = some ⟨2, 1, [0]⟩ ∧ fixedLength 2 = some 0 ∧ (Instr.readTime 1 [0]).wf = true ∧
      [(0 : Byte)].length ≠ 0 ∧ AtRest bench ∧ Reaches bench ⟨2, 1, [0]⟩) ∧
    ((0xFF : Byte) ∉ requestKindCodes ∧ AtRest bench ∧ Reaches bench ⟨0xFF, 1, []⟩) :=
  ⟨⟨rfl, by decide, by decide, by decide, bench_rest, bench_reaches _⟩, by decide, bench_rest, bench_reaches _⟩

/-- IDENTIFY, READ_TIME, RESTART, READ_STATS, SET_LINK_RATE, CLEAR_TASKS, DROP_PICKER, BREAK_SEGMENT, DISCOVER and
QUERY_SLOT ask only that the request reaches the decoder. -/
theorem witness_AnyRequest (f : Request) : AtRest bench ∧ Reaches bench f := ⟨bench_rest, bench_reaches f⟩

theorem witness_ReadStatsRefused :
    3 < (4 : Byte).toNat ∧ (4 : Byte) ≠ 0xFF ∧ (0xFE : Byte) ≠ 0xFF ∧ (3 : Byte).toNat ≤ 3 ∧ 1 < (2 : Byte).toNat := by
  decide

/-- A picker id above 11, a segment number above 3, a setting above 1. -/
theorem witness_BadNumbers :
    11 < (12 : Byte).toNat ∧ 3 < (4 : Byte).toNat ∧ (3 : Byte).toNat = (3 : Seg).val ∧ 1 < (2 : Byte).toNat := by decide

theorem witness_LinkRate :
    leValue (leBytes 4 921600) ∈ [57600, 115200, 230400, 460800, 921600] ∧
      leValue (leBytes 4 921601) ∉ [57600, 115200, 230400, 460800, 921600] := by decide

/-! #### Pickers -/

theorem witness_SetPicker_registers :
    AtRest bench ∧ Reaches bench ⟨0x10, 1, [2, 0x1F, 7, 2, 17, 4, 255]⟩ ∧ (bench.picker 2).inRange ∧
      (0x1F : Byte).toNat < 32 ∧ (bench.picker 2).state = .absent ∧ (2 : Byte) = Pattern.code .flicker ∧
      ¬bench.holdsSlot 2 ∧ ¬bench.styleElsewhere 2 7 .flicker ∧ (bench.picker 2).openCount ≤ 255 := by
  refine ⟨bench_rest, bench_reaches _, by unfold Picker.inRange; decide +kernel, by decide, by decide +kernel, by decide,
    bench_holdsNoSlot 2, ?_, by decide +kernel⟩
  rintro ⟨o, h⟩
  revert h
  revert o
  decide +kernel

theorem witness_SetPicker_keepsAll :
    AtRest (benchWith .shown) ∧ Reaches (benchWith .shown) ⟨0x10, 1, [0, 0, 0, 0, 0, 0, 0]⟩ ∧
      ((benchWith .shown).picker 0).inRange ∧ ((benchWith .shown).picker 0).state ≠ .absent ∧
      ((benchWith .shown).picker 0).openCount ≤ ((benchWith .shown).picker 0).quota ∧
      ¬(benchWith .shown).styleElsewhere 0 1 .steady := by
  refine ⟨benchWith_rest _, benchWith_reaches _ _, by unfold Picker.inRange; decide +kernel, by decide +kernel,
    by decide +kernel, ?_⟩
  rintro ⟨o, h⟩
  revert h
  revert o
  decide +kernel

theorem witness_SetPickerRefusals_badValue : AtRest bench ∧ Reaches bench ⟨0x10, 1, [0, 32, 0, 0, 0, 0, 0]⟩ ∧
    32 ≤ (32 : Byte).toNat := ⟨bench_rest, bench_reaches _, by decide⟩

theorem witness_SetPickerRefusals_wrongState :
    AtRest (benchWith .blocked) ∧ Reaches (benchWith .blocked) ⟨0x10, 1, [0, 4, 0, 0, 0, 0, 0]⟩ ∧
      max 1 (min 16 (0 : Byte).toNat) ≠ ((benchWith .blocked).picker 0).level ∧ (benchWith .blocked).holdsSlot 0 :=
  ⟨benchWith_rest _, benchWith_reaches _ _, by decide +kernel, task 0 7 .blocked, List.mem_singleton_self _, rfl,
    .inr (.inr rfl)⟩

theorem witness_SetPickerRefusals_styleInUse :
    AtRest bench ∧ Reaches bench ⟨0x10, 1, [0, 3, 2, 1, 0, 0, 0]⟩ ∧ ¬bench.holdsSlot 0 ∧
      (1 : Byte) = Pattern.code .blink ∧ bench.styleElsewhere 0 2 .blink :=
  ⟨bench_rest, bench_reaches _, bench_holdsNoSlot 0, by decide, 1, by decide +kernel⟩

/-- The bench with two tasks in the table that name picker 0. -/
def twoOpen : State := bench.updPicker 0 fun x => { x with openCount := 2 }

theorem witness_SetPickerRefusals_quotaBelowOpen :
    AtRest twoOpen ∧ Reaches twoOpen ⟨0x10, 1, [0, 16, 0, 0, 0, 0, 1]⟩ ∧ ¬twoOpen.holdsSlot 0 ∧
      1 < (twoOpen.picker 0).openCount := by
  refine ⟨atRest (by decide +kernel), reaches (by decide +kernel) _, ?_, by decide +kernel⟩
  rintro ⟨t, h, -⟩
  cases h

theorem witness_DropPicker :
    AtRest bench ∧ (∀ f, Reaches bench f) ∧ (bench.picker 2).state = .absent ∧ 0 < (bench.picker 0).openCount ∧
      (bench.picker 1).state ≠ .absent ∧ ¬0 < (bench.picker 1).openCount :=
  ⟨bench_rest, bench_reaches, by decide +kernel⟩

theorem witness_PausePicker :
    (AtRest (benchWith .shown) ∧ (∀ f, Reaches (benchWith .shown) f) ∧ ((benchWith .shown).picker 0).state = .active ∧
      TasksSound (benchWith .shown).tasks) ∧
    ((bench.picker 0).state = .active ∧ ¬bench.holdsSlot 0) ∧ (bench.picker 2).state = .absent ∧
      (bench.picker 1).state = .paused :=
  ⟨⟨benchWith_rest _, benchWith_reaches _, by decide +kernel, task_sound _⟩,
    ⟨by decide +kernel, bench_holdsNoSlot 0⟩, by decide +kernel⟩

/-- A paused current task of each kind; no other task waits at its slot, and no request stands in the queue. -/
theorem witness_PausePicker_current :
    (∀ u ∈ lit.tasks, u.picker = 0 ∧ u.state = .shown ∧ (lit.shadow u.slot).owner ≠ none ∧
      (∀ v ∈ lit.tasks, v.id ∈ (lit.slot u.slot).waiting → v.state = .queued → v.picker = 0) ∧
      ∀ a ∈ (lit.seg u.slot.seg).gov.queue, a.ix ≠ u.slot.ix) ∧
    ((benchWith .waitLoad).tasks.map Task.state = [.waitLoad] ∧ TasksSound (benchWith .waitLoad).tasks) ∧
    (benchWith .blocked).tasks.map Task.state = [.blocked] :=
  ⟨by decide +kernel, ⟨by decide +kernel, task_sound _⟩, by decide +kernel⟩

/-- Task 7 SHOWN at slot 1, and behind it task 8 of the PAUSED picker 1. -/
def shared : State :=
  ({ lit with tasks := [task 0 7 .shown, { task 1 8 .paused with picker := 1 }] }).updSlot ⟨0, 0⟩ fun x =>
    { x with waiting := [7, 8] }

theorem witness_ResumePicker :
    AtRest shared ∧ (∀ f, Reaches shared f) ∧ (shared.picker 1).state = .paused ∧
      (∀ u ∈ shared.tasks, u.picker = 1 → u.state = .paused → (shared.slot u.slot).current.isSome) ∧
      (shared.picker 2).state = .absent ∧ (shared.picker 0).state = .active :=
  ⟨atRest (by decide +kernel), reaches (by decide +kernel), by decide +kernel⟩

/-! #### Tasks -/

/-- The bench's slot 1, not serviceable. -/
def unserviceable : State := bench.updSlot ⟨0, 0⟩ fun x => { x with serviceable := false }

/-- What every SUBMIT of one record asks of a bench: task 9, quantity 999, expiry limit 65535, at slot 1, index 0. -/
def submits (s : State) (p : Fin 12) : Prop :=
  AtRest s ∧ (∀ f, Reaches s f) ∧ (∀ t ∈ s.tasks, t.id ≠ 9) ∧ (s.picker p).state ≠ .absent ∧
    (s.entry ⟨0, 0⟩).kind ≠ .empty ∧ (s.picker p).openCount < (s.picker p).quota ∧ (∀ t ∈ s.tasks, t.index ≠ 0) ∧
    (∀ j : Fin 256, j < 0 → ∃ t ∈ s.tasks, t.index = j) ∧ (s.slot ⟨0, 0⟩).waiting.length < 8

theorem witness_Submit :
    (submits bench 1 ∧ (bench.picker 1).state = .paused) ∧
    (submits unserviceable 0 ∧ (unserviceable.picker 0).state = .active ∧ (unserviceable.slot ⟨0, 0⟩).current = none ∧
      (unserviceable.slot ⟨0, 0⟩).waiting = [] ∧ (unserviceable.slot ⟨0, 0⟩).serviceable = false) ∧
    (submits bench 0 ∧ (bench.picker 0).state = .active ∧ (bench.slot ⟨0, 0⟩).current = none ∧
      (bench.slot ⟨0, 0⟩).waiting = [] ∧ (bench.slot ⟨0, 0⟩).serviceable = true) := by
  refine ⟨⟨⟨bench_rest, bench_reaches, by decide +kernel, by decide +kernel, by decide +kernel, by decide +kernel,
      by decide +kernel, fun j h => absurd h (Fin.not_lt_zero j), by decide +kernel⟩, by decide +kernel⟩,
    ⟨⟨atRest (by decide +kernel), reaches (by decide +kernel), by decide +kernel, by decide +kernel, by decide +kernel,
      by decide +kernel, by decide +kernel, fun j h => absurd h (Fin.not_lt_zero j), by decide +kernel⟩, by decide +kernel⟩,
    ⟨⟨bench_rest, bench_reaches, by decide +kernel, by decide +kernel, by decide +kernel, by decide +kernel,
      by decide +kernel, fun j h => absurd h (Fin.not_lt_zero j), by decide +kernel⟩, by decide +kernel⟩⟩

/-- Eight records; and a first record, of eight, for no valid slot or for a slot with a current task. -/
theorem witness_SubmitBatch :
    (List.replicate 96 (0 : Byte)).length = 12 * 8 ∧ (List.replicate 84 (0 : Byte)).length = 12 * 7 ∧
    (∀ (p : Fin 12) (r : SlotRef), fieldAt (List.replicate 12 (0 : Byte)) 2 1 = p.val →
      fieldAt (List.replicate 12 (0 : Byte)) 3 1 = 64 * r.seg.val + r.ix.val + 1 →
      (bench.picker p).state ≠ .active ∨ (bench.slot r).current.isSome) ∧
    (lit.slot ⟨0, 0⟩).current.isSome :=
  ⟨by decide, by decide, fun _ _ _ h => by
    have h0 : fieldAt (List.replicate 12 (0 : Byte)) 3 1 = 0 := by decide
    omega, by decide +kernel⟩

/-- Tasks 7 and 8 QUEUED at slot 1, with one priority and one stamp. -/
def twoQueued : State :=
  ({ bench with tasks := [task 0 7 .queued, task 1 8 .queued] }).updSlot ⟨0, 0⟩ fun x => { x with waiting := [8, 7] }

theorem twoQueued_sound : TasksSound twoQueued.tasks := ⟨by decide, by decide, by decide, by decide⟩

theorem witness_Selection :
    TasksSound twoQueued.tasks ∧ (twoQueued.slot ⟨0, 0⟩).current = none ∧ task 0 7 .queued ∈ twoQueued.tasks ∧
      (7 : TaskId) ∈ (twoQueued.slot ⟨0, 0⟩).waiting ∧
      (∀ v ∈ twoQueued.tasks, v ≠ task 0 7 .queued →
        (twoQueued.picker v.picker).priority = (twoQueued.picker 0).priority ∧ v.stamp = (task 0 7 .queued).stamp ∧
          (task 0 7 .queued).index.val < v.index.val) :=
  ⟨twoQueued_sound, by decide +kernel, by decide, by decide +kernel, by decide +kernel⟩

/-- No count, a count of 0 and of 9, and eight records one byte short. -/
theorem witness_SubmitWholeRefused :
    ([] : List Byte).length ≤ 249 ∧ 8 < (9 : Byte).toNat ∧ (8 : Byte).toNat ≤ 8 ∧
      (List.replicate 95 (0 : Byte)).length ≠ 12 * (8 : Byte).toNat := by decide

/-- Every entry of the task table used. -/
def fullTable : State :=
  { bench with tasks := (List.finRange 256).map fun i => { task i (BitVec.ofNat 16 (i.val + 1)) .done with picker := 5 } }

/-- The bench's slot 1 with eight tasks in its waiting set. -/
def fullSlot : State := bench.updSlot ⟨0, 0⟩ fun x => { x with waiting := List.replicate 8 1 }

theorem witness_SubmitRefusals :
    (AtRest bench ∧ (∀ f, Reaches bench f) ∧ 11 < (12 : Byte).toNat) ∧
    (AtRest (benchWith .done) ∧ (∀ f, Reaches (benchWith .done) f) ∧ ∃ t ∈ (benchWith .done).tasks, t.id = 7) ∧
    ((∀ t ∈ bench.tasks, t.id ≠ 9) ∧ (bench.picker 2).state = .absent) ∧
    ((bench.picker 0).state ≠ .absent ∧ (191 : Byte).toNat % 64 = 63 ∧ (64 : Byte).toNat % 64 = 0) ∧
    ((254 : Byte).toNat = 64 * 3 + 61 + 1 ∧ (bench.entry ⟨3, 61⟩).kind = .empty) ∧
    ((1 : Byte).toNat = 64 * 0 + 0 + 1 ∧ (bench.entry ⟨0, 0⟩).kind ≠ .empty ∧ (twoOpen.picker 0).quota ≤ (twoOpen.picker 0).openCount) ∧
    (AtRest fullTable ∧ (∀ f, Reaches fullTable f) ∧ (∀ t ∈ fullTable.tasks, t.id ≠ 999) ∧
      (fullTable.picker 0).openCount < (fullTable.picker 0).quota ∧ ∀ i : Fin 256, ∃ t ∈ fullTable.tasks, t.index = i) ∧
    (AtRest fullSlot ∧ (∀ f, Reaches fullSlot f) ∧ (∃ i : Fin 256, ∀ t ∈ fullSlot.tasks, t.index ≠ i) ∧
      8 ≤ (fullSlot.slot ⟨0, 0⟩).waiting.length) := by
  refine ⟨⟨bench_rest, bench_reaches, by decide⟩,
    ⟨benchWith_rest _, benchWith_reaches _, task 0 7 .done, List.mem_singleton_self _, rfl⟩,
    ⟨by decide +kernel, by decide +kernel⟩, by decide +kernel, by decide +kernel, by decide +kernel,
    ⟨atRest (by decide +kernel), reaches (by decide +kernel), by decide +kernel, by decide +kernel, fun i =>
      ⟨_, List.mem_map.mpr ⟨i, List.mem_finRange i, rfl⟩, rfl⟩⟩,
    atRest (by decide +kernel), reaches (by decide +kernel), ⟨0, by decide +kernel⟩, by decide +kernel⟩

/-- CANCEL, RETIRE and QUERY_TASK: a task of each kind under id 7, and no task under id 9. -/
theorem witness_TaskRequests (st : TaskState) :
    AtRest (benchWith st) ∧ (∀ f, Reaches (benchWith st) f) ∧ (benchWith st).task? 7 = some (task 0 7 st) ∧
      (benchWith st).task? 9 = none ∧ (7 : TaskId) ≠ 0 ∧ (9 : TaskId) ≠ 0 :=
  ⟨benchWith_rest st, benchWith_reaches st, rfl, rfl, by decide, by decide⟩

/-- CANCEL of a SHOWN task alone at its slot. -/
theorem witness_Cancel_shown :
    AtRest lit ∧ (∀ f, Reaches lit f) ∧ lit.task? 7 = some (task 0 7 .shown) ∧
      (∀ v ∈ lit.tasks, v.id ≠ 7 → v.id ∈ (lit.slot ⟨0, 0⟩).waiting → v.state ≠ .queued) ∧
      ∀ a ∈ (lit.seg 0).gov.queue, a.ix ≠ 0 :=
  ⟨lit_rest, lit_reaches, rfl, by decide +kernel, by decide +kernel⟩

theorem witness_ListTasks :
    AtRest lit ∧ (∀ f, Reaches lit f) ∧ 255 < 256 ∧
      ¬(255 < 255 ∨ (11 < (11 : Byte).toNat ∧ (11 : Byte) ≠ 0xFF) ∨ (3 < (0xFF : Byte).toNat ∧ (0xFF : Byte) ≠ 0xFF)) :=
  ⟨lit_rest, lit_reaches, by decide, by decide⟩

theorem witness_ClearTasks : AtRest lit ∧ Reaches lit ⟨5, 1, []⟩ := ⟨lit_rest, lit_reaches _⟩

/-! #### Captures -/

/-- Captures armed for slot 1 in the first `n` entries. -/
def armed (n : Nat) : State :=
  { bench with captures := Vector.ofFn fun i : Fin 16 => if i.val < n then some ⟨900, ⟨0, 0⟩⟩ else none }

theorem armed_none (i : Fin 16) : (armed 0).captures[i] = none := by revert i; decide +kernel

theorem witness_ArmCapture :
    (AtRest bench ∧ (∀ f, Reaches bench f) ∧ (900 : Tag) ≠ 0 ∧ (63 : Byte).toNat % 64 = 63 ∧
      (62 : Byte).toNat = 64 * 0 + 61 + 1 ∧ (bench.entry ⟨0, 61⟩).kind = .empty) ∧
    (AtRest (armed 16) ∧ (∀ f, Reaches (armed 16) f) ∧ ((armed 16).entry ⟨0, 0⟩).kind ≠ .empty ∧
      ∀ i : Fin 16, (armed 16).captures[i] ≠ none) ∧
    (AtRest (armed 15) ∧ (∀ f, Reaches (armed 15) f) ∧ ((armed 15).entry ⟨0, 0⟩).kind ≠ .empty ∧
      (armed 15).captures[(15 : Fin 16)] = none ∧ ∀ j : Fin 16, j < 15 → (armed 15).captures[j] ≠ none) :=
  ⟨⟨bench_rest, bench_reaches, by decide +kernel⟩,
    ⟨atRest (by decide +kernel), reaches (by decide +kernel), by decide +kernel⟩,
    atRest (by decide +kernel), reaches (by decide +kernel), by decide +kernel⟩

theorem witness_DisarmCapture :
    AtRest (armed 15) ∧ (∀ f, Reaches (armed 15) f) ∧ 15 < (16 : Byte).toNat ∧ (15 : Byte).toNat = (15 : Fin 16).val ∧
      (armed 15).captures[(14 : Fin 16)] = some ⟨900, ⟨0, 0⟩⟩ :=
  ⟨atRest (by decide +kernel), reaches (by decide +kernel), by decide +kernel⟩

/-! #### Segment configuration -/

/-- A SET_SEGMENT of segment 0 that gives the supply budget, or the line rate, or a mask bit without a field. -/
def setBudget (n : Nat) : List Byte := [2, 0, 0] ++ leBytes 2 384 ++ leBytes 2 n ++ List.replicate 18 0
def setRate : List Byte := [1, 0, 0] ++ leBytes 2 768 ++ List.replicate 20 0
def setNothing : List Byte := List.replicate 25 0
def badMask : List Byte := [0, 0, 2] ++ List.replicate 22 0

theorem witness_SegmentFields :
    newConfig (0 :: setBudget 4000) SegConfig.reset = some { SegConfig.reset with budget := 3000 } ∧
      newConfig (0 :: setBudget 49) SegConfig.reset = some { SegConfig.reset with budget := 50 } ∧
      newConfig (0 :: badMask) SegConfig.reset = none := by decide +kernel

theorem witness_SetSegment :
    AtRest bench ∧ (∀ f, Reaches bench f) ∧ badMask.length = 25 ∧ newConfig (0 :: badMask) (bench.seg 0).config = none ∧
      setNothing.length = 25 ∧ newConfig (0 :: setNothing) (bench.seg 0).config = some SegConfig.reset ∧
      setRate.length = 25 ∧ newConfig (0 :: setRate) (bench.seg 0).config = some { SegConfig.reset with lineRate := .r76800 } ∧
      (bench.seg 0).sup.state ≠ .off ∧
      newConfig (1 :: setRate) (bench.seg 1).config = some { SegConfig.reset with lineRate := .r76800 } ∧
      (bench.seg 1).sup.state = .off :=
  ⟨bench_rest, bench_reaches, by decide +kernel⟩

/-- A SET_SEGMENT of segment 0 that gives the economy level alone. -/
def setLevel (n : Byte) : List Byte := [8, 0, 0] ++ List.replicate 5 0 ++ [n] ++ List.replicate 16 0

theorem witness_SetSegment_levelOnly :
    AtRest lit ∧ (∀ f, Reaches lit f) ∧ (setLevel 4).length = 25 ∧
      newConfig (0 :: setLevel 4) (lit.seg 0).config = some { SegConfig.reset with economyLevel := 4 } ∧
      (lit.seg 0).gov.economy = false := ⟨lit_rest, lit_reaches, by decide +kernel⟩

theorem witness_SegmentFieldsBad :
    segmentFieldsBad (0 :: badMask) ∧ segmentFieldsBad (0 :: ([0, 4, 0] ++ List.replicate 22 2)) ∧
      ¬segmentFieldsBad (0 :: setNothing) ∧ ¬segmentFieldsBad (0 :: setRate) := by
  simp only [segmentFieldsBad]
  decide +kernel

theorem lit_loadSound (g : Seg) : LoadSound lit g :=
  ⟨by revert g; decide +kernel, by revert g; decide +kernel, by revert g; decide +kernel⟩

theorem witness_SetSegment_load : AtRest lit ∧ (∀ f, Reaches lit f) ∧ LoadSound lit 0 ∧
    newConfig (0 :: setBudget 50) (lit.seg 0).config = some { SegConfig.reset with budget := 50 } :=
  ⟨lit_rest, lit_reaches, lit_loadSound 0, by decide +kernel⟩

theorem witness_SetColourCurrents :
    AtRest lit ∧ (∀ f, Reaches lit f) ∧ 128 ≤ (128 : Byte).toNat ∧ (127 : Byte).toNat < 128 ∧
      ∀ e ∈ (lit.gov 0).lit, e.effective = lit.levelNow 0 e :=
  ⟨lit_rest, lit_reaches, by decide +kernel⟩

/-- In economy with nothing lit and nothing waiting, and with a load above 7/8 of U. -/
def inEconomy (base : Nat) : State := bench.updGov 0 fun v => { v with economy := true, baseLoad := base }

theorem witness_Economy :
    (inEconomy 7000).link.notices.length < 32 ∧
    ((inEconomy 7000).seg 0).gov.economy = true ∧ ((inEconomy 7000).seg 0).gov.queue = [] ∧
      ((inEconomy 7000).seg 0).gov.lit = [] ∧ 8 * 7000 ≤ 7 * (16 * ((inEconomy 7000).seg 0).config.budget) ∧
      ¬8 * 7001 ≤ 7 * (16 * ((inEconomy 7001).seg 0).config.budget) := by decide +kernel

/-- Two displays of one priority lit: the later admitted is the victim. -/
def twoLit : State :=
  ({ lit with tasks := [task 0 7 .shown, { task 1 8 .shown with slot := ⟨0, 1⟩ }] }).updGov 0 fun v =>
    { v with lit := v.lit ++ [LitEntry.mk 1 8 1 .steady 0 16 16], loads := Vector.replicate 8 640 }

theorem witness_ShedVictim :
    (twoLit.seg 0).gov.lit = [⟨0, 7, 1, .steady, 0, 16, 16⟩] ++ ⟨1, 8, 1, .steady, 0, 16, 16⟩ :: [] ∧
      (twoLit.task? 7).map (fun u => (twoLit.picker u.picker).priority) = some 0 ∧
      (twoLit.task? 8).map (fun u => (twoLit.picker u.picker).priority) = some 0 := by decide +kernel

/-! #### Segment states -/

/-- Segment 1 OFF with its trip input asserted. -/
def tripped : State := bench.updSeg 1 fun x => { x with trip := true }

theorem witness_PowerOn :
    (AtRest bench ∧ (∀ f, Reaches bench f) ∧ (bench.seg 3).sup.state = .off ∧ (bench.seg 3).trip = false) ∧
    (AtRest tripped ∧ (∀ f, Reaches tripped f) ∧ (tripped.seg 1).sup.state = .off ∧ (tripped.seg 1).trip = true) ∧
    (AtRest (inState .held) ∧ (∀ f, Reaches (inState .held) f) ∧ ((inState .held).seg 0).sup.state = .held) :=
  ⟨⟨bench_rest, bench_reaches, by decide +kernel⟩, ⟨atRest (by decide +kernel), reaches (by decide +kernel), by decide +kernel⟩,
    inState_rest _ (by decide), inState_reaches _, by decide +kernel⟩

theorem witness_PowerOff :
    (AtRest bench ∧ (∀ f, Reaches bench f) ∧ (bench.seg 3).sup.state = .off) ∧
    (AtRest (inState .fault) ∧ (∀ f, Reaches (inState .fault) f) ∧ ((inState .fault).seg 0).sup.state = .fault) ∧
    (AtRest lit ∧ (∀ f, Reaches lit f) ∧ (lit.seg 0).sup.state = .running ∧ lit.link.notices.length < 32) :=
  ⟨⟨bench_rest, bench_reaches, by decide +kernel⟩, ⟨inState_rest _ (by decide), inState_reaches _, by decide +kernel⟩,
    lit_rest, lit_reaches, by decide +kernel⟩

/-- The bench with a POLL in flight and, if `busy`, a discovery run. -/
def polling (busy : Bool) : State :=
  (flying bench (pollExchange 0)).updSup 0 fun v => { v with discovery := if busy then some ⟨5, 0, 0, 0, 0, 0, 0⟩ else none }

theorem polling_rest (busy : Bool) : AtRest (polling busy) := by cases busy <;> exact atRest (by decide +kernel)

theorem witness_HoldSegment :
    (AtRest bench ∧ (∀ f, Reaches bench f) ∧ (bench.seg 1).sup.state ≠ .running) ∧
    (AtRest (polling true) ∧ (∀ f, Reaches (polling true) f) ∧ ((polling true).seg 0).sup.state = .running ∧
      ((polling true).seg 0).sup.discovery ≠ none) ∧
    (AtRest (polling false) ∧ (∀ f, Reaches (polling false) f) ∧ ((polling false).seg 0).sup.discovery = none ∧
      ((polling false).seg 0).line.idle = false) ∧
    ((bench.seg 0).sup.state = .running ∧ (bench.seg 0).sup.discovery = none ∧ (bench.seg 0).line.idle = true) :=
  ⟨⟨bench_rest, bench_reaches, by decide +kernel⟩, ⟨polling_rest _, reaches (by rfl), by decide +kernel⟩,
    ⟨polling_rest _, reaches (by rfl), by decide +kernel⟩, by decide +kernel⟩

/-- BREAK_SEGMENT, HOLD_SEGMENT and DISCOVER on a line that is still active after a held line, a break waiting or not. -/
theorem witness_StillActive (wait : Bool) :
    let s := stillActive.updSup 0 fun v => { v with breakPending := wait }
    AtRest s ∧ (∀ f, Reaches s f) ∧ (s.seg 0).sup.state = .running ∧ (s.seg 0).sup.discovery = none ∧
      (s.seg 0).line.idle = true ∧ (s.seg 0).line.activeMs ≠ 0 ∧ (s.seg 0).sup.breakPending = wait := by
  cases wait <;> exact ⟨atRest (by decide +kernel), reaches (by decide +kernel), by decide +kernel⟩

/-- HOLDING, with a POLL still in flight. -/
def holding : State := (polling false).updSup 0 fun v => { v with state := .holding, holdTag := some 5 }

theorem witness_ReleaseSegment :
    (AtRest bench ∧ (∀ f, Reaches bench f) ∧ (bench.seg 0).sup.state ≠ .holding ∧ (bench.seg 0).sup.state ≠ .held) ∧
    (AtRest (rawBench (.command .poll) 4) ∧ (∀ f, Reaches (rawBench (.command .poll) 4) f) ∧
      ((rawBench (.command .poll) 4).seg 0).sup.state = .held ∧ ((rawBench (.command .poll) 4).seg 0).sup.raw ≠ none) ∧
    (AtRest holding ∧ (∀ f, Reaches holding f) ∧ (holding.seg 0).sup.state = .holding ∧
      (holding.seg 0).sup.holdTag = some 5) ∧
    (AtRest (inState .held) ∧ (∀ f, Reaches (inState .held) f) ∧ ((inState .held).seg 0).sup.state = .held ∧
      ((inState .held).seg 0).sup.raw = none ∧ ((inState .held).seg 0).sup.holdTag = none ∧
      ((inState .held).seg 0).sup.breakPending = false ∧ ((inState .held).seg 0).line.idle = true) ∧
    AtRest ((inState .held).updLine 0 fun l => { l with activeMs := 1 }) :=
  ⟨⟨bench_rest, bench_reaches, by decide +kernel⟩, ⟨atRest (by decide +kernel), reaches (by decide +kernel), by decide +kernel⟩,
    ⟨atRest (by decide +kernel), reaches (by decide +kernel), by decide +kernel⟩,
    ⟨inState_rest _ (by decide), inState_reaches _, by decide +kernel⟩, atRest (by decide +kernel)⟩

theorem witness_RawExchange_short : ([0, 0x21] : List Byte).length < 3 := by decide

theorem witness_RawExchange :
    (AtRest bench ∧ (∀ f, Reaches bench f) ∧ 3 < (4 : Byte).toNat ∧ 63 < (64 : Byte).toNat ∧ (63 : Byte).toNat ≤ 63 ∧
      (bench.seg 0).sup.state ≠ .held) ∧
    (AtRest (rawBench .brk 0) ∧ (∀ f, Reaches (rawBench .brk 0) f) ∧ ((rawBench .brk 0).seg 0).sup.state = .held ∧
      ((rawBench .brk 0).seg 0).sup.raw ≠ none) ∧
    (AtRest (inState .held) ∧ (∀ f, Reaches (inState .held) f) ∧ ((inState .held).seg 0).sup.state = .held ∧
      ((inState .held).seg 0).sup.raw = none) :=
  ⟨⟨bench_rest, bench_reaches, by decide +kernel⟩, ⟨atRest (by decide +kernel), reaches (by decide +kernel), by decide +kernel⟩,
    inState_rest _ (by decide), inState_reaches _, by decide +kernel⟩

/-! #### The module directory -/

/-- The bench's slot 2 PROVISIONED with serial 9. -/
def provisioned : State :=
  bench.updEntry ⟨0, 1⟩ fun e => { e with kind := .provisioned, expected := some 9 }

theorem witness_ProvisionSlot :
    (AtRest bench ∧ (∀ f, Reaches bench f) ∧ (128 : Byte).toNat % 64 = 0 ∧ (1 : Byte).toNat = 64 * 0 + 0 + 1 ∧
      (bench.entry ⟨0, 0⟩).kind ≠ .empty ∧ (254 : Byte).toNat = 64 * 3 + 61 + 1 ∧ (bench.entry ⟨3, 61⟩).kind = .empty) ∧
    (∀ r, ¬∃ q : SlotRef, q ≠ r ∧ (bench.entry q).kind = .provisioned ∧ (bench.entry q).expected = some 9) ∧
    (AtRest provisioned ∧ (∀ f, Reaches provisioned f) ∧ ∃ q : SlotRef, q ≠ ⟨0, 0⟩ ∧
      (provisioned.entry q).kind = .provisioned ∧ (provisioned.entry q).expected = some 9) :=
  ⟨⟨bench_rest, bench_reaches, by decide +kernel⟩, fun _ ⟨q, _, h, _⟩ => bench_nothing_provisioned q h,
    atRest (by decide +kernel), reaches (by decide +kernel), ⟨0, 1⟩, by decide +kernel⟩

theorem witness_UnprovisionSlot :
    (AtRest (armed 0) ∧ (∀ f, Reaches (armed 0) f) ∧ (0 : Byte).toNat % 64 = 0 ∧ ((armed 0).entry ⟨3, 61⟩).kind = .empty ∧
      ((armed 0).entry ⟨0, 0⟩).kind ≠ .empty ∧
      ¬((∃ u ∈ (armed 0).tasks, u.slot = ⟨0, 0⟩) ∨
        ∃ (i : Fin 16) (c : Capture), (armed 0).captures[i] = some c ∧ c.slot = ⟨0, 0⟩)) ∧
    (AtRest (armed 1) ∧ (∀ f, Reaches (armed 1) f) ∧ ((armed 1).entry ⟨0, 0⟩).kind ≠ .empty ∧
      ∃ (i : Fin 16) (c : Capture), (armed 1).captures[i] = some c ∧ c.slot = ⟨0, 0⟩) := by
  refine ⟨⟨atRest (by decide +kernel), reaches (by decide +kernel), by decide, by decide +kernel, by decide +kernel, ?_⟩,
    atRest (by decide +kernel), reaches (by decide +kernel), by decide +kernel, 0, ⟨900, ⟨0, 0⟩⟩, by decide +kernel⟩
  rintro (⟨u, h, -⟩ | ⟨i, c, h, -⟩)
  · cases h
  · cases (armed_none i).symm.trans h

/-! #### The line -/

/-- An exchange in flight to address 1. -/
def toModule1 (kind : LineKind) : State := flying bench { pollExchange 0 with kind := kind }

theorem toModule1_rest (kind : LineKind) : AtRest (toModule1 kind) := by cases kind <;> exact atRest (by decide +kernel)

theorem witness_SilentExchange (c : Instr) (kind : LineKind) (h : (c, kind) ∈ lineEnds 0 (.line false [])) :
    (c, kind) ∈ lineEnds 0 (.line false []) ∧ AtRest (toModule1 kind) ∧
      ((toModule1 kind).seg 0).line.inFlight = some { pollExchange 0 with kind := kind } ∧
      (pollExchange 0).target = some 0 ∧ (pollExchange 0).orphaned = false ∧
      ((toModule1 kind).entry ⟨0, 0⟩).kind ≠ .empty ∧ ((toModule1 kind).entry ⟨0, 0⟩).presence.silent = false :=
  ⟨h, toModule1_rest kind, rfl, rfl, rfl, by cases kind <;> decide +kernel, by cases kind <;> decide +kernel⟩

/-- A POLL that ends in a start pattern alone, in a reply of another kind, in one from address 2, one tick off the window,
and in a held line. -/
theorem witness_OtherEnds :
    (Instr.poll 0 (.answered 73), LineKind.poll) ∈ lineEnds 0 (.answered 73) ∧ AtRest (toModule1 .poll) ∧
    receive ((toModule1 .poll).activityAfter 0 1 .poll [] (.line true [⟨100, 24⟩])) = .invalid 100 ∧
    receive ((toModule1 .poll).activityAfter 0 1 .poll [] (.line true (frameActivity 48 [1, 0x32, 0, 0, 0, 0]))) =
      .frame 48 [1, 0x32, 0, 0, 0, 0] ∧
    receive ((toModule1 .poll).activityAfter 0 1 .poll [] (.line true (frameActivity 48 [2, 0x31, 0, 0, 0, 0, 0, 0]))) =
      .frame 48 [2, 0x31, 0, 0, 0, 0, 0, 0] ∧ (statusOf [0, 0, 0, 0, 0, 0]).isSome ∧
    receive ((toModule1 .poll).activityAfter 0 1 .poll [] (.answered 73)) = .frame 73 [1, 0x31, 0, 0, 0, 0, 0, 0xD6] ∧
    ¬73 ≤ ((toModule1 .poll).seg 0).tracker.delay + ((toModule1 .poll).seg 0).config.window ∧
    receive ((toModule1 .poll).activityAfter 0 1 .poll [] (.line true [⟨100, 3136⟩])) = .held ∧
    ((toModule1 .poll).seg 0).sup.candidate = none ∧ ((toModule1 .poll).seg 0).sup.condition = .normal :=
  ⟨by simp [lineEnds], toModule1_rest _, by decide +kernel⟩

/-- A POLL whose entry has become EMPTY and is met again, or is still EMPTY. -/
def orphaned (ix : Fin 62) : State := flying bench { pollExchange ix with orphaned := true }

/-- Silence and an accepted reply for an entry that has become EMPTY while the POLL was in flight. -/
theorem witness_OrphanedEnd :
    (AtRest (orphaned 0) ∧ ((orphaned 0).entry ⟨0, 0⟩).kind ≠ .empty ∧
      receive ((orphaned 0).activityAfter 0 1 .poll [] (.line true [])) = .silence ∧
      receive ((orphaned 0).activityAfter 0 1 .poll [] (.answered 72)) = .frame 72 [1, 0x31, 0, 0, 0, 0, 0, 0xD6]) ∧
    AtRest (orphaned 1) ∧ ((orphaned 1).entry ⟨0, 1⟩).kind = .empty :=
  ⟨⟨atRest (by decide +kernel), by decide +kernel⟩, atRest (by decide +kernel), by decide +kernel⟩

/-- A POLL in flight on a line that has been seen LOW `n` times, or that is SHORTED. -/
def lowSeen (n : Nat) (c : LineCondition) : State :=
  (toModule1 .poll).updSup 0 fun v =>
    { v with candidate := if n = 0 then none else some .low, senseRun := n, condition := c }

theorem witness_HeldLine :
    (AtRest (lowSeen 1 .normal) ∧ ((lowSeen 1 .normal).seg 0).sup.senseRun + 1 < 3) ∧
    (AtRest (lowSeen 0 .shorted) ∧ ((lowSeen 0 .shorted).seg 0).sup.condition = .shorted) ∧
    AtRest (lowSeen 2 .opened) ∧ 3 ≤ ((lowSeen 2 .opened).seg 0).sup.senseRun + 1 ∧
      ((lowSeen 2 .opened).seg 0).sup.condition ≠ .shorted ∧ ((lowSeen 2 .opened).seg 0).sup.state ≠ .off ∧
      receive ((lowSeen 2 .opened).activityAfter 0 1 .poll [] (.line true [⟨100, 3136⟩])) = .held :=
  ⟨⟨atRest (by decide +kernel), by decide +kernel⟩, ⟨atRest (by decide +kernel), by decide +kernel⟩,
    atRest (by decide +kernel), by decide +kernel⟩

/-- Slot 1 with an entry of the given presence and runs. -/
def presenceOf (x : Presence) (good miss : Nat) : State :=
  lit.updEntry ⟨0, 0⟩ fun e => { e with presence := x, goodRun := good, missRun := miss }

/-- The runs at which a miss and a good outcome change presence: unlock 8, lock 3. -/
theorem witness_Outcomes :
    (SegConfig.reset.unlock = 8 ∧ ¬1 < 1 ∧ 1 < 8 ∧ 6 + 1 < 8 ∧ 8 ≤ 7 + 1 ∧ SegConfig.reset.lock = 3 ∧ 1 + 1 < 3 ∧ 3 ≤ 2 + 1) ∧
    ((presenceOf .coasting 0 7).entry ⟨0, 0⟩).missRun = 7 ∧
    ((presenceOf .coasting 0 7).seg 0).config.unlock = 8 ∧ ((presenceOf .acquiring 2 0).entry ⟨0, 0⟩).goodRun = 2 ∧
    (presenceOf .acquiring 2 0).link.notices.length < 32 := by decide +kernel

/-- Slots that stop being serviceable: empty, with a BLOCKED, a waiting and a SHOWN task; and one that does not. -/
theorem witness_LoseService :
    (TasksSound lit.tasks ∧ (lit.slot ⟨0, 0⟩).serviceable = true ∧ (lit.entry ⟨0, 0⟩).presence = .present ∧
      (lit.seg 0).sup.state = .running ∧ (lit.entry ⟨0, 0⟩).binding ≠ .mismatch) ∧
    (((presenceOf .lost 0 0).slot ⟨0, 0⟩).serviceable = true ∧ ((presenceOf .lost 0 0).entry ⟨0, 0⟩).presence = .lost ∧
      ((presenceOf .lost 0 0).slot ⟨0, 0⟩).current = some 7 ∧
      (presenceOf .lost 0 0).task? 7 = some (task 0 7 .shown) ∧ ((presenceOf .lost 0 0).seg 0).gov.queue = []) ∧
    (∀ st ∈ [TaskState.blocked, .waitLoad],
      (((benchWith st).updSup 0 fun v => { v with state := .starting }).slot ⟨0, 0⟩).serviceable = true ∧
      (((benchWith st).updSup 0 fun v => { v with state := .starting }).slot ⟨0, 0⟩).current = some 7 ∧
      (((benchWith st).updSup 0 fun v => { v with state := .starting }).seg 0).gov.lit = []) ∧
    ((inState .starting).slot ⟨0, 0⟩).serviceable = true ∧ ((inState .starting).slot ⟨0, 0⟩).current = none :=
  ⟨⟨task_sound _, by decide +kernel⟩, by decide +kernel⟩

/-- Slots that become serviceable: empty, with a BLOCKED task and its stamp, with a SHOWN one; and one that does not. -/
theorem witness_RegainService :
    (∀ st ∈ [TaskState.blocked, .shown],
      let s := (benchWith st).updSlot ⟨0, 0⟩ fun x => { x with serviceable := false, tenure := some 5 }
      (s.slot ⟨0, 0⟩).serviceable = false ∧ (s.slot ⟨0, 0⟩).current = some 7 ∧ s.task? 7 = some (task 0 7 st)) ∧
    ((unserviceable.slot ⟨0, 0⟩).serviceable = false ∧ (unserviceable.slot ⟨0, 0⟩).current = none ∧
      (unserviceable.seg 0).sup.state = .running ∧ (unserviceable.entry ⟨0, 0⟩).presence = .present) ∧
    (bench.slot ⟨1, 0⟩).serviceable = false ∧ (bench.seg 1).sup.state = .off := by decide +kernel

/-- A seq that differs from the shadow's, with and without a command queued for the address. -/
theorem witness_Resend :
    (1 : Nibble) ≠ (bench.shadow ⟨0, 0⟩).seq ∧ (∀ d ∈ (bench.seg 0).line.displays, d.ix ≠ 0) ∧
      (bench.entry ⟨0, 0⟩).presence ≠ .absent ∧ (bench.entry ⟨0, 0⟩).presence ≠ .lost ∧
      (bench.entry ⟨0, 1⟩).presence = .absent := by decide +kernel

/-- Slot 2 holding serial 9 beside the LEARNED slot 1: no other holder, and slot 2 as the one to vacate. -/
def holder (kind : EntryKind) : State :=
  bench.updEntry ⟨0, 1⟩ fun e => { e with kind := kind, seen := some 9, presence := .coasting }

theorem holder_only (kind : EntryKind) (p : SlotRef) (h : ((holder kind).entry p).seen = some 9) : p = ⟨0, 1⟩ := by
  obtain ⟨g, ix⟩ := p
  revert h
  revert g ix
  cases kind <;> decide +kernel

theorem witness_Identity :
    (∀ q : SlotRef, q ≠ ⟨0, 1⟩ → ((holder .learned).entry q).seen ≠ some 9) ∧
    (((holder .learned).entry ⟨0, 1⟩).kind = .learned ∧ ((holder .learned).entry ⟨0, 1⟩).seen = some 9) ∧
    (⟨0, 1⟩ : SlotRef) ≠ ⟨0, 0⟩ ∧ (∀ p : SlotRef, p ≠ ⟨0, 0⟩ → ((holder .provisioned).entry p).seen = some 9 → p = ⟨0, 1⟩) ∧
    ((provisioned.entry ⟨0, 1⟩).expected = some 9 ∧ (provisioned.entry ⟨0, 1⟩).seen ≠ some 8 ∧
      (provisioned.entry ⟨0, 2⟩).kind = .empty) :=
  ⟨fun q hq h => hq (holder_only _ q h), by decide +kernel, by decide, fun p _ h => holder_only _ p h,
    by decide +kernel⟩

/-- A POLL of the module at address 1, answered at the edge of the window, 48 + 24 ticks. -/
theorem witness_AcceptedReply :
    (Instr.poll 0 (.answered 72), LineKind.poll) ∈ lineEnds 0 (.answered 72) ∧ AtRest (toModule1 .poll) ∧
      ((toModule1 .poll).seg 0).line.inFlight = some (pollExchange 0) ∧
      receive ((toModule1 .poll).activityAfter 0 1 .poll [] (.answered 72)) = .frame 72 [1, 0x31, 0, 0, 0, 0, 0, 0xD6] ∧
      (statusOf [0, 0, 0, 0, 0, 0xD6]).isSome ∧
      72 ≤ ((toModule1 .poll).seg 0).tracker.delay + ((toModule1 .poll).seg 0).config.window ∧
      ((toModule1 .poll).seg 0).tracker.delay ≤ 72 + ((toModule1 .poll).seg 0).config.window ∧
      ((toModule1 .poll).entry ⟨0, 0⟩).presence = .present ∧ ((toModule1 .poll).shadow ⟨0, 0⟩).seq = 0 :=
  ⟨by simp [lineEnds], toModule1_rest _, rfl, by decide +kernel, by decide +kernel, by decide +kernel, by decide +kernel,
    by decide +kernel, by decide +kernel⟩

/-- An IDENT, answered at the other edge, 48 - 24 ticks. -/
theorem witness_AcceptedReply_ident :
    (Instr.ident 0 (.answered 24), LineKind.ident) ∈ lineEnds 0 (.answered 24) ∧ AtRest (toModule1 .ident) ∧
      receive ((toModule1 .ident).activityAfter 0 1 .ident [] (.answered 24)) = .frame 24 [1, 0x32, 0xD6, 0x04, 0x02, 0x5B] ∧
      ((toModule1 .ident).seg 0).tracker.delay ≤ 24 + ((toModule1 .ident).seg 0).config.window ∧
      ∀ q : SlotRef, q ≠ ⟨0, 0⟩ → ((toModule1 .ident).entry q).seen ≠ some 0x5B0204D6 := by
  refine ⟨by simp [lineEnds], toModule1_rest _, by decide +kernel, by decide +kernel, ?_⟩
  rintro ⟨g, ix⟩
  revert g ix
  decide +kernel

/-- In HOLDING the accepted reply of an ABSENT entry is only counted. -/
theorem witness_AcceptedReply_holding :
    let s := ((toModule1 .poll).updSup 0 fun v => { v with state := .holding }).updEntry ⟨0, 0⟩ fun e =>
      { e with presence := .absent }
    AtRest s ∧ (s.seg 0).sup.state ≠ .running ∧ (s.entry ⟨0, 0⟩).kind ≠ .empty ∧ (s.entry ⟨0, 0⟩).presence = .absent ∧
      receive (s.activityAfter 0 1 .poll [] (.answered 72)) = .frame 72 [1, 0x31, 0, 0, 0, 0, 0, 0xD6] :=
  ⟨atRest (by decide +kernel), by decide +kernel⟩

theorem witness_SyncClearsMark :
    AtRest (flying bench syncExchange) ∧ ((flying bench syncExchange).seg 0).line.inFlight = some syncExchange ∧
      syncExchange.kind = .sync ∧ (bench.seg 0).sup.state = .running ∧ (bench.seg 0).sup.breakPending = false ∧
      (bench.seg 0).line.breaking = false := ⟨atRest (by decide +kernel), rfl, by decide +kernel⟩

/-- A discovery round in flight after `n` rounds, the latest `e` of them empty. -/
def discovering (n e : Nat) : State :=
  (flying bench roundExchange).updSup 0 fun v => { v with discovery := some ⟨5, 0, n, e, 0, 0, 0⟩ }

theorem witness_SilentRound :
    (AtRest (discovering 30 0) ∧ ((discovering 30 0).seg 0).sup.state = .running ∧
      ((discovering 30 0).seg 0).line.inFlight = some roundExchange ∧ roundExchange.kind = .enumerate ∧
      ((discovering 30 0).seg 0).sup.discovery = some ⟨5, 0, 30, 0, 0, 0, 0⟩ ∧ 30 + 1 < 32) ∧
    (AtRest (discovering 1 1) ∧ ((discovering 1 1).seg 0).sup.discovery = some ⟨5, 0, 1, 1, 0, 0, 0⟩) ∧
    (AtRest (discovering 31 0) ∧ ((discovering 31 0).seg 0).sup.discovery = some ⟨5, 0, 31, 0, 0, 0, 0⟩ ∧ 32 ≤ 31 + 1 ∧
      (discovering 31 0).link.notices.length < 32) :=
  ⟨⟨atRest (by decide +kernel), by decide +kernel⟩, ⟨atRest (by decide +kernel), by decide +kernel⟩,
    atRest (by decide +kernel), by decide +kernel⟩

/-- A start pattern alone in slot 0 garbles it. -/
theorem witness_GarbledRound :
    AtRest (discovering 30 1) ∧ ((discovering 30 1).seg 0).sup.discovery = some ⟨5, 0, 30, 1, 0, 0, 0⟩ ∧
      roundHeld ((discovering 30 1).roundActivity 0 (.line [⟨0, 24⟩])) = false ∧
      (∀ n, SlotHeard.clean n ∉ contentionRound ((discovering 30 1).roundActivity 0 (.line [⟨0, 24⟩]))) ∧
      SlotHeard.garbled ∈ contentionRound ((discovering 30 1).roundActivity 0 (.line [⟨0, 24⟩])) ∧ 30 + 1 < 32 := by
  have h : contentionRound ((discovering 30 1).roundActivity 0 (.line [⟨0, 24⟩])) =
      .garbled :: List.replicate 7 .empty := by decide +kernel
  refine ⟨atRest (by decide +kernel), by decide +kernel, by decide +kernel, ?_, by rw [h]; decide, by decide⟩
  intro n
  simp [h, List.replicate]

/-- A service queue with no room. -/
def serviceFull : State := (discovering 0 0).updLine 0 fun l => { l with services := List.replicate 16 (.ident 0) }

/-- An identity byte that differs from the entry's serial, with nothing waiting, with an IDENT waiting, with no room. -/
theorem witness_IdentityByte :
    let reply : StatusReply := ⟨0, 0, 0, 0, false, false, false, 0xD7⟩
    reply.fresh = false ∧ (bench.entry ⟨0, 0⟩).seen = some 0x5B0204D6 ∧
      (0x5B0204D6 : Serial).setWidth 8 ≠ reply.identity ∧ (bench.seg 0).line.services = [] ∧
      (bench.seg 0).line.inFlight = none ∧ ServiceCmd.ident 0 ∈ (serviceFull.seg 0).line.services ∧
      16 ≤ (serviceFull.seg 0).line.services.length ∧ (provisioned.entry ⟨0, 1⟩).seen = none ∧
      (provisioned.entry ⟨0, 1⟩).kind = .provisioned ∧ (provisioned.entry ⟨0, 1⟩).expected = some 9 := by decide +kernel

/-- A round with a CLEAN slot; held rounds on a line seen LOW once, seen LOW twice, and SHORTED. -/
theorem witness_Rounds :
    (AtRest (discovering 31 1) ∧
      contentionRound ((discovering 31 1).roundActivity 0 (.line (frameActivity 128 [0, 0x33, 9, 0, 0, 0]))) =
        .clean 9 :: List.replicate 7 .empty ∧
      roundHeld ((discovering 31 1).roundActivity 0 (.line (frameActivity 128 [0, 0x33, 9, 0, 0, 0]))) = false) ∧
    roundHeld ((discovering 31 1).roundActivity 0 (.line [⟨100, 3136⟩])) = true ∧
    ∀ n ∈ [1, 2], ∀ c ∈ [LineCondition.normal, .shorted],
      let s := (discovering 31 1).updSup 0 fun v => { v with candidate := some .low, senseRun := n, condition := c }
      resting s = true ∧ (s.seg 0).line.inFlight = some roundExchange ∧ (s.seg 0).sup.condition = c ∧
        (s.seg 0).sup.senseRun + 1 = n + 1 ∧ (s.seg 0).sup.state ≠ .off ∧ (s.seg 0).sup.state ≠ .fault :=
  ⟨⟨atRest (by decide +kernel), by decide +kernel⟩, by decide +kernel, by decide +kernel⟩

/-- Every address of segment 0 taken. -/
def allTaken : State :=
  (discovering 0 0).updSeg 0 fun x => { x with entries := Vector.replicate 62 { entry1 with seen := some 3 } }

theorem witness_SerialPlaced :
    16 ≤ (serviceFull.seg 0).line.services.length ∧ ((discovering 0 0).seg 0).line.services.length < 16 ∧
    (∀ ix : Fin 62, (provisioned.entry ⟨0, ix⟩).kind = .provisioned → ix = 1) ∧
    ((provisioned.entry ⟨0, 1⟩).expected = some 9 ∧ (provisioned.entry ⟨0, 1⟩).binding ≠ .mismatch) ∧
    ((provisioned.updEntry ⟨0, 1⟩ fun e => { e with binding := .mismatch }).entry ⟨0, 1⟩).binding = .mismatch ∧
    (∀ ix : Fin 62, ((discovering 0 0).entry ⟨0, ix⟩).kind ≠ .provisioned) ∧
    (((discovering 0 0).entry ⟨0, 1⟩).kind = .empty ∧ ∀ j : Fin 62, j < 1 → ((discovering 0 0).entry ⟨0, j⟩).kind ≠ .empty) ∧
    (∀ ix : Fin 62, (allTaken.entry ⟨0, ix⟩).kind = .learned) := by decide +kernel

/-- No entry of the bench has seen serial 9; entry 2 of `holder` alone has. -/
theorem witness_SerialHolders :
    (∀ q : SlotRef, ((discovering 0 0).entry q).seen ≠ some 9) ∧ (∀ q : SlotRef, (allTaken.entry q).seen ≠ some 9) ∧
    (∀ ix : Fin 62, ((holder .learned).entry ⟨0, ix⟩).kind ≠ .provisioned) ∧
    ∀ p : SlotRef, ((holder .learned).entry p).seen = some 9 → p = ⟨0, 1⟩ := by
  refine ⟨?_, ?_, by decide +kernel, holder_only _⟩ <;> rintro ⟨g, ix⟩ <;> revert g ix <;> decide +kernel

/-- Slot 3 expects the serial that slot 2 holds. -/
def expectedElsewhere (kind : EntryKind) : State :=
  (holder kind).updEntry ⟨0, 2⟩ fun e => { e with kind := .provisioned, expected := some 9 }

/-- The clause of a serial that one entry expects and another holds: its hypotheses, and where the serial goes. -/
theorem witness_SerialExpectedElsewhere (p : SlotRef) (hp : p ≠ ⟨0, 2⟩)
    (h : ((expectedElsewhere .learned).entry p).seen = some 9) : p = ⟨0, 1⟩ := by
  obtain ⟨g, ix⟩ := p
  revert h hp
  revert g ix
  decide +kernel

theorem test_expected_serial_vacates_holder :
    let s := expectedElsewhere .learned
    let t := s.handleSerial 0 9
    (∀ ix : Fin 62, (s.entry ⟨0, ix⟩).kind = .provisioned → ix = 2) ∧ (s.entry ⟨0, 2⟩).binding ≠ .mismatch ∧
      (s.entry ⟨0, 1⟩).seen = some 9 ∧ (t.entry ⟨0, 1⟩).kind = .empty ∧ (t.entry ⟨0, 2⟩).seen = some 9 ∧
      (t.entry ⟨0, 2⟩).binding = .bound ∧ (t.seg 0).line.services = [.assign 9 2] ∧
      t.entry ⟨0, 2⟩ = { (s.vacate ⟨0, 1⟩ 9).entry ⟨0, 2⟩ with seen := some 9, binding := .bound } := by
  decide +kernel

/-- The other ends of a raw POLL, and a raw SYNC. -/
theorem witness_RawExchangeEnds_others :
    let s := rawBench (.command .poll) 1
    (AtRest s ∧ (s.seg 0).sup.state = .held ∧ (s.seg 0).sup.raw = some ⟨5, .command .poll, 1, [], .gap, 0⟩) ∧
    receive (s.activityAfter 0 1 .poll [] (.line true [⟨100, 24⟩])) = .invalid 100 ∧
    receive (s.activityAfter 0 1 .poll [] (.answered 73)) = .frame 73 [1, 0x31, 0, 0, 0, 0, 0, 0xD6] ∧
    (s.seg 0).tracker.delay + (s.seg 0).config.window < 73 ∧
    receive (s.activityAfter 0 1 .poll [] (.line true [⟨100, 3136⟩])) = .held ∧ (s.seg 0).sup.candidate = none ∧
    (AtRest (rawBench (.command .sync) 63) ∧
      ((rawBench (.command .sync) 63).seg 0).sup.raw = some ⟨5, .command .sync, 63, [], .gap, 0⟩) ∧
    let t := s.updSup 0 fun v => { v with candidate := some .low, senseRun := 2 }
    AtRest t ∧ (t.seg 0).sup.condition ≠ .shorted ∧ 3 ≤ (t.seg 0).sup.senseRun + 1 :=
  ⟨⟨atRest (by decide +kernel), by decide +kernel⟩, by decide +kernel, by decide +kernel, by decide +kernel,
    by decide +kernel, by decide +kernel, ⟨atRest (by decide +kernel), by decide +kernel⟩, atRest (by decide +kernel),
    by decide +kernel⟩

theorem witness_RawExchangeEnds :
    (AtRest (rawBench .brk 0) ∧ ((rawBench .brk 0).seg 0).sup.state = .held ∧
      ((rawBench .brk 0).seg 0).sup.raw = some ⟨5, .brk, 0, [], .gap, 0⟩) ∧
    (AtRest (rawBench (.command .poll) 1) ∧ ((rawBench (.command .poll) 1).seg 0).sup.state = .held ∧
      ((rawBench (.command .poll) 1).seg 0).sup.raw = some ⟨5, .command .poll, 1, [], .gap, 0⟩ ∧
      receive ((rawBench (.command .poll) 1).activityAfter 0 1 .poll [] (.answered 61)) =
        .frame 61 [1, 0x31, 0, 0, 0, 0, 0, 0xD6] ∧
      61 ≤ ((rawBench (.command .poll) 1).seg 0).tracker.delay + ((rawBench (.command .poll) 1).seg 0).config.window) :=
  ⟨⟨atRest (by decide +kernel), by decide +kernel⟩, atRest (by decide +kernel), by decide +kernel, by decide +kernel,
    by decide +kernel, by decide +kernel⟩

/-! #### Events -/

/-- The bench with a requested break on the line. -/
def breaking (st : SegState) : State :=
  (inState st).updSeg 0 fun x =>
    { x with line := { x.line with breaking := true }, sup := { x.sup with breakPending := true } }

theorem witness_BreakEnd :
    (AtRest (starting .breaking) ∧ ((starting .breaking).seg 0).sup.state = .starting ∧
      ((starting .breaking).seg 0).sup.stage = .breaking) ∧
    (AtRest (breaking .running) ∧ ((breaking .running).seg 0).sup.state = .running ∧
      ((breaking .running).seg 0).line.breaking = true ∧ ((breaking .running).seg 0).line.probeFirst = false ∧
      ((breaking .running).seg 0).line.inFlight = none) ∧
    (AtRest (breaking .holding) ∧ ((breaking .holding).seg 0).sup.state = .holding ∧
      ((breaking .holding).seg 0).line.breaking = true ∧ ((breaking .holding).seg 0).line.probeFirst = false) ∧
    (AtRest ((breaking .running).updLine 0 fun l => { l with probeFirst := true }) ∧
      (((breaking .running).updLine 0 fun l => { l with probeFirst := true }).seg 0).line.probeFirst = true) :=
  ⟨⟨atRest (by decide +kernel), by decide +kernel⟩, ⟨atRest (by decide +kernel), by decide +kernel⟩,
    ⟨atRest (by decide +kernel), by decide +kernel⟩, atRest (by decide +kernel), by decide +kernel⟩

/-- A start-up stage that has 10 ms to go, and one that has come to its end. -/
def nearEnd (stage : StartStage) : State := { starting stage with time := 190 }
def atEnd (stage : StartStage) : State := { starting stage with time := 200 }

/-- The settle stage over a shorted line. -/
def shortedStart : State := (nearEnd .settle).updSup 0 fun v => { v with condition := .shorted }

theorem witness_StartupStages :
    (AtRest (nearEnd .settle) ∧ ((nearEnd .settle).seg 0).sup.state = .starting ∧
      (nearEnd .settle).msUntil ((nearEnd .settle).seg 0).sup.stageEnd = 10 ∧
      (nearEnd .settle).Undisturbed (some (.settleEnd 0)) 10 ∧
      ((nearEnd .settle).seg 0).sup.stage = .settle ∧ ((nearEnd .settle).seg 0).sup.condition ≠ .shorted) ∧
    (AtRest (atEnd .settle) ∧ (atEnd .settle).msUntil ((atEnd .settle).seg 0).sup.stageEnd = 0) ∧
    (AtRest shortedStart ∧ shortedStart.Undisturbed (some (.settleEnd 0)) 10 ∧
      (shortedStart.seg 0).sup.stage = .settle ∧ (shortedStart.seg 0).sup.condition = .shorted) ∧
    (AtRest (nearEnd .quiet) ∧ (nearEnd .quiet).Undisturbed (some (.quietEnd 0)) 10 ∧
      ((nearEnd .quiet).seg 0).sup.stage = .quiet ∧ ((nearEnd .quiet).seg 0).sup.breakPending = false ∧
      ((nearEnd .quiet).seg 0).line.idle = true ∧ ((nearEnd .quiet).seg 0).line.activeMs = 0) :=
  ⟨⟨atRest (by decide +kernel), by decide +kernel, by decide +kernel, undisturbed (by decide +kernel), by decide +kernel⟩,
    ⟨atRest (by decide +kernel), by decide +kernel⟩,
    ⟨atRest (by decide +kernel), undisturbed (by decide +kernel), by decide +kernel⟩,
    atRest (by decide +kernel), undisturbed (by decide +kernel), by decide +kernel⟩

/-- A segment of the given state, 250 ms after its last probe, that has seen LOW twice. -/
def lowTwice (st : SegState) : State :=
  ({ inState st with time := 250 }).updSup 0 fun v => { v with candidate := some .low, senseRun := 2 }

/-- A POLL sent 240 ms after the last probe: the line is not free. -/
def busyLine : State := { flying bench { pollExchange 0 with stage := .sent } with time := 240 }

theorem witness_LineSenseProbe :
    (AtRest busyLine ∧ 250 - (busyLine.time - (busyLine.seg 0).sup.lastProbe).toNat = 10 ∧
      busyLine.Undisturbed none 10 ∧ ((busyLine.passTime 10).seg 0).probeFree = false) ∧
    (AtRest { bench with time := 240 } ∧ ({ bench with time := 240 } : State).Undisturbed none 10 ∧
      ((({ bench with time := 240 } : State).passTime 10).seg 0).probeFree = true) ∧
    (AtRest (lowTwice .off) ∧ (((lowTwice .off).passTime 0).seg 0).probeFree = true ∧
      ((lowTwice .off).time - ((lowTwice .off).seg 0).sup.lastProbe).toNat = 250 ∧
      ((lowTwice .off).seg 0).sup.condition = .normal ∧ ((lowTwice .off).seg 0).sup.candidate = some .low ∧
      3 ≤ ((lowTwice .off).seg 0).sup.senseRun + 1) ∧
    (AtRest (lowTwice .held) ∧ (((lowTwice .held).passTime 0).seg 0).probeFree = true ∧
      ((lowTwice .held).seg 0).sup.state ≠ .off ∧ ((lowTwice .held).seg 0).sup.state ≠ .fault) :=
  ⟨⟨atRest (by decide +kernel), by decide +kernel, undisturbed (by decide +kernel), by decide +kernel⟩,
    ⟨atRest (by decide +kernel), undisturbed (by decide +kernel), by decide +kernel⟩,
    ⟨atRest (by decide +kernel), by decide +kernel⟩, atRest (by decide +kernel), by decide +kernel⟩

theorem witness_SupplyTrip :
    AtRest lit ∧ (lit.seg 1).sup.state = .off ∧ (lit.seg 0).sup.state ≠ .off ∧ (lit.seg 0).sup.state ≠ .fault ∧
      lit.link.notices.length < 32 := ⟨lit_rest, by decide +kernel⟩

theorem witness_ModuleReset : (62 : BitVec 6).toNat ≤ 62 := by decide

/-- Task 7 SHOWN with `n` ms left. -/
def expiring (n : Nat) : State := { lit with tasks := [{ task 0 7 .shown with timeLeft := n }] }

theorem witness_TaskExpiry :
    (AtRest (expiring 124) ∧ TasksSound (expiring 124).tasks ∧
      (expiring 124).task? 7 = some { task 0 7 .shown with timeLeft := 124 } ∧
      (expiring 124).Undisturbed (some (.expiry 7)) 124 ∧ (task 0 7 .shown).limit ≠ none ∧
      ((expiring 124).seg 0).sup.state = .running ∧ (expiring 124).link.notices.length < 32) ∧
    AtRest (expiring 0) ∧ (expiring 0).task? 7 = some { task 0 7 .shown with timeLeft := 0 } :=
  ⟨⟨atRest (by decide +kernel), ⟨by decide, by decide, by decide, by decide⟩, rfl, undisturbed (by decide +kernel),
    by decide, by decide +kernel, by decide⟩, atRest (by decide +kernel), rfl⟩

theorem witness_BlinkPhase :
    (AtRest bench ∧ bench.Undisturbed (some .phase) 125 ∧ bench.phase ≠ 7) ∧
    (AtRest { bench with phase := 7 } ∧ ({ bench with phase := 7 } : State).Undisturbed (some .phase) 125 ∧
      ({ bench with phase := 7 } : State).phase = 7 ∧ (bench.seg 0).sup.state = .running ∧ (bench.seg 0).line.idle = true ∧
      (bench.seg 0).line.activeMs = 0) :=
  ⟨⟨bench_rest, undisturbed (by decide +kernel), by decide +kernel⟩, atRest (by decide +kernel),
    undisturbed (by decide +kernel), rfl, by decide +kernel⟩

/-! #### Presses, alignment and the line coding -/

/-- A slot whose last accepted CONFIRM was at time 0, now `t`. -/
def confirmedBefore (t : Stamp) : State :=
  ({ bench with time := t }).updPress ⟨0, 0⟩ fun p => { p with lastConfirm := some 0 }

/-- Void, guarded at 299 ms, not guarded at 300 ms, and one press by a known seq. -/
theorem witness_ConfirmPress_judged :
    ((0 : Nibble) - (bench.entry ⟨0, 0⟩).press.confirmBase).toNat = 0 ∧
    ((1 : Nibble) - (bench.entry ⟨0, 0⟩).press.confirmBase).toNat ≠ 0 ∧ (bench.entry ⟨0, 0⟩).press.confirmStuck = false ∧
    (bench.entry ⟨0, 0⟩).binding ≠ .mismatch ∧ (bench.entry ⟨0, 0⟩).press.lastConfirm = none ∧
    ((confirmedBefore 299).entry ⟨0, 0⟩).press.lastConfirm = some 0 ∧
    ((confirmedBefore 299).time - 0).toNat < ((confirmedBefore 299).seg 0).config.guardMs ∧
    ¬((confirmedBefore 300).time - 0).toNat < ((confirmedBefore 300).seg 0).config.guardMs ∧
    (1 : Nibble) ≠ (bench.shadow ⟨0, 0⟩).seq ∧ (0 : Nibble) = (bench.shadow ⟨0, 0⟩).seq := by decide +kernel

/-- The owners of a shadow: none with no capture, none with a capture, a task in PROMPT, a task in QUANTITY. -/
theorem witness_ConfirmPress_owners :
    ((armed 0).shadow ⟨0, 0⟩).owner = none ∧ (∀ (i : Fin 16) c, (armed 0).captures[i] = some c → c.slot ≠ ⟨0, 0⟩) ∧
    ((armed 2).shadow ⟨0, 0⟩).owner = none ∧ (armed 2).captures[(0 : Fin 16)] = some ⟨900, ⟨0, 0⟩⟩ ∧
    (∀ (j : Fin 16) d, j < 0 → (armed 2).captures[j] = some d → d.slot ≠ ⟨0, 0⟩) ∧
    (lit.shadow ⟨0, 0⟩).owner = some ⟨7, .quantity⟩ ∧ lit.task? 7 = some (task 0 7 .shown) ∧
    ((lit.updShadow ⟨0, 0⟩ fun x => { x with owner := some ⟨7, .prompt⟩ }).shadow ⟨0, 0⟩).owner = some ⟨7, .prompt⟩ := by
  refine ⟨by decide +kernel, fun i c h => ?_, by decide +kernel, by decide +kernel,
    fun j d h => absurd h (Fin.not_lt_zero j), by decide +kernel, rfl, by decide +kernel⟩
  cases (armed_none i).symm.trans h

/-- A QUANTITY press at a slot where nothing else waits. -/
theorem witness_ConfirmPress_ends :
    TasksSound lit.tasks ∧ (task 0 7 .shown).slot = ⟨0, 0⟩ ∧ lit.link.notices.length < 32 ∧
      (∀ w ∈ lit.tasks, w.id ≠ 7 → w.id ∈ (lit.slot ⟨0, 0⟩).waiting → w.state ≠ .queued) ∧
      ∀ a ∈ (lit.seg 0).gov.queue, a.ix ≠ 0 :=
  ⟨task_sound _, rfl, by decide, by decide +kernel, by decide +kernel⟩

/-- A FRESH reply where nothing waits, where an IDENT and a DARK wait, and where the address is ABSENT. -/
theorem witness_Fresh :
    (StatusReply.mk 0 0 0 0 false false true 0).fresh = true ∧
    (ServiceCmd.ident 0 ∉ (bench.seg 0).line.services ∧ (bench.seg 0).line.services.length < 16 ∧
      (∀ d ∈ (bench.seg 0).line.displays, d.ix ≠ 0) ∧ (bench.entry ⟨0, 0⟩).presence ≠ .absent) ∧
    (let s := bench.updLine 0 fun l => { l with services := [.ident 0], displays := [⟨0, .digitsCmd⟩] }
     ServiceCmd.ident 0 ∈ (s.seg 0).line.services ∧ ⟨0, .digitsCmd⟩ ∈ (s.seg 0).line.displays) ∧
    (bench.entry ⟨0, 1⟩).presence = .absent ∧ 16 ≤ (serviceFull.seg 0).line.services.length := by decide +kernel

/-- Held for 10 s less a millisecond, and for 10 s, with room for both notices. -/
theorem witness_Held :
    ¬1000 * SegConfig.reset.stuckTime ≤ ((9999 : Stamp) - 0).toNat ∧ 1000 * SegConfig.reset.stuckTime ≤ ((10000 : Stamp) - 0).toNat ∧
      bench.link.notices.length + 2 ≤ 32 := by decide

theorem witness_AdjustPress :
    ((0 : Nibble) - (lit.entry ⟨0, 0⟩).press.adjustBase).toNat = 0 ∧
    ((15 : Nibble) - (lit.entry ⟨0, 0⟩).press.adjustBase).toNat ≠ 0 ∧ (lit.entry ⟨0, 0⟩).press.adjustStuck = false ∧
    (lit.entry ⟨0, 0⟩).binding ≠ .mismatch ∧ (lit.shadow ⟨0, 0⟩).owner = some ⟨7, .quantity⟩ ∧
    lit.task? 7 = some (task 0 7 .shown) ∧ (9 : Nibble) = (lit.shadow ⟨0, 0⟩).seq ∧ 0 < (task 0 7 .shown).displayed := by
  decide +kernel

/-- An interval that ends at the next start delay: a difference of J + 1 jumps, one of J does not. -/
theorem witness_TrackerJumps :
    let x : Tracker := { Tracker.fresh 48 with sum := 15 * 145, n := 15 }
    SegConfig.reset.interval.count ≤ x.n + 1 ∧ SegConfig.reset.jump = true ∧
      SegConfig.reset.jumpOver < (((x.sum + 145 + (x.n + 1) / 2) / (x.n + 1) : Nat) - (x.delay : Int)).natAbs ∧
      ¬SegConfig.reset.jumpOver < ((((15 * 144 + 144 + 16 / 2) / 16 : Nat) : Int) - (x.delay : Int)).natAbs := by
  decide

/-- The tracker records of a state are in range. -/
def trackersInRange (s : State) : Bool :=
  decide (∀ g, (s.seg g).tracker.delay ≤ 1023 ∧ (s.seg g).tracker.n ≤ 63 ∧
    (s.seg g).tracker.sum ≤ 1023 * (s.seg g).tracker.n ∧ (s.seg g).tracker.proposals.length ≤ 4 ∧
    (s.seg g).tracker.applied.length ≤ 4 ∧ ∀ x ∈ (s.seg g).tracker.applied, x ≠ Sign.zero)

theorem tracker_inRange {s : State} (h : trackersInRange s = true) (g : Seg) : (s.seg g).tracker.InRange :=
  have ⟨a, b, c, d, e, f⟩ := of_decide_eq_true h g
  ⟨a, b, c, d, e, f⟩

/-- A record at the ends of its ranges. -/
theorem witness_TrackerStaysInRange :
    (Tracker.mk 1023 (1023 * 63) 63 [.plus, .plus, .minus, .zero] [.plus, .minus, .plus, .minus] true).InRange ∧ 1023 ≤ 1023 :=
  ⟨⟨by decide, by decide, by decide, by decide, by decide, by decide⟩, by decide⟩

theorem witness_ModuleShowsTheShadow : 1 ≤ (lit.shadow ⟨0, 0⟩).level ∧ (lit.shadow ⟨0, 0⟩).level ≤ 16 ∧
    module1.fresh = false ∧ module1.shownSeq = (bench.shadow ⟨0, 0⟩).seq ∧ (bench.seg module1.seg).sup.supply = true ∧
    ¬((bench.seg module1.seg).sup.supply = true ∧ module1.colour ≠ 0) ∧ { module1 with colour := 1 }.colour ≠ 0 := by
  decide +kernel

theorem witness_ReplyFrameReceived : 1023 < 1024 ∧ replyFrameLength 0x32 = some (([0, 0, 0, 0] : List Byte).length + 4) := by
  decide

/-! #### The invariants -/

theorem lit_tableSound : TableSound lit :=
  { pickers := ⟨by unfold Picker.inRange; decide +kernel, by decide +kernel, by decide +kernel⟩
    tasks := task_sound _
    counts := by decide +kernel }

theorem lit_configSound : ConfigSound lit :=
  { segs := fun g => by
      constructor <;> revert g <;> decide +kernel
    currents := by decide +kernel }

/-! #### The slots, the directory and the queues -/

/-- The bench with task 7 SHOWN at slot 1 since the slot's tenure began. -/
def litTimed : State := lit.updSlot ⟨0, 0⟩ fun x => { x with tenure := some 0 }

/-- Only slot 1 of segment 0 is in use. -/
theorem litTimed_slots (r : SlotRef) : litTimed.slot r = if r = ⟨0, 0⟩ then litTimed.slot ⟨0, 0⟩ else Slot.reset := by
  obtain ⟨g, ix⟩ := r
  revert g ix
  decide +kernel

/-- An unused slot is sound. -/
theorem slotSound_reset {s : State} {r : SlotRef} (h : s.slot r = Slot.reset) : SlotSound s r := by
  have hc : s.currentTask r = none := by simp [State.currentTask, h, Slot.reset]
  refine ⟨?_, ?_, ?_, ?_, ?_, ?_, ?_⟩ <;> simp [State.shadow, hc, h, Slot.reset, Shadow.dark, Digits.blank]

/-- Slot 1 holds its one task, SHOWN since the tenure began. -/
theorem litTimed_slot : litTimed.slot ⟨0, 0⟩ =
    ⟨[7], some 7, some 0, ⟨9, some ⟨7, .quantity⟩, 1, .steady, 0, 16, quantityDigits 5⟩, true⟩ := by decide +kernel

theorem litTimed_tasks : litTimed.tasks = [task 0 7 .shown] := rfl

theorem litTimed_slotSound (r : SlotRef) : SlotSound litTimed r := by
  by_cases h : r = ⟨0, 0⟩
  · subst h
    have hc : litTimed.currentTask ⟨0, 0⟩ = some (task 0 7 .shown) := by
      simp [State.currentTask, State.task?, litTimed_slot, litTimed_tasks, task]
    refine ⟨?_, ?_, ?_, ?_, ?_, ?_, ?_⟩ <;> simp [State.shadow, hc, litTimed_slot, litTimed_tasks] <;>
      simp [task, TaskState.terminal, TaskState.isCurrent]
  · exact slotSound_reset (by rw [litTimed_slots, if_neg h])

theorem litTimed_arbiterSound : ArbiterSound litTimed :=
  { slots := litTimed_slotSound
    governors := fun g => by constructor <;> revert g <;> decide +kernel
    waits := by decide +kernel
    currents := by decide +kernel
    tenures := by decide +kernel
    queued := by decide +kernel
    lit := by decide +kernel }

/-- Only entry 1 of segment 0 is in use. -/
theorem litTimed_entries (r : SlotRef) : litTimed.entry r = if r = ⟨0, 0⟩ then entry1 else Entry.reset := by
  obtain ⟨g, ix⟩ := r
  revert g ix
  decide +kernel

theorem litTimed_directorySound : DirectorySound litTimed :=
  { entries := fun r => by
      rw [litTimed_entries]
      split
      · exact ⟨rfl, rfl, rfl⟩
      · exact rfl
    seen := fun q r n hq hr => by
      rw [litTimed_entries] at hq hr
      split at hq
      · split at hr
        · simp_all
        · exact absurd hr (by simp [Entry.reset])
      · exact absurd hq (by simp [Entry.reset])
    expected := fun q r n hq _ => by
      rw [litTimed_entries] at hq
      split at hq <;> exact absurd hq (by simp [Entry.reset, entry1]) }

/-- One display command and both kinds of service command waiting. -/
theorem witness_QueuesSound :
    QueuesSound { (LineCtl.reset) with
      displays := [⟨0, .showCmd⟩, ⟨1, .darkCmd⟩], services := .ident 0 :: List.replicate 15 (.assign 9 1) } :=
  ⟨by decide, by decide, by decide⟩

/-- What the end of service on segment 0 of `litTimed` finds: one task to block, each current task at one slot, room. -/
theorem witness_ServiceEnded :
    (litTimed.blockable ⟨0, 0⟩ = some (task 0 7 .shown) ∧ ∀ ix : Fin 62, ix ≠ 0 → litTimed.blockable ⟨0, ix⟩ = none) ∧
    (∀ ix jx id, (litTimed.slot ⟨0, ix⟩).current = some id → (litTimed.slot ⟨0, jx⟩).current = some id → ix = jx) ∧
    litTimed.link.notices.length +
      (([.segmentState 0 .fault .running .supplyTrip] : List NoticeBody).map (fun b => (b, litTimed.link.taking)) ++
        litTimed.endNotices 0).length ≤ 32 := by
  have h : ∀ ix : Fin 62, ix ≠ 0 → (litTimed.slot ⟨0, ix⟩).current = none := by decide +kernel
  refine ⟨by decide +kernel, fun ix jx id hi hj => ?_, by decide +kernel⟩
  by_cases ei : ix = 0
  · by_cases ej : jx = 0
    · rw [ei, ej]
    · rw [h jx ej] at hj; cases hj
  · rw [h ix ei] at hi; cases hi

/-- A trip darkens the SHOWN task's shadow with the next seq and queues SEGMENT_STATE, then TASK_BLOCKED. -/
theorem test_trip_blocks_shown :
    (after (.supplyTrip 0) litTimed).map (fun t => ((t.shadow ⟨0, 0⟩).seq, (t.shadow ⟨0, 0⟩).owner,
      (t.task? 7).map Task.state, t.link.notices.map Notice.body)) =
    some (10, none, some .blocked,
      [.segmentState 0 .fault .running .supplyTrip, .taskBlocked 7 ⟨0, 0⟩ 0 .segmentDown]) := by decide +kernel

/-- A cycle start in FAULT sets the SYNC due mark; the entry into OFF clears it. -/
theorem test_fault_to_off_clears_sync :
    (after (.segmentPower 1 [0, 0]) ((inState .fault).updLine 0 fun l => { l with syncDue := true })).map
      (fun t => ((t.seg 0).sup.state, (t.seg 0).line.syncDue)) = some (.off, false) := by decide +kernel

/-- A request of task 7 at the head of the queue, in and out of economy, under this budget. -/
def asking (budget : Nat) (economy : Bool) : State :=
  (benchWith .waitLoad).updSeg 0 fun x =>
    { x with
      config := { x.config with budget := budget }
      gov := { x.gov with economy := economy, queue := [⟨0, 7, 0, 0, false⟩] } }

/-- A display of 16 × 20 units fits 20 mA and not 19; at the economy level 8 it fits 10 mA and not 9. -/
theorem witness_Admission :
    (∀ budget ∈ [9, 10, 19, 20], ∀ economy, ((asking budget economy).seg 0).gov.queue = [⟨0, 7, 0, 0, false⟩] ∧
      (asking budget economy).task? 7 = some (task 0 7 .waitLoad)) ∧
    ((asking 20 false).fits 0 ((asking 20 false).picker 0) = true ∧ (asking 19 false).fits 0 ((asking 19 false).picker 0) = false ∧
      (asking 10 true).fits 0 ((asking 10 true).picker 0) = true ∧ (asking 9 true).fits 0 ((asking 9 true).picker 0) = false) ∧
    ((asking 20 false).seg 0).gov.loads = (asking 20 false).loadsAt 0 LitEntry.effective ∧
    (((asking 20 false).seg 0).sup.state = .running ∧ ((asking 20 false).entry ⟨0, 0⟩).presence = .present ∧
      ((asking 20 false).seg 0).line.displays = []) := by decide +kernel

/-- The head that does not fit is marked and counted once; the one that fits is SHOWN. -/
theorem test_attempt_stops_or_admits :
    let s := (asking 9 true).attempt 0
    let t := (asking 20 false).attempt 0
    (s.seg 0).gov.queue = [⟨0, 7, 0, 0, true⟩] ∧ (s.seg 0).counters.admissionsWaited = 1 ∧
      (s.attempt 0 : State) = s ∧ (t.task? 7).map Task.state = some .shown ∧ (t.shadow ⟨0, 0⟩).seq = 1 ∧
      (t.seg 0).line.displays = [⟨0, .showCmd⟩] := by decide +kernel

/-- Out of hold, in a hold that lasts and in one that ends; with a step that applies and one that does not. -/
theorem witness_TrackerProposes :
    let c := { SegConfig.reset with interval := .n1, jump := false }
    let x : Tracker := { Tracker.fresh 48 with proposals := [.plus, .plus, .plus], hold := true, applied := [.plus, .minus, .plus, .minus] }
    c.interval.count ≤ x.n + 1 ∧ ((60 : Int) - 48).natAbs ≤ c.window / 2 ∧ c.window / 2 < ((61 : Int) - 48).natAbs ∧
      (trackDelay c x 60).tracker = { x with proposals := [.plus, .plus, .plus, .plus] } ∧
      (trackDelay c x 61).tracker = { x with
        delay := 54, proposals := [.plus, .plus, .plus, .plus], applied := [.plus], hold := false } ∧
      (trackDelay c { x with proposals := [] } 61).tracker = { x with proposals := [.plus], applied := [], hold := false } := by
  decide

/-- A candidate with a bad length, one with a bad CRC, one not complete, and the two ways it can go on. -/
theorem witness_BadCandidates :
    State.reset.link.rx = [] ∧ AtRest State.reset ∧ (2 : Byte).toNat < 3 ∧ 252 < (253 : Byte).toNat ∧
    ((3 : Byte).toNat + 2 ≤ ([1, 0, 0, 0, 0] : List Byte).length ∧
      (([1, 0, 0, 0, 0] : List Byte).drop 3).take 2 ≠ crcBytes (3 :: ([1, 0, 0, 0, 0] : List Byte).take 3)) ∧
    ([1, 0, 0, 0] : List Byte).length < (3 : Byte).toNat + 2 ∧
    (State.reset.updLink fun l => { l with rx := [0xC3, 3, 1], gapMs := 20 }).link.rx ≠ [] ∧ 20 < 21 :=
  ⟨rfl, atRest (by decide +kernel), by decide, by decide, by decide +kernel, by decide, by decide, by decide⟩

/-- A frame that follows the first bytes of a rejected candidate is found. -/
theorem test_frame_after_rejected :
    (after (.frameReceived (0xC3 :: 2 :: linkFrame 0x02 7 [])) State.reset).map (fun t =>
      (t.link.requests, t.link.counters.badCrc, t.link.counters.framesReceived)) = some ([⟨0x02, 7, []⟩], 1, 1) := by
  decide +kernel

/-! #### The requests that move tasks -/

/-- Task 7 waits for admission under 19 mA in economy, its request at priority 0, waited; the host asks for priority 3. -/
theorem witness_SetPicker_priority :
    AtRest (asking 19 true) ∧ (∀ f, Reaches (asking 19 true) f) ∧ ((asking 19 true).picker 0).inRange ∧
      ((asking 19 true).picker 0).state ≠ .absent ∧ (8 : Byte).toNat < 32 ∧
      ((asking 19 true).picker 0).priority ≠ min 3 (3 : Byte).toNat ∧
      ((asking 19 true).gov 0).queue.filter (fun a => match (asking 19 true).task? a.task with
        | some u => u.picker = 0
        | none => false) = [⟨0, 7, 0, 0, false⟩] ∧
      ((asking 19 true).picker 0).openCount ≤ ((asking 19 true).picker 0).quota ∧
      ¬(asking 19 true).styleElsewhere 0 1 .steady := by
  refine ⟨atRest (by decide +kernel), reaches (by decide +kernel), by unfold Picker.inRange; decide +kernel, by decide +kernel,
    by decide, by decide +kernel, by decide +kernel, by decide +kernel, ?_⟩
  rintro ⟨o, h⟩
  revert h
  revert o
  decide +kernel

/-- A request raised to priority 2 passes an older one of priority 1, stands behind an older one of priority 2, and keeps
its stamp and its mark. -/
theorem test_request_moves :
    moveRequest 100 2 [⟨3, 9, 2, 40, false⟩, ⟨1, 8, 1, 10, true⟩, ⟨0, 7, 0, 60, true⟩] ⟨0, 7, 0, 60, true⟩ =
      [⟨3, 9, 2, 40, false⟩, ⟨0, 7, 2, 60, true⟩, ⟨1, 8, 1, 10, true⟩] := by decide

/-- The only task of slot 1 is PAUSED with its picker; the slot is serviceable or not. -/
def resumable (ok : Bool) : State :=
  ((benchWith .paused).updPicker 0 fun x => { x with state := .paused }).updSlot ⟨0, 0⟩ fun x => { x with serviceable := ok }

theorem resumable_slots (ok : Bool) (r : SlotRef) : (resumable ok).slot r =
    if r = ⟨0, 0⟩ then { Slot.reset with waiting := [7], serviceable := ok } else Slot.reset := by
  obtain ⟨g, ix⟩ := r
  revert ok g ix
  decide +kernel

theorem resumable_arbiterSound (ok : Bool) : ArbiterSound (resumable ok) :=
  { slots := fun r => by
      by_cases h : r = ⟨0, 0⟩
      · subst h
        have hs := resumable_slots ok ⟨0, 0⟩
        rw [if_pos rfl] at hs
        have hc : (resumable ok).currentTask ⟨0, 0⟩ = none := by simp [State.currentTask, hs, Slot.reset]
        have ht : (resumable ok).tasks = [task 0 7 .paused] := rfl
        refine ⟨?_, ?_, ?_, ?_, ?_, ?_, ?_⟩ <;>
          simp [State.shadow, hc, hs, ht, Slot.reset, Shadow.dark, Digits.blank, task, TaskState.terminal]
      · exact slotSound_reset (by rw [resumable_slots, if_neg h])
    governors := fun g => by constructor <;> revert ok g <;> decide +kernel
    waits := by revert ok; decide +kernel
    currents := by revert ok; decide +kernel
    tenures := by revert ok; decide +kernel
    queued := by revert ok; decide +kernel
    lit := by revert ok; decide +kernel }

theorem witness_ResumePicker_selects :
    (∀ ok, AtRest (resumable ok)) ∧ (∀ ok f, Reaches (resumable ok) f) ∧ (∀ ok, TasksSound (resumable ok).tasks) ∧
      (∀ ok, ArbiterSound (resumable ok)) ∧ ∀ ok, ((resumable ok).picker 0).state = .paused ∧
      ∀ u ∈ (resumable ok).tasks, u.picker = 0 ∧ u.state = .paused ∧ ((resumable ok).slot u.slot).current = none :=
  ⟨fun ok => by cases ok <;> exact atRest (by decide +kernel), fun ok => by cases ok <;> exact reaches (by decide +kernel),
    fun _ => task_sound _, resumable_arbiterSound, by decide +kernel⟩

/-- The resumed task is SHOWN at a serviceable slot and BLOCKED at another. -/
theorem test_resume_selects :
    [true, false].map (fun ok => (after (.resumePicker 1 [0]) (resumable ok)).map fun t =>
      ((t.slot ⟨0, 0⟩).current, (t.task? 7).map Task.state)) =
    [some (some 7, some .shown), some (some 7, some .blocked)] := by decide +kernel

/-- A lit slot whose SHOW waits while a poll is in flight, in economy. -/
def showWaits : State :=
  ((flying lit (pollExchange 0)).updLine 0 fun l => { l with displays := [⟨0, .showCmd⟩] }).updGov 0 fun v =>
    { v with economy := true }

/-- A line that is busy, and one that is free. -/
theorem witness_ClearTasks_darkens :
    (AtRest showWaits ∧ (∀ f, Reaches showWaits f) ∧ (showWaits.seg 0).sup.state = .running ∧
      (showWaits.shadow ⟨0, 0⟩).owner ≠ none ∧ (showWaits.entry ⟨0, 0⟩).presence = .present ∧
      (showWaits.seg 0).gov.economy = true ∧ showWaits.link.notices = []) ∧
    (lit.seg 0).line.inFlight = none ∧ (lit.seg 0).line.breaking = false ∧ (lit.seg 0).line.activeMs = 0 :=
  ⟨⟨atRest (by decide +kernel), reaches (by decide +kernel), by decide +kernel⟩, by decide +kernel⟩

/-- The waiting SHOW becomes a DARK, uncounted. -/
theorem test_clear_darkens :
    ((showWaits.clearShadow ⟨0, 0⟩).seg 0).line.displays = [⟨0, .darkCmd⟩] ∧
      ((showWaits.clearShadow ⟨0, 0⟩).seg 0).counters = (showWaits.seg 0).counters ∧
      (showWaits.clearGovernor 0).link.notices.map Notice.body = [.loadEconomy 0 false] := by decide +kernel

/-! #### The choice of a free line -/

/-- The free line of the bench, its one entry PRESENT or ABSENT with this skip count. -/
def choosing (skip : Option Nat) (f : LineCtl → LineCtl) : Segment :=
  let x := bench.seg 0
  { x with
    line := f { x.line with passEnded := false, passHeld := false }
    entries := match skip with
      | none => x.entries
      | some n => x.entries.set 0 { x.entries[0] with presence := .absent, skip := n } }

/-- The bench's line is free in RUNNING; each case of the choice has its segment. -/
theorem witness_SchedulerChoice :
    ((bench.seg 0).line.inFlight = none ∧ (bench.seg 0).line.breaking = false ∧ (bench.seg 0).line.activeMs = 0 ∧
      (bench.seg 0).sup.state = .running ∧ (bench.seg 0).sup.breakPending = false) ∧
    (let x := choosing none fun l => { l with services := [.ident 3, .assign 9 4, .ident 0, .ident 5] }
     x.line.syncDue = false ∧ x.line.services.dropWhile x.mute = [.ident 0, .ident 5]) ∧
    (let x := choosing none fun l => { l with displays := [⟨0, .showCmd⟩], latestPoll := true }
     x.line.services.dropWhile x.mute = [] ∧ x.line.displays ≠ [] ∧ x.line.latestPoll = true) ∧
    (choosing none id).nextPoll = some 0 ∧ (choosing (some 7) id).nextPoll = some 0 ∧ (choosing (some 6) id).nextPoll = none ∧
    (choosing none fun l => { l with position := 1 }).nextPoll = none ∧
    (choosing none id).sup.discovery = none ∧ (choosing none id).line.passHeld = false ∧
    (choosing none id).endsPass.line.passHeld = true ∧
    (choosing none fun l => { l with passPolled := true }).endsPass.line.passHeld = false := by decide +kernel

/-- An IDENT and an ASSIGN with nothing to speak to are dropped, and the next IDENT is sent. -/
theorem test_service_head :
    ((bench.updLine 0 fun l => { l with services := [.ident 3, .assign 9 4, .ident 0, .ident 5] }).settleLines.seg 0).line =
      { (bench.seg 0).line with services := [.ident 5], inFlight := some ⟨.ident, 1, [], some 0, false, .gap⟩ } := by
  decide +kernel

/-- An ABSENT entry of count 6 is passed over and goes to 7; the pass ends without a poll, and the next is held back. -/
theorem test_silent_pass :
    let x := choosing (some 6) id
    let y := ({ bench with segs := bench.segs.set 0 x }).settleLines.seg 0
    y.entries[(0 : Fin 62)].skip = 7 ∧ y.line = { x.line with passEnded := true, passHeld := true } := by decide +kernel

/-- A tick that falls due three ways queues the phase, the partial frame's end and the expiry, in some order. -/
theorem witness_IdleStep_due :
    let s := { lit with
      phaseMs := 124, link := { lit.link with rx := [0xC3], gapMs := 20 }
      tasks := [{ task 0 7 .shown with timeLeft := 1 }] }
    s.pending = [] ∧ 125 ≤ s.phaseMs + 1 ∧ s.link.rx ≠ [] ∧ 21 ≤ s.link.gapMs + 1 ∧
      ∀ u ∈ s.tasks, u.state = .shown ∧ u.limit.isSome ∧ (s.seg u.slot.seg).sup.state = .running ∧ u.timeLeft ≤ 1 := by
  decide +kernel

theorem test_tick_queues_phase :
    (match step { bench with phaseMs := 124 } with
      | .next t => some (t.pending, t.phaseMs)
      | _ => none) = some ([.blinkPhaseAdvance], 125) := by decide +kernel

theorem litTimed_rotationSound : ∀ g, RotationSound (litTimed.seg g) := fun g => by
  constructor <;> revert g <;> decide +kernel

/-- A lit bench with a press to come, which the step takes. -/
theorem witness_Invariants :
    let s := { lit with pending := [.buttonPress 0x5B0204D6 .confirm] }
    AtRest s ∧ LinkBounded s.link ∧ TableSound s ∧ ConfigSound s ∧ (∀ g, (s.seg g).tracker.InRange) ∧
      (∀ g, LoadSound s g) ∧ ∃ t, step s = .next t :=
  ⟨atRest (by decide +kernel), ⟨by decide, by decide, by decide⟩,
    ⟨lit_tableSound.pickers, lit_tableSound.tasks, lit_tableSound.counts⟩, ⟨lit_configSound.segs, lit_configSound.currents⟩,
    tracker_inRange (by decide +kernel), fun g => ⟨(lit_loadSound g).levels, (lit_loadSound g).loads, (lit_loadSound g).budget⟩, _, rfl⟩

/-- The same bench with its deadline, on which the slots, the directory, the queues and the rotation are sound; the step takes
it. -/
theorem witness_InvariantsOfTables :
    let s := { litTimed with pending := [.buttonPress 0x5B0204D6 .confirm] }
    TableSound s ∧ ArbiterSound s ∧ DirectorySound s ∧ (∀ g, QueuesSound (s.seg g).line) ∧
      (∀ g, RotationSound (s.seg g)) ∧ ∃ t, step s = .next t := by
  have a := litTimed_arbiterSound
  refine ⟨⟨lit_tableSound.pickers, lit_tableSound.tasks, lit_tableSound.counts⟩,
    ⟨fun r => ?_, fun g => ?_, a.waits, a.currents, a.tenures, a.queued, a.lit⟩,
    ⟨litTimed_directorySound.entries, litTimed_directorySound.seen, litTimed_directorySound.expected⟩,
    fun g => ⟨?_, ?_, ?_⟩, fun g => ?_, _, rfl⟩
  · exact ⟨(a.slots r).room, (a.slots r).distinct, (a.slots r).members, (a.slots r).current, (a.slots r).tenure,
      (a.slots r).owned, (a.slots r).dark⟩
  · exact ⟨(a.governors g).queueSlots, (a.governors g).queue, (a.governors g).litSlots, (a.governors g).lit,
      (a.governors g).styles⟩
  · revert g; decide +kernel
  · revert g; decide +kernel
  · have h : ∀ g, (litTimed.seg g).line.services = [] := by decide +kernel
    exact fun ix => by
      show (litTimed.seg g).line.services.count _ ≤ 1
      simp [h g]
  · exact ⟨(litTimed_rotationSound g).position, (litTimed_rotationSound g).ended, (litTimed_rotationSound g).held,
      (litTimed_rotationSound g).skips⟩

end Sys2Proof.Tests
end

