-- ==== Sys2Proof/Proofs/Sites.lean ====
section
/-! PROOFS. A slot's site: what the task table, the slot record and the governor hold about one slot, and what each
operation on displays and governors makes of it. -/

namespace Sys2Proof.Machine

/-- What the part holds about one slot: the tasks that name it, its record without the serviceability last evaluated, and
its segment's admission requests and lit displays at its address. -/
structure Site where
  tasks : List Task
  waiting : List TaskId
  current : Option TaskId
  tenure : Option Stamp
  shadow : Shadow
  requests : List Admission
  lit : List LitEntry

def State.site (s : State) (r : SlotRef) : Site :=
  { tasks := s.tasks.filter fun t => t.slot = r, waiting := (s.slot r).waiting, current := (s.slot r).current
    tenure := (s.slot r).tenure, shadow := (s.slot r).shadow
    requests := (s.gov r.seg).queue.filter fun a => a.ix = r.ix
    lit := (s.gov r.seg).lit.filter fun e => e.ix = r.ix }

variable (s : State)

theorem site_tasks (r : SlotRef) : (s.site r).tasks = s.tasks.filter fun t => t.slot = r := rfl
@[simp] theorem site_waiting (r : SlotRef) : (s.site r).waiting = (s.slot r).waiting := rfl
@[simp] theorem site_current (r : SlotRef) : (s.site r).current = (s.slot r).current := rfl
@[simp] theorem site_tenure (r : SlotRef) : (s.site r).tenure = (s.slot r).tenure := rfl
@[simp] theorem site_shadow (r : SlotRef) : (s.site r).shadow = s.shadow r := rfl
theorem site_requests (r : SlotRef) :
    (s.site r).requests = (s.gov r.seg).queue.filter fun a => a.ix = r.ix := rfl
theorem site_lit (r : SlotRef) : (s.site r).lit = (s.gov r.seg).lit.filter fun e => e.ix = r.ix := rfl

/-- What leaves the tasks, the slot records and the queues and lit lists leaves every site. -/
theorem site_congr {s t : State} (ht : t.tasks = s.tasks) (hs : ∀ g, (t.seg g).slots = (s.seg g).slots)
    (hq : ∀ g, (t.seg g).gov.queue = (s.seg g).gov.queue) (hl : ∀ g, (t.seg g).gov.lit = (s.seg g).gov.lit)
    (r : SlotRef) : t.site r = s.site r := by
  simp [State.site, State.slot, State.gov, ht, hs, hq, hl]

/-! ### Operations that leave every site -/

@[simp] theorem site_updSup (g : Seg) (f : Supervisor → Supervisor) (r : SlotRef) : (s.updSup g f).site r = s.site r :=
  site_congr (by simp) (by simp) (by simp) (by simp) r

@[simp] theorem site_updLine (g : Seg) (f : LineCtl → LineCtl) (r : SlotRef) : (s.updLine g f).site r = s.site r :=
  site_congr (by simp) (by simp) (by simp) (by simp) r

@[simp] theorem site_updTracker (g : Seg) (f : Tracker → Tracker) (r : SlotRef) :
    (s.updTracker g f).site r = s.site r :=
  site_congr (by simp) (by simp) (by simp) (by simp) r

@[simp] theorem site_count (g : Seg) (f : SegCounters → SegCounters) (r : SlotRef) : (s.count g f).site r = s.site r :=
  site_congr (by simp) (by simp) (by simp) (by simp) r

@[simp] theorem site_updEntry (q : SlotRef) (f : Entry → Entry) (r : SlotRef) : (s.updEntry q f).site r = s.site r :=
  site_congr (by simp) (by simp) (by simp) (by simp) r

@[simp] theorem site_updLink (f : Link → Link) (r : SlotRef) : (s.updLink f).site r = s.site r := rfl

theorem seg_of_segs {s t : State} (h : t.segs = s.segs) (g : Seg) : t.seg g = s.seg g := by
  unfold State.seg; rw [h]

@[simp] theorem site_notify (b : NoticeBody) (r : SlotRef) : (s.notify b).site r = s.site r := by
  have h := seg_of_segs (s.notify_segs b)
  exact site_congr (by simp) (by simp [h]) (by simp [h]) (by simp [h]) r

@[simp] theorem site_notifyDone (n : Nat) (b : NoticeBody) (r : SlotRef) : (s.notifyDone n b).site r = s.site r := by
  have h := seg_of_segs (s.notifyDone_segs n b)
  exact site_congr (by simp) (by simp [h]) (by simp [h]) (by simp [h]) r

@[simp] theorem site_updPicker (p : Fin 12) (f : Picker → Picker) (r : SlotRef) : (s.updPicker p f).site r = s.site r :=
  rfl

/-- A change of a segment that leaves its slots, its queue and its lit list leaves every site. -/
theorem site_updSeg (g : Seg) {f : Segment → Segment} (hs : ∀ x, (f x).slots = x.slots)
    (hq : ∀ x, (f x).gov.queue = x.gov.queue) (hl : ∀ x, (f x).gov.lit = x.gov.lit) (r : SlotRef) :
    (s.updSeg g f).site r = s.site r := by
  refine site_congr (by simp) (fun h => ?_) (fun h => ?_) (fun h => ?_) r <;>
    (rw [State.seg_updSeg]; split) <;> simp [*]

@[simp] theorem site_setBaseLoad (g : Seg) (r : SlotRef) : (s.setBaseLoad g).site r = s.site r :=
  site_updSeg s g (f := fun x => { x with gov := { x.gov with baseLoad := x.baseLoadNow } }) (fun _ => rfl) (fun _ => rfl) (fun _ => rfl) r

@[simp] theorem site_recompute (g : Seg) (r : SlotRef) : (s.recompute g).site r = s.site r :=
  site_updSeg s g (f := fun x => { x with gov := { x.gov with loads := s.loadsAt g LitEntry.effective } })
    (fun _ => rfl) (fun _ => rfl) (fun _ => rfl) r

@[simp] theorem site_queueDisplay (q : SlotRef) (k : DisplayKind) (r : SlotRef) :
    (s.queueDisplay q k).site r = s.site r := by
  unfold State.queueDisplay State.mergeDisplay State.appendDisplay; split <;> simp

@[simp] theorem site_handDisplay (q : SlotRef) (k : DisplayKind) (r : SlotRef) :
    (s.handDisplay q k).site r = s.site r := by
  unfold State.handDisplay State.joinDisplay; simp only []; repeat' split
  all_goals simp

@[simp] theorem site_dropDisplay (q : SlotRef) (r : SlotRef) : (s.dropDisplay q).site r = s.site r := by
  simp [State.dropDisplay]

/-! ### The slot record -/

theorem gov_updSlot (q : SlotRef) (f : Slot → Slot) (g : Seg) : (s.updSlot q f).gov g = s.gov g := by
  simp [State.gov]

/-- A change of one slot record. -/
theorem site_updSlot (q : SlotRef) (f : Slot → Slot) (r : SlotRef) :
    (s.updSlot q f).site r =
      if r = q then
        let y := f (s.slot q)
        { s.site q with waiting := y.waiting, current := y.current, tenure := y.tenure, shadow := y.shadow }
      else s.site r := by
  unfold State.site
  rw [State.slot_updSlot]
  split
  · next h => subst h; simp [gov_updSlot]
  · simp [gov_updSlot]

theorem site_updShadow (q : SlotRef) (f : Shadow → Shadow) (r : SlotRef) :
    (s.updShadow q f).site r = if r = q then { s.site q with shadow := f (s.shadow q) } else s.site r :=
  site_updSlot s q _ r

theorem site_setCurrent (q : SlotRef) (id : TaskId) (x : Option Stamp) (r : SlotRef) :
    (s.setCurrent q id x).site r = if r = q then { s.site q with current := some id, tenure := x } else s.site r :=
  site_updSlot s q _ r

theorem site_clearCurrent (q : SlotRef) (r : SlotRef) :
    (s.clearCurrent q).site r = if r = q then { s.site q with current := none, tenure := none } else s.site r :=
  site_updSlot s q _ r

theorem site_leaveWaiting (q : SlotRef) (id : TaskId) (r : SlotRef) :
    (s.leaveWaiting q id).site r =
      if r = q then { s.site q with waiting := (s.slot q).waiting.filter fun w => w ≠ id } else s.site r :=
  site_updSlot s q _ r

/-- The serviceability last evaluated is no part of a site. -/
@[simp] theorem site_serviceable (q : SlotRef) (b : Bool) (r : SlotRef) :
    (s.updSlot q fun x => { x with serviceable := b }).site r = s.site r := by
  rw [site_updSlot]; split
  · next h => subst h; rfl
  · rfl

theorem site_darken (q : SlotRef) (r : SlotRef) :
    (s.darken q).site r =
      if r = q ∧ (s.shadow q).owner ≠ none then { s.site q with shadow := Shadow.dark ((s.shadow q).seq + 1) }
      else s.site r := by
  unfold State.darken
  rcases h : (s.shadow q).owner with _ | o
  · simp
  · simp [site_updShadow]

/-! ### The task table -/

/-- One task of a site is changed. -/
def Site.retask (x : Site) (id : TaskId) (f : Task → Task) : Site :=
  { x with tasks := x.tasks.map fun t => if t.id = id then f t else t }

theorem site_updTask {id : TaskId} {f : Task → Task} (hf : ∀ t, (f t).slot = t.slot) (r : SlotRef) :
    (s.updTask id f).site r = (s.site r).retask id f := by
  have h : ((s.tasks.map fun t => if t.id = id then f t else t).filter fun t => t.slot = r) =
      (s.tasks.filter fun t => t.slot = r).map fun t => if t.id = id then f t else t := by
    rw [List.filter_map]
    congr 1
    apply List.filter_congr
    intro t _
    simp only [Function.comp]
    split <;> simp [hf]
  simp only [State.site, Site.retask, State.updTask_tasks, h]
  rfl

/-- The ids of the task table are distinct (R13). -/
def State.DistinctIds (s : State) : Prop := (s.tasks.map Task.id).Nodup

variable {s}

theorem eq_of_id {t u : Task} (h : s.DistinctIds) (ht : t ∈ s.tasks) (hu : u ∈ s.tasks) (e : t.id = u.id) : t = u :=
  List.inj_on_of_nodup_map h ht hu e

theorem task?_eq_some_iff (h : s.DistinctIds) {id : TaskId} {t : Task} :
    s.task? id = some t ↔ t ∈ s.tasks ∧ t.id = id := by
  constructor
  · intro e
    exact ⟨List.mem_of_find?_eq_some e, by simpa using List.find?_some e⟩
  · rintro ⟨hm, rfl⟩
    rcases e : s.task? t.id with _ | u
    · exact absurd (List.find?_eq_none.mp e t hm) (by simp)
    · have hu : u.id = t.id := by simpa using List.find?_some e
      rw [eq_of_id h (List.mem_of_find?_eq_some e) hm hu]

theorem mem_site_tasks {r : SlotRef} {t : Task} : t ∈ (s.site r).tasks ↔ t ∈ s.tasks ∧ t.slot = r := by
  simp [site_tasks]

theorem distinctIds_of_map {s t : State} (f : Task → Task) (hf : ∀ u, (f u).id = u.id) (ht : t.tasks = s.tasks.map f)
    (h : s.DistinctIds) : t.DistinctIds := by
  unfold State.DistinctIds at *
  rw [ht, List.map_map]
  have : Task.id ∘ f = Task.id := funext hf
  rwa [this]

theorem distinctIds_of_tasks {s t : State} (ht : t.tasks = s.tasks) (h : s.DistinctIds) : t.DistinctIds := by
  unfold State.DistinctIds; rw [ht]; exact h

theorem distinctIds_of_untouched {s t : State} (h : t.untouched = s.untouched) (hs : s.DistinctIds) : t.DistinctIds := by
  have e : t.tasks.map Task.fixed = s.tasks.map Task.fixed := congrArg Untouched.tasks h
  have e2 := congrArg (List.map Task.id) e
  simp only [List.map_map] at e2
  have : (Task.id ∘ Task.fixed) = Task.id := rfl
  rw [this] at e2
  unfold State.DistinctIds
  rwa [e2]

theorem distinctIds_of_kept {s t : State} (h : t.kept = s.kept) (hs : s.DistinctIds) : t.DistinctIds :=
  distinctIds_of_untouched (untouched_of_kept h) hs

theorem distinctIds_updTask {id : TaskId} {f : Task → Task} (hf : ∀ t, (f t).id = t.id) (h : s.DistinctIds) :
    (s.updTask id f).DistinctIds :=
  distinctIds_of_map (fun t => if t.id = id then f t else t) (fun u => by split <;> simp [hf]) rfl h

/-! ### The admission queue and the lit list -/

variable (s)

theorem gov_updGov (g : Seg) (f : Governor → Governor) (h : Seg) :
    (s.updGov g f).gov h = if h = g then f (s.gov g) else s.gov h := by
  unfold State.gov; rw [State.seg_updGov]; split <;> rfl

/-- A change of one governor. -/
theorem site_updGov (g : Seg) (f : Governor → Governor) (r : SlotRef) :
    (s.updGov g f).site r =
      if r.seg = g then
        { s.site r with
          requests := (f (s.gov g)).queue.filter fun a => a.ix = r.ix
          lit := (f (s.gov g)).lit.filter fun e => e.ix = r.ix }
      else s.site r := by
  have hs : (s.updGov g f).slot r = s.slot r := by simp [State.slot]
  simp only [State.site, gov_updGov, hs, State.updGov_tasks]
  split <;> rfl

theorem slotRef_eq_iff {r q : SlotRef} : r = q ↔ r.seg = q.seg ∧ r.ix = q.ix := by
  obtain ⟨_, _⟩ := r; obtain ⟨_, _⟩ := q; simp

theorem filter_ix_ne {α : Type} (ix : α → Fin 62) (i j : Fin 62) (l : List α) :
    ((l.filter fun a => ix a ≠ i).filter fun a => ix a = j) =
      if j = i then [] else l.filter fun a => ix a = j := by
  rw [List.filter_filter]
  split
  · next h =>
    subst h
    rw [List.filter_eq_nil_iff]; intro a _; simp
  · next h =>
    apply List.filter_congr
    intro a _
    by_cases e : ix a = j
    · subst e; simp [h]
    · simp [e]

theorem site_withdraw (q r : SlotRef) :
    (s.withdraw q).site r = if r = q then { s.site q with requests := [] } else s.site r := by
  unfold State.withdraw
  simp only [site_updGov, filter_ix_ne Admission.ix]
  by_cases hg : r.seg = q.seg
  · by_cases hx : r.ix = q.ix
    · obtain rfl : r = q := slotRef_eq_iff.mpr ⟨hg, hx⟩
      rw [if_pos rfl, if_pos rfl, if_pos rfl]; rfl
    · have hne : r ≠ q := fun e => hx (e ▸ rfl)
      rw [if_pos hg, if_neg hx, if_neg hne, ← hg]; rfl
  · have hne : r ≠ q := fun e => hg (e ▸ rfl)
    simp [hg, hne]

theorem site_unlight (q r : SlotRef) :
    (s.unlight q).site r = if r = q then { s.site q with lit := [] } else s.site r := by
  unfold State.unlight
  simp only [site_recompute, site_updGov, filter_ix_ne LitEntry.ix]
  by_cases hg : r.seg = q.seg
  · by_cases hx : r.ix = q.ix
    · obtain rfl : r = q := slotRef_eq_iff.mpr ⟨hg, hx⟩
      rw [if_pos rfl, if_pos rfl, if_pos rfl]; rfl
    · have hne : r ≠ q := fun e => hx (e ▸ rfl)
      rw [if_pos hg, if_neg hx, if_neg hne, ← hg]; rfl
  · have hne : r ≠ q := fun e => hg (e ▸ rfl)
    simp [hg, hne]

theorem insertAdmission_perm (now : Stamp) (n : Admission) (l : List Admission) :
    (insertAdmission now n l).Perm (n :: l) := by
  induction l with
  | nil => exact List.Perm.refl _
  | cons e es ih =>
    simp only [insertAdmission]
    split
    · exact (ih.cons e).trans (List.Perm.swap n e es)
    · exact List.Perm.refl _

/-- Insertion leaves the requests of the other addresses in their order. -/
theorem filter_insertAdmission_ne (now : Stamp) (n : Admission) (l : List Admission) {i : Fin 62} (h : n.ix ≠ i) :
    ((insertAdmission now n l).filter fun a => a.ix = i) = l.filter fun a => a.ix = i := by
  induction l with
  | nil => simp [insertAdmission, h]
  | cons e es ih =>
    simp only [insertAdmission]
    split
    · rw [List.filter_cons, List.filter_cons, ih]
    · rw [List.filter_cons]; simp [h]

/-- At an address without a request, the one inserted is the only one. -/
theorem filter_insertAdmission_self (now : Stamp) (n : Admission) (l : List Admission)
    (h : (l.filter fun a => a.ix = n.ix) = []) : ((insertAdmission now n l).filter fun a => a.ix = n.ix) = [n] := by
  have := (insertAdmission_perm now n l).filter fun a => a.ix = n.ix
  rw [List.filter_cons] at this
  simp only [decide_true, if_true, h] at this
  exact List.perm_singleton.mp this

/-- R90: a request placed at a slot without one. -/
theorem site_place (q : SlotRef) (t : Task) (stamp : Stamp) (h : (s.site q).requests = []) (r : SlotRef) :
    (s.place q t stamp).site r =
      if r = q then { s.site q with requests := [⟨q.ix, t.id, (s.picker t.picker).priority, stamp, false⟩] }
      else s.site r := by
  unfold State.place
  simp only [site_updGov]
  by_cases hg : r.seg = q.seg
  · by_cases hx : r.ix = q.ix
    · obtain rfl : r = q := slotRef_eq_iff.mpr ⟨hg, hx⟩
      have := filter_insertAdmission_self s.time ⟨r.ix, t.id, (s.picker t.picker).priority, stamp, false⟩ _ h
      rw [if_pos rfl, if_pos rfl, this]
      rfl
    · have hne : r ≠ q := fun e => hx (e ▸ rfl)
      rw [if_pos hg, if_neg hne, filter_insertAdmission_ne _ _ _ (Ne.symm hx), ← hg]
      rfl
  · have hne : r ≠ q := fun e => hg (e ▸ rfl)
    rw [if_neg hg, if_neg hne]

end Sys2Proof.Machine
end

