-- ==== Sys2Proof/Proofs/Standing.lean ====
section
/-! PROOFS. How a slot stands: free, or with a current task in BLOCKED, WAIT_LOAD or SHOWN; and, in the midst of a
request, what it still owes. The slots and governors agree with the task table exactly when every slot stands in one of
the first four ways. -/

namespace Sys2Proof.Machine

/-- R42: the waiting set: at most eight ids, each once, of tasks of the slot that have not ended, and all of those. -/
structure Site.Waiting (x : Site) : Prop where
  room : x.waiting.length ≤ 8
  distinct : x.waiting.Nodup
  members : ∀ id ∈ x.waiting, ∃ u ∈ x.tasks, u.id = id ∧ u.state.terminal = false
  waits : ∀ u ∈ x.tasks, u.state.terminal = false → u.id ∈ x.waiting

/-- No task of the slot is in WAIT_LOAD, SHOWN or BLOCKED. -/
def Site.Idle (x : Site) : Prop := ∀ v ∈ x.tasks, v.state.isCurrent = false

/-- The only task of the slot in WAIT_LOAD, SHOWN or BLOCKED is `u`. -/
structure Site.Seats (x : Site) (u : Task) : Prop where
  mem : u ∈ x.tasks
  only : ∀ v ∈ x.tasks, v.state.isCurrent = true → v = u
  current : x.current = some u.id

/-- R51: the shadow is dark. -/
def Site.Dark (x : Site) : Prop := x.shadow = Shadow.dark x.shadow.seq

/-- R88: the shadow has the style of the lit entry. -/
structure LitEntry.Styles (e : LitEntry) (sh : Shadow) : Prop where
  colour : sh.colour = e.colour
  pattern : sh.pattern = e.pattern
  rotation : sh.rotation = e.rotation
  level : sh.level = e.effective

/-- What a slot still owes in the midst of a request: nothing; the end of its tenure; that and its DARK; that, its DARK
and the release of its display; or the end of its tenure and the withdrawal of its admission request. -/
inductive Debt where
  | none
  | seat
  | glow
  | display
  | request
  deriving DecidableEq

/-- How a slot stands. -/
inductive Standing : Debt → Site → Prop
  | free {x : Site} (current : x.current = Option.none) (tenure : x.tenure = Option.none) (requests : x.requests = [])
      (lit : x.lit = []) (dark : x.Dark) (idle : x.Idle) : Standing .none x
  | blocked {x : Site} (u : Task) (seat : x.Seats u) (state : u.state = .blocked) (requests : x.requests = [])
      (lit : x.lit = []) (dark : x.Dark) : Standing .none x
  | waits {x : Site} (u : Task) (a : Admission) (seat : x.Seats u) (state : u.state = .waitLoad)
      (tenure : x.tenure = some a.stamp) (requests : x.requests = [a]) (task : a.task = u.id) (lit : x.lit = [])
      (dark : x.Dark) : Standing .none x
  | shows {x : Site} (u : Task) (e : LitEntry) (seat : x.Seats u) (state : u.state = .shown)
      (tenure : x.tenure.isSome = true) (requests : x.requests = []) (lit : x.lit = [e]) (task : e.task = u.id)
      (styles : e.Styles x.shadow) (owner : x.shadow.owner = some ⟨u.id, u.step⟩) (digits : x.shadow.digits = u.digits) :
      Standing .none x
  | seat {x : Site} (idle : x.Idle) (requests : x.requests = []) (lit : x.lit = []) (dark : x.Dark) : Standing .seat x
  | glow {x : Site} (idle : x.Idle) (requests : x.requests = []) (lit : x.lit = [])
      (form : x.shadow.owner = Option.none → x.Dark) : Standing .glow x
  | display {x : Site} (e : LitEntry) (idle : x.Idle) (requests : x.requests = []) (lit : x.lit = [e])
      (styles : e.Styles x.shadow) (owner : x.shadow.owner.isSome = true) : Standing .display x
  | request {x : Site} (a : Admission) (idle : x.Idle) (requests : x.requests = [a])
      (task : ∃ u ∈ x.tasks, u.id = a.task) (lit : x.lit = []) (dark : x.Dark) : Standing .request x

/-- Every slot's waiting set is sound, and every slot stands, owing what `owes` says. -/
structure State.Stands (owes : SlotRef → Debt) (s : State) : Prop where
  ids : s.DistinctIds
  waiting : ∀ r, (s.site r).Waiting
  standing : ∀ r, Standing (owes r) (s.site r)

/-- Between two commands no slot owes anything. -/
def settled : SlotRef → Debt := fun _ => .none

/-! ### Lists of entries with distinct addresses -/

theorem filter_eq_singleton {α : Type} {ix : α → Fin 62} {l : List α} (h : (l.map ix).Nodup) {a : α} (ha : a ∈ l) :
    (l.filter fun b => ix b = ix a) = [a] := by
  induction l with
  | nil => cases ha
  | cons b l ih =>
    rw [List.map_cons, List.nodup_cons] at h
    have hne : ∀ c ∈ l, ix c ≠ ix b := fun c hc e => h.1 (List.mem_map.mpr ⟨c, hc, e⟩)
    rcases List.mem_cons.mp ha with rfl | ha
    · rw [List.filter_cons_of_pos (by simp), List.filter_eq_nil_iff.mpr]
      intro c hc
      simpa using hne c hc
    · rw [List.filter_cons_of_neg (by simpa using (hne a ha).symm), ih h.2 ha]

theorem nodup_of_filter_le_one {α : Type} {ix : α → Fin 62} {l : List α}
    (h : ∀ i, (l.filter fun b => ix b = i).length ≤ 1) : (l.map ix).Nodup := by
  rw [List.nodup_iff_count_le_one]
  intro i
  have e : (l.map ix).count i = (l.filter fun b => ix b = i).length := by
    rw [List.count, List.countP_map, List.countP_eq_length_filter]
    rfl
  rw [e]
  exact h i

theorem mem_requests {s : State} {r : SlotRef} {a : Admission} :
    a ∈ (s.site r).requests ↔ a ∈ (s.gov r.seg).queue ∧ a.ix = r.ix := by
  simp [site_requests]

theorem mem_lit {s : State} {r : SlotRef} {e : LitEntry} :
    e ∈ (s.site r).lit ↔ e ∈ (s.gov r.seg).lit ∧ e.ix = r.ix := by
  simp [site_lit]

/-! ### From the sound arbiter to standing slots -/

section
variable {s : State} (hs : ArbiterSound s)
include hs

theorem waiting_of_sound (r : SlotRef) : (s.site r).Waiting where
  room := (hs.slots r).room
  distinct := (hs.slots r).distinct
  members := fun id hid => by
    obtain ⟨u, hu, hid, hr, ht⟩ := (hs.slots r).members id hid
    exact ⟨u, mem_site_tasks.mpr ⟨hu, hr⟩, hid, ht⟩
  waits := fun u hu ht => by
    obtain ⟨hm, rfl⟩ := mem_site_tasks.mp hu
    exact hs.waits u hm ht

theorem request_of_sound {r : SlotRef} {a : Admission} (ha : a ∈ (s.site r).requests) :
    ∃ u ∈ s.tasks, u.id = a.task ∧ u.slot = r ∧ u.state = .waitLoad ∧ (s.slot r).tenure = some a.stamp := by
  obtain ⟨ha, hx⟩ := mem_requests.mp ha
  have e : (⟨r.seg, a.ix⟩ : SlotRef) = r := slotRef_eq_iff.mpr ⟨rfl, hx⟩
  have := (hs.governors r.seg).queue a ha
  rwa [e] at this

theorem lit_of_sound {r : SlotRef} {e : LitEntry} (he : e ∈ (s.site r).lit) :
    (∃ u ∈ s.tasks, u.id = e.task ∧ u.slot = r ∧ u.state = .shown) ∧ e.Styles (s.shadow r) := by
  obtain ⟨he, hx⟩ := mem_lit.mp he
  have e1 : (⟨r.seg, e.ix⟩ : SlotRef) = r := slotRef_eq_iff.mpr ⟨rfl, hx⟩
  have h1 := (hs.governors r.seg).lit e he
  have h2 := (hs.governors r.seg).styles e he
  rw [e1] at h1 h2
  exact ⟨h1, ⟨h2.1, h2.2.1, h2.2.2.1, h2.2.2.2⟩⟩

variable (hi : s.DistinctIds)
include hi

theorem seats_of_current {r : SlotRef} {u : Task} (hu : u ∈ s.tasks) (hr : u.slot = r)
    (hc : (s.slot r).current = some u.id) : (s.site r).Seats u where
  mem := mem_site_tasks.mpr ⟨hu, hr⟩
  only := fun v hv hvc => by
    obtain ⟨hm, rfl⟩ := mem_site_tasks.mp hv
    have e := (hs.currents v hm hvc).symm.trans hc
    exact eq_of_id hi hm hu (Option.some.inj e)
  current := hc

theorem standing_of_sound (r : SlotRef) : Standing .none (s.site r) := by
  have hs1 := hs.slots r
  rcases hc : (s.slot r).current with _ | id
  · have idle : (s.site r).Idle := fun v hv => by
      obtain ⟨hm, rfl⟩ := mem_site_tasks.mp hv
      by_contra hvc
      have := hs.currents v hm (by simpa using hvc)
      simp [hc] at this
    refine .free hc (hs1.tenure hc) ?_ ?_ ?_ idle
    · refine List.eq_nil_iff_forall_not_mem.mpr fun a ha => ?_
      obtain ⟨u, -, -, -, -, ht⟩ := request_of_sound hs ha
      simp [hs1.tenure hc] at ht
    · refine List.eq_nil_iff_forall_not_mem.mpr fun e he => ?_
      obtain ⟨⟨u, hu, -, hr, hst⟩, -⟩ := lit_of_sound hs he
      have := idle u (mem_site_tasks.mpr ⟨hu, hr⟩)
      simp [hst, TaskState.isCurrent] at this
    · exact hs1.dark fun u hu => by simp [State.currentTask, hc] at hu
  · obtain ⟨u, hu, rfl, hr, huc⟩ := hs1.current id hc
    have seat := seats_of_current hs hi hu hr hc
    have hct : s.currentTask r = some u := by
      simp [State.currentTask, hc, (task?_eq_some_iff hi).mpr ⟨hu, rfl⟩]
    have requests : u.state ≠ .waitLoad → (s.site r).requests = [] := fun hne =>
      List.eq_nil_iff_forall_not_mem.mpr fun a ha => by
        obtain ⟨v, hv, -, hvr, hvs, -⟩ := request_of_sound hs ha
        have e := seat.only v (mem_site_tasks.mpr ⟨hv, hvr⟩) (by simp [hvs, TaskState.isCurrent])
        exact hne (e ▸ hvs)
    have lit : u.state ≠ .shown → (s.site r).lit = [] := fun hne =>
      List.eq_nil_iff_forall_not_mem.mpr fun e he => by
        obtain ⟨⟨v, hv, -, hvr, hvs⟩, -⟩ := lit_of_sound hs he
        have e := seat.only v (mem_site_tasks.mpr ⟨hv, hvr⟩) (by simp [hvs, TaskState.isCurrent])
        exact hne (e ▸ hvs)
    have dark : u.state ≠ .shown → (s.site r).Dark := fun hne =>
      hs1.dark fun v hv => by rw [hct] at hv; cases hv; exact hne
    rcases hst : u.state with _ | _ | _ | _ | _ | _ | _ | _ <;> rw [hst] at huc requests lit dark <;>
      first | (cases huc; done) | skip
    · obtain ⟨a, ha, hat⟩ := hs.queued u hu hst
      obtain ⟨v, hv, hvi, hvr, -, hten⟩ := (hs.governors u.slot.seg).queue a ha
      obtain rfl := eq_of_id hi hv hu (hvi.trans hat)
      have hx : a.ix = r.ix := by rw [← hr, hvr]
      have hrq : (s.site r).requests = [a] := by
        rw [site_requests, ← hx, ← hr]
        exact filter_eq_singleton (hs.governors v.slot.seg).queueSlots ha
      have htr : (s.site r).tenure = some a.stamp := by
        rw [site_tenure, ← hten, ← hr]
        congr 1
        rw [hvr]
      exact .waits v a seat hst htr hrq hat (lit (by simp)) (dark (by simp))
    · obtain ⟨e, he, het⟩ := hs.lit u hu hst
      obtain ⟨v, hv, hvi, hvr, -⟩ := (hs.governors u.slot.seg).lit e he
      obtain rfl := eq_of_id hi hv hu (hvi.trans het)
      have hx : e.ix = r.ix := by rw [← hr, hvr]
      have hl : (s.site r).lit = [e] := by
        rw [site_lit, ← hx, ← hr]
        exact filter_eq_singleton (hs.governors v.slot.seg).litSlots he
      have hsty := (lit_of_sound hs (r := r) (e := e) (by rw [hl]; simp)).2
      obtain ⟨ho, hd⟩ := hs1.owned v hct hst
      refine .shows v e seat hst ?_ (requests (by simp)) hl het hsty ho hd
      rw [site_tenure, ← hr]
      exact hs.tenures v hv hst
    · exact .blocked u seat hst (requests (by simp)) (lit (by simp)) (dark (by simp))

end

theorem stands_of_sound {s : State} (hi : s.DistinctIds) (hs : ArbiterSound s) : s.Stands settled :=
  ⟨hi, waiting_of_sound hs, standing_of_sound hs hi⟩

/-! ### From standing slots to the sound arbiter -/

theorem mem_site_self {s : State} {u : Task} (hu : u ∈ s.tasks) : u ∈ (s.site u.slot).tasks := mem_site_tasks.mpr ⟨hu, rfl⟩

section
variable {s : State} (h : s.Stands settled)
include h

theorem slotSound_of_stands (r : SlotRef) : SlotSound s r := by
  have w := h.waiting r
  have members : ∀ id ∈ (s.slot r).waiting, ∃ u ∈ s.tasks, u.id = id ∧ u.slot = r ∧ u.state.terminal = false :=
    fun id hid => by
      obtain ⟨u, hu, hid, ht⟩ := w.members id hid
      obtain ⟨hu, hr⟩ := mem_site_tasks.mp hu
      exact ⟨u, hu, hid, hr, ht⟩
  have seated : ∀ {u}, (s.site r).Seats u → s.currentTask r = some u := fun {u} hu => by
    have hm := (mem_site_tasks.mp hu.mem).1
    have hc : (s.slot r).current = some u.id := hu.current
    simp [State.currentTask, hc, (task?_eq_some_iff h.ids).mpr ⟨hm, rfl⟩]
  have currentOf : ∀ {u}, (s.site r).Seats u → u.state.isCurrent = true → ∀ id, (s.slot r).current = some id →
      ∃ v ∈ s.tasks, v.id = id ∧ v.slot = r ∧ v.state.isCurrent = true := fun {u} hu hcu id hid => by
    obtain ⟨hm, hr⟩ := mem_site_tasks.mp hu.mem
    exact ⟨u, hm, Option.some.inj (hu.current.symm.trans hid), hr, hcu⟩
  have someCurrent : ∀ {u}, (s.site r).Seats u → (s.slot r).current ≠ none := fun {u} hu hn => by
    have := hu.current; rw [site_current, hn] at this; cases this
  cases h.standing r with
  | free current tenure requests lit dark idle =>
    have hct : s.currentTask r = none := by
      have hc : (s.slot r).current = none := current
      simp [State.currentTask, hc]
    refine ⟨w.room, w.distinct, members, fun id hid => ?_, fun _ => tenure, fun u hu => ?_, fun _ => dark⟩
    · rw [site_current] at current; rw [current] at hid; cases hid
    · rw [hct] at hu; cases hu
  | blocked u seat state requests lit dark =>
    refine ⟨w.room, w.distinct, members, currentOf seat (by rw [state]; rfl), fun hn => absurd hn (someCurrent seat),
      fun v hv hvs => ?_, fun _ => dark⟩
    rw [seated seat] at hv; cases hv; rw [state] at hvs; cases hvs
  | waits u a seat state tenure requests task lit dark =>
    refine ⟨w.room, w.distinct, members, currentOf seat (by rw [state]; rfl), fun hn => absurd hn (someCurrent seat),
      fun v hv hvs => ?_, fun _ => dark⟩
    rw [seated seat] at hv; cases hv; rw [state] at hvs; cases hvs
  | shows u e seat state tenure requests lit task styles owner digits =>
    refine ⟨w.room, w.distinct, members, currentOf seat (by rw [state]; rfl), fun hn => absurd hn (someCurrent seat),
      fun v hv _ => ?_, fun hv => absurd state (hv u (seated seat))⟩
    rw [seated seat] at hv; cases hv
    exact ⟨owner, digits⟩

theorem request_of_stands {g : Seg} {a : Admission} (ha : a ∈ (s.gov g).queue) :
    ∃ u ∈ s.tasks, u.id = a.task ∧ u.slot = ⟨g, a.ix⟩ ∧ u.state = .waitLoad ∧ (s.slot ⟨g, a.ix⟩).tenure = some a.stamp := by
  have hm : a ∈ (s.site ⟨g, a.ix⟩).requests := mem_requests.mpr ⟨ha, rfl⟩
  cases h.standing ⟨g, a.ix⟩ with
  | waits u b seat state tenure requests task lit dark =>
    rw [requests, List.mem_singleton] at hm; subst hm
    obtain ⟨hu, hr⟩ := mem_site_tasks.mp seat.mem
    exact ⟨u, hu, task.symm, hr, state, tenure⟩
  | _ => simp_all

theorem lit_of_stands {g : Seg} {e : LitEntry} (he : e ∈ (s.gov g).lit) :
    (∃ u ∈ s.tasks, u.id = e.task ∧ u.slot = ⟨g, e.ix⟩ ∧ u.state = .shown) ∧ e.Styles (s.shadow ⟨g, e.ix⟩) := by
  have hm : e ∈ (s.site ⟨g, e.ix⟩).lit := mem_lit.mpr ⟨he, rfl⟩
  cases h.standing ⟨g, e.ix⟩ with
  | shows u b seat state tenure requests lit task styles owner digits =>
    rw [lit, List.mem_singleton] at hm; subst hm
    obtain ⟨hu, hr⟩ := mem_site_tasks.mp seat.mem
    exact ⟨⟨u, hu, task.symm, hr, state⟩, styles⟩
  | _ => simp_all

theorem requests_le_one (g : Seg) (ix : Fin 62) : ((s.gov g).queue.filter fun a => a.ix = ix).length ≤ 1 := by
  show (s.site ⟨g, ix⟩).requests.length ≤ 1
  cases h.standing ⟨g, ix⟩ <;> simp_all

theorem lit_le_one (g : Seg) (ix : Fin 62) : ((s.gov g).lit.filter fun e => e.ix = ix).length ≤ 1 := by
  show (s.site ⟨g, ix⟩).lit.length ≤ 1
  cases h.standing ⟨g, ix⟩ <;> simp_all

theorem governorSound_of_stands (g : Seg) : GovernorSound s g where
  queueSlots := nodup_of_filter_le_one (requests_le_one h g)
  queue := fun _ ha => request_of_stands h ha
  litSlots := nodup_of_filter_le_one (lit_le_one h g)
  lit := fun _ he => (lit_of_stands h he).1
  styles := fun _ he =>
    have hs := (lit_of_stands h he).2
    ⟨hs.colour, hs.pattern, hs.rotation, hs.level⟩

/-- A task in WAIT_LOAD, SHOWN or BLOCKED is the one that its slot seats. -/
theorem seats_of_isCurrent {u : Task} (hu : u ∈ s.tasks) (hc : u.state.isCurrent = true) : (s.site u.slot).Seats u := by
  have hm := mem_site_self hu
  cases h.standing u.slot with
  | free current tenure requests lit dark idle => rw [idle u hm] at hc; cases hc
  | blocked v seat => rw [seat.only u hm hc]; exact (seat.only u hm hc) ▸ seat
  | waits v a seat => rw [seat.only u hm hc]; exact (seat.only u hm hc) ▸ seat
  | shows v e seat => rw [seat.only u hm hc]; exact (seat.only u hm hc) ▸ seat

theorem sound_of_stands : ArbiterSound s where
  slots := slotSound_of_stands h
  governors := governorSound_of_stands h
  waits := fun u hu ht => (h.waiting u.slot).waits u (mem_site_self hu) ht
  currents := fun u hu hc => (seats_of_isCurrent h hu hc).current
  tenures := fun u hu hst => by
    have hc : u.state.isCurrent = true := by rw [hst]; rfl
    cases h.standing u.slot with
    | free current tenure requests lit dark idle => rw [idle u (mem_site_self hu)] at hc; cases hc
    | blocked v seat state => rw [← seat.only u (mem_site_self hu) hc, hst] at state; cases state
    | waits v a seat state => rw [← seat.only u (mem_site_self hu) hc, hst] at state; cases state
    | shows v e seat state tenure => exact tenure
  queued := fun u hu hst => by
    have hc : u.state.isCurrent = true := by rw [hst]; rfl
    cases h.standing u.slot with
    | free current tenure requests lit dark idle => rw [idle u (mem_site_self hu)] at hc; cases hc
    | blocked v seat state => rw [← seat.only u (mem_site_self hu) hc, hst] at state; cases state
    | shows v e seat state => rw [← seat.only u (mem_site_self hu) hc, hst] at state; cases state
    | waits v a seat state tenure requests task =>
      have ha : a ∈ (s.site u.slot).requests := by rw [requests]; simp
      exact ⟨a, (mem_requests.mp ha).1, by rw [task, seat.only u (mem_site_self hu) hc]⟩
  lit := fun u hu hst => by
    have hc : u.state.isCurrent = true := by rw [hst]; rfl
    cases h.standing u.slot with
    | free current tenure requests lit dark idle => rw [idle u (mem_site_self hu)] at hc; cases hc
    | blocked v seat state => rw [← seat.only u (mem_site_self hu) hc, hst] at state; cases state
    | waits v a seat state => rw [← seat.only u (mem_site_self hu) hc, hst] at state; cases state
    | shows v e seat state tenure requests lit task =>
      have he : e ∈ (s.site u.slot).lit := by rw [lit]; simp
      exact ⟨e, (mem_lit.mp he).1, by rw [task, seat.only u (mem_site_self hu) hc]⟩

end

end Sys2Proof.Machine
end

