-- ==== Sys2Proof/Proofs/GovernorStands.lean ====
section
/-! PROOFS. The governor keeps every slot standing: restyling, admission, the attempt, the exit check, shedding and load
changes (R91 to R98), whatever some slots still owe. -/

namespace Sys2Proof.Machine

variable {owes : SlotRef → Debt} {s t : State}

/-! ### Changes of one slot -/

theorem Site.Waiting.congr {x y : Site} (h : x.Waiting) (hw : y.waiting = x.waiting) (ht : y.tasks = x.tasks) :
    y.Waiting := by
  obtain ⟨h1, h2, h3, h4⟩ := h
  exact ⟨hw ▸ h1, hw ▸ h2, by rw [hw, ht]; exact h3, by rw [hw, ht]; exact h4⟩

/-- A change of the tasks that keeps their ids and which of them have ended keeps the waiting set sound. -/
theorem Site.Waiting.map {x : Site} (h : x.Waiting) {f : Task → Task} (hid : ∀ u, (f u).id = u.id)
    (ht : ∀ u ∈ x.tasks, (f u).state.terminal = u.state.terminal) :
    ({ x with tasks := x.tasks.map f } : Site).Waiting where
  room := h.room
  distinct := h.distinct
  members := fun i hi => by
    obtain ⟨u, hu, rfl, hut⟩ := h.members i hi
    exact ⟨f u, List.mem_map_of_mem hu, hid u, (ht u hu).trans hut⟩
  waits := fun v hv hvt => by
    obtain ⟨u, hu, rfl⟩ := List.mem_map.mp hv
    rw [hid]
    exact h.waits u hu ((ht u hu).symm.trans hvt)

theorem Site.Waiting.retask {x : Site} (h : x.Waiting) {id : TaskId} {f : Task → Task} (hid : ∀ u, (f u).id = u.id)
    (ht : ∀ u ∈ x.tasks, u.id = id → (f u).state.terminal = u.state.terminal) : (x.retask id f).Waiting :=
  h.map (fun u => by split <;> simp [hid]) fun u hu => by
    split
    · next e => exact ht u hu e
    · rfl

/-- What leaves every site leaves how the slots stand. -/
theorem State.Stands.congr (h : s.Stands owes) (ht : t.tasks = s.tasks) (hs : ∀ r, t.site r = s.site r) : t.Stands owes where
  ids := distinctIds_of_tasks ht h.ids
  waiting := fun r => hs r ▸ h.waiting r
  standing := fun r => hs r ▸ h.standing r

/-- A change of one slot. -/
theorem State.Stands.change (h : s.Stands owes) (hi : t.DistinctIds) (r : SlotRef) (d : Debt)
    (hne : ∀ q, q ≠ r → t.site q = s.site q) (hw : (t.site r).Waiting) (hst : Standing d (t.site r)) :
    t.Stands (Function.update owes r d) where
  ids := hi
  waiting := fun q => by
    by_cases e : q = r
    · exact e ▸ hw
    · exact hne q e ▸ h.waiting q
  standing := fun q => by
    by_cases e : q = r
    · subst e; rw [Function.update_self]; exact hst
    · rw [Function.update_of_ne e, hne q e]; exact h.standing q

/-- A change of one slot that leaves what it owes. -/
theorem State.Stands.change_same (h : s.Stands owes) (hi : t.DistinctIds) (r : SlotRef)
    (hne : ∀ q, q ≠ r → t.site q = s.site q) (hw : (t.site r).Waiting) (hst : Standing (owes r) (t.site r)) :
    t.Stands owes := by
  have := h.change hi r (owes r) hne hw hst
  rwa [Function.update_eq_self] at this

/-! ### Restyling (R95, R96, R100) -/

/-- A shadow at another level. -/
def Shadow.atLevel (sh : Shadow) (l : Nat) : Shadow := { sh with level := l }

theorem site_restyleShadow (s : State) (q : SlotRef) (l : Nat) (r : SlotRef) :
    (s.restyleShadow q l).site r =
      if r = q then { s.site q with shadow := (s.shadow q).atLevel l } else s.site r := by
  simp only [State.restyleShadow, site_handDisplay]
  exact site_updShadow s q _ r

/-- Restyling the shadows of some entries, none of them at `r`. -/
theorem site_restyleAll_of_ne (g : Seg) (f : LitEntry → Nat) {l : List LitEntry} {r : SlotRef} (s : State)
    (h : ∀ e ∈ l, r ≠ ⟨g, e.ix⟩) :
    (l.foldl (fun acc e => acc.restyleShadow ⟨g, e.ix⟩ (f e)) s).site r = s.site r := by
  induction l generalizing s with
  | nil => rfl
  | cons e l ih =>
    rw [List.foldl_cons, ih _ fun e' he' => h e' (List.mem_cons_of_mem e he'), site_restyleShadow,
      if_neg (h e List.mem_cons_self)]

/-- Restyling the shadows of some entries, those at `r` at level `v`. -/
theorem site_restyleAll (g : Seg) (f : LitEntry → Nat) {l : List LitEntry} {r : SlotRef} {v : Nat} (s : State)
    (h : ∀ e ∈ l, r = ⟨g, e.ix⟩ → f e = v) (hv : (∃ e ∈ l, r = ⟨g, e.ix⟩) ∨ (s.shadow r).level = v) :
    (l.foldl (fun acc e => acc.restyleShadow ⟨g, e.ix⟩ (f e)) s).site r =
      { s.site r with shadow := (s.shadow r).atLevel v } := by
  induction l generalizing s with
  | nil =>
    obtain ⟨e, he, -⟩ | hv := hv
    · cases he
    · subst hv; rfl
  | cons e l ih =>
    have hl : ∀ e' ∈ l, r = ⟨g, e'.ix⟩ → f e' = v := fun e' he' => h e' (List.mem_cons_of_mem e he')
    by_cases her : r = ⟨g, e.ix⟩
    · have hfe := h e List.mem_cons_self her
      have hsite := site_restyleShadow s ⟨g, e.ix⟩ (f e) r
      rw [if_pos her, ← her] at hsite
      have hsh : ((s.restyleShadow r (f e)).shadow r) = (s.shadow r).atLevel (f e) := congrArg Site.shadow hsite
      rw [List.foldl_cons, ← her, ih _ hl (Or.inr (by rw [hsh]; exact hfe)), hsite, hsh, hfe]
      rfl
    · have hsite := site_restyleShadow s ⟨g, e.ix⟩ (f e) r
      rw [if_neg her] at hsite
      have hsh : ((s.restyleShadow ⟨g, e.ix⟩ (f e)).shadow r) = s.shadow r := congrArg Site.shadow hsite
      have hv' : (∃ e' ∈ l, r = ⟨g, e'.ix⟩) ∨ ((s.restyleShadow ⟨g, e.ix⟩ (f e)).shadow r).level = v := by
        rw [hsh]
        refine hv.imp_left ?_
        rintro ⟨e', he', hr⟩
        rcases List.mem_cons.mp he' with rfl | he'
        · exact absurd hr her
        · exact ⟨e', he', hr⟩
      rw [List.foldl_cons, ih _ hl hv', hsite, hsh]

/-- The lit entry and the shadow at the level `f` gives. -/
def Site.relevel (x : Site) (f : LitEntry → Nat) : Site :=
  match x.lit with
  | [] => x
  | e :: _ => { x with lit := [{ e with effective := f e }], shadow := x.shadow.atLevel (f e) }

/-- The slot has nothing lit, or one entry at the level of its shadow. -/
def Site.Level (x : Site) : Prop := x.lit = [] ∨ ∃ e, x.lit = [e] ∧ x.shadow.level = e.effective

theorem Standing.level {d : Debt} {x : Site} (h : Standing d x) : x.Level := by
  cases h with
  | shows u e seat state tenure requests lit task styles => exact .inr ⟨e, lit, styles.level⟩
  | display e idle requests lit styles => exact .inr ⟨e, lit, styles.level⟩
  | _ => exact .inl ‹_›

theorem Site.relevel_of_nil {x : Site} (h : x.lit = []) (f : LitEntry → Nat) : x.relevel f = x := by
  unfold Site.relevel; rw [h]

theorem Site.relevel_of_singleton {x : Site} {e : LitEntry} (h : x.lit = [e]) (f : LitEntry → Nat) :
    x.relevel f = { x with lit := [{ e with effective := f e }], shadow := x.shadow.atLevel (f e) } := by
  unfold Site.relevel; rw [h]

theorem Standing.relevel {d : Debt} {x : Site} (h : Standing d x) (f : LitEntry → Nat) : Standing d (x.relevel f) := by
  cases h with
  | shows u e seat state tenure requests lit task styles owner digits =>
    rw [Site.relevel_of_singleton lit]
    exact .shows u _ ⟨seat.mem, seat.only, seat.current⟩ state tenure requests rfl task
      ⟨styles.colour, styles.pattern, styles.rotation, rfl⟩ owner digits
  | display e idle requests lit styles owner =>
    rw [Site.relevel_of_singleton lit]
    exact .display _ idle requests rfl ⟨styles.colour, styles.pattern, styles.rotation, rfl⟩ owner
  | free current tenure requests lit dark idle =>
    rw [Site.relevel_of_nil lit]; exact .free current tenure requests lit dark idle
  | blocked u seat state requests lit dark =>
    rw [Site.relevel_of_nil lit]; exact .blocked u seat state requests lit dark
  | waits u a seat state tenure requests task lit dark =>
    rw [Site.relevel_of_nil lit]; exact .waits u a seat state tenure requests task lit dark
  | seat idle requests lit dark => rw [Site.relevel_of_nil lit]; exact .seat idle requests lit dark
  | glow idle requests lit form => rw [Site.relevel_of_nil lit]; exact .glow idle requests lit form
  | request a idle requests task lit dark =>
    rw [Site.relevel_of_nil lit]; exact .request a idle requests task lit dark

theorem Site.Waiting.relevel {x : Site} (h : x.Waiting) (f : LitEntry → Nat) : (x.relevel f).Waiting := by
  unfold Site.relevel; split
  · exact h
  · exact h.congr rfl rfl

/-- The lit list at the levels `f` gives, as one slot sees it. -/
theorem filter_map_effective (f : LitEntry → Nat) (l : List LitEntry) (i : Fin 62) :
    ((l.map fun e => { e with effective := f e }).filter fun e => e.ix = i) =
      (l.filter fun e => e.ix = i).map fun e => { e with effective := f e } := by
  rw [List.filter_map]; rfl

theorem site_relevel (g : Seg) (f : LitEntry → Nat) {r : SlotRef} (h : (s.site r).Level) :
    (s.relevel g f).site r = if r.seg = g then (s.site r).relevel f else s.site r := by
  unfold State.relevel
  simp only []
  set changed := (s.gov g).lit.filter fun e => f e ≠ e.effective with hch
  set l := allIx.filterMap fun ix => changed.find? fun e => e.ix = ix with hl
  set u := (s.updGov g fun v => { v with lit := v.lit.map fun e => { e with effective := f e } }).recompute g with hu
  have hmem : ∀ e ∈ l, e ∈ (s.gov g).lit := fun e he => by
    obtain ⟨ix, -, hf⟩ := List.mem_filterMap.mp he
    exact (List.mem_filter.mp (List.mem_of_find?_eq_some hf)).1
  have hsite : u.site r = if r.seg = g then
      { s.site r with lit := (s.site r).lit.map fun e => { e with effective := f e } } else s.site r := by
    rw [hu, site_recompute, site_updGov]
    split
    · next hg => subst hg; rw [filter_map_effective]; rfl
    · rfl
  have hshu : u.shadow r = s.shadow r := by
    have := congrArg Site.shadow hsite
    split at this <;> exact this
  by_cases hg : r.seg = g
  · rw [if_pos hg] at hsite ⊢
    have hlit : ∀ e ∈ l, r = ⟨g, e.ix⟩ → e ∈ (s.site r).lit := fun e he hr =>
      mem_lit.mpr ⟨hg ▸ hmem e he, by rw [hr]⟩
    rcases h with h | ⟨e, h, hlev⟩
    · have hno : ∀ e ∈ l, r ≠ ⟨g, e.ix⟩ := fun e he hr => by
        have hm := hlit e he hr
        rw [h] at hm
        cases hm
      rw [site_restyleAll_of_ne g f u hno, hsite, Site.relevel_of_nil h]
      refine congrArg (fun l => ({ s.site r with lit := l } : Site)) (?_ : _ = (s.site r).lit)
      rw [h]; rfl
    · obtain ⟨hm, hx⟩ := mem_lit.mp (show e ∈ (s.site r).lit by rw [h]; exact List.mem_singleton.mpr rfl)
      have hr : r = ⟨g, e.ix⟩ := slotRef_eq_iff.mpr ⟨hg, hx.symm⟩
      have hone : ∀ e' ∈ l, r = ⟨g, e'.ix⟩ → e' = e := fun e' he' hr' => by
        have := hlit e' he' hr'
        rw [h] at this
        exact List.mem_singleton.mp this
      rw [site_restyleAll g f u (v := f e) (fun e' he' hr' => by rw [hone e' he' hr']) ?_, hsite, hshu, h,
        Site.relevel_of_singleton h]
      · rfl
      · by_cases hfe : f e = e.effective
        · right; rw [hshu, hfe]; exact hlev
        · left
          have hc : e ∈ changed := List.mem_filter.mpr ⟨hg ▸ hm, by simpa using hfe⟩
          obtain ⟨e', he'⟩ : ∃ e', changed.find? (fun x => x.ix = e.ix) = some e' :=
            Option.ne_none_iff_exists'.mp fun hn => by simpa using List.find?_eq_none.mp hn e hc
          have hix : e'.ix = e.ix := by simpa using List.find?_some he'
          exact ⟨e', List.mem_filterMap.mpr ⟨e.ix, List.mem_finRange _, he'⟩, by rw [hix]; exact hr⟩
  · rw [if_neg hg] at hsite ⊢
    rw [site_restyleAll_of_ne g f u fun e _ hr => hg (by rw [hr]), hsite]

theorem relevel_tasks (s : State) (g : Seg) (f : LitEntry → Nat) : (s.relevel g f).tasks = s.tasks := by
  have hand : ∀ (u : State) q l, (u.restyleShadow q l).tasks = u.tasks := fun u q l => by
    unfold State.restyleShadow State.handDisplay State.joinDisplay State.queueDisplay State.mergeDisplay
      State.appendDisplay
    repeat' split
    all_goals rfl
  have fold : ∀ (l : List LitEntry) (u : State),
      (l.foldl (fun acc e => acc.restyleShadow ⟨g, e.ix⟩ (f e)) u).tasks = u.tasks := fun l => by
    induction l with
    | nil => intro u; rfl
    | cons e l ih => intro u; rw [List.foldl_cons, ih, hand]
  exact fold _ _

theorem stands_relevel (h : s.Stands owes) (g : Seg) (f : LitEntry → Nat) : (s.relevel g f).Stands owes where
  ids := distinctIds_of_tasks (relevel_tasks s g f) h.ids
  waiting := fun r => by
    rw [site_relevel g f (h.standing r).level]; split
    · exact (h.waiting r).relevel f
    · exact h.waiting r
  standing := fun r => by
    rw [site_relevel g f (h.standing r).level]; split
    · exact (h.standing r).relevel f
    · exact h.standing r

/-- The economy mark is no part of a site. -/
theorem stands_economy (h : s.Stands owes) (g : Seg) (b : Bool) :
    (s.updGov g fun v => { v with economy := b }).Stands owes :=
  h.congr rfl (site_updSeg s g (f := fun x => { x with gov := { x.gov with economy := b } }) (fun _ => rfl) (fun _ => rfl)
    fun _ => rfl)

theorem stands_notify (h : s.Stands owes) (b : NoticeBody) : (s.notify b).Stands owes := h.congr (by simp) (by simp)

theorem stands_count (h : s.Stands owes) (g : Seg) (f : SegCounters → SegCounters) : (s.count g f).Stands owes :=
  h.congr (by simp) (by simp)

theorem stands_recompute (h : s.Stands owes) (g : Seg) : (s.recompute g).Stands owes := h.congr rfl (by simp)

theorem stands_enterEconomy (h : s.Stands owes) (g : Seg) : (s.enterEconomy g).Stands owes :=
  stands_notify (stands_relevel (stands_economy h g true) g _) _

theorem stands_exitCheck (h : s.Stands owes) (g : Seg) : (s.exitCheck g).Stands owes := by
  unfold State.exitCheck; split
  · exact stands_notify (stands_relevel (stands_economy h g false) g _) _
  · exact h

/-! ### Admission (R92, R93) -/

/-- The only task in WAIT_LOAD that a request can name is the one its slot seats. -/
theorem waits_of_request (h : s.Stands owes) {r : SlotRef} {a : Admission} (ha : a ∈ (s.site r).requests) {u : Task}
    (hu : s.task? a.task = some u) (hst : u.state = .waitLoad) :
    owes r = .none ∧ (s.site r).Seats u ∧ (s.site r).tenure = some a.stamp ∧ (s.site r).requests = [a] ∧
      (s.site r).lit = [] := by
  obtain ⟨hm, hid⟩ := (task?_eq_some_iff h.ids).mp hu
  have same : ∀ v ∈ (s.site r).tasks, v.id = a.task → v = u := fun v hv e =>
    eq_of_id h.ids (mem_site_tasks.mp hv).1 hm (e.trans hid.symm)
  have hst' := h.standing r
  generalize owes r = d at hst'
  cases hst' with
  | waits v b seat state tenure requests task lit dark =>
    rw [requests, List.mem_singleton] at ha; subst ha
    obtain rfl := same v seat.mem task.symm
    exact ⟨rfl, seat, tenure, requests, lit⟩
  | request b idle requests task lit dark =>
    rw [requests, List.mem_singleton] at ha; subst ha
    obtain ⟨v, hv, hvi⟩ := task
    obtain rfl := same v hv hvi
    have := idle v hv
    rw [hst] at this; cases this
  | free current tenure requests => rw [requests] at ha; cases ha
  | blocked v seat state requests => rw [requests] at ha; cases ha
  | shows v e seat state tenure requests => rw [requests] at ha; cases ha
  | seat idle requests => rw [requests] at ha; cases ha
  | glow idle requests => rw [requests] at ha; cases ha
  | display e idle requests => rw [requests] at ha; cases ha

/-- The task that a slot seats, changed, is still the only one it seats. -/
theorem Site.Seats.retask {x : Site} {u : Task} (h : x.Seats u) (hd : ∀ v ∈ x.tasks, v.id = u.id → v = u)
    {f : Task → Task} (hf : (f u).id = u.id) : (x.retask u.id f).Seats (f u) where
  mem := List.mem_map.mpr ⟨u, h.mem, if_pos rfl⟩
  only := fun v hv hc => by
    obtain ⟨w, hw, rfl⟩ := List.mem_map.mp hv
    by_cases e : w.id = u.id
    · rw [if_pos e, hd w hw e]
    · rw [if_neg e] at hc
      exact absurd (congrArg Task.id (h.only w hw hc)) e
  current := by rw [hf]; exact h.current

theorem same_of_id (hi : s.DistinctIds) {r : SlotRef} {u : Task} (hu : u ∈ (s.site r).tasks) :
    ∀ v ∈ (s.site r).tasks, v.id = u.id → v = u := fun _ hv e =>
  eq_of_id hi (mem_site_tasks.mp hv).1 (mem_site_tasks.mp hu).1 e

/-- The entry that an admission puts into the lit list. -/
def State.litEntry (s : State) (g : Seg) (a : Admission) (t : Task) : LitEntry :=
  let p := s.picker t.picker
  let e := s.admitLevel g p
  ⟨a.ix, t.id, p.colour, p.pattern, s.chooseRotation g p e, p.level, e⟩

/-- R54: the shadow of the slot of an admission. -/
def State.litShadow (s : State) (g : Seg) (a : Admission) (t : Task) : Shadow :=
  let e := s.litEntry g a t
  { seq := (s.shadow ⟨g, a.ix⟩).seq + 1, owner := some ⟨t.id, t.step⟩, colour := e.colour, pattern := e.pattern
    rotation := e.rotation, level := e.effective, digits := t.digits }

/-- R21: the task of an admission. -/
def Task.showAt (now : Stamp) (t : Task) : Task :=
  { t with state := .shown, shownSince := now, timeLeft := 1000 * t.limit.getD 0 }

/-- R92: what an admission makes of the sites. -/
theorem site_admitHead {g : Seg} {a : Admission} {rest : List Admission} (hq : (s.gov g).queue = a :: rest) (t : Task)
    (r : SlotRef) :
    (s.admitHead g a t).site r =
      if r = ⟨g, a.ix⟩ then
        { (s.site r).retask t.id (Task.showAt s.time) with
          requests := (s.site r).requests.tail, lit := (s.site r).lit ++ [s.litEntry g a t]
          shadow := s.litShadow g a t }
      else (s.site r).retask t.id (Task.showAt s.time) := by
  set u := (s.updGov g fun v => { v with queue := v.queue.tail, lit := v.lit ++ [s.litEntry g a t] }).recompute g with hu
  have hsu : ∀ q, u.shadow q = s.shadow q := fun q => by
    have := congrArg Site.shadow (site_recompute (s.updGov g fun v => { v with queue := v.queue.tail, lit := v.lit ++ [s.litEntry g a t] }) g q)
    rw [site_updGov] at this
    split at this <;> exact this
  have hown : ((u.updShadow ⟨g, a.ix⟩ fun _ => s.litShadow g a t).site r) =
      if r = ⟨g, a.ix⟩ then
        { s.site r with
          requests := (s.site r).requests.tail, lit := (s.site r).lit ++ [s.litEntry g a t]
          shadow := s.litShadow g a t }
      else s.site r := by
    rw [site_updShadow]
    have hsite : ∀ q : SlotRef, u.site q = if q.seg = g then
        { s.site q with
          requests := (s.gov g).queue.tail.filter fun b => b.ix = q.ix
          lit := ((s.gov g).lit ++ [s.litEntry g a t]).filter fun e => e.ix = q.ix } else s.site q := fun q => by
      rw [hu, site_recompute, site_updGov]
    have hix : (s.litEntry g a t).ix = a.ix := rfl
    split
    · next hr =>
      subst hr
      simp only [hsite, if_true, hq, List.tail_cons, List.filter_append, site_requests, site_lit, List.filter_cons, hix,
        decide_true, List.filter_nil]
    · next hr =>
      rw [hsite]
      split
      · next hg =>
        have hne : a.ix ≠ r.ix := fun e => hr (slotRef_eq_iff.mpr ⟨hg, e.symm⟩)
        subst hg
        have h1 : (s.site r).requests = rest.filter fun b => b.ix = r.ix := by
          rw [site_requests, hq, List.filter_cons_of_neg (by simpa using hne)]
        have h2 : ((s.gov r.seg).lit ++ [s.litEntry r.seg a t]).filter (fun e => e.ix = r.ix) = (s.site r).lit := by
          rw [List.filter_append, List.filter_cons_of_neg (by rw [hix]; simpa using hne)]
          simp [site_lit]
        rw [hq, List.tail_cons, h2, ← h1]
      · rfl
  have hadm : (s.admitHead g a t).site r =
      ((u.updShadow ⟨g, a.ix⟩ fun _ => s.litShadow g a t).site r).retask t.id (Task.showAt s.time) := by
    let e := s.litEntry g a t
    show ((u.ownShadow ⟨g, a.ix⟩ t (s.picker t.picker) e.rotation e.effective).updTask t.id (Task.showAt s.time)).site r = _
    rw [site_updTask _ (f := Task.showAt s.time) fun _ => rfl]
    congr 1
    unfold State.ownShadow
    rw [site_handDisplay, site_updShadow, site_updShadow]
    have : (u.shadow ⟨g, a.ix⟩).seq = (s.shadow ⟨g, a.ix⟩).seq := by rw [hsu]
    rw [this]
    rfl
  rw [hadm, hown]
  split <;> rfl

theorem admitHead_distinctIds (h : s.DistinctIds) (g : Seg) (a : Admission) (t : Task) :
    (s.admitHead g a t).DistinctIds := distinctIds_of_kept (kept_admit s g a t) h

/-- Changing a task that names another slot leaves a site. -/
theorem retask_of_ne (h : s.DistinctIds) {u : Task} (hu : u ∈ s.tasks) {f : Task → Task} {r : SlotRef}
    (hr : r ≠ u.slot) : (s.site r).retask u.id f = s.site r := by
  have : ((s.site r).tasks.map fun v => if v.id = u.id then f v else v) = (s.site r).tasks := by
    conv_rhs => rw [← List.map_id (s.site r).tasks]
    refine List.map_congr_left fun v hv => ?_
    obtain ⟨hv, hs⟩ := mem_site_tasks.mp hv
    rw [if_neg, id]
    exact fun e => hr (by rw [← hs, eq_of_id h hv hu e])
  simp only [Site.retask, this]

theorem stands_admitHead (h : s.Stands owes) {g : Seg} {a : Admission} {rest : List Admission}
    (hq : (s.gov g).queue = a :: rest) {u : Task} (hu : s.task? a.task = some u) (hst : u.state = .waitLoad) :
    (s.admitHead g a u).Stands owes := by
  have ha : a ∈ (s.site ⟨g, a.ix⟩).requests := mem_requests.mpr ⟨by rw [hq]; exact List.mem_cons_self, rfl⟩
  obtain ⟨hd, seat, tenure, requests, lit⟩ := waits_of_request h ha hu hst
  obtain ⟨hm, hr⟩ := mem_site_tasks.mp seat.mem
  have same := same_of_id h.ids seat.mem
  refine h.change_same (admitHead_distinctIds h.ids g a u) ⟨g, a.ix⟩ (fun q hne => ?_) ?_ ?_
  · rw [site_admitHead hq, if_neg hne, retask_of_ne h.ids hm (hr ▸ hne)]
  · rw [site_admitHead hq, if_pos rfl]
    refine ((h.waiting ⟨g, a.ix⟩).retask (id := u.id) (f := Task.showAt s.time) (fun _ => rfl) fun v hv e => ?_).congr rfl rfl
    rw [same v hv e, hst]; rfl
  · rw [site_admitHead hq, if_pos rfl, hd]
    have hseat := seat.retask same (f := Task.showAt s.time) rfl
    refine .shows (Task.showAt s.time u) (s.litEntry g a u) ⟨hseat.mem, hseat.only, hseat.current⟩ rfl ?_ ?_ ?_ rfl
      ⟨rfl, rfl, rfl, rfl⟩ rfl rfl
    · exact (by rw [tenure]; rfl : (s.site ⟨g, a.ix⟩).tenure.isSome = true)
    · show (s.site ⟨g, a.ix⟩).requests.tail = []
      rw [requests]; rfl
    · show (s.site ⟨g, a.ix⟩).lit ++ _ = _
      rw [lit]; rfl

/-- A request with its waited mark set. -/
def Admission.marked (a : Admission) : Admission := { a with waited := true }

theorem site_stopAtHead {g : Seg} {a : Admission} {rest : List Admission} (hq : (s.gov g).queue = a :: rest) (r : SlotRef) :
    (s.stopAtHead g a).site r =
      if r = ⟨g, a.ix⟩ ∧ a.waited = false then
        { s.site r with requests := a.marked :: (s.site r).requests.tail } else s.site r := by
  unfold State.stopAtHead
  cases hw : a.waited with
  | true => simp
  | false =>
    simp only [Bool.false_eq_true, if_false, site_count, site_updGov, and_true]
    have hix : a.marked.ix = a.ix := rfl
    split
    · next hg =>
      subst hg
      by_cases hx : a.ix = r.ix
      · have hr : r = ⟨r.seg, a.ix⟩ := slotRef_eq_iff.mpr ⟨rfl, hx.symm⟩
        rw [if_pos hr]
        have h1 : (s.site r).requests.tail = rest.filter fun b => b.ix = r.ix := by
          rw [site_requests, hq, List.filter_cons_of_pos (by simpa using hx)]; rfl
        rw [h1, hq]
        show ({ s.site r with requests := (a.marked :: rest).filter fun b => b.ix = r.ix } : Site) = _
        rw [List.filter_cons_of_pos (by rw [hix]; simpa using hx)]
      · rw [if_neg fun e => hx (by rw [e])]
        show ({ s.site r with
          requests := (a.marked :: (s.gov r.seg).queue.tail).filter fun b => b.ix = r.ix } : Site) = _
        have h1 : (s.site r).requests = rest.filter fun b => b.ix = r.ix := by
          rw [site_requests, hq, List.filter_cons_of_neg (by simpa using hx)]
        rw [hq, List.filter_cons_of_neg (by rw [hix]; simpa using hx), List.tail_cons, ← h1]
    · next hg => rw [if_neg fun e => hg (by rw [e])]

theorem stopAtHead_tasks (s : State) (g : Seg) (a : Admission) : (s.stopAtHead g a).tasks = s.tasks := by
  unfold State.stopAtHead; split <;> simp

theorem stands_stopAtHead (h : s.Stands owes) {g : Seg} {a : Admission} {rest : List Admission}
    (hq : (s.gov g).queue = a :: rest) : (s.stopAtHead g a).Stands owes := by
  refine h.change_same (distinctIds_of_tasks (stopAtHead_tasks s g a) h.ids) ⟨g, a.ix⟩ (fun q hne => ?_) ?_ ?_
  · rw [site_stopAtHead hq, if_neg fun e => hne e.1]
  · rw [site_stopAtHead hq]; split
    · exact (h.waiting _).congr rfl rfl
    · exact h.waiting _
  · rw [site_stopAtHead hq]; split
    · have ha : a ∈ (s.site ⟨g, a.ix⟩).requests := mem_requests.mpr ⟨by rw [hq]; exact List.mem_cons_self, rfl⟩
      have hst := h.standing ⟨g, a.ix⟩
      generalize owes ⟨g, a.ix⟩ = d at hst ⊢
      cases hst with
      | waits v b seat state tenure requests task lit dark =>
        rw [requests, List.mem_singleton] at ha; subst ha
        exact .waits v a.marked ⟨seat.mem, seat.only, seat.current⟩ state tenure (by rw [requests]; rfl) task lit dark
      | request b idle requests task lit dark =>
        rw [requests, List.mem_singleton] at ha; subst ha
        exact .request a.marked idle (by rw [requests]; rfl) task lit dark
      | free current tenure requests => rw [requests] at ha; cases ha
      | blocked v seat state requests => rw [requests] at ha; cases ha
      | shows v e seat state tenure requests => rw [requests] at ha; cases ha
      | seat idle requests => rw [requests] at ha; cases ha
      | glow idle requests => rw [requests] at ha; cases ha
      | display e idle requests => rw [requests] at ha; cases ha
    · exact h.standing _

theorem relevel_queue (s : State) (g : Seg) (f : LitEntry → Nat) (h : Seg) :
    ((s.relevel g f).gov h).queue = (s.gov h).queue := by
  have hand : ∀ (u : State) q l, ((u.restyleShadow q l).gov h) = u.gov h := fun u q l => by
    unfold State.restyleShadow State.handDisplay State.joinDisplay State.queueDisplay State.mergeDisplay
      State.appendDisplay State.updShadow State.gov
    repeat' split
    all_goals simp
  have fold : ∀ (l : List LitEntry) (u : State),
      ((l.foldl (fun acc e => acc.restyleShadow ⟨g, e.ix⟩ (f e)) u).gov h) = u.gov h := fun l => by
    induction l with
    | nil => intro u; rfl
    | cons e l ih => intro u; rw [List.foldl_cons, ih, hand]
  unfold State.relevel
  simp only [fold, State.recompute, gov_updGov]
  repeat' split
  all_goals simp_all

theorem enterEconomy_queue (s : State) (g h : Seg) : ((s.enterEconomy g).gov h).queue = (s.gov h).queue := by
  unfold State.enterEconomy
  have : ∀ (u : State) b, (u.notify b).gov h = u.gov h := fun u b => by
    unfold State.gov; rw [seg_of_segs (u.notify_segs b)]
  rw [this, relevel_queue, gov_updGov]
  split
  · next e => rw [e]
  · rfl

theorem enterEconomy_tasks (s : State) (g : Seg) : (s.enterEconomy g).tasks = s.tasks := by
  unfold State.enterEconomy; rw [State.notify_tasks, relevel_tasks]; rfl

theorem stands_attemptLoop (g : Seg) (n : Nat) (h : s.Stands owes) : (s.attemptLoop g n).Stands owes := by
  induction n generalizing s with
  | zero => exact h
  | succ n ih =>
    simp only [State.attemptLoop]
    split
    · exact h
    · next a rest hq =>
      split
      · exact h
      · next u hu =>
        split
        · exact h
        · next hst =>
          rw [not_not] at hst
          have hq' : ((s.enterEconomy g).gov g).queue = a :: rest := by rw [enterEconomy_queue, hq]
          have hu' : (s.enterEconomy g).task? a.task = some u := by
            unfold State.task? at *; rw [enterEconomy_tasks]; exact hu
          have he := stands_enterEconomy h g
          repeat' split
          · exact ih (stands_admitHead h hq hu hst)
          · exact stands_stopAtHead h hq
          · exact ih (stands_admitHead he hq' hu' hst)
          · exact stands_stopAtHead he hq'

/-- R94: the admission attempt and the exit check keep every slot standing. -/
theorem stands_settle (h : s.Stands owes) (g : Seg) : (s.settle g).Stands owes :=
  stands_exitCheck (stands_attemptLoop g _ h) g

end Sys2Proof.Machine
end

