-- ==== Sys2Proof/Proofs/ArbiterStands.lean ====
section
/-! PROOFS. The slot arbiter keeps every slot standing: shedding and load changes (R97 to R99), selection (R44), loss and
return of service (R46 to R49), the end of a task (R24, R28), and the presses that change a lit task (R56). -/

namespace Sys2Proof.Machine

variable {owes : SlotRef → Debt} {s t : State}

/-! ### The task table under the arbiter's operations -/

@[simp] theorem handDisplay_tasks (s : State) (r : SlotRef) (k : DisplayKind) : (s.handDisplay r k).tasks = s.tasks := by
  unfold State.handDisplay State.joinDisplay State.queueDisplay State.mergeDisplay State.appendDisplay
  repeat' split
  all_goals rfl

@[simp] theorem darken_tasks (s : State) (r : SlotRef) : (s.darken r).tasks = s.tasks := by
  unfold State.darken; split <;> simp

@[simp] theorem withdraw_tasks (s : State) (r : SlotRef) : (s.withdraw r).tasks = s.tasks := rfl

@[simp] theorem unlight_tasks (s : State) (r : SlotRef) : (s.unlight r).tasks = s.tasks := rfl

@[simp] theorem place_tasks (s : State) (r : SlotRef) (u : Task) (x : Stamp) : (s.place r u x).tasks = s.tasks := rfl

@[simp] theorem setCurrent_tasks (s : State) (r : SlotRef) (id : TaskId) (x : Option Stamp) :
    (s.setCurrent r id x).tasks = s.tasks := rfl

@[simp] theorem clearCurrent_tasks (s : State) (r : SlotRef) : (s.clearCurrent r).tasks = s.tasks := rfl

@[simp] theorem leaveWaiting_tasks (s : State) (r : SlotRef) (id : TaskId) : (s.leaveWaiting r id).tasks = s.tasks := rfl

theorem withdraw_distinctIds (h : s.DistinctIds) (r : SlotRef) : (s.withdraw r).DistinctIds := h

theorem unlight_distinctIds (h : s.DistinctIds) (r : SlotRef) : (s.unlight r).DistinctIds := h

theorem setCurrent_distinctIds (h : s.DistinctIds) (r : SlotRef) (id : TaskId) (x : Option Stamp) :
    (s.setCurrent r id x).DistinctIds := h

theorem clearCurrent_distinctIds (h : s.DistinctIds) (r : SlotRef) : (s.clearCurrent r).DistinctIds := h

theorem leaveWaiting_distinctIds (h : s.DistinctIds) (r : SlotRef) (id : TaskId) : (s.leaveWaiting r id).DistinctIds := h

theorem place_distinctIds (h : s.DistinctIds) (r : SlotRef) (u : Task) (x : Stamp) : (s.place r u x).DistinctIds := h

theorem darken_distinctIds (h : s.DistinctIds) (r : SlotRef) : (s.darken r).DistinctIds :=
  distinctIds_of_tasks (darken_tasks s r) h

theorem task?_of_tasks (h : t.tasks = s.tasks) (id : TaskId) : t.task? id = s.task? id := by unfold State.task?; rw [h]

theorem task?_updTask (s : State) {f : Task → Task} (hf : ∀ u, (f u).id = u.id) (id : TaskId) :
    (s.updTask id f).task? id = (s.task? id).map f := by
  have key : ∀ l : List Task, (l.map fun u => if u.id = id then f u else u).find? (fun u => u.id == id) =
      (l.find? fun u => u.id == id).map f := fun l => by
    induction l with
    | nil => rfl
    | cons u l ih =>
      by_cases e : u.id = id
      · have h1 : (f u).id = id := (hf u).trans e
        simp [e, h1]
      · simp [e, ih]
  exact key s.tasks

/-! ### Sites: small changes -/

theorem site_darken_of_ne {r q : SlotRef} (h : q ≠ r) (s : State) : (s.darken r).site q = s.site q := by
  rw [site_darken, if_neg fun e => h e.1]

/-- A shadow that is lit or dark goes dark. -/
theorem site_darken_self {r : SlotRef} (form : (s.shadow r).owner = none → (s.site r).Dark) :
    ∃ sh : Shadow, sh = Shadow.dark sh.seq ∧ (s.darken r).site r = { s.site r with shadow := sh } := by
  rw [site_darken]
  split
  · exact ⟨_, rfl, rfl⟩
  · next h =>
    have ho : (s.shadow r).owner = none := by simpa using h
    exact ⟨s.shadow r, form ho, rfl⟩

/-- The slot of a task that is in the table and whose site seats it. -/
theorem Site.Seats.slot {r : SlotRef} {u : Task} (h : (s.site r).Seats u) : u ∈ s.tasks ∧ u.slot = r :=
  mem_site_tasks.mp h.mem

/-- A task of an idle slot becomes the one it seats. -/
theorem Site.Idle.seats {x : Site} (h : x.Idle) {u : Task} (hu : u ∈ x.tasks) (hd : ∀ v ∈ x.tasks, v.id = u.id → v = u)
    {f : Task → Task} (hf : (f u).id = u.id) :
    ({ x.retask u.id f with current := some u.id } : Site).Seats (f u) where
  mem := List.mem_map.mpr ⟨u, hu, if_pos rfl⟩
  only := fun v hv hc => by
    obtain ⟨w, hw, rfl⟩ := List.mem_map.mp hv
    by_cases e : w.id = u.id
    · rw [if_pos e, hd w hw e]
    · rw [if_neg e, h w hw] at hc; cases hc
  current := by rw [hf]

/-- The task that a slot seats leaves its current states. -/
theorem Site.Seats.idle {x : Site} {u : Task} (h : x.Seats u) {f : Task → Task}
    (hf : ∀ v ∈ x.tasks, v.id = u.id → (f v).state.isCurrent = false) : (x.retask u.id f).Idle := fun v hv => by
  obtain ⟨w, hw, rfl⟩ := List.mem_map.mp hv
  split
  · next e => exact hf w hw e
  · next e =>
    by_contra hc
    exact e (congrArg Task.id (h.only w hw (by simpa using hc)))

/-- The current task of a slot that owes nothing is the one it seats. -/
theorem seats_of_currentTask (h : s.Stands settled) {r : SlotRef} {u : Task} (hu : s.currentTask r = some u) :
    (s.site r).Seats u := by
  obtain ⟨id, hc, hid⟩ := Option.bind_eq_some_iff.mp hu
  obtain ⟨hm, hid⟩ := (task?_eq_some_iff h.ids).mp hid
  have found : ∀ {v}, (s.site r).Seats v → (s.site r).Seats u := fun {v} hv => by
    have e : v.id = id := Option.some.inj (hv.current.symm.trans hc)
    rwa [eq_of_id h.ids hm hv.slot.1 (hid.trans e.symm)]
  cases h.standing r with
  | free current => rw [site_current, hc] at current; cases current
  | blocked v seat => exact found seat
  | waits v a seat => exact found seat
  | shows v e seat => exact found seat

/-- A slot that seats a task in WAIT_LOAD has its request and a dark shadow. -/
theorem waits_of_seats (h : s.Stands settled) {r : SlotRef} {u : Task} (hu : (s.site r).Seats u)
    (hst : u.state = .waitLoad) : (s.site r).lit = [] ∧ (s.site r).Dark := by
  have hc : u.state.isCurrent = true := by rw [hst]; rfl
  cases h.standing r with
  | free current tenure requests lit dark idle => rw [idle u hu.mem] at hc; cases hc
  | blocked v seat state => rw [← seat.only u hu.mem hc, hst] at state; cases state
  | shows v e seat state => rw [← seat.only u hu.mem hc, hst] at state; cases state
  | waits v a seat state tenure requests task lit dark => exact ⟨lit, dark⟩

/-- What a slot that seats a SHOWN task has. -/
theorem shows_of_seats (h : s.Stands settled) {r : SlotRef} {u : Task} (hu : (s.site r).Seats u)
    (hst : u.state = .shown) :
    (s.site r).requests = [] ∧ (s.site r).tenure.isSome = true ∧
      ∃ e : LitEntry, (s.site r).lit = [e] ∧ e.task = u.id ∧ e.Styles (s.shadow r) ∧
        (s.shadow r).owner = some ⟨u.id, u.step⟩ ∧ (s.shadow r).digits = u.digits := by
  have hc : u.state.isCurrent = true := by rw [hst]; rfl
  cases h.standing r with
  | free current tenure requests lit dark idle => rw [idle u hu.mem] at hc; cases hc
  | blocked v seat state => rw [← seat.only u hu.mem hc, hst] at state; cases state
  | waits v a seat state => rw [← seat.only u hu.mem hc, hst] at state; cases state
  | shows v e seat state tenure requests lit task styles owner digits =>
    obtain rfl := seat.only u hu.mem hc
    exact ⟨requests, tenure, e, lit, task, styles, owner, digits⟩

/-- A slot that seats a BLOCKED task has no request, nothing lit and a dark shadow. -/
theorem blocked_of_seats (h : s.Stands settled) {r : SlotRef} {u : Task} (hu : (s.site r).Seats u)
    (hst : u.state = .blocked) : (s.site r).requests = [] ∧ (s.site r).lit = [] ∧ (s.site r).Dark := by
  have hc : u.state.isCurrent = true := by rw [hst]; rfl
  cases h.standing r with
  | free current tenure requests lit dark idle => rw [idle u hu.mem] at hc; cases hc
  | blocked v seat state requests lit dark => exact ⟨requests, lit, dark⟩
  | waits v a seat state => rw [← seat.only u hu.mem hc, hst] at state; cases state
  | shows v e seat state => rw [← seat.only u hu.mem hc, hst] at state; cases state

/-- A lit slot, and the task that its shadow shows. -/
theorem shows_of_owner (h : s.Stands settled) {r : SlotRef} {o : Owner} (ho : (s.shadow r).owner = some o) :
    ∃ u, (s.site r).Seats u ∧ u.state = .shown ∧ u.id = o.task ∧ u.step = o.step := by
  have lit : ¬(s.site r).Dark := fun hd => by
    have hd : s.shadow r = Shadow.dark (s.shadow r).seq := hd
    rw [hd] at ho; cases ho
  cases h.standing r with
  | free current tenure requests _ dark => exact absurd dark lit
  | blocked v seat state requests _ dark => exact absurd dark lit
  | waits v a seat state tenure requests task _ dark => exact absurd dark lit
  | shows v e seat state tenure requests _ task styles owner =>
    have e := Option.some.inj (owner.symm.trans ho)
    exact ⟨v, seat, state, by rw [← e], by rw [← e]⟩

/-! ### Requests placed and withdrawn, displays released -/

theorem site_withdraw_self (s : State) (r : SlotRef) : (s.withdraw r).site r = { s.site r with requests := [] } := by
  rw [site_withdraw, if_pos rfl]

theorem site_withdraw_of_ne {r q : SlotRef} (h : q ≠ r) (s : State) : (s.withdraw r).site q = s.site q := by
  rw [site_withdraw, if_neg h]

theorem site_unlight_self (s : State) (r : SlotRef) : (s.unlight r).site r = { s.site r with lit := [] } := by
  rw [site_unlight, if_pos rfl]

theorem site_unlight_of_ne {r q : SlotRef} (h : q ≠ r) (s : State) : (s.unlight r).site q = s.site q := by
  rw [site_unlight, if_neg h]

/-- R89: the request that a slot places. -/
def State.requestFor (s : State) (r : SlotRef) (u : Task) (stamp : Stamp) : Admission :=
  ⟨r.ix, u.id, (s.picker u.picker).priority, stamp, false⟩

theorem site_place_self {r : SlotRef} (h : (s.site r).requests = []) (u : Task) (stamp : Stamp) :
    (s.place r u stamp).site r = { s.site r with requests := [s.requestFor r u stamp] } := by
  rw [site_place s r u stamp h, if_pos rfl]; rfl

theorem site_place_of_ne {r q : SlotRef} (h : (s.site r).requests = []) (hq : q ≠ r) (u : Task) (stamp : Stamp) :
    (s.place r u stamp).site q = s.site q := by
  rw [site_place s r u stamp h, if_neg hq]

/-! ### Shedding (R97, R98) -/

theorem victimOf_mem {g : Seg} {rank : LitEntry → Nat} {e : LitEntry} (h : s.victimOf g rank = some e) :
    e ∈ (s.gov g).lit := by
  have key : ∀ (l : List LitEntry) (b : Option LitEntry),
      l.foldl (fun best e => match best with
        | none => some e
        | some b => if rank e ≤ rank b then some e else some b) b = some e → e ∈ l ∨ b = some e := fun l => by
    induction l with
    | nil => intro b hb; exact .inr hb
    | cons x l ih =>
      intro b hb
      rcases ih _ hb with hm | hm
      · exact .inl (List.mem_cons_of_mem x hm)
      · rcases b with _ | b
        · cases hm; exact .inl List.mem_cons_self
        · simp only [] at hm
          split at hm
          · cases hm; exact .inl List.mem_cons_self
          · exact .inr hm
  rcases key _ _ h with hm | hm
  · exact hm
  · cases hm

/-- R98: the task of a display that is shed. -/
def Task.shed (u : Task) : Task := { u with state := .waitLoad, timeLeft := 0 }

theorem stands_shedOne (h : s.Stands settled) (g : Seg) : (s.shedOne g).Stands settled := by
  unfold State.shedOne
  split
  · exact h
  · next e he =>
    simp only []
    have hm : e ∈ (s.site ⟨g, e.ix⟩).lit := mem_lit.mpr ⟨victimOf_mem he, rfl⟩
    generalize (⟨g, e.ix⟩ : SlotRef) = r at hm ⊢
    obtain ⟨u, seat, state, task⟩ : ∃ u, (s.site r).Seats u ∧ u.state = .shown ∧ e.task = u.id := by
      cases h.standing r with
      | shows u e' seat state tenure requests lit task =>
        rw [lit, List.mem_singleton] at hm; subst hm
        exact ⟨u, seat, state, task⟩
      | free current tenure requests lit => rw [lit] at hm; cases hm
      | blocked v seat state requests lit => rw [lit] at hm; cases hm
      | waits v a seat state tenure requests task lit => rw [lit] at hm; cases hm
    obtain ⟨requests, tenure, e', lit, -, -, owner, -⟩ := shows_of_seats h seat state
    obtain ⟨hu, hr⟩ := seat.slot
    have same := same_of_id h.ids seat.mem
    rw [task]
    set s1 := (s.unlight r).updTask u.id fun t => { t with state := .waitLoad, timeLeft := 0 } with hs1
    have site1 : ∀ q, s1.site q = ((s.unlight r).site q).retask u.id Task.shed := fun q =>
      site_updTask (s.unlight r) (f := Task.shed) (fun _ => rfl) q
    have site1r : s1.site r = { (s.site r).retask u.id Task.shed with lit := [] } := by
      rw [site1, site_unlight_self]; rfl
    have site1ne : ∀ q, q ≠ r → s1.site q = s.site q := fun q hq => by
      rw [site1, site_unlight_of_ne hq, retask_of_ne h.ids hu (hr ▸ hq)]
    have ids1 : s1.DistinctIds := distinctIds_updTask (fun _ => rfl) (unlight_distinctIds h.ids r)
    have task1 : s1.task? u.id = some u.shed := by
      refine (task?_updTask (s.unlight r) (f := Task.shed) (fun _ => rfl) u.id).trans ?_
      rw [task?_of_tasks (unlight_tasks s r), (task?_eq_some_iff h.ids).mpr ⟨hu, rfl⟩]
      rfl
    have owner1 : (s1.shadow r).owner ≠ none := by
      have : s1.shadow r = s.shadow r := congrArg Site.shadow site1r
      rw [this, owner]; simp
    obtain ⟨sh, hsh, hdk⟩ := site_darken_self (s := s1) (r := r) fun hn => absurd hn owner1
    have hreq : ((s1.darken r).site r).requests = [] := by rw [hdk, site1r]; exact requests
    have task2 : (s1.darken r).task? u.id = some u.shed := by rw [task?_of_tasks (darken_tasks s1 r), task1]
    rw [task2]
    simp only []
    obtain ⟨stamp, hstamp⟩ := Option.isSome_iff_exists.mp tenure
    have tenure2 : ((s1.darken r).slot r).tenure = some stamp := by
      have : ((s1.darken r).site r).tenure = some stamp := by rw [hdk, site1r]; exact hstamp
      exact this
    refine stands_count ?_ g _
    rw [tenure2, Option.getD_some]
    refine h.change_same (place_distinctIds (darken_distinctIds ids1 r) r _ _) r (fun q hq => ?_) ?_ ?_
    · rw [site_place_of_ne hreq hq, site_darken_of_ne hq, site1ne q hq]
    · rw [site_place_self hreq, hdk, site1r]
      exact ((h.waiting r).retask (f := Task.shed) (fun _ => rfl) fun v hv ev => by rw [same v hv ev, state]; rfl).congr rfl rfl
    · rw [site_place_self hreq, hdk, site1r]
      have hseat := seat.retask same (f := Task.shed) rfl
      exact .waits u.shed ((s1.darken r).requestFor r u.shed stamp) ⟨hseat.mem, hseat.only, hseat.current⟩ rfl hstamp rfl
        rfl rfl hsh

theorem stands_shedLoop (g : Seg) (n : Nat) (h : s.Stands settled) : (s.shedLoop g n).Stands settled := by
  induction n generalizing s with
  | zero => exact h
  | succ n ih =>
    simp only [State.shedLoop]
    split
    · exact ih (stands_shedOne h g)
    · exact h

theorem stands_resolveExcess (h : s.Stands settled) (g : Seg) : (s.resolveExcess g).Stands settled := by
  unfold State.resolveExcess
  split
  · refine stands_shedLoop g _ ?_
    split
    · exact h
    · exact stands_enterEconomy h g
  · exact h

/-- R97: a load change keeps every slot standing. -/
theorem stands_loadChange (h : s.Stands settled) (g : Seg) : (s.loadChange g).Stands settled :=
  stands_settle (stands_resolveExcess (stands_recompute h g) g) g

theorem stands_baseChange (h : s.Stands settled) (g : Seg) : (s.baseChange g).Stands settled :=
  have h1 : (s.setBaseLoad g).Stands settled := h.congr rfl fun r => site_setBaseLoad s g r
  stands_loadChange h1 g

/-! ### Selection (R44, R45) -/

theorem firstOf_cases (s : State) (b : Option Task) (t : Task) : s.firstOf b t = some t ∨ s.firstOf b t = b := by
  unfold State.firstOf
  rcases b with _ | b
  · exact .inl rfl
  · simp only []; split
    · exact .inl rfl
    · exact .inr rfl

theorem bestQueued_mem {r : SlotRef} {u : Task} (h : s.bestQueued r = some u) :
    u ∈ s.tasks ∧ u.state = .queued ∧ u.id ∈ (s.slot r).waiting := by
  have key : ∀ (l : List Task) (b : Option Task), l.foldl s.firstOf b = some u → u ∈ l ∨ b = some u := fun l => by
    induction l with
    | nil => intro b hb; exact .inr hb
    | cons x l ih =>
      intro b hb
      rcases ih _ hb with hm | hm
      · exact .inl (List.mem_cons_of_mem x hm)
      · rcases firstOf_cases s b x with e | e <;> rw [e] at hm
        · cases hm; exact .inl List.mem_cons_self
        · exact .inr hm
  rcases key _ _ h with hm | hm
  · simpa [State.waitingTasks, and_assoc, and_comm, and_left_comm] using hm
  · cases hm

/-- The task that selection takes names the slot. -/
theorem bestQueued_slot (h : s.Stands owes) {r : SlotRef} {u : Task} (hu : s.bestQueued r = some u) :
    u ∈ (s.site r).tasks ∧ u.state = .queued := by
  obtain ⟨hm, hq, hw⟩ := bestQueued_mem hu
  obtain ⟨v, hv, hid, -⟩ := (h.waiting r).members u.id hw
  obtain ⟨hvm, hvr⟩ := mem_site_tasks.mp hv
  rw [← eq_of_id h.ids hvm hm hid]
  exact ⟨hv, by rw [eq_of_id h.ids hvm hm hid]; exact hq⟩

/-- What a task becomes in another state. -/
def Task.inState (st : TaskState) (u : Task) : Task := { u with state := st }

theorem site_setTaskState (s : State) (id : TaskId) (st : TaskState) (q : SlotRef) :
    (s.setTaskState id st).site q = (s.site q).retask id (Task.inState st) :=
  site_updTask s (f := Task.inState st) (fun _ => rfl) q

theorem setTaskState_distinctIds (h : s.DistinctIds) (id : TaskId) (st : TaskState) : (s.setTaskState id st).DistinctIds :=
  distinctIds_updTask (fun _ => rfl) h

theorem site_setCurrent_self (s : State) (r : SlotRef) (id : TaskId) (x : Option Stamp) :
    (s.setCurrent r id x).site r = { s.site r with current := some id, tenure := x } := by
  rw [site_setCurrent, if_pos rfl]

theorem site_setCurrent_of_ne {r q : SlotRef} (h : q ≠ r) (s : State) (id : TaskId) (x : Option Stamp) :
    (s.setCurrent r id x).site q = s.site q := by
  rw [site_setCurrent, if_neg h]

theorem stands_select (h : s.Stands settled) (r : SlotRef) : (s.select r).Stands settled := by
  unfold State.select
  split
  · exact h
  · next hc =>
    have hn : (s.slot r).current = none := by simpa using hc
    split
    · exact h
    · next u hu =>
      obtain ⟨hm, hq⟩ := bestQueued_slot h hu
      obtain ⟨hmem, hr⟩ := mem_site_tasks.mp hm
      have same := same_of_id h.ids hm
      obtain ⟨requests, lit, dark, idle⟩ :
          (s.site r).requests = [] ∧ (s.site r).lit = [] ∧ (s.site r).Dark ∧ (s.site r).Idle := by
        cases h.standing r with
        | free current tenure requests lit dark idle => exact ⟨requests, lit, dark, idle⟩
        | blocked v seat => exact absurd (seat.current.symm.trans hn) (by simp)
        | waits v a seat => exact absurd (seat.current.symm.trans hn) (by simp)
        | shows v e seat => exact absurd (seat.current.symm.trans hn) (by simp)
      have siter : ∀ x st, ((s.setCurrent r u.id x).setTaskState u.id st).site r =
          { (s.site r).retask u.id (Task.inState st) with current := some u.id, tenure := x } := fun x st => by
        rw [site_setTaskState, site_setCurrent_self]; rfl
      have sitene : ∀ x st q, q ≠ r → ((s.setCurrent r u.id x).setTaskState u.id st).site q = s.site q :=
        fun x st q hne => by
          rw [site_setTaskState, site_setCurrent_of_ne hne, retask_of_ne h.ids hmem (hr ▸ hne)]
      have ids : ∀ x st, ((s.setCurrent r u.id x).setTaskState u.id st).DistinctIds := fun x st =>
        setTaskState_distinctIds (setCurrent_distinctIds h.ids r _ _) _ _
      have waiting : ∀ st x, st.terminal = false →
          ({ (s.site r).retask u.id (Task.inState st) with current := some u.id, tenure := x } : Site).Waiting :=
        fun st x hst => ((h.waiting r).retask (f := Task.inState st) (fun _ => rfl) fun v hv e => by
          rw [same v hv e, hq]; exact hst).congr rfl rfl
      have seats : ∀ st, ({ (s.site r).retask u.id (Task.inState st) with current := some u.id } : Site).Seats (u.inState st) :=
        fun st => idle.seats hm same (f := Task.inState st) rfl
      split
      · refine stands_settle ?_ r.seg
        have hreq : (((s.setCurrent r u.id (some s.time)).setTaskState u.id .waitLoad).site r).requests = [] := by
          rw [siter]; exact requests
        refine h.change_same (place_distinctIds (ids _ _) r _ _) r (fun q hne => ?_) ?_ ?_
        · rw [site_place_of_ne hreq hne, sitene _ _ q hne]
        · rw [site_place_self hreq, siter]
          exact (waiting .waitLoad (some s.time) rfl).congr rfl rfl
        · rw [site_place_self hreq, siter]
          have hs := seats .waitLoad
          exact .waits (u.inState .waitLoad) _ ⟨hs.mem, hs.only, hs.current⟩ rfl rfl rfl rfl lit dark
      · refine h.change_same (ids _ _) r (fun q hne => sitene _ _ q hne) ?_ ?_
        · rw [siter]; exact waiting .blocked none rfl
        · rw [siter]
          have hs := seats .blocked
          exact .blocked (u.inState .blocked) ⟨hs.mem, hs.only, hs.current⟩ rfl requests lit dark

theorem stands_selectAll (h : s.Stands settled) (rs : List SlotRef) : (s.selectAll rs).Stands settled := by
  induction rs generalizing s with
  | nil => exact h
  | cons r rs ih => exact ih (stands_select h r)

/-! ### Serviceability (R46 to R49) -/

/-- R22, R47: a task that is blocked. -/
def Task.blockedNow (u : Task) : Task := { u with state := .blocked, timeLeft := 0 }

theorem blockTask_distinctIds (h : s.DistinctIds) (r : SlotRef) (u : Task) (c : SlotCause) :
    (s.blockTask r u c).DistinctIds := distinctIds_of_kept (kept_blockTask s r u c) h

theorem site_blockTask_of_ne (h : s.DistinctIds) {r : SlotRef} {u : Task} (seat : (s.site r).Seats u) (c : SlotCause)
    {q : SlotRef} (hq : q ≠ r) : (s.blockTask r u c).site q = s.site q := by
  obtain ⟨hu, hr⟩ := seat.slot
  unfold State.blockTask
  rw [site_notify, site_darken_of_ne hq]
  refine (site_updTask s (f := Task.blockedNow) (fun _ => rfl) q).trans ?_
  rw [retask_of_ne h hu (hr ▸ hq)]

/-- What blocking the task that a slot seats makes of its site. -/
theorem site_blockTask_self {r : SlotRef} {u : Task} (form : (s.shadow r).owner = none → (s.site r).Dark) (c : SlotCause) :
    ∃ sh : Shadow, sh = Shadow.dark sh.seq ∧
      (s.blockTask r u c).site r = { (s.site r).retask u.id Task.blockedNow with shadow := sh } := by
  have site1 : (s.updTask u.id Task.blockedNow).site r = (s.site r).retask u.id Task.blockedNow :=
    site_updTask s (f := Task.blockedNow) (fun _ => rfl) r
  have hsh : (s.updTask u.id Task.blockedNow).shadow r = s.shadow r := congrArg Site.shadow site1
  obtain ⟨sh, hd, he⟩ := site_darken_self (s := s.updTask u.id Task.blockedNow) (r := r) fun hn => by
    rw [hsh] at hn
    rw [site1]; exact form hn
  refine ⟨sh, hd, ?_⟩
  unfold State.blockTask
  rw [site_notify]
  exact he.trans (by rw [site1])

theorem waiting_blocked (h : s.Stands owes) {r : SlotRef} {u : Task} (seat : (s.site r).Seats u)
    (hst : u.state.terminal = false) : ((s.site r).retask u.id Task.blockedNow).Waiting :=
  (h.waiting r).retask (f := Task.blockedNow) (fun _ => rfl) fun v hv e => by
    rw [same_of_id h.ids seat.mem v hv e, hst]; rfl

theorem stands_loseService (h : s.Stands settled) (r : SlotRef) (c : SlotCause) : (s.loseService r c).Stands settled := by
  unfold State.loseService
  split
  · exact h
  · next u hu =>
    have seat := seats_of_currentTask h hu
    have key : ∀ {v : State}, v.DistinctIds → (∀ q, q ≠ r → v.site q = s.site q) → v.tasks = s.tasks →
        (v.site r).waiting = (s.site r).waiting → (v.site r).current = (s.site r).current → (v.site r).requests = [] →
        (v.site r).lit = [] → ((v.shadow r).owner = none → (v.site r).Dark) → u.state.terminal = false →
        (v.blockTask r u c).Stands settled := fun {v} hid hne ht hw hc hr hl form hterm => by
      have htasks : (v.site r).tasks = (s.site r).tasks := by simp only [site_tasks, ht]
      have hseat : (v.site r).Seats u := ⟨htasks ▸ seat.mem, htasks ▸ seat.only, hc.trans seat.current⟩
      obtain ⟨sh, hd, he⟩ := site_blockTask_self (u := u) form c
      refine h.change_same (blockTask_distinctIds hid r u c) r (fun q hq => ?_) ?_ ?_
      · rw [site_blockTask_of_ne hid hseat c hq, hne q hq]
      · rw [he]
        refine (waiting_blocked h seat hterm).congr ?_ ?_
        · exact hw
        · show (v.site r).tasks.map _ = (s.site r).tasks.map _; rw [htasks]
      · rw [he]
        have hs := hseat.retask (same_of_id hid hseat.mem) (f := Task.blockedNow) rfl
        exact .blocked u.blockedNow ⟨hs.mem, hs.only, hs.current⟩ rfl hr hl hd
    split
    · next hst =>
      obtain ⟨lit, dark⟩ := waits_of_seats h seat hst
      refine stands_settle (key (withdraw_distinctIds h.ids r) (fun q hq => site_withdraw_of_ne hq s) (withdraw_tasks s r) ?_ ?_ ?_ ?_ ?_ ?_) r.seg
      · rw [site_withdraw_self]
      · rw [site_withdraw_self]
      · rw [site_withdraw_self]
      · rw [site_withdraw_self]; exact lit
      · rw [site_withdraw_self]; exact fun _ => dark
      · rw [hst]; rfl
    · next hst =>
      obtain ⟨requests, -, e, -, -, -, owner, -⟩ := shows_of_seats h seat hst
      refine stands_settle (key (unlight_distinctIds h.ids r) (fun q hq => site_unlight_of_ne hq s) (unlight_tasks s r) ?_ ?_ ?_ ?_ ?_ ?_) r.seg
      · rw [site_unlight_self]
      · rw [site_unlight_self]
      · rw [site_unlight_self]; exact requests
      · rw [site_unlight_self]
      · intro hn
        have : (s.unlight r).shadow r = s.shadow r := congrArg Site.shadow (site_unlight_self s r)
        rw [this, owner] at hn; cases hn
      · rw [hst]; rfl
    · exact h

theorem stands_regainService (h : s.Stands settled) (r : SlotRef) : (s.regainService r).Stands settled := by
  unfold State.regainService
  split
  · exact stands_select h r
  · next u hu =>
    have seat := seats_of_currentTask h hu
    obtain ⟨hm, hr⟩ := seat.slot
    have same := same_of_id h.ids seat.mem
    split
    · next hst =>
      obtain ⟨requests, lit, dark⟩ := blocked_of_seats h seat hst
      refine stands_settle ?_ r.seg
      set x := (s.slot r).tenure.getD s.time
      set s1 := (s.setCurrent r u.id (some x)).setTaskState u.id .waitLoad with hs1
      have siter : s1.site r = { (s.site r).retask u.id (Task.inState .waitLoad) with current := some u.id, tenure := some x } := by
        rw [hs1, site_setTaskState, site_setCurrent_self]; rfl
      have hreq : (s1.site r).requests = [] := by rw [siter]; exact requests
      refine h.change_same (place_distinctIds (setTaskState_distinctIds (setCurrent_distinctIds h.ids r _ _) _ _) r _ _) r (fun q hne => ?_) ?_ ?_
      · rw [site_place_of_ne hreq hne, hs1, site_setTaskState, site_setCurrent_of_ne hne, retask_of_ne h.ids hm (hr ▸ hne)]
      · rw [site_place_self hreq, siter]
        exact ((h.waiting r).retask (f := Task.inState .waitLoad) (fun _ => rfl) fun v hv e => by
          rw [same v hv e, hst]; rfl).congr rfl rfl
      · rw [site_place_self hreq, siter]
        have hs := seat.retask same (f := Task.inState .waitLoad) rfl
        exact .waits (u.inState .waitLoad) _ ⟨hs.mem, hs.only, rfl⟩ rfl rfl rfl rfl lit dark
    · exact h

/-- R46: what follows a change of serviceability keeps every slot standing. -/
theorem stands_reevaluate (h : s.Stands settled) (r : SlotRef) : (s.reevaluate r).Stands settled := by
  unfold State.reevaluate
  simp only []
  split
  · exact h
  · have h1 : (s.updSlot r fun x => { x with serviceable := s.serviceableNow r }).Stands settled :=
      h.congr rfl fun q => site_serviceable s r _ q
    split
    · exact stands_regainService h1 r
    · exact stands_loseService h1 r _

/-! ### The end of a task (R24, R28) -/

/-- R24, R28: an ended task. -/
def Task.ended (k : EndKind) (confirmed : Nat) (now : Stamp) (u : Task) : Task :=
  { u with state := k.state, confirmed := confirmed, endStamp := now, timeLeft := 0 }

theorem EndKind.state_terminal (k : EndKind) : k.state.terminal = true := by cases k <;> rfl

theorem EndKind.state_not_current (k : EndKind) : k.state.isCurrent = false := by cases k <;> rfl

/-- A waiting set that the id of an ended task has left. -/
theorem Site.Waiting.leave {x : Site} (h : x.Waiting) {id : TaskId} {f : Task → Task}
    (ht : ∀ u, (f u).state.terminal = true) :
    ({ x.retask id f with waiting := x.waiting.filter fun w => w ≠ id } : Site).Waiting where
  room := (List.length_filter_le _ _).trans h.room
  distinct := h.distinct.filter _
  members := fun i hi => by
    obtain ⟨hi, hne⟩ := List.mem_filter.mp hi
    obtain ⟨u, hu, rfl, hut⟩ := h.members i hi
    exact ⟨u, List.mem_map.mpr ⟨u, hu, if_neg (by simpa using hne)⟩, rfl, hut⟩
  waits := fun v hv hvt => by
    obtain ⟨u, hu, rfl⟩ := List.mem_map.mp hv
    by_cases e : u.id = id
    · rw [if_pos e, ht] at hvt; cases hvt
    · rw [if_neg e] at hvt ⊢
      exact List.mem_filter.mpr ⟨h.waits u hu hvt, by simpa using e⟩

theorem stands_endTask (h : s.Stands settled) {u : Task} (hu : u ∈ s.tasks) (hst : u.state = .shown) (k : EndKind)
    (n : Nat) : (s.endTask u k n).Stands settled := by
  have seat := seats_of_isCurrent h hu (by rw [hst]; rfl)
  obtain ⟨requests, tenure, e, lit, task, styles, owner, digits⟩ := shows_of_seats h seat hst
  unfold State.endTask
  simp only []
  generalize hr : u.slot = r at seat requests tenure lit styles owner digits ⊢
  set f := Task.ended k n s.time
  set s1 := (s.endEntry u k n).notify (.taskEnded u.id r u.picker k n (s.time - u.shownSince)) with hs1
  have site1 : ∀ q, s1.site q = (s.site q).retask u.id f := fun q => by
    rw [hs1, site_notify]; exact site_updTask s (f := f) (fun _ => rfl) q
  have ids1 : s1.DistinctIds := distinctIds_of_kept (by simp [hs1]) h.ids
  set s2 := (s1.leaveWaiting r u.id).clearCurrent r with hs2
  have site2 : s2.site r = { (s.site r).retask u.id f with
      waiting := (s.site r).waiting.filter fun w => w ≠ u.id, current := none, tenure := none } := by
    have hw : (s1.slot r).waiting = (s.site r).waiting := congrArg Site.waiting (site1 r)
    rw [hs2, site_clearCurrent, if_pos rfl, site_leaveWaiting, if_pos rfl, site1, hw]
  have site2ne : ∀ q, q ≠ r → s2.site q = s.site q := fun q hq => by
    rw [hs2, site_clearCurrent, if_neg hq, site_leaveWaiting, if_neg hq, site1, retask_of_ne h.ids hu (hr ▸ hq)]
  have shadow2 : s2.shadow r = s.shadow r := congrArg Site.shadow site2
  obtain ⟨sh, hd, hdk⟩ := site_darken_self (s := s2) (r := r) fun hn => by rw [shadow2, owner] at hn; cases hn
  refine stands_select (stands_settle ?_ r.seg) r
  refine h.change_same (unlight_distinctIds (darken_distinctIds (clearCurrent_distinctIds (leaveWaiting_distinctIds ids1 r _) r) r) r) r (fun q hq => ?_) ?_ ?_
  · rw [site_unlight_of_ne hq, site_darken_of_ne hq, site2ne q hq]
  · rw [site_unlight_self, hdk, site2]
    exact ((h.waiting r).leave (f := f) fun _ => k.state_terminal).congr rfl rfl
  · rw [site_unlight_self, hdk, site2]
    exact .free rfl rfl requests rfl hd (seat.idle (f := f) fun v _ _ => k.state_not_current)

/-! ### Presses that change a lit task (R56) -/

/-- What changes the lit task's step or quantity together with its shadow keeps every slot standing. -/
theorem stands_relabel (h : s.Stands settled) {r : SlotRef} {u : Task} (seat : (s.site r).Seats u) (hst : u.state = .shown)
    {f : Task → Task} (hid : ∀ v, (f v).id = v.id) (hs : ∀ v, (f v).state = v.state) (hsl : ∀ v, (f v).slot = v.slot)
    {sh : Shadow} (ht : t.tasks = (s.updTask u.id f).tasks)
    (hsite : ∀ q, t.site q = if q = r then { (s.updTask u.id f).site r with shadow := sh } else (s.updTask u.id f).site q)
    (hstyle : sh.colour = (s.shadow r).colour ∧ sh.pattern = (s.shadow r).pattern ∧
      sh.rotation = (s.shadow r).rotation ∧ sh.level = (s.shadow r).level)
    (howner : sh.owner = some ⟨u.id, (f u).step⟩) (hdigits : sh.digits = (f u).digits) : t.Stands settled := by
  obtain ⟨hm, hr⟩ := seat.slot
  obtain ⟨requests, tenure, e, lit, task, styles, owner, digits⟩ := shows_of_seats h seat hst
  obtain ⟨h1, h2, h3, h4⟩ := hstyle
  have same := same_of_id h.ids seat.mem
  refine h.change_same (distinctIds_of_tasks ht (distinctIds_updTask hid h.ids)) r (fun q hq => ?_) ?_ ?_
  · rw [hsite, if_neg hq, site_updTask s hsl, retask_of_ne h.ids hm (hr ▸ hq)]
  · rw [hsite, if_pos rfl, site_updTask s hsl]
    exact ((h.waiting r).retask hid fun v _ _ => by rw [hs]).congr rfl rfl
  · rw [hsite, if_pos rfl, site_updTask s hsl]
    have hseat := seat.retask same (hid u)
    exact .shows (f u) e ⟨hseat.mem, hseat.only, hseat.current⟩ ((hs u).trans hst) tenure requests lit
      (task.trans (hid u).symm) ⟨h1.trans styles.colour, h2.trans styles.pattern, h3.trans styles.rotation, h4.trans styles.level⟩
      (by rw [hid]; exact howner) hdigits

/-- R68: an ADJUST that lowers the quantity of the lit task. -/
theorem stands_lowerQuantity (h : s.Stands settled) {r : SlotRef} {u : Task}
    (ho : (s.shadow r).owner = some ⟨u.id, .quantity⟩) (hu : s.task? u.id = some u) (n : Nat) :
    (s.lowerQuantity r u n).Stands settled := by
  unfold State.lowerQuantity
  simp only []
  have h1 : (s.countAtFloor r (n - u.displayed)).Stands settled := stands_count h r.seg _
  split
  · exact h1
  · obtain ⟨v, seat, state, hid, step⟩ := shows_of_owner h ho
    obtain rfl := eq_of_id h.ids seat.slot.1 ((task?_eq_some_iff h.ids).mp hu).1 hid
    have seat1 : ((s.countAtFloor r (n - v.displayed)).site r).Seats v := by
      unfold State.countAtFloor; rw [site_count]; exact seat
    set s1 := s.countAtFloor r (n - v.displayed)
    set f : Task → Task := fun x => { x with displayed := x.displayed - n }
    have hsh : (s1.updTask v.id f).shadow r = s.shadow r :=
      (congrArg Site.shadow (site_updTask s1 (f := f) (fun _ => rfl) r)).trans (congrArg Site.shadow (site_count s r.seg _ r))
    refine stands_relabel h1 seat1 state (f := f) (fun _ => rfl) (fun _ => rfl) (fun _ => rfl)
      (sh := { s.shadow r with digits := quantityDigits (v.displayed - n) }) ?_ (fun q => ?_) ?_ ?_ ?_
    · unfold State.redigitShadow; rw [handDisplay_tasks]; rfl
    · unfold State.redigitShadow
      rw [site_handDisplay, site_updShadow, hsh]
    · have : s1.shadow r = s.shadow r := congrArg Site.shadow (site_count s r.seg _ r)
      rw [this]; exact ⟨rfl, rfl, rfl, rfl⟩
    · exact ho.trans (by rw [show (f v).step = v.step from rfl, step])
    · unfold Task.digits
      rw [show (f v).step = .quantity from step]

/-- R73: a CONFIRM that advances the lit task to its quantity. -/
theorem stands_advanceStep (h : s.Stands settled) {r : SlotRef} {u : Task} {x : TaskStep}
    (ho : (s.shadow r).owner = some ⟨u.id, x⟩) (hu : s.task? u.id = some u) : (s.advanceStep r u).Stands settled := by
  obtain ⟨v, seat, state, hid, -⟩ := shows_of_owner h ho
  obtain rfl := eq_of_id h.ids seat.slot.1 ((task?_eq_some_iff h.ids).mp hu).1 hid
  set f : Task → Task := fun x => { x with step := .quantity }
  unfold State.advanceStep State.stepShadow
  set s1 := (s.updTask v.id f).notify (.taskStep v.id r v.picker) with hs1
  have hsite1 : ∀ q, s1.site q = (s.updTask v.id f).site q := fun q => by rw [hs1, site_notify]
  have hsh : s1.shadow r = s.shadow r :=
    (congrArg Site.shadow (hsite1 r)).trans (congrArg Site.shadow (site_updTask s (f := f) (fun _ => rfl) r))
  refine stands_relabel h seat state (f := f) (fun _ => rfl) (fun _ => rfl) (fun _ => rfl)
    (sh := { s.shadow r with
      seq := (s.shadow r).seq + 1, owner := some ⟨v.id, .quantity⟩, digits := quantityDigits v.displayed }) ?_ (fun q => ?_)
    ⟨rfl, rfl, rfl, rfl⟩ rfl rfl
  · rw [handDisplay_tasks]; exact State.notify_tasks _ _
  · rw [site_handDisplay, site_updShadow, hsh, hsite1, hsite1]

end Sys2Proof.Machine
end

