-- ==== Sys2Proof/Proofs/RequestStands.lean ====
section
/-! PROOFS. The requests and the end of service keep every slot standing: R162's end of a segment's service, CLEAR_TASKS,
SUBMIT, CANCEL, RETIRE, PAUSE_PICKER, RESUME_PICKER and a changed priority; and so do the passing of time and a reset. -/

namespace Sys2Proof.Machine

variable {owes : SlotRef → Debt} {s t : State}

/-! ### Another task table -/

theorem site_mapTasks (s : State) {f : Task → Task} (hf : ∀ u, (f u).slot = u.slot) (r : SlotRef) :
    ({ s with tasks := s.tasks.map f } : State).site r = { s.site r with tasks := (s.site r).tasks.map f } := by
  have h : ((s.tasks.map f).filter fun u => u.slot = r) = (s.tasks.filter fun u => u.slot = r).map f := by
    rw [List.filter_map]
    congr 1
    exact List.filter_congr fun u _ => by simp [hf]
  simp only [State.site, h]
  rfl

/-- A slot stands by its tasks in WAIT_LOAD, SHOWN and BLOCKED alone. -/
theorem Standing.retable {x : Site} (h : Standing .none x) {l : List Task}
    (hl : ∀ v, v.state.isCurrent = true → (v ∈ l ↔ v ∈ x.tasks)) : Standing .none { x with tasks := l } := by
  have seats : ∀ {u}, u.state.isCurrent = true → x.Seats u → ({ x with tasks := l } : Site).Seats u := fun hu hs =>
    ⟨(hl _ hu).mpr hs.mem, fun v hv hc => hs.only v ((hl v hc).mp hv) hc, hs.current⟩
  cases h with
  | free current tenure requests lit dark idle =>
    refine .free current tenure requests lit dark fun v hv => ?_
    by_contra hc
    have hc : v.state.isCurrent = true := by simpa using hc
    rw [idle v ((hl v hc).mp hv)] at hc; cases hc
  | blocked u seat state requests lit dark =>
    exact .blocked u (seats (by rw [state]; rfl) seat) state requests lit dark
  | waits u a seat state tenure requests task lit dark =>
    exact .waits u a (seats (by rw [state]; rfl) seat) state tenure requests task lit dark
  | shows u e seat state tenure requests lit task styles owner digits =>
    exact .shows u e (seats (by rw [state]; rfl) seat) state tenure requests lit task styles owner digits

/-- How a slot stands says nothing of its waiting set. -/
theorem Standing.rewait {x : Site} (h : Standing .none x) (w : List TaskId) : Standing .none { x with waiting := w } := by
  cases h with
  | free current tenure requests lit dark idle => exact .free current tenure requests lit dark idle
  | blocked u seat state requests lit dark =>
    exact .blocked u ⟨seat.mem, seat.only, seat.current⟩ state requests lit dark
  | waits u a seat state tenure requests task lit dark =>
    exact .waits u a ⟨seat.mem, seat.only, seat.current⟩ state tenure requests task lit dark
  | shows u e seat state tenure requests lit task styles owner digits =>
    exact .shows u e ⟨seat.mem, seat.only, seat.current⟩ state tenure requests lit task styles owner digits

/-- A change of the tasks that keeps their ids, states, steps and digits keeps how a slot stands. -/
theorem Standing.map_same {x : Site} (h : Standing .none x) {f : Task → Task} (hid : ∀ u, (f u).id = u.id)
    (hst : ∀ u, (f u).state = u.state) (hstep : ∀ u, (f u).step = u.step) (hd : ∀ u, (f u).digits = u.digits) :
    Standing .none { x with tasks := x.tasks.map f } := by
  have seats : ∀ {u}, x.Seats u → ({ x with tasks := x.tasks.map f } : Site).Seats (f u) := fun {u} hs =>
    ⟨List.mem_map_of_mem hs.mem, fun v hv hc => by
      obtain ⟨w, hw, rfl⟩ := List.mem_map.mp hv
      rw [hst] at hc
      rw [hs.only w hw hc], by rw [hid]; exact hs.current⟩
  cases h with
  | free current tenure requests lit dark idle =>
    refine .free current tenure requests lit dark fun v hv => ?_
    obtain ⟨w, hw, rfl⟩ := List.mem_map.mp hv
    rw [hst]; exact idle w hw
  | blocked u seat state requests lit dark =>
    exact .blocked (f u) (seats seat) ((hst u).trans state) requests lit dark
  | waits u a seat state tenure requests task lit dark =>
    exact .waits (f u) a (seats seat) ((hst u).trans state) tenure requests (task.trans (hid u).symm) lit dark
  | shows u e seat state tenure requests lit task styles owner digits =>
    exact .shows (f u) e (seats seat) ((hst u).trans state) tenure requests lit (task.trans (hid u).symm) styles
      (by rw [hid, hstep]; exact owner) (digits.trans (hd u).symm)

/-! ### The end of a segment's service (R48, R162) -/

/-- R48, R102, R162 steps 7 and 8: the slots of the segment leave service, and its governor comes to rest. -/
def State.endService (s : State) (g : Seg) : State := ((slotsOf g).foldl State.loseServiceWithSegment s).restGovernor g

/-- A site without its request and its lit display. -/
def Site.bare (x : Site) : Site := { x with requests := [], lit := [] }

theorem Site.Waiting.bare {x : Site} (h : x.Waiting) : x.bare.Waiting := h.congr rfl rfl

/-- A slot whose segment leaves service: its governor's record apart it stands, or it has a task still to be blocked. -/
def Site.Losing (x : Site) : Prop :=
  Standing .none x.bare ∨ ∃ u, x.Seats u ∧ (u.state = .waitLoad ∨ u.state = .shown) ∧ (x.shadow.owner = none → x.Dark)

theorem Standing.losing {x : Site} (h : Standing .none x) : x.Losing := by
  cases h with
  | free current tenure requests lit dark idle => exact .inl (.free current tenure rfl rfl dark idle)
  | blocked u seat state requests lit dark =>
    exact .inl (.blocked u ⟨seat.mem, seat.only, seat.current⟩ state rfl rfl dark)
  | waits u a seat state tenure requests task lit dark => exact .inr ⟨u, seat, .inl state, fun _ => dark⟩
  | shows u e seat state tenure requests lit task styles owner =>
    exact .inr ⟨u, seat, .inr state, fun hn => by rw [owner] at hn; cases hn⟩

theorem seats_of_currentTask' (hi : s.DistinctIds) {r : SlotRef} {u : Task} (hu : s.currentTask r = some u) :
    u ∈ s.tasks ∧ (s.slot r).current = some u.id := by
  obtain ⟨id, hc, hid⟩ := Option.bind_eq_some_iff.mp hu
  obtain ⟨hm, rfl⟩ := (task?_eq_some_iff hi).mp hid
  exact ⟨hm, hc⟩

theorem currentTask_of_seats (hi : s.DistinctIds) {r : SlotRef} {u : Task} (hu : (s.site r).Seats u) :
    s.currentTask r = some u := by
  have hc : (s.slot r).current = some u.id := hu.current
  simp [State.currentTask, hc, (task?_eq_some_iff hi).mpr ⟨hu.slot.1, rfl⟩]

/-- R48: what leaving service makes of the slots. -/
theorem loseServiceWithSegment_spec (hi : s.DistinctIds) {r : SlotRef} (hw : (s.site r).Waiting) (hl : (s.site r).Losing) :
    Standing .none ((s.loseServiceWithSegment r).site r).bare ∧ ((s.loseServiceWithSegment r).site r).Waiting ∧
      ∀ q, q ≠ r → (s.loseServiceWithSegment r).site q = s.site q := by
  unfold State.loseServiceWithSegment
  simp only []
  set s1 := s.updSlot r fun x => { x with serviceable := false } with hs1
  have hsite : ∀ q, s1.site q = s.site q := fun q => by rw [hs1, site_serviceable]
  have hi1 : s1.DistinctIds := hi
  rw [← hsite r] at hw hl
  split
  · next hn =>
    refine ⟨?_, hw, fun q _ => hsite q⟩
    rcases hl with hl | ⟨u, seat, -⟩
    · exact hl
    · rw [currentTask_of_seats hi1 seat] at hn; cases hn
  · next u hu =>
    obtain ⟨hm, hc⟩ := seats_of_currentTask' hi1 hu
    split
    · next hst =>
      obtain ⟨seat, form⟩ : (s1.site r).Seats u ∧ ((s1.site r).shadow.owner = none → (s1.site r).Dark) := by
        rcases hl with hl | ⟨v, seat, -, form⟩
        · exfalso
          cases hl with
          | free current => exact absurd (hc.symm.trans current) (by simp)
          | blocked v seat state =>
            have e : u.id = v.id := Option.some.inj (hc.symm.trans seat.current)
            rw [eq_of_id hi1 hm (mem_site_tasks.mp seat.mem).1 e, state] at hst
            rcases hst with hst | hst <;> cases hst
          | waits v a seat state tenure requests => cases requests
          | shows v e seat state tenure requests lit => cases lit
        · have e : u.id = v.id := Option.some.inj (hc.symm.trans seat.current)
          exact ⟨eq_of_id hi1 hm seat.slot.1 e ▸ seat, form⟩
      have same := same_of_id hi1 seat.mem
      obtain ⟨sh, hd, he⟩ := site_blockTask_self (u := u) form .segmentDown
      have hterm : u.state.terminal = false := by rcases hst with hst | hst <;> rw [hst] <;> rfl
      refine ⟨?_, ?_, fun q hq => ?_⟩
      · rw [he]
        have hs := seat.retask same (f := Task.blockedNow) rfl
        exact .blocked u.blockedNow ⟨hs.mem, hs.only, hs.current⟩ rfl rfl rfl hd
      · rw [he]
        exact (hw.retask (f := Task.blockedNow) (fun _ => rfl) fun v hv e => by rw [same v hv e, hterm]; rfl).congr rfl rfl
      · rw [site_blockTask_of_ne hi1 seat _ hq, hsite]
    · next hst =>
      refine ⟨?_, hw, fun q _ => hsite q⟩
      rcases hl with hl | ⟨v, seat, hv, -⟩
      · exact hl
      · have e : u.id = v.id := Option.some.inj (hc.symm.trans seat.current)
        exact absurd (eq_of_id hi1 hm seat.slot.1 e ▸ hv) hst

/-- While the slots `l` of segment `g` are still to leave service. -/
structure State.Leaving (s : State) (g : Seg) (l : List SlotRef) : Prop where
  ids : s.DistinctIds
  waiting : ∀ q, (s.site q).Waiting
  losing : ∀ q, q.seg = g → (s.site q).Losing
  done : ∀ q, q.seg = g → q ∉ l → Standing .none (s.site q).bare
  others : ∀ q, q.seg ≠ g → Standing .none (s.site q)

theorem leaving_step {g : Seg} {r : SlotRef} {l : List SlotRef} (hr : r.seg = g) (h : s.Leaving g (r :: l)) :
    (s.loseServiceWithSegment r).Leaving g l := by
  obtain ⟨h1, h2, h3⟩ := loseServiceWithSegment_spec h.ids (h.waiting r) (h.losing r hr)
  refine ⟨distinctIds_of_kept (kept_loseServiceWithSegment s r) h.ids, fun q => ?_, fun q hq => ?_, fun q hq hl => ?_, fun q hq => ?_⟩
  · by_cases e : q = r
    · exact e ▸ h2
    · rw [h3 q e]; exact h.waiting q
  · by_cases e : q = r
    · exact .inl (e ▸ h1)
    · rw [h3 q e]; exact h.losing q hq
  · by_cases e : q = r
    · exact e ▸ h1
    · rw [h3 q e]
      exact h.done q hq fun hm => (List.mem_cons.mp hm).elim e hl
  · rw [h3 q fun e => hq (e ▸ hr)]; exact h.others q hq

theorem leaving_fold {g : Seg} {l : List SlotRef} (hl : ∀ r ∈ l, r.seg = g) (h : s.Leaving g l) :
    (l.foldl State.loseServiceWithSegment s).Leaving g [] := by
  induction l generalizing s with
  | nil => exact h
  | cons r l ih =>
    exact ih (fun q hq => hl q (List.mem_cons_of_mem r hq)) (leaving_step (hl r List.mem_cons_self) h)

theorem site_restGovernor (s : State) (g : Seg) (r : SlotRef) :
    (s.restGovernor g).site r = if r.seg = g then (s.site r).bare else s.site r := by
  have h : (s.updGov g fun _ => Governor.reset).site r = if r.seg = g then (s.site r).bare else s.site r := by
    rw [site_updGov]; rfl
  unfold State.restGovernor
  simp only []
  split
  · rw [site_notify, h]
  · exact h

theorem restGovernor_distinctIds (h : s.DistinctIds) (g : Seg) : (s.restGovernor g).DistinctIds :=
  distinctIds_of_kept (kept_restGovernor s g) h

theorem mem_allIx (ix : Fin 62) : ix ∈ allIx := List.mem_finRange ix

theorem mem_allSegs (g : Seg) : g ∈ allSegs := List.mem_finRange g

theorem mem_slotsOf {g : Seg} {r : SlotRef} : r ∈ slotsOf g ↔ r.seg = g := by
  constructor
  · intro h
    obtain ⟨ix, -, rfl⟩ := List.mem_map.mp h
    rfl
  · rintro rfl
    exact List.mem_map.mpr ⟨r.ix, mem_allIx _, rfl⟩

theorem mem_allSlots (r : SlotRef) : r ∈ allSlots := List.mem_flatMap.mpr ⟨r.seg, mem_allSegs _, mem_slotsOf.mpr rfl⟩

/-- R162: the end of a segment's service keeps every slot standing. -/
theorem stands_endService (h : s.Stands settled) (g : Seg) : (s.endService g).Stands settled := by
  have hl := leaving_fold (s := s) (g := g) (l := slotsOf g) (fun r => mem_slotsOf.mp)
    ⟨h.ids, h.waiting, fun q _ => (h.standing q).losing, fun q hq hn => absurd (mem_slotsOf.mpr hq) hn, fun q _ => h.standing q⟩
  refine ⟨restGovernor_distinctIds hl.ids g, fun q => ?_, fun q => ?_⟩
  · rw [State.endService, site_restGovernor]
    split
    · exact (hl.waiting q).bare
    · exact hl.waiting q
  · rw [State.endService, site_restGovernor]
    split
    · next hq => exact hl.done q hq (by simp)
    · next hq => exact hl.others q hq

/-! ### CLEAR_TASKS (R38) -/

/-- A slot whose tasks have been cleared. -/
structure Site.Cleared (x : Site) : Prop where
  tasks : x.tasks = []
  waiting : x.waiting = []
  current : x.current = none
  tenure : x.tenure = none
  form : x.shadow.owner = none → x.Dark

theorem Site.Cleared.waits {x : Site} (h : x.Cleared) : x.bare.Waiting where
  room := by
    show x.waiting.length ≤ 8
    rw [h.waiting]; exact Nat.zero_le 8
  distinct := by
    show x.waiting.Nodup
    rw [h.waiting]; exact List.nodup_nil
  members := fun id hid => by
    have hid : id ∈ x.waiting := hid
    rw [h.waiting] at hid; cases hid
  waits := fun v hv => by
    have hv : v ∈ x.tasks := hv
    rw [h.tasks] at hv; cases hv

theorem Site.Cleared.stands {x : Site} (h : x.Cleared) (hd : x.Dark) : Standing .none x.bare :=
  .free h.current h.tenure rfl rfl hd fun v hv => by
    have hv : v ∈ x.tasks := hv
    rw [h.tasks] at hv; cases hv

theorem Standing.form {d : Debt} {x : Site} (h : Standing d x) (ho : x.shadow.owner = none) : x.Dark := by
  cases h with
  | shows u e seat state tenure requests lit task styles owner => rw [owner] at ho; cases ho
  | display e idle requests lit styles owner => rw [ho] at owner; cases owner
  | glow idle requests lit form => exact form ho
  | free current tenure requests lit dark => exact dark
  | blocked u seat state requests lit dark => exact dark
  | waits u a seat state tenure requests task lit dark => exact dark
  | seat idle requests lit dark => exact dark
  | request a idle requests task lit dark => exact dark

theorem site_forgetTasks (s : State) (r : SlotRef) :
    s.forgetTasks.site r = { s.site r with tasks := [], waiting := [], current := none, tenure := none } := by
  simp [State.site, State.forgetTasks, State.slot, State.gov, State.seg]

theorem cleared_forgetTasks (h : s.Stands owes) (r : SlotRef) : (s.forgetTasks.site r).Cleared := by
  rw [site_forgetTasks]
  exact ⟨rfl, rfl, rfl, rfl, (h.standing r).form⟩

theorem site_clearShadow (s : State) (q r : SlotRef) :
    (s.clearShadow q).site r =
      if r = q ∧ (s.shadow q).owner ≠ none then { s.site q with shadow := Shadow.dark ((s.shadow q).seq + 1) }
      else s.site r := by
  unfold State.clearShadow
  rcases h : (s.shadow q).owner with _ | o
  · simp
  · simp only [Option.isNone_some, Bool.false_eq_true, if_false]
    split <;> simp [site_updShadow]

theorem cleared_clearShadow {q : SlotRef} (h : ∀ r, (s.site r).Cleared) :
    (∀ r, ((s.clearShadow q).site r).Cleared) ∧ ((s.clearShadow q).site q).Dark ∧
      ∀ r, (s.site r).Dark → ((s.clearShadow q).site r).Dark := by
  refine ⟨fun r => ?_, ?_, fun r hr => ?_⟩
  · rw [site_clearShadow]; split
    · exact ⟨(h q).tasks, (h q).waiting, (h q).current, (h q).tenure, fun _ => rfl⟩
    · exact h r
  · rw [site_clearShadow]; split
    · rfl
    · next hn => exact (h q).form (by simpa using hn)
  · rw [site_clearShadow]; split
    · rfl
    · exact hr

theorem cleared_clearShadows {l : List SlotRef} (h : ∀ r, (s.site r).Cleared) :
    (∀ r, ((l.foldl State.clearShadow s).site r).Cleared) ∧
      ∀ r, (r ∈ l ∨ (s.site r).Dark) → ((l.foldl State.clearShadow s).site r).Dark := by
  induction l generalizing s with
  | nil => exact ⟨h, fun r hr => hr.resolve_left (by simp)⟩
  | cons q l ih =>
    obtain ⟨h1, h2, h3⟩ := cleared_clearShadow (q := q) h
    obtain ⟨h4, h5⟩ := ih h1
    refine ⟨h4, fun r hr => h5 r ?_⟩
    rcases hr with hr | hr
    · rcases List.mem_cons.mp hr with rfl | hr
      · exact .inr h2
      · exact .inl hr
    · exact .inr (h3 r hr)

theorem site_clearGovernor (s : State) (g : Seg) (r : SlotRef) :
    (s.clearGovernor g).site r = if r.seg = g then (s.site r).bare else s.site r := by
  unfold State.clearGovernor
  simp only []
  split <;> simp only [site_notify, site_recompute, site_updGov] <;> rfl

theorem site_clearGovernors (s : State) (l : List Seg) (r : SlotRef) :
    (l.foldl State.clearGovernor s).site r = if r.seg ∈ l then (s.site r).bare else s.site r := by
  induction l generalizing s with
  | nil => simp
  | cons g l ih =>
    rw [List.foldl_cons, ih, site_clearGovernor]
    by_cases h1 : r.seg = g <;> by_cases h2 : r.seg ∈ l <;> simp_all [Site.bare]

theorem clearShadow_tasks (s : State) (r : SlotRef) : (s.clearShadow r).tasks = s.tasks := by
  unfold State.clearShadow State.queueDisplay State.mergeDisplay State.appendDisplay
  simp only []; repeat' split
  all_goals rfl

theorem clearGovernor_tasks (s : State) (g : Seg) : (s.clearGovernor g).tasks = s.tasks := by
  unfold State.clearGovernor; simp only []; split <;> simp [State.recompute]

theorem foldl_tasks {α : Type} {f : State → α → State} (hf : ∀ s a, (f s a).tasks = s.tasks) (l : List α) (s : State) :
    (l.foldl f s).tasks = s.tasks := by
  induction l generalizing s with
  | nil => rfl
  | cons a l ih => rw [List.foldl_cons, ih, hf]

theorem clearTasks_tasks (s : State) : s.clearTasks.tasks = [] := by
  unfold State.clearTasks
  rw [foldl_tasks clearGovernor_tasks, foldl_tasks clearShadow_tasks]
  rfl

theorem stands_clearTasks (h : s.Stands settled) : s.clearTasks.Stands settled := by
  obtain ⟨h1, h2⟩ := cleared_clearShadows (l := allSlots) fun r => cleared_forgetTasks h r
  have hsite : ∀ r, s.clearTasks.site r = ((allSlots.foldl State.clearShadow s.forgetTasks).site r).bare := fun r => by
    rw [State.clearTasks, site_clearGovernors, if_pos (mem_allSegs _)]
  refine ⟨?_, fun r => ?_, fun r => ?_⟩
  · unfold State.DistinctIds; rw [clearTasks_tasks]; exact List.nodup_nil
  · rw [hsite]; exact (h1 r).waits
  · rw [hsite]; exact (h1 r).stands (h2 r (.inl (mem_allSlots r)))

/-! ### SUBMIT (R19) -/

theorem insertTask_perm (u : Task) (l : List Task) : (insertTask u l).Perm (u :: l) := by
  induction l with
  | nil => exact List.Perm.refl _
  | cons v l ih =>
    simp only [insertTask]
    split
    · exact List.Perm.refl _
    · exact (ih.cons v).trans (List.Perm.swap u v l)

theorem mem_insertTask {u v : Task} {l : List Task} : v ∈ insertTask u l ↔ v = u ∨ v ∈ l := by
  rw [(insertTask_perm u l).mem_iff, List.mem_cons]

theorem filter_insertTask_ne {u : Task} {r : SlotRef} (h : u.slot ≠ r) (l : List Task) :
    ((insertTask u l).filter fun v => v.slot = r) = l.filter fun v => v.slot = r := by
  induction l with
  | nil => simp [insertTask, h]
  | cons v l ih =>
    simp only [insertTask]
    split
    · rw [List.filter_cons]; simp [h]
    · rw [List.filter_cons, List.filter_cons, ih]

theorem site_acceptTask_of_ne (s : State) {u : Task} {r : SlotRef} (h : r ≠ u.slot) :
    (s.acceptTask u).site r = s.site r := by
  unfold State.acceptTask
  simp only []
  rw [site_updSlot, if_neg h]
  simp only [State.site, State.updPicker, filter_insertTask_ne (Ne.symm h)]
  rfl

theorem site_acceptTask_self (s : State) (u : Task) :
    (s.acceptTask u).site u.slot =
      { s.site u.slot with
        tasks := (insertTask u s.tasks).filter fun v => v.slot = u.slot
        waiting := (s.slot u.slot).waiting ++ [u.id] } := by
  unfold State.acceptTask
  simp only []
  rw [site_updSlot, if_pos rfl]
  rfl

theorem stands_acceptTask (h : s.Stands settled) {u : Task} (hid : ∀ v ∈ s.tasks, v.id ≠ u.id)
    (hst : u.state = .queued ∨ u.state = .paused) (hroom : (s.slot u.slot).waiting.length < 8) :
    (s.acceptTask u).Stands settled := by
  have hnc : u.state.isCurrent = false := by rcases hst with e | e <;> rw [e] <;> rfl
  have hnt : u.state.terminal = false := by rcases hst with e | e <;> rw [e] <;> rfl
  have hmem : ∀ v, v ∈ ((insertTask u s.tasks).filter fun v => v.slot = u.slot) ↔ v = u ∨ v ∈ (s.site u.slot).tasks := fun v => by
    rw [List.mem_filter, mem_insertTask, mem_site_tasks]
    simp only [decide_eq_true_eq]
    constructor
    · rintro ⟨rfl | hv, hr⟩
      · exact .inl rfl
      · exact .inr ⟨hv, hr⟩
    · rintro (rfl | ⟨hv, hr⟩)
      · exact ⟨.inl rfl, rfl⟩
      · exact ⟨.inr hv, hr⟩
  have w := h.waiting u.slot
  refine h.change_same ?_ u.slot (fun q hq => site_acceptTask_of_ne s hq) ?_ ?_
  · show ((insertTask u s.tasks).map Task.id).Nodup
    rw [((insertTask_perm u s.tasks).map Task.id).nodup_iff, List.map_cons, List.nodup_cons]
    refine ⟨fun hm => ?_, h.ids⟩
    obtain ⟨v, hv, e⟩ := List.mem_map.mp hm
    exact hid v hv e
  · rw [site_acceptTask_self]
    refine ⟨?_, ?_, fun id hi => ?_, fun v hv hvt => ?_⟩
    · show ((s.slot u.slot).waiting ++ [u.id]).length ≤ 8
      rw [List.length_append, List.length_singleton]; omega
    · refine List.Nodup.append w.distinct (List.nodup_singleton _) ?_
      rw [List.disjoint_singleton]
      intro hm
      obtain ⟨v, hv, e, -⟩ := w.members u.id hm
      exact hid v (mem_site_tasks.mp hv).1 e
    · rcases List.mem_append.mp hi with hi | hi
      · obtain ⟨v, hv, e, hvt⟩ := w.members id hi
        exact ⟨v, (hmem v).mpr (.inr hv), e, hvt⟩
      · exact ⟨u, (hmem u).mpr (.inl rfl), (List.mem_singleton.mp hi).symm, hnt⟩
    · rcases (hmem v).mp hv with rfl | hv
      · exact List.mem_append.mpr (.inr (List.mem_singleton.mpr rfl))
      · exact List.mem_append.mpr (.inl (w.waits v hv hvt))
  · rw [site_acceptTask_self]
    have hs : Standing .none (s.site u.slot) := h.standing u.slot
    refine Standing.rewait (hs.retable (l := (insertTask u s.tasks).filter fun v => v.slot = u.slot) fun v hv => ?_) _
    rw [hmem]
    refine ⟨fun e => e.resolve_left fun e => ?_, Or.inr⟩
    rw [e, hnc] at hv; cases hv

/-! ### RETIRE and CANCEL (R32, R34) -/

/-- A site without one of its tasks. -/
def Site.without (x : Site) (id : TaskId) : Site := { x with tasks := x.tasks.filter fun v => v.id ≠ id }

theorem site_dropTask (s : State) (u : Task) (r : SlotRef) : (s.dropTask u).site r = (s.site r).without u.id := by
  have h : ((s.tasks.filter fun v => v.id ≠ u.id).filter fun v => v.slot = r) =
      (s.tasks.filter fun v => v.slot = r).filter fun v => v.id ≠ u.id := by
    rw [List.filter_filter, List.filter_filter]
    exact List.filter_congr fun v _ => Bool.and_comm _ _
  simp only [State.site, State.dropTask, Site.without, State.updPicker_tasks, State.freeTask_tasks, h]
  rfl

theorem site_dropTask_of_ne (hi : s.DistinctIds) {u : Task} (hu : u ∈ s.tasks) {r : SlotRef} (hr : r ≠ u.slot) :
    (s.dropTask u).site r = s.site r := by
  rw [site_dropTask]
  have : ((s.site r).tasks.filter fun v => v.id ≠ u.id) = (s.site r).tasks := by
    refine List.filter_eq_self.mpr fun v hv => ?_
    obtain ⟨hv, hs⟩ := mem_site_tasks.mp hv
    simp only [decide_eq_true_eq]
    exact fun e => hr (by rw [← hs, eq_of_id hi hv hu e])
  simp only [Site.without, this]

theorem dropTask_distinctIds (h : s.DistinctIds) (u : Task) : (s.dropTask u).DistinctIds :=
  (List.filter_sublist.map Task.id).nodup h

/-- A slot stands without a task that is not in WAIT_LOAD, SHOWN or BLOCKED. -/
theorem Standing.without {x : Site} (h : Standing .none x) {u : Task} (hd : ∀ v ∈ x.tasks, v.id = u.id → v = u)
    (hu : u.state.isCurrent = false) : Standing .none (x.without u.id) :=
  h.retable fun v hv => by
    rw [List.mem_filter]
    refine ⟨fun e => e.1, fun e => ⟨e, ?_⟩⟩
    simp only [decide_eq_true_eq]
    exact fun e' => by rw [hd v e e', hu] at hv; cases hv

theorem EndState.not_current {st : TaskState} (h : st.terminal = true) : st.isCurrent = false := by
  cases st <;> first | rfl | cases h

/-- R34: a terminal entry is freed. -/
theorem stands_retire (h : s.Stands settled) {u : Task} (hu : u ∈ s.tasks) (ht : u.state.terminal = true) :
    (s.dropTask u).Stands settled := by
  have same := same_of_id h.ids (mem_site_self hu)
  have w := h.waiting u.slot
  refine h.change_same (dropTask_distinctIds h.ids u) u.slot (fun q hq => site_dropTask_of_ne h.ids hu hq) ?_ ?_
  · rw [site_dropTask]
    refine ⟨w.room, w.distinct, fun id hid => ?_, fun v hv hvt => ?_⟩
    · obtain ⟨v, hv, e, hvt⟩ := w.members id hid
      refine ⟨v, List.mem_filter.mpr ⟨hv, ?_⟩, e, hvt⟩
      simp only [decide_eq_true_eq]
      exact fun e' => by rw [same v hv e', ht] at hvt; cases hvt
    · exact w.waits v (List.mem_filter.mp hv).1 hvt
  · rw [site_dropTask]
    exact Standing.without (h.standing u.slot) same (EndState.not_current ht)

/-- The tenure of a slot that owes nothing more ends. -/
theorem stands_clearCurrent (h : s.Stands owes) {r : SlotRef} (idle : (s.site r).Idle) (requests : (s.site r).requests = [])
    (lit : (s.site r).lit = []) (dark : (s.site r).Dark) :
    (s.clearCurrent r).Stands (Function.update owes r .none) := by
  refine h.change (clearCurrent_distinctIds h.ids r) r .none (fun q hq => ?_) ?_ ?_
  · rw [site_clearCurrent, if_neg hq]
  · rw [site_clearCurrent, if_pos rfl]; exact (h.waiting r).congr rfl rfl
  · rw [site_clearCurrent, if_pos rfl]; exact .free rfl rfl requests lit dark idle

theorem update_settled (r : SlotRef) (d : Debt) : Function.update (Function.update settled r d) r .none = settled := by
  funext q
  by_cases e : q = r
  · subst e; simp [settled]
  · simp [e]

/-- A task is out of the table and out of its slot's waiting set. -/
def State.removed (s : State) (u : Task) : State := (s.dropTask u).leaveWaiting u.slot u.id

theorem site_removed_self (s : State) (u : Task) :
    (s.removed u).site u.slot =
      { (s.site u.slot).without u.id with waiting := (s.slot u.slot).waiting.filter fun w => w ≠ u.id } := by
  have hw : ((s.dropTask u).slot u.slot).waiting = (s.slot u.slot).waiting := rfl
  rw [State.removed, site_leaveWaiting, if_pos rfl, site_dropTask, hw]

theorem site_removed_of_ne (hi : s.DistinctIds) {u : Task} (hu : u ∈ s.tasks) {q : SlotRef} (hq : q ≠ u.slot) :
    (s.removed u).site q = s.site q := by
  rw [State.removed, site_leaveWaiting, if_neg hq, site_dropTask_of_ne hi hu hq]

theorem waiting_removed (h : s.Stands owes) {u : Task} : ((s.removed u).site u.slot).Waiting := by
  have w := h.waiting u.slot
  rw [site_removed_self]
  refine ⟨(List.length_filter_le _ _).trans w.room, w.distinct.filter _, fun id hid => ?_, fun v hv hvt => ?_⟩
  · obtain ⟨hid, hne⟩ := List.mem_filter.mp hid
    obtain ⟨v, hv, rfl, hvt⟩ := w.members id hid
    exact ⟨v, List.mem_filter.mpr ⟨hv, hne⟩, rfl, hvt⟩
  · obtain ⟨hv, hne⟩ := List.mem_filter.mp hv
    exact List.mem_filter.mpr ⟨w.waits v hv hvt, hne⟩

/-- The slot of a removed task in WAIT_LOAD, SHOWN or BLOCKED has no other. -/
theorem idle_removed {u : Task} (seat : (s.site u.slot).Seats u) :
    ((s.removed u).site u.slot).Idle := by
  rw [site_removed_self]
  intro v hv
  obtain ⟨hv, hne⟩ := List.mem_filter.mp hv
  by_contra hc
  have := seat.only v hv (by simpa using hc)
  simp [this] at hne

theorem removed_change (h : s.Stands settled) {u : Task} (hu : u ∈ s.tasks) {d : Debt} {v : State}
    (hi : v.DistinctIds) (hne : ∀ q, q ≠ u.slot → v.site q = (s.removed u).site q)
    (hw : (v.site u.slot).waiting = ((s.removed u).site u.slot).waiting)
    (ht : (v.site u.slot).tasks = ((s.removed u).site u.slot).tasks) (hst : Standing d (v.site u.slot)) :
    v.Stands (Function.update settled u.slot d) :=
  h.change hi u.slot d (fun q hq => (hne q hq).trans (site_removed_of_ne h.ids hu hq)) ((waiting_removed h).congr hw ht) hst

theorem removed_distinctIds (h : s.DistinctIds) (u : Task) : (s.removed u).DistinctIds :=
  leaveWaiting_distinctIds (dropTask_distinctIds h u) _ _

/-- After a settlement a slot that owes the end of its tenure gets it. -/
theorem stands_clearSeat (h : s.Stands (Function.update settled r .seat)) : (s.clearCurrent r).Stands settled := by
  have hst := h.standing r
  rw [Function.update_self] at hst
  cases hst with
  | seat idle requests lit dark =>
    have := stands_clearCurrent h idle requests lit dark
    rwa [update_settled] at this

/-- The same with its DARK. -/
theorem stands_darkenSeat (h : s.Stands (Function.update settled r .glow)) : ((s.clearCurrent r).darken r).Stands settled := by
  have hst := h.standing r
  rw [Function.update_self] at hst
  cases hst with
  | glow idle requests lit form =>
    have hsite : (s.clearCurrent r).site r = { s.site r with current := none, tenure := none } := by
      rw [site_clearCurrent, if_pos rfl]
    obtain ⟨sh, hd, he⟩ := site_darken_self (s := s.clearCurrent r) (r := r) fun hn => by
      have : (s.clearCurrent r).shadow r = s.shadow r := congrArg Site.shadow hsite
      rw [this] at hn; rw [hsite]; exact form hn
    rw [← update_settled r .glow]
    refine h.change (darken_distinctIds (clearCurrent_distinctIds h.ids r) r) r .none (fun q hq => ?_) ?_ ?_
    · rw [site_darken_of_ne hq, site_clearCurrent, if_neg hq]
    · rw [he, hsite]; exact (h.waiting r).congr rfl rfl
    · rw [he, hsite]; exact .free rfl rfl requests lit hd idle

theorem stands_cancelTask (h : s.Stands settled) {u : Task} (hu : u ∈ s.tasks) :
    (s.cancelTask u).Stands settled := by
  have hids := removed_distinctIds h.ids u
  have same := same_of_id h.ids (mem_site_self hu)
  have hself := site_removed_self s u
  show ((s.removed u).vacatePlace u).Stands settled
  unfold State.vacatePlace
  simp only []
  have quiet : u.state.isCurrent = false → (s.removed u).Stands settled := fun hc => by
    have hx : Standing .none ((s.removed u).site u.slot) := by
      rw [hself]
      exact (Standing.without (h.standing u.slot) same hc).rewait _
    have := removed_change h hu hids (fun _ _ => rfl) rfl rfl hx
    have e : Function.update settled u.slot .none = settled := Function.update_eq_self u.slot settled
    rwa [e] at this
  split
  · next hst =>
    have seat := seats_of_isCurrent h hu (by rw [hst]; rfl)
    obtain ⟨lit, dark⟩ := waits_of_seats h seat hst
    have idle := idle_removed seat
    have hwd := site_withdraw_self (s.removed u) u.slot
    refine stands_select (stands_clearSeat (stands_settle (removed_change h hu (withdraw_distinctIds hids _)
      (fun q hq => site_withdraw_of_ne hq _) ?_ ?_ ?_) u.slot.seg)) u.slot
    · rw [hwd]
    · rw [hwd]
    · rw [hwd, hself]; rw [hself] at idle
      exact .seat idle rfl lit dark
  · next hst =>
    have seat := seats_of_isCurrent h hu (by rw [hst]; rfl)
    obtain ⟨requests, -, e, -, -, -, owner, -⟩ := shows_of_seats h seat hst
    have idle := idle_removed seat
    have hul := site_unlight_self (s.removed u) u.slot
    refine stands_select (stands_darkenSeat (stands_settle (removed_change h hu (unlight_distinctIds hids _)
      (fun q hq => site_unlight_of_ne hq _) ?_ ?_ ?_) u.slot.seg)) u.slot
    · rw [hul]
    · rw [hul]
    · rw [hul, hself]; rw [hself] at idle
      exact .glow idle requests rfl fun hn => by
        have hn : (s.shadow u.slot).owner = none := hn
        rw [owner] at hn; cases hn
  · next hst =>
    have seat := seats_of_isCurrent h hu (by rw [hst]; rfl)
    obtain ⟨requests, lit, dark⟩ := blocked_of_seats h seat hst
    have idle := idle_removed seat
    refine stands_select (stands_clearSeat (removed_change h hu hids (fun _ _ => rfl) rfl rfl ?_)) u.slot
    rw [hself] at idle ⊢
    exact .seat idle requests lit dark
  · next h1 h2 h3 =>
    refine quiet ?_
    rcases hst : u.state with _ | _ | _ | _ | _ | _ | _ | _ <;> simp_all [TaskState.isCurrent]

end Sys2Proof.Machine
end

