-- ==== Sys2Proof/Proofs/PickerStands.lean ====
section
/-! PROOFS. PAUSE_PICKER, RESUME_PICKER and a changed priority keep every slot standing; and so do the passing of time and
a reset (R7, R9, R10, R26, R181). -/

namespace Sys2Proof.Machine

variable {owes : SlotRef → Debt} {s t : State}

/-- A change of tasks that are neither before nor after it in WAIT_LOAD, SHOWN or BLOCKED. -/
theorem Standing.map_aside {x : Site} (h : Standing .none x) {f : Task → Task}
    (hf : ∀ u ∈ x.tasks, f u = u ∨ u.state.isCurrent = false ∧ (f u).state.isCurrent = false) :
    Standing .none { x with tasks := x.tasks.map f } := by
  refine h.retable fun v hv => ⟨fun hm => ?_, fun hm => ?_⟩
  · obtain ⟨u, hu, rfl⟩ := List.mem_map.mp hm
    rcases hf u hu with e | ⟨-, e⟩
    · rwa [e]
    · rw [e] at hv; cases hv
  · rcases hf v hm with e | ⟨e, -⟩
    · exact List.mem_map.mpr ⟨v, hm, e⟩
    · rw [e] at hv; cases hv

/-! ### RESUME_PICKER (R10) -/

/-- R10 step 2: a task of a resumed picker. -/
def Task.requeuedBy (p : Fin 12) (u : Task) : Task :=
  if u.picker = p ∧ u.state = .paused then { u with state := .queued } else u

theorem Task.requeuedBy_cases (p : Fin 12) (u : Task) :
    u.requeuedBy p = u ∨ u.state = .paused ∧ (u.requeuedBy p).state = .queued := by
  unfold Task.requeuedBy; split
  · next h => exact .inr ⟨h.2, rfl⟩
  · exact .inl rfl

theorem Task.requeuedBy_id (p : Fin 12) (u : Task) : (u.requeuedBy p).id = u.id := by
  unfold Task.requeuedBy; split <;> rfl

theorem Task.requeuedBy_slot (p : Fin 12) (u : Task) : (u.requeuedBy p).slot = u.slot := by
  unfold Task.requeuedBy; split <;> rfl

theorem stands_requeueTasks (h : s.Stands settled) (p : Fin 12) : (s.requeueTasks p).Stands settled := by
  have hsite : ∀ r, (s.requeueTasks p).site r = { s.site r with tasks := (s.site r).tasks.map (Task.requeuedBy p) } :=
    site_mapTasks s (Task.requeuedBy_slot p)
  refine ⟨distinctIds_of_map (Task.requeuedBy p) (Task.requeuedBy_id p) rfl h.ids, fun r => ?_, fun r => ?_⟩
  · rw [hsite]
    refine (h.waiting r).map (Task.requeuedBy_id p) fun u _ => ?_
    rcases u.requeuedBy_cases p with e | ⟨e1, e2⟩
    · rw [e]
    · rw [e1, e2]; rfl
  · rw [hsite]
    refine (h.standing r).map_aside fun u _ => (u.requeuedBy_cases p).imp_right ?_
    rintro ⟨e1, e2⟩
    rw [e1, e2]; exact ⟨rfl, rfl⟩

/-! ### PAUSE_PICKER (R9) -/

/-- What a slot owes whose current task in this state is paused. -/
def TaskState.debt : TaskState → Debt
  | .shown => .display
  | .waitLoad => .request
  | .blocked => .seat
  | _ => .none

/-- What the slots owe while the tasks `l` have still to give up theirs. -/
def debtsOf (l : List Task) (r : SlotRef) : Debt :=
  match l.find? fun u => u.slot = r with
  | some u => u.state.debt
  | none => .none

theorem debtsOf_cons_self (u : Task) (l : List Task) : debtsOf (u :: l) u.slot = u.state.debt := by
  simp [debtsOf]

theorem update_debtsOf {u : Task} {l : List Task} (h : ∀ v ∈ l, v.slot ≠ u.slot) :
    Function.update (debtsOf (u :: l)) u.slot .none = debtsOf l := by
  funext r
  by_cases e : r = u.slot
  · subst e
    rw [Function.update_self]
    have : (l.find? fun v => v.slot = u.slot) = none := List.find?_eq_none.mpr fun v hv => by simpa using h v hv
    rw [debtsOf, this]
  · rw [Function.update_of_ne e]
    simp [debtsOf, Ne.symm e]

/-- The one task of a list that names the slot. -/
theorem debtsOf_of_mem {l : List Task} {u : Task} (hu : u ∈ l) (h : ∀ v ∈ l, v.slot = u.slot → v = u) :
    debtsOf l u.slot = u.state.debt := by
  rcases e : l.find? fun v => v.slot = u.slot with _ | v
  · exact absurd (List.find?_eq_none.mp e u hu) (by simp)
  · rw [debtsOf, e]
    have hs := List.find?_some e
    simp only [decide_eq_true_eq] at hs
    rw [h v (List.mem_of_find?_eq_some e) hs]

theorem debtsOf_of_forall_ne {l : List Task} {r : SlotRef} (h : ∀ v ∈ l, v.slot ≠ r) : debtsOf l r = .none := by
  have : (l.find? fun v => v.slot = r) = none := List.find?_eq_none.mpr fun v hv => by simpa using h v hv
  rw [debtsOf, this]

/-- R9 step 2: a task of a paused picker. -/
def Task.pausedBy (p : Fin 12) (u : Task) : Task :=
  if u.picker = p ∧ !u.state.terminal ∧ u.state ≠ .paused then { u with state := .paused, timeLeft := 0 } else u

theorem Task.pausedBy_id (p : Fin 12) (u : Task) : (u.pausedBy p).id = u.id := by
  unfold Task.pausedBy; split <;> rfl

theorem Task.pausedBy_slot (p : Fin 12) (u : Task) : (u.pausedBy p).slot = u.slot := by
  unfold Task.pausedBy; split <;> rfl

theorem Task.pausedBy_terminal (p : Fin 12) (u : Task) : (u.pausedBy p).state.terminal = u.state.terminal := by
  unfold Task.pausedBy; split
  · next h => rw [Bool.not_eq_true'] at h; rw [h.2.1]; rfl
  · rfl

theorem Task.pausedBy_of_ne {p : Fin 12} {u : Task} (h : u.picker ≠ p) : u.pausedBy p = u := if_neg fun e => h e.1

theorem TaskState.live_of_isCurrent {st : TaskState} (h : st.isCurrent = true) : st.terminal = false ∧ st ≠ .paused := by
  cases st <;> simp_all [TaskState.isCurrent, TaskState.terminal]

theorem Task.pausedBy_of_isCurrent {p : Fin 12} {u : Task} (hp : u.picker = p) (h : u.state.isCurrent = true) :
    (u.pausedBy p).state = .paused := by
  obtain ⟨h1, h2⟩ := TaskState.live_of_isCurrent h
  rw [Task.pausedBy, if_pos ⟨hp, by simp [h1], h2⟩]

/-- A task that is not in WAIT_LOAD, SHOWN or BLOCKED is not when it is paused either. -/
theorem Task.pausedBy_aside (p : Fin 12) {u : Task} (h : u.state.isCurrent = false) :
    (u.pausedBy p).state.isCurrent = false := by
  unfold Task.pausedBy; split
  · rfl
  · exact h

/-- R9 step 3: the current tasks that a pause takes out of their slots. -/
def State.displaced (s : State) (p : Fin 12) : List Task := (s.liveTasks p).filter fun u => u.state.isCurrent

theorem mem_displaced {p : Fin 12} {u : Task} :
    u ∈ s.displaced p ↔ u ∈ s.tasks ∧ u.picker = p ∧ u.state.isCurrent = true := by
  unfold State.displaced State.liveTasks
  rw [List.mem_filter, List.mem_filter]
  constructor
  · rintro ⟨⟨hm, hl⟩, hc⟩
    simp only [Bool.and_eq_true, decide_eq_true_eq] at hl
    exact ⟨hm, hl.1.1, hc⟩
  · rintro ⟨hm, hp, hc⟩
    obtain ⟨h1, h2⟩ := TaskState.live_of_isCurrent hc
    exact ⟨⟨hm, by simp [hp, h1, h2]⟩, hc⟩

theorem displaced_only (h : s.Stands settled) {p : Fin 12} {u v : Task} (hu : u ∈ s.displaced p) (hv : v ∈ s.displaced p)
    (e : v.slot = u.slot) : v = u := by
  obtain ⟨hu, -, huc⟩ := mem_displaced.mp hu
  obtain ⟨hv, -, hvc⟩ := mem_displaced.mp hv
  exact (seats_of_isCurrent h hu huc).only v (mem_site_tasks.mpr ⟨hv, e⟩) hvc

/-- What a pause makes of a slot that seats a task of the picker. -/
theorem Site.Seats.idle_paused {x : Site} {u : Task} (h : x.Seats u) {p : Fin 12} (hp : u.picker = p)
    (hc : u.state.isCurrent = true) : ({ x with tasks := x.tasks.map (Task.pausedBy p) } : Site).Idle := fun v hv => by
  obtain ⟨w, hw, rfl⟩ := List.mem_map.mp hv
  cases hwc : w.state.isCurrent with
  | false => exact Task.pausedBy_aside p hwc
  | true =>
    obtain rfl := h.only w hw hwc
    rw [Task.pausedBy_of_isCurrent hp hc]; rfl

/-- A slot that seats a task of another picker, or none, stands as before. -/
theorem Standing.paused_aside {x : Site} (h : Standing .none x) {p : Fin 12}
    (hp : ∀ u ∈ x.tasks, u.state.isCurrent = true → u.picker ≠ p) :
    Standing .none { x with tasks := x.tasks.map (Task.pausedBy p) } :=
  h.map_aside fun u hu => by
    cases hc : u.state.isCurrent with
    | true => exact .inl (Task.pausedBy_of_ne (hp u hu hc))
    | false => exact .inr ⟨rfl, Task.pausedBy_aside p hc⟩

/-- R9 step 2: after the pause each slot of a displaced task owes what its task's state leaves. -/
theorem stands_pauseTasks (h : s.Stands settled) (p : Fin 12) : (s.pauseTasks p).Stands (debtsOf (s.displaced p)) := by
  have hsite : ∀ r, (s.pauseTasks p).site r = { s.site r with tasks := (s.site r).tasks.map (Task.pausedBy p) } :=
    site_mapTasks s (Task.pausedBy_slot p)
  refine ⟨distinctIds_of_map (Task.pausedBy p) (Task.pausedBy_id p) rfl h.ids, fun r => ?_, fun r => ?_⟩
  · rw [hsite]
    exact (h.waiting r).map (Task.pausedBy_id p) fun u _ => Task.pausedBy_terminal p u
  rw [hsite]
  by_cases hd : ∃ u ∈ s.displaced p, u.slot = r
  · obtain ⟨u, hu, rfl⟩ := hd
    rw [debtsOf_of_mem hu fun v hv e => displaced_only h hu hv e]
    obtain ⟨hm, hp, hc⟩ := mem_displaced.mp hu
    have seat := seats_of_isCurrent h hm hc
    have idle := seat.idle_paused hp hc
    cases hst : u.state with
    | waitLoad =>
      cases h.standing u.slot with
      | waits v a seat' state tenure requests task lit dark =>
        exact .request a idle requests
          ⟨v.pausedBy p, List.mem_map_of_mem seat'.mem, (Task.pausedBy_id p v).trans task.symm⟩ lit dark
      | free current tenure requests lit dark idle => rw [idle u seat.mem] at hc; cases hc
      | blocked v seat' state => rw [← seat'.only u seat.mem hc, hst] at state; cases state
      | shows v e seat' state => rw [← seat'.only u seat.mem hc, hst] at state; cases state
    | shown =>
      obtain ⟨requests, -, e, lit, -, styles, owner, -⟩ := shows_of_seats h seat hst
      exact .display e idle requests lit styles (by
        show (s.shadow u.slot).owner.isSome = true
        rw [owner]; rfl)
    | blocked =>
      obtain ⟨requests, lit, dark⟩ := blocked_of_seats h seat hst
      exact .seat idle requests lit dark
    | queued => rw [hst] at hc; cases hc
    | paused => rw [hst] at hc; cases hc
    | done => rw [hst] at hc; cases hc
    | short => rw [hst] at hc; cases hc
    | expired => rw [hst] at hc; cases hc
  · rw [debtsOf_of_forall_ne fun v hv e => hd ⟨v, hv, e⟩]
    refine (h.standing r).paused_aside fun u hu hc hp => hd ?_
    obtain ⟨hm, hr⟩ := mem_site_tasks.mp hu
    exact ⟨u, mem_displaced.mpr ⟨hm, hp, hc⟩, hr⟩

/-- R9 step 3: a displaced task gives up its slot. -/
theorem stands_yieldSlot {u : Task} (h : s.Stands owes) (ho : owes u.slot = u.state.debt) (hc : u.state.isCurrent = true) :
    (s.yieldSlot u).Stands (Function.update owes u.slot .none) := by
  have hst := h.standing u.slot
  rw [ho] at hst
  unfold State.yieldSlot
  simp only []
  generalize u.slot = r at hst ⊢
  have hcl : (s.clearCurrent r).site r = { s.site r with current := none, tenure := none } := by
    rw [site_clearCurrent, if_pos rfl]
  cases hs : u.state with
  | shown =>
    rw [hs] at hst
    cases hst with
    | display e idle requests lit styles owner =>
      obtain ⟨sh, hd, hdk⟩ := site_darken_self (s := s.clearCurrent r) (r := r) fun hn => by
        have : (s.clearCurrent r).shadow r = s.shadow r := congrArg Site.shadow hcl
        rw [this] at hn
        have owner : (s.shadow r).owner.isSome = true := owner
        rw [hn] at owner; cases owner
      refine stands_settle (h.change (unlight_distinctIds (darken_distinctIds (clearCurrent_distinctIds h.ids r) r) r) r .none
        (fun q hq => ?_) ?_ ?_) r.seg
      · rw [site_unlight_of_ne hq, site_darken_of_ne hq, site_clearCurrent, if_neg hq]
      · rw [site_unlight_self, hdk, hcl]; exact (h.waiting r).congr rfl rfl
      · rw [site_unlight_self, hdk, hcl]; exact .free rfl rfl requests rfl hd idle
  | waitLoad =>
    rw [hs] at hst
    cases hst with
    | request a idle requests task lit dark =>
      refine stands_settle (h.change (withdraw_distinctIds (clearCurrent_distinctIds h.ids r) r) r .none
        (fun q hq => ?_) ?_ ?_) r.seg
      · rw [site_withdraw_of_ne hq, site_clearCurrent, if_neg hq]
      · rw [site_withdraw_self, hcl]; exact (h.waiting r).congr rfl rfl
      · rw [site_withdraw_self, hcl]; exact .free rfl rfl rfl lit dark idle
  | blocked =>
    rw [hs] at hst
    cases hst with
    | seat idle requests lit dark => exact stands_clearCurrent h idle requests lit dark
  | queued => rw [hs] at hc; cases hc
  | paused => rw [hs] at hc; cases hc
  | done => rw [hs] at hc; cases hc
  | short => rw [hs] at hc; cases hc
  | expired => rw [hs] at hc; cases hc

theorem stands_yieldSlots {l : List Task} (h : s.Stands (debtsOf l)) (hl : l.Pairwise fun u v => v.slot ≠ u.slot)
    (hc : ∀ u ∈ l, u.state.isCurrent = true) : (l.foldl State.yieldSlot s).Stands settled := by
  induction l generalizing s with
  | nil => exact h
  | cons u l ih =>
    obtain ⟨hu, hl⟩ := List.pairwise_cons.mp hl
    refine ih ?_ hl fun v hv => hc v (List.mem_cons_of_mem u hv)
    rw [← update_debtsOf hu]
    exact stands_yieldSlot h (debtsOf_cons_self u l) (hc u List.mem_cons_self)

theorem displaced_pairwise (h : s.Stands settled) (p : Fin 12) :
    (s.displaced p).Pairwise fun u v => v.slot ≠ u.slot := by
  have hn : (s.displaced p).Nodup := (List.Nodup.of_map Task.id h.ids).filter _ |>.filter _
  exact (hn.pairwise_of_forall_ne fun u hu v hv hne e => hne (displaced_only h hu hv e).symm)

theorem stands_updPicker (h : s.Stands owes) (p : Fin 12) (f : Picker → Picker) : (s.updPicker p f).Stands owes :=
  h.congr rfl fun _ => rfl

/-- R9: a pause keeps every slot standing. -/
theorem stands_pause (h : s.Stands settled) (p : Fin 12) (rs : List SlotRef) :
    (((s.displaced p).foldl State.yieldSlot (s.pauseTasks p)).selectAll rs).Stands settled :=
  stands_selectAll (stands_yieldSlots (stands_pauseTasks h p) (displaced_pairwise h p) fun _ hu => (mem_displaced.mp hu).2.2) rs

/-! ### A changed priority (R7) -/

theorem filter_moveRequest_ne (now : Stamp) (n : Nat) (q : List Admission) (a : Admission) {i : Fin 62} (h : i ≠ a.ix) :
    ((moveRequest now n q a).filter fun b => b.ix = i) = q.filter fun b => b.ix = i := by
  unfold moveRequest
  rw [filter_insertAdmission_ne now { a with priority := n } _ (Ne.symm h), filter_ix_ne Admission.ix, if_neg h]

theorem filter_moveRequest_self (now : Stamp) (n : Nat) (q : List Admission) (a : Admission) :
    ((moveRequest now n q a).filter fun b => b.ix = a.ix) = [{ a with priority := n }] := by
  unfold moveRequest
  refine filter_insertAdmission_self now { a with priority := n } _ ?_
  show ((q.filter fun b => b.ix ≠ a.ix).filter fun b => b.ix = a.ix) = []
  rw [filter_ix_ne Admission.ix, if_pos rfl]

/-- The request at an address, after some have moved: as it was, or with the new priority. -/
theorem filter_moved (now : Stamp) (n : Nat) {a : Admission} {l q : List Admission}
    (hl : ∀ b ∈ l, b.ix = a.ix → b = a) (hq : (q.filter fun b => b.ix = a.ix) = [a] ∨
      (q.filter fun b => b.ix = a.ix) = [{ a with priority := n }]) :
    ((l.foldl (moveRequest now n) q).filter fun b => b.ix = a.ix) = [a] ∨
      ((l.foldl (moveRequest now n) q).filter fun b => b.ix = a.ix) = [{ a with priority := n }] := by
  induction l generalizing q with
  | nil => exact hq
  | cons b l ih =>
    refine ih (fun c hc => hl c (List.mem_cons_of_mem b hc)) ?_
    by_cases e : b.ix = a.ix
    · obtain rfl := hl b List.mem_cons_self e
      exact .inr (filter_moveRequest_self now n q b)
    · rwa [filter_moveRequest_ne _ _ _ _ (Ne.symm e)]

/-- An address without a request has none after some have moved. -/
theorem filter_moved_nil (now : Stamp) (n : Nat) {i : Fin 62} {l q : List Admission} (hl : ∀ b ∈ l, b.ix ≠ i) :
    ((l.foldl (moveRequest now n) q).filter fun b => b.ix = i) = q.filter fun b => b.ix = i := by
  induction l generalizing q with
  | nil => rfl
  | cons b l ih =>
    rw [List.foldl_cons, ih fun c hc => hl c (List.mem_cons_of_mem b hc),
      filter_moveRequest_ne _ _ _ _ (Ne.symm (hl b List.mem_cons_self))]

/-- The site with the priority of its request changed. -/
def Site.repriced (x : Site) (n : Nat) : Site := { x with requests := x.requests.map fun a => { a with priority := n } }

theorem Standing.repriced {d : Debt} {x : Site} (h : Standing d x) (n : Nat) : Standing d (x.repriced n) := by
  cases h with
  | free current tenure requests lit dark idle => exact .free current tenure (by rw [Site.repriced, requests]; rfl) lit dark idle
  | blocked u seat state requests lit dark =>
    exact .blocked u ⟨seat.mem, seat.only, seat.current⟩ state (by rw [Site.repriced, requests]; rfl) lit dark
  | waits u a seat state tenure requests task lit dark =>
    exact .waits u { a with priority := n } ⟨seat.mem, seat.only, seat.current⟩ state tenure
      (by rw [Site.repriced, requests]; rfl) task lit dark
  | shows u e seat state tenure requests lit task styles owner digits =>
    exact .shows u e ⟨seat.mem, seat.only, seat.current⟩ state tenure (by rw [Site.repriced, requests]; rfl) lit task
      styles owner digits
  | seat idle requests lit dark => exact .seat idle (by rw [Site.repriced, requests]; rfl) lit dark
  | glow idle requests lit form => exact .glow idle (by rw [Site.repriced, requests]; rfl) lit form
  | display e idle requests lit styles owner =>
    exact .display e idle (by rw [Site.repriced, requests]; rfl) lit styles owner
  | request a idle requests task lit dark =>
    exact .request { a with priority := n } idle (by rw [Site.repriced, requests]; rfl) task lit dark

theorem Standing.requests_cases {d : Debt} {x : Site} (h : Standing d x) : x.requests = [] ∨ ∃ a, x.requests = [a] := by
  cases h with
  | waits u a seat state tenure requests => exact .inr ⟨a, requests⟩
  | request a idle requests => exact .inr ⟨a, requests⟩
  | _ => exact .inl ‹_›

theorem stands_reprioritise (h : s.Stands owes) (g : Seg) (p : Fin 12) (n : Nat) :
    (s.reprioritise g p n).Stands owes := by
  unfold State.reprioritise
  simp only []
  split
  · exact h
  set l := (s.gov g).queue.filter (s.requestOf p) with hl
  set f : Governor → Governor := fun v => { v with queue := l.foldl (moveRequest s.time n) v.queue }
  have hmem : ∀ {r : SlotRef}, r.seg = g → ∀ b ∈ l, b.ix = r.ix → b ∈ (s.site r).requests := fun hg b hb hx =>
    mem_requests.mpr ⟨by rw [hg]; exact (List.mem_filter.mp hb).1, hx⟩
  have key : ∀ r, (s.updGov g f).site r = s.site r ∨ (s.updGov g f).site r = (s.site r).repriced n := fun r => by
    rw [site_updGov]
    split
    · next hg =>
      have mk : ∀ q, ((l.foldl (moveRequest s.time n) (s.gov g).queue).filter fun a => a.ix = r.ix) = q →
          ({ s.site r with requests := (f (s.gov g)).queue.filter fun a => a.ix = r.ix
                           lit := (f (s.gov g)).lit.filter fun e => e.ix = r.ix } : Site) = { s.site r with requests := q } :=
        fun q hq => by
          show ({ s.site r with requests := (l.foldl (moveRequest s.time n) (s.gov g).queue).filter fun a => a.ix = r.ix
                                lit := (s.gov g).lit.filter fun e => e.ix = r.ix } : Site) = _
          rw [hq, ← hg]; rfl
      have hreq : ((s.gov g).queue.filter fun a => a.ix = r.ix) = (s.site r).requests := by rw [site_requests, hg]
      rcases (h.standing r).requests_cases with hn | ⟨a, ha⟩
      · refine .inl ((mk _ (filter_moved_nil s.time n fun b hb hx => ?_)).trans ?_)
        · have := hmem hg b hb hx
          rw [hn] at this; cases this
        · rw [hreq]
      · have hax : a.ix = r.ix := (mem_requests.mp (by rw [ha]; exact List.mem_singleton.mpr rfl)).2
        rw [ha, ← hax] at hreq
        have hb : ∀ b ∈ l, b.ix = a.ix → b = a := fun b hb hx => by
          have := hmem hg b hb (hx.trans hax)
          rw [ha] at this
          exact List.mem_singleton.mp this
        rcases filter_moved s.time n hb (.inl hreq) with e | e
        · exact .inl ((mk [a] (by rw [← hax]; exact e)).trans (by rw [← ha]))
        · exact .inr ((mk [{ a with priority := n }] (by rw [← hax]; exact e)).trans (by rw [Site.repriced, ha]; rfl))
    · exact .inl rfl
  refine stands_settle (s := s.updGov g f) ⟨h.ids, fun r => ?_, fun r => ?_⟩ g
  · rcases key r with e | e <;> rw [e]
    · exact h.waiting r
    · exact (h.waiting r).congr rfl rfl
  · rcases key r with e | e <;> rw [e]
    · exact h.standing r
    · exact (h.standing r).repriced n

/-! ### Time and reset -/

theorem Segment.pass_slots (n : Nat) (x : Segment) : (x.pass n).slots = x.slots := by
  unfold Segment.pass Segment.passExchange Segment.passRaw
  simp only []
  cases x.line.inFlight <;> cases x.sup.raw <;> rfl

theorem Segment.pass_gov (n : Nat) (x : Segment) : (x.pass n).gov = x.gov := by
  unfold Segment.pass Segment.passExchange Segment.passRaw
  simp only []
  cases x.line.inFlight <;> cases x.sup.raw <;> rfl

/-- R26: a task as the time passes. -/
def State.passedTask (s : State) (n : Nat) (u : Task) : Task := u.pass n (s.segState u.slot.seg)

theorem site_passTime (s : State) {n : Nat} (hn : n ≠ 0) (r : SlotRef) :
    (s.passTime n).site r = { s.site r with tasks := (s.site r).tasks.map (s.passedTask n) } := by
  have hseg : ∀ g, (s.passTime n).seg g = (s.seg g).pass n := fun g => by
    unfold State.passTime; rw [if_neg hn]; simp [State.seg]
  have hsl : ∀ u, (s.passedTask n u).slot = u.slot := fun u => by
    unfold State.passedTask Task.pass; split <;> rfl
  refine Eq.trans ?_ (site_mapTasks s hsl r)
  refine site_congr ?_ (fun g => ?_) (fun g => ?_) (fun g => ?_) r
  · unfold State.passTime; rw [if_neg hn]; rfl
  · rw [hseg, Segment.pass_slots]; rfl
  · rw [hseg, Segment.pass_gov]; rfl
  · rw [hseg, Segment.pass_gov]; rfl

theorem stands_passTime (h : s.Stands settled) (n : Nat) : (s.passTime n).Stands settled := by
  by_cases hn : n = 0
  · rw [State.passTime, if_pos hn]; exact h
  have hid : ∀ u, (s.passedTask n u).id = u.id := fun u => by unfold State.passedTask Task.pass; split <;> rfl
  have hst : ∀ u, (s.passedTask n u).state = u.state := fun u => by unfold State.passedTask Task.pass; split <;> rfl
  have hstep : ∀ u, (s.passedTask n u).step = u.step := fun u => by unfold State.passedTask Task.pass; split <;> rfl
  have hdig : ∀ u, (s.passedTask n u).digits = u.digits := fun u => by
    unfold State.passedTask Task.pass; split <;> rfl
  refine ⟨distinctIds_of_map (s.passedTask n) hid ?_ h.ids, fun r => ?_, fun r => ?_⟩
  · unfold State.passTime; rw [if_neg hn]; rfl
  · rw [site_passTime s hn]
    exact (h.waiting r).map hid fun u _ => by rw [hst]
  · rw [site_passTime s hn]
    exact (h.standing r).map_same hid hst hstep hdig

/-- The site of a slot that holds nothing. -/
def Site.empty : Site :=
  { tasks := [], waiting := [], current := none, tenure := none, shadow := Shadow.dark 0, requests := [], lit := [] }

theorem Site.empty_waits : Site.empty.Waiting :=
  ⟨Nat.zero_le 8, List.nodup_nil, fun _ h => (nomatch h), fun _ h => (nomatch h)⟩

theorem Site.empty_stands : Standing .none Site.empty := .free rfl rfl rfl rfl rfl fun _ h => nomatch h

theorem seg_resetAll (s : State) (g : Seg) : s.resetAll.seg g = { Segment.reset with trip := (s.seg g).trip } := by
  simp [State.resetAll, State.seg]

theorem slot_resetAll (s : State) (r : SlotRef) : s.resetAll.slot r = Slot.reset := by
  rw [State.slot, seg_resetAll]; simp [Segment.reset]

theorem site_resetAll (s : State) (r : SlotRef) : s.resetAll.site r = Site.empty := by
  simp only [State.site, slot_resetAll, State.gov, seg_resetAll]
  rfl

theorem stands_resetAll (s : State) : s.resetAll.Stands settled := by
  refine ⟨List.nodup_nil, fun r => ?_, fun r => ?_⟩
  · rw [site_resetAll]; exact Site.empty_waits
  · rw [site_resetAll]; exact Site.empty_stands

end Sys2Proof.Machine
end

