-- ==== Sys2Proof/Proofs/Reset.lean ====
section
/-! PROOFS. What RESET leaves (R181). -/

namespace Sys2Proof.Machine

variable (s : State)

theorem exec_reset : exec .reset s = .next s.resetAll := rfl

theorem picker_resetAll (p : Fin 12) : s.resetAll.picker p = Picker.reset := by
  simp [State.picker, State.resetAll, State.reset]

theorem captures_resetAll (i : Fin 16) : s.resetAll.captures[i] = none := by
  simp [State.resetAll, State.reset]

theorem entries_resetAll (g : Seg) (ix : Fin 62) : (s.resetAll.seg g).entries[ix] = Entry.reset := by
  rw [seg_resetAll]; simp [Segment.reset]

theorem slots_resetAll (g : Seg) (ix : Fin 62) : (s.resetAll.seg g).slots[ix] = Slot.reset := by
  rw [seg_resetAll]; simp [Segment.reset]

/-- R181: a segment after a reset, its entries and slots apart. -/
theorem segment_resetAll (g : Seg) :
    (s.resetAll.seg g).sup = Supervisor.reset ∧ (s.resetAll.seg g).config = SegConfig.reset ∧
      (s.resetAll.seg g).counters = SegCounters.zero ∧ (s.resetAll.seg g).gov = Governor.reset ∧
      (s.resetAll.seg g).tracker = Tracker.fresh 48 ∧ (s.resetAll.seg g).line = LineCtl.reset ∧
      (s.resetAll.seg g).trip = (s.seg g).trip := by
  rw [seg_resetAll]; exact ⟨rfl, rfl, rfl, rfl, rfl, rfl, rfl⟩

/-- Settles O3: each field of the state that `resetAll` makes, by the lemmas about its blocks. -/
theorem resetLeavesResetValues : Obligations.ResetLeavesResetValues := by
  intro s
  refine ⟨s.resetAll, exec_reset s, rfl, picker_resetAll s, rfl, rfl, captures_resetAll s, rfl, rfl, rfl, rfl, rfl,
    fun g => ?_, rfl, rfl⟩
  obtain ⟨sup, config, counters, gov, tracker, line, trip⟩ := segment_resetAll s g
  exact ⟨sup, config, counters, gov, tracker, line, trip, fun ix => ⟨entries_resetAll s g ix, slots_resetAll s g ix⟩⟩

end Sys2Proof.Machine
end

