-- ==== Sys2Proof/Proofs/PickerChecks.lean ====
section
/-! PROOFS. The picker requests that change no slot: DROP_PICKER (R8), the checks of SET_PICKER (R3 to R6), and what a
request leaves that changes neither the link nor a segment. -/

namespace Sys2Proof.Machine

/-! ### Requests that leave the link and the segments -/

/-- A request whose rule leaves the link and the segments of a part at rest is answered, and nothing else follows. -/
theorem request_quiet {s u : State} {kind : Byte} {tag : Tag} {payload : List Byte} {rule : State → Answer}
    {status : Status} {data : List Byte} (hs : AtRest s) (hr : Reaches s ⟨kind, tag, payload⟩)
    (hp : payloadFits payload = true) (ha : rule s.begun = answer u status data) (hl : u.link = s.begun.link)
    (hg : u.segs = s.segs) :
    request kind tag payload rule s = .next (u.replied kind tag (status.code :: data) .nothing) :=
  request_done hr hp ha
    (by
      show ReplyNext u.link
      rw [hl]; exact replyNext_begun hs.link)
    (settleLines_of_settled fun g => by
      show LineSettled (u.seg g)
      rw [seg_of_segs hg]; exact hs.lines g)
    (fun h => nomatch h)

/-- A payload of the length that its kind calls for is judged by the kind's rule (R175). -/
theorem fixedRequest_of_length {kind : Byte} {n : Nat} {tag : Tag} {payload : List Byte} {rule : State → Answer} {s : State}
    (h : payload.length = n) : fixedRequest kind n tag payload rule s = request kind tag payload rule s := by
  have : lengthChecked n ⟨kind, tag, payload⟩ rule = rule := funext fun _ => if_pos h
  rw [fixedRequest, this]

section
variable (s : State)

@[simp] theorem begun_picker (p : Fin 12) : s.begun.picker p = s.picker p := rfl
@[simp] theorem begun_pickers : s.begun.pickers = s.pickers := rfl
@[simp] theorem begun_tasks : s.begun.tasks = s.tasks := rfl
@[simp] theorem begun_segs : s.begun.segs = s.segs := rfl
@[simp] theorem begun_time : s.begun.time = s.time := rfl
@[simp] theorem begun_captures : s.begun.captures = s.captures := rfl

end

/-! ### Payload fields -/

theorem fieldAt_byte (payload : List Byte) (i : Nat) (h : i < payload.length) : fieldAt payload i 1 = payload[i].toNat := by
  rw [fieldAt, List.drop_eq_getElem_cons h, List.take_succ_cons, List.take_zero]
  simp [leValue]

theorem byteOf_toNat {n : Nat} (h : n < 256) : (byteOf n).toNat = n := by
  simp [byteOf, Nat.mod_eq_of_lt h]

theorem pickerOf_byteOf (p : Fin 12) : pickerOf (byteOf p.val).toNat = some p := by
  rw [byteOf_toNat (by omega)]; simp [pickerOf]

theorem pickerOf_of_gt {b : Byte} (h : 11 < b.toNat) : pickerOf b.toNat = none := by
  rw [pickerOf, dif_neg (by omega)]

/-- The picker that a payload names in its first byte. -/
theorem pickerOf_head (p : Fin 12) (rest : List Byte) : pickerOf (fieldAt (byteOf p.val :: rest) 0 1) = some p := by
  rw [fieldAt_byte _ 0 (by simp)]; exact pickerOf_byteOf p

theorem pickerOf_head_of_gt {b : Byte} (h : 11 < b.toNat) (rest : List Byte) : pickerOf (fieldAt (b :: rest) 0 1) = none := by
  rw [fieldAt_byte _ 0 (by simp)]; exact pickerOf_of_gt h

/-! ### DROP_PICKER (R8) -/

theorem dropPickerRule_of_picker {p : Fin 12} {s : State} {rest : List Byte} :
    dropPickerRule (byteOf p.val :: rest) s =
      if (s.picker p).state = .absent then pickerAnswer s p .noSuchPicker
      else if 0 < (s.picker p).openCount then pickerAnswer s p .wrongState
      else pickerAnswer (s.updPicker p fun _ => Picker.reset) p .ok := by
  simp only [dropPickerRule, pickerOf_head]

theorem picker_updPicker_self (s : State) (p : Fin 12) (f : Picker → Picker) :
    (s.updPicker p f).picker p = f (s.picker p) := by
  simp [State.updPicker, State.picker]

/-- Settles O16: each case of `dropPickerRule` leaves the link and the segments, so it is answered at once. -/
theorem dropPicker : Obligations.DropPicker := by
  refine ⟨fun tag p s hs hr => ?_, fun tag b s hb hs hr => ?_⟩
  · have key : ∀ {u status data}, dropPickerRule [byteOf p.val] s.begun = answer u status data →
        u.link = s.begun.link → u.segs = s.segs →
        exec (.dropPicker tag [byteOf p.val]) s = .next (u.replied 0x13 tag (status.code :: data) .nothing) :=
      fun ha hl hg => (fixedRequest_of_length rfl).trans (request_quiet hs hr rfl ha hl hg)
    have rule := dropPickerRule_of_picker (p := p) (s := s.begun) (rest := [])
    simp only []
    by_cases ha : (s.begun.picker p).state = .absent
    · rw [if_pos ha] at rule
      exact (key rule rfl rfl).trans (congrArg _ (if_pos ha).symm)
    by_cases ho : 0 < (s.begun.picker p).openCount
    · rw [if_neg ha, if_pos ho] at rule
      exact (key rule rfl rfl).trans (congrArg _ ((if_neg ha).trans (if_pos ho)).symm)
    · rw [if_neg ha, if_neg ho] at rule
      refine (key rule rfl rfl).trans (congrArg _ (Eq.trans ?_ ((if_neg ha).trans (if_neg ho)).symm))
      rw [picker_updPicker_self]; rfl
  · have rule : dropPickerRule [b] s.begun = answer s.begun .badValue (zeros 8) := by
      simp only [dropPickerRule, pickerOf_head_of_gt hb]
    exact (fixedRequest_of_length rfl).trans (request_quiet hs hr rfl rule rfl rfl)

/-! ### The checks of SET_PICKER (R3 to R6) -/

/-- R3: the colour field: a given one is 1 to 7, an absent one keeps the record's, which a registration has not. -/
def colourField (x : Picker) (mask colour : Byte) : Option (Fin 8) :=
  if mask.getLsbD 0 then givenColour colour.toNat else if x.state = .absent then none else some x.colour

/-- R3: the pattern field. -/
def patternField (x : Picker) (mask pattern : Byte) : Option Pattern :=
  if mask.getLsbD 1 then patternOf pattern.toNat else if x.state = .absent then none else some x.pattern

/-- R3: the quota field. -/
def quotaField (x : Picker) (mask quota : Byte) : Option Nat :=
  if mask.getLsbD 4 then if quota.toNat = 0 then none else some quota.toNat else some x.quota

/-- R3: the level a SET_PICKER results in. -/
def levelField (x : Picker) (mask level : Byte) : Nat :=
  if mask.getLsbD 2 then max 1 (min 16 level.toNat) else x.level

/-- R3: the priority a SET_PICKER results in. -/
def priorityField (x : Picker) (mask priority : Byte) : Nat :=
  if mask.getLsbD 3 then min 3 priority.toNat else x.priority

section
variable {x : Picker} {mask colour pattern quota : Byte}

/-- R3: a field that fails its check is a BAD_VALUE. -/
theorem pickerValues_none (level priority : Byte)
    (h : 32 ≤ mask.toNat ∨ colourField x mask colour = none ∨ patternField x mask pattern = none ∨
      quotaField x mask quota = none) :
    pickerValues x mask.toNat colour.toNat pattern.toNat level.toNat priority.toNat quota.toNat = none := by
  unfold colourField patternField quotaField at h
  simp only [pickerValues, BitVec.testBit_toNat, decide_eq_true_eq]
  split
  · rfl
  · next hm =>
    split
    · next c pt q hc hp hq =>
      rw [hc, hp, hq] at h
      simp [hm] at h
    · rfl

/-- R3: the values that fields in order result in. -/
theorem pickerValues_some (level priority : Byte) {c : Fin 8} {pt : Pattern} {q : Nat} (hm : mask.toNat < 32)
    (hc : colourField x mask colour = some c) (hp : patternField x mask pattern = some pt)
    (hq : quotaField x mask quota = some q) :
    pickerValues x mask.toNat colour.toNat pattern.toNat level.toNat priority.toNat quota.toNat =
      some ⟨c, pt, levelField x mask level, priorityField x mask priority, q⟩ := by
  unfold colourField at hc
  unfold patternField at hp
  unfold quotaField at hq
  simp only [pickerValues, levelField, priorityField, BitVec.testBit_toNat, decide_eq_true_eq]
  rw [if_neg (by omega), hc, hp, hq]

end

theorem givenColour_none {n : Nat} (h : ¬(1 ≤ n ∧ n ≤ 7)) : givenColour n = none := dif_neg (by omega)

theorem givenColour_some {n : Nat} {c : Fin 8} (h : n = c.val) (h1 : 1 ≤ n) : givenColour n = some c := by
  subst h; exact dif_pos ⟨h1, c.isLt⟩

theorem patternOf_none {n : Nat} (h : 2 < n) : patternOf n = none := by
  match n, h with
  | n + 3, _ => rfl

theorem patternOf_code (pt : Pattern) : patternOf pt.code.toNat = some pt := by cases pt <;> rfl

theorem colourField_given {x : Picker} {mask colour : Byte} (hb : mask.getLsbD 0 = true) {c : Fin 8}
    (h : colour.toNat = c.val) (h1 : 1 ≤ colour.toNat) : colourField x mask colour = some c := by
  rw [colourField, if_pos hb, givenColour_some h h1]

theorem colourField_kept {x : Picker} {mask : Byte} (hb : ¬mask.getLsbD 0 = true) (ha : x.state ≠ .absent) (colour : Byte) :
    colourField x mask colour = some x.colour := by
  rw [colourField, if_neg hb, if_neg ha]

theorem patternField_given {x : Picker} {mask pattern : Byte} (hb : mask.getLsbD 1 = true) {pt : Pattern}
    (h : pattern = pt.code) : patternField x mask pattern = some pt := by
  rw [patternField, if_pos hb, h, patternOf_code]

theorem patternField_kept {x : Picker} {mask : Byte} (hb : ¬mask.getLsbD 1 = true) (ha : x.state ≠ .absent)
    (pattern : Byte) : patternField x mask pattern = some x.pattern := by
  rw [patternField, if_neg hb, if_neg ha]

theorem quotaField_given {x : Picker} {mask quota : Byte} (hb : mask.getLsbD 4 = true) (h : quota.toNat ≠ 0) :
    quotaField x mask quota = some quota.toNat := by
  rw [quotaField, if_pos hb, if_neg h]

theorem quotaField_kept {x : Picker} {mask : Byte} (hb : ¬mask.getLsbD 4 = true) (quota : Byte) :
    quotaField x mask quota = some x.quota := by
  rw [quotaField, if_neg hb]

/-- R6: the picker of a WAIT_LOAD, SHOWN or BLOCKED task. -/
theorem holdsCurrent_iff {s : State} {p : Fin 12} : s.holdsCurrent p = true ↔ s.holdsSlot p := by
  have hc : ∀ t : Task, t.state.isCurrent = true ↔ t.state = .waitLoad ∨ t.state = .shown ∨ t.state = .blocked := fun t => by
    cases t.state <;> simp [TaskState.isCurrent]
  simp [State.holdsCurrent, State.holdsSlot, hc]

/-- R5: the style that another picker holds. -/
theorem styleTaken_iff {s : State} {p : Fin 12} {v : PickerValues} :
    s.styleTaken p v = true ↔ s.styleElsewhere p v.colour v.pattern := by
  simp [State.styleTaken, State.styleElsewhere, and_assoc]

theorem restyles_iff {x : Picker} {v : PickerValues} :
    restyles x v = true ↔ v.colour ≠ x.colour ∨ v.pattern ≠ x.pattern ∨ v.level ≠ x.level := by
  simp [restyles, or_assoc]

/-- The payload of a SET_PICKER of picker `p`. -/
def setPickerPayload (p : Fin 12) (mask colour pattern level priority quota : Byte) : List Byte :=
  [byteOf p.val, mask, colour, pattern, level, priority, quota]

section
variable {p : Fin 12} {mask colour pattern level priority quota : Byte} {s : State}

/-- R3: a SET_PICKER whose values are bad. -/
theorem setPickerRule_bad
    (h : pickerValues (s.picker p) mask.toNat colour.toNat pattern.toNat level.toNat priority.toNat quota.toNat = none) :
    setPickerRule (setPickerPayload p mask colour pattern level priority quota) s = pickerAnswer s p .badValue := by
  unfold setPickerRule
  rw [setPickerPayload, pickerOf_head]
  simp only [fieldAt_byte _ _ (show 1 < [byteOf p.val, mask, colour, pattern, level, priority, quota].length by simp),
    fieldAt_byte _ _ (show 2 < [byteOf p.val, mask, colour, pattern, level, priority, quota].length by simp),
    fieldAt_byte _ _ (show 3 < [byteOf p.val, mask, colour, pattern, level, priority, quota].length by simp),
    fieldAt_byte _ _ (show 4 < [byteOf p.val, mask, colour, pattern, level, priority, quota].length by simp),
    fieldAt_byte _ _ (show 5 < [byteOf p.val, mask, colour, pattern, level, priority, quota].length by simp),
    fieldAt_byte _ _ (show 6 < [byteOf p.val, mask, colour, pattern, level, priority, quota].length by simp),
    List.getElem_cons_succ, List.getElem_cons_zero, h]

/-- R4 to R7: a SET_PICKER whose values are good. -/
theorem setPickerRule_good {v : PickerValues}
    (h : pickerValues (s.picker p) mask.toNat colour.toNat pattern.toNat level.toNat priority.toNat quota.toNat = some v) :
    setPickerRule (setPickerPayload p mask colour pattern level priority quota) s =
      if restyles (s.picker p) v ∧ s.holdsCurrent p then pickerAnswer s p .wrongState
      else if s.styleTaken p v then pickerAnswer s p .styleInUse
      else if v.quota < (s.picker p).openCount then pickerAnswer s p .quotaBelowOpen
      else pickerAnswer ((s.updPicker p fun y => y.take v).handPriority p (s.picker p).priority v.priority) p .ok := by
  unfold setPickerRule
  rw [setPickerPayload, pickerOf_head]
  simp only [fieldAt_byte _ _ (show 1 < [byteOf p.val, mask, colour, pattern, level, priority, quota].length by simp),
    fieldAt_byte _ _ (show 2 < [byteOf p.val, mask, colour, pattern, level, priority, quota].length by simp),
    fieldAt_byte _ _ (show 3 < [byteOf p.val, mask, colour, pattern, level, priority, quota].length by simp),
    fieldAt_byte _ _ (show 4 < [byteOf p.val, mask, colour, pattern, level, priority, quota].length by simp),
    fieldAt_byte _ _ (show 5 < [byteOf p.val, mask, colour, pattern, level, priority, quota].length by simp),
    fieldAt_byte _ _ (show 6 < [byteOf p.val, mask, colour, pattern, level, priority, quota].length by simp),
    List.getElem_cons_succ, List.getElem_cons_zero, h]

/-- A SET_PICKER that its rule refuses. -/
theorem setPicker_refused {tag : Tag} {status : Status} (hs : AtRest s)
    (hr : Reaches s ⟨0x10, tag, setPickerPayload p mask colour pattern level priority quota⟩)
    (h : setPickerRule (setPickerPayload p mask colour pattern level priority quota) s.begun =
      pickerAnswer s.begun p status) :
    exec (.setPicker tag (setPickerPayload p mask colour pattern level priority quota)) s =
      .next (s.begun.replied 0x10 tag (status.code :: pickerRecord p (s.picker p)) .nothing) :=
  (fixedRequest_of_length rfl).trans (request_quiet hs hr rfl h rfl rfl)

end

/-- Settles O15: the value checks field by field, and then `setPickerRule_good` with its conditions as the statement
words them. -/
theorem setPickerRefusalsInOrder : Obligations.SetPickerRefusalsInOrder := by
  refine ⟨fun tag p mask colour pattern level priority quota s => ?_, fun tag b mask colour pattern level priority quota s => ?_⟩
  · intro payload x refused hs hr bad
    refine ⟨fun hbad => ?_, ?_⟩
    · refine setPicker_refused (status := .badValue) hs hr (setPickerRule_bad (pickerValues_none level priority ?_))
      rcases hbad with h | ⟨hb, h⟩ | ⟨hb, h⟩ | ⟨hb, h⟩ | ⟨ha, h⟩
      · exact .inl h
      · exact .inr (.inl (by rw [colourField, if_pos hb, givenColour_none h]))
      · exact .inr (.inr (.inl (by rw [patternField, if_pos hb, patternOf_none h])))
      · exact .inr (.inr (.inr (by rw [quotaField, if_pos hb, if_pos (by rw [h]; rfl)])))
      · have ha : (s.begun.picker p).state = .absent := ha
        by_cases h0 : mask.getLsbD 0 = true
        · have h1 : ¬mask.getLsbD 1 = true := fun h1 => h ⟨h0, h1⟩
          exact .inr (.inr (.inl (by rw [patternField, if_neg h1, if_pos ha])))
        · exact .inr (.inl (by rw [colourField, if_neg h0, if_pos ha]))
    · intro c pt q hbad hc hp hq restyled
      obtain ⟨hm, hcb, -, hqb, hab⟩ : ¬32 ≤ mask.toNat ∧ ¬(mask.getLsbD 0 = true ∧ ¬(1 ≤ colour.toNat ∧ colour.toNat ≤ 7)) ∧
          ¬(mask.getLsbD 1 = true ∧ 2 < pattern.toNat) ∧ ¬(mask.getLsbD 4 = true ∧ quota = 0) ∧
          ¬(x.state = .absent ∧ ¬(mask.getLsbD 0 = true ∧ mask.getLsbD 1 = true)) := by
        simpa only [bad, not_or] using hbad
      have colours : colourField (s.begun.picker p) mask colour = some c := by
        by_cases h0 : mask.getLsbD 0 = true
        · rw [if_pos h0] at hc
          exact colourField_given h0 hc (by by_contra h1; exact hcb ⟨h0, fun h => h1 h.1⟩)
        · rw [if_neg h0] at hc
          rw [hc]; exact colourField_kept h0 (fun ha => hab ⟨ha, fun h => h0 h.1⟩) colour
      have patterns : patternField (s.begun.picker p) mask pattern = some pt := by
        by_cases h1 : mask.getLsbD 1 = true
        · rw [if_pos h1] at hp; exact patternField_given h1 hp
        · rw [if_neg h1] at hp
          rw [hp]; exact patternField_kept h1 (fun ha => hab ⟨ha, fun h => h1 h.2⟩) pattern
      have quotas : quotaField (s.begun.picker p) mask quota = some q := by
        by_cases h4 : mask.getLsbD 4 = true
        · rw [if_pos h4] at hq
          rw [hq]; exact quotaField_given h4 fun h => hqb ⟨h4, BitVec.eq_of_toNat_eq h⟩
        · rw [if_neg h4] at hq
          rw [hq]; exact quotaField_kept h4 quota
      have rule := setPickerRule_good (s := s.begun) (pickerValues_some level priority (by omega) colours patterns quotas)
      set v : PickerValues := ⟨c, pt, levelField (s.begun.picker p) mask level, priorityField (s.begun.picker p) mask priority, q⟩
      have hold : (restyles (s.begun.picker p) v = true ∧ s.begun.holdsCurrent p = true) ↔ (restyled ∧ s.holdsSlot p) := by
        refine and_congr (restyles_iff.trans (or_congr Iff.rfl (or_congr Iff.rfl ?_))) holdsCurrent_iff
        show levelField x mask level ≠ x.level ↔ _
        unfold levelField
        split <;> simp_all
      have style : s.begun.styleTaken p v = true ↔ s.styleElsewhere p c pt := styleTaken_iff
      refine ⟨fun h => ?_, fun h h2 => ?_, fun h h2 h3 => ?_⟩
      · rw [if_pos (hold.mpr h)] at rule
        exact setPicker_refused (status := .wrongState) hs hr rule
      · rw [if_neg (mt hold.mp h), if_pos (style.mpr h2)] at rule
        exact setPicker_refused (status := .styleInUse) hs hr rule
      · rw [if_neg (mt hold.mp h), if_neg (mt style.mp h2), if_pos (show v.quota < (s.begun.picker p).openCount from h3)] at rule
        exact setPicker_refused (status := .quotaBelowOpen) hs hr rule
  · intro payload hb hs hr
    have rule : setPickerRule payload s.begun = answer s.begun .badValue (zeros 8) := by
      simp only [setPickerRule, payload, pickerOf_head_of_gt hb]
    exact (fixedRequest_of_length rfl).trans (request_quiet hs hr rfl rule rfl rfl)

end Sys2Proof.Machine
end

