-- ==== Sys2Proof/Proofs/Rails.lean ====
section
/-! PROOFS. What the governor and the slot arbiter leave as it is: the captures, the supervisors, the directory and the
lines but for their display commands, of which they keep one for an address (R58, R139). -/

namespace Sys2Proof.Machine

/-- What the governor and the arbiter leave. -/
structure Rails where
  captures : Vector (Option Capture) 16
  sup : Seg → Supervisor
  entries : Seg → Vector Entry 62
  line : Seg → LineCtl
  /-- the display commands of a line name distinct addresses (R139) -/
  distinct : Seg → Prop

def State.rails (s : State) : Rails :=
  { captures := s.captures, sup := fun g => (s.seg g).sup, entries := fun g => (s.seg g).entries
    line := fun g => { (s.seg g).line with displays := [] }
    distinct := fun g => ((s.seg g).line.displays.map DisplayCmd.ix).Nodup }

section
variable (s : State)

/-- A change of a segment that leaves its supervisor, its entries and its line. -/
theorem rails_updSeg (g : Seg) {f : Segment → Segment} (hs : ∀ x, (f x).sup = x.sup) (he : ∀ x, (f x).entries = x.entries)
    (hl : ∀ x, (f x).line = x.line) : (s.updSeg g f).rails = s.rails := by
  have h : ∀ h, ((s.updSeg g f).seg h).sup = (s.seg h).sup ∧ ((s.updSeg g f).seg h).entries = (s.seg h).entries ∧
      ((s.updSeg g f).seg h).line = (s.seg h).line := fun h => by
    rw [State.seg_updSeg]; split
    · next e => rw [e, hs, he, hl]; exact ⟨rfl, rfl, rfl⟩
    · exact ⟨rfl, rfl, rfl⟩
  simp only [State.rails, h, State.updSeg_captures]

@[simp] theorem rails_updGov (g : Seg) (f : Governor → Governor) : (s.updGov g f).rails = s.rails :=
  rails_updSeg s g (fun _ => rfl) (fun _ => rfl) fun _ => rfl

@[simp] theorem rails_count (g : Seg) (f : SegCounters → SegCounters) : (s.count g f).rails = s.rails :=
  rails_updSeg s g (fun _ => rfl) (fun _ => rfl) fun _ => rfl

@[simp] theorem rails_updSlot (r : SlotRef) (f : Slot → Slot) : (s.updSlot r f).rails = s.rails :=
  rails_updSeg s r.seg (fun _ => rfl) (fun _ => rfl) fun _ => rfl

@[simp] theorem rails_updShadow (r : SlotRef) (f : Shadow → Shadow) : (s.updShadow r f).rails = s.rails :=
  rails_updSlot s r _

@[simp] theorem rails_setBaseLoad (g : Seg) : (s.setBaseLoad g).rails = s.rails :=
  rails_updSeg s g (fun _ => rfl) (fun _ => rfl) fun _ => rfl

@[simp] theorem rails_updTask (id : TaskId) (f : Task → Task) : (s.updTask id f).rails = s.rails := rfl

@[simp] theorem rails_updPicker (p : Fin 12) (f : Picker → Picker) : (s.updPicker p f).rails = s.rails := rfl

@[simp] theorem rails_updLink (f : Link → Link) : (s.updLink f).rails = s.rails := rfl

theorem rails_congr {s t : State} (hc : t.captures = s.captures) (hs : t.segs = s.segs) : t.rails = s.rails := by
  simp only [State.rails, hc, seg_of_segs hs]

@[simp] theorem rails_notify (b : NoticeBody) : (s.notify b).rails = s.rails :=
  rails_congr (s.notify_captures b) (s.notify_segs b)

@[simp] theorem rails_notifyDone (n : Nat) (b : NoticeBody) : (s.notifyDone n b).rails = s.rails :=
  rails_congr (s.notifyDone_captures n b) (s.notifyDone_segs n b)

/-- A fold of steps that each leave the rails leaves them too. -/
theorem rails_foldl {α : Type} (f : State → α → State) (h : ∀ s a, (f s a).rails = s.rails) (l : List α) (s : State) :
    (l.foldl f s).rails = s.rails := by
  induction l generalizing s with
  | nil => rfl
  | cons a l ih => rw [List.foldl_cons, ih, h]

/-! ### The display command queue (R58, R139) -/

/-- A change of a line's display commands that keeps whether they name distinct addresses. -/
theorem rails_updLine (g : Seg) {f : LineCtl → LineCtl} (hf : ∀ l, { f l with displays := [] } = { l with displays := [] })
    (hd : ((f (s.seg g).line).displays.map DisplayCmd.ix).Nodup ↔ ((s.seg g).line.displays.map DisplayCmd.ix).Nodup) :
    (s.updLine g f).rails = s.rails := by
  have h : ∀ h, ((s.updLine g f).seg h).sup = (s.seg h).sup ∧ ((s.updLine g f).seg h).entries = (s.seg h).entries ∧
      { ((s.updLine g f).seg h).line with displays := [] } = { (s.seg h).line with displays := [] } ∧
      ((((s.updLine g f).seg h).line.displays.map DisplayCmd.ix).Nodup =
        ((s.seg h).line.displays.map DisplayCmd.ix).Nodup) := fun h => by
    rw [State.seg_updLine]; split
    · next e => subst e; exact ⟨rfl, rfl, hf _, propext hd⟩
    · exact ⟨rfl, rfl, rfl, rfl⟩
  simp only [State.rails, h, State.updLine_captures]

@[simp] theorem rails_mergeDisplay (r : SlotRef) (k : DisplayKind) : (s.mergeDisplay r k).rails = s.rails := by
  refine rails_updLine s r.seg (fun _ => rfl) ?_
  rw [List.map_map]
  have : (DisplayCmd.ix ∘ fun c : DisplayCmd =>
      if c.ix = r.ix then { c with kind := mergeKind (s.shadow r).owner.isNone c.kind k } else c) = DisplayCmd.ix := by
    funext c; simp only [Function.comp]; split <;> rfl
  rw [this]

theorem rails_appendDisplay {r : SlotRef} (h : s.displayQueued r = false) (k : DisplayKind) :
    (s.appendDisplay r k).rails = s.rails := by
  refine rails_updLine s r.seg (fun _ => rfl) ?_
  have hn : r.ix ∉ (s.seg r.seg).line.displays.map DisplayCmd.ix := fun hm => by
    obtain ⟨c, hc, e⟩ := List.mem_map.mp hm
    have := List.any_eq_false.mp h c hc
    simp [e] at this
  rw [List.map_append, List.nodup_append]
  simp only [List.map_cons, List.map_nil, List.nodup_singleton, List.mem_singleton, true_and, ne_eq, forall_eq]
  exact ⟨fun e => e.1, fun e => ⟨e, fun a ha hr => hn (hr ▸ ha)⟩⟩

@[simp] theorem rails_queueDisplay (r : SlotRef) (k : DisplayKind) : (s.queueDisplay r k).rails = s.rails := by
  unfold State.queueDisplay; split
  · simp
  · next h => exact rails_appendDisplay s (by simpa using h) k

@[simp] theorem rails_handDisplay (r : SlotRef) (k : DisplayKind) : (s.handDisplay r k).rails = s.rails := by
  unfold State.handDisplay State.joinDisplay; simp only []; repeat' split
  all_goals simp

@[simp] theorem rails_darken (r : SlotRef) : (s.darken r).rails = s.rails := by
  unfold State.darken; split <;> simp

@[simp] theorem rails_clearShadow (r : SlotRef) : (s.clearShadow r).rails = s.rails := by
  unfold State.clearShadow; simp only []; repeat' split
  all_goals simp

@[simp] theorem rails_ownShadow (r : SlotRef) (t : Task) (p : Picker) (rot : Fin 8) (l : Nat) :
    (s.ownShadow r t p rot l).rails = s.rails := by
  simp [State.ownShadow]

@[simp] theorem rails_stepShadow (r : SlotRef) (t : Task) : (s.stepShadow r t).rails = s.rails := by simp [State.stepShadow]

@[simp] theorem rails_redigitShadow (r : SlotRef) (q : Nat) : (s.redigitShadow r q).rails = s.rails := by
  simp [State.redigitShadow]

@[simp] theorem rails_restyleShadow (r : SlotRef) (l : Nat) : (s.restyleShadow r l).rails = s.rails := by
  simp [State.restyleShadow]

/-! ### The governor -/

@[simp] theorem rails_recompute (g : Seg) : (s.recompute g).rails = s.rails := rails_updGov s g _

@[simp] theorem rails_place (r : SlotRef) (t : Task) (x : Stamp) : (s.place r t x).rails = s.rails := rails_updGov s r.seg _

@[simp] theorem rails_withdraw (r : SlotRef) : (s.withdraw r).rails = s.rails := rails_updGov s r.seg _

@[simp] theorem rails_unlight (r : SlotRef) : (s.unlight r).rails = s.rails := by simp [State.unlight]

@[simp] theorem rails_relevel (g : Seg) (f : LitEntry → Nat) : (s.relevel g f).rails = s.rails := by
  refine (rails_foldl (fun acc (e : LitEntry) => acc.restyleShadow ⟨g, e.ix⟩ (f e)) (fun s e => ?_) _ _).trans ?_
  · exact rails_restyleShadow s _ _
  · simp

@[simp] theorem rails_enterEconomy (g : Seg) : (s.enterEconomy g).rails = s.rails := by simp [State.enterEconomy]

@[simp] theorem rails_exitCheck (g : Seg) : (s.exitCheck g).rails = s.rails := by
  unfold State.exitCheck; split <;> simp

@[simp] theorem rails_admitHead (g : Seg) (a : Admission) (t : Task) : (s.admitHead g a t).rails = s.rails := by
  simp [State.admitHead]

@[simp] theorem rails_stopAtHead (g : Seg) (a : Admission) : (s.stopAtHead g a).rails = s.rails := by
  unfold State.stopAtHead; split <;> simp

@[simp] theorem rails_attemptLoop (g : Seg) (n : Nat) (s : State) : (s.attemptLoop g n).rails = s.rails := by
  induction n generalizing s with
  | zero => rfl
  | succ n ih =>
    simp only [State.attemptLoop]
    repeat' split
    all_goals simp [ih]

@[simp] theorem rails_settle (g : Seg) : (s.settle g).rails = s.rails := by simp [State.settle, State.attempt]

@[simp] theorem rails_shedOne (g : Seg) : (s.shedOne g).rails = s.rails := by
  unfold State.shedOne; simp only []; repeat' split
  all_goals simp

@[simp] theorem rails_shedLoop (g : Seg) (n : Nat) (s : State) : (s.shedLoop g n).rails = s.rails := by
  induction n generalizing s with
  | zero => rfl
  | succ n ih => simp only [State.shedLoop]; split <;> simp [ih]

@[simp] theorem rails_resolveExcess (g : Seg) : (s.resolveExcess g).rails = s.rails := by
  unfold State.resolveExcess; simp only []; repeat' split
  all_goals simp

@[simp] theorem rails_loadChange (g : Seg) : (s.loadChange g).rails = s.rails := by simp [State.loadChange]

@[simp] theorem rails_baseChange (g : Seg) : (s.baseChange g).rails = s.rails := by simp [State.baseChange]

@[simp] theorem rails_reprioritise (g : Seg) (p : Fin 12) (n : Nat) : (s.reprioritise g p n).rails = s.rails := by
  unfold State.reprioritise; simp only []; split <;> simp

@[simp] theorem rails_handPriority (p : Fin 12) (b n : Nat) : (s.handPriority p b n).rails = s.rails := by
  unfold State.handPriority; split
  · rfl
  · exact rails_foldl (fun acc g => acc.reprioritise g p n) (fun s g => rails_reprioritise s g p n) _ _

@[simp] theorem rails_restGovernor (g : Seg) : (s.restGovernor g).rails = s.rails := by
  unfold State.restGovernor; simp only []; split <;> simp

/-! ### The arbiter -/

@[simp] theorem rails_setCurrent (r : SlotRef) (id : TaskId) (x : Option Stamp) : (s.setCurrent r id x).rails = s.rails :=
  rails_updSlot s r _

@[simp] theorem rails_clearCurrent (r : SlotRef) : (s.clearCurrent r).rails = s.rails := rails_updSlot s r _

@[simp] theorem rails_leaveWaiting (r : SlotRef) (id : TaskId) : (s.leaveWaiting r id).rails = s.rails :=
  rails_updSlot s r _

@[simp] theorem rails_setTaskState (id : TaskId) (st : TaskState) : (s.setTaskState id st).rails = s.rails := rfl

@[simp] theorem rails_select (r : SlotRef) : (s.select r).rails = s.rails := by
  unfold State.select; repeat' split
  all_goals simp [State.placeAndSettle]

@[simp] theorem rails_selectAll (rs : List SlotRef) : (s.selectAll rs).rails = s.rails :=
  rails_foldl _ (fun s r => rails_select s r) rs s

@[simp] theorem rails_blockTask (r : SlotRef) (t : Task) (c : SlotCause) : (s.blockTask r t c).rails = s.rails := by
  simp [State.blockTask]

@[simp] theorem rails_loseService (r : SlotRef) (c : SlotCause) : (s.loseService r c).rails = s.rails := by
  unfold State.loseService; repeat' split
  all_goals simp

@[simp] theorem rails_loseServiceWithSegment (r : SlotRef) : (s.loseServiceWithSegment r).rails = s.rails := by
  unfold State.loseServiceWithSegment; simp only []; repeat' split
  all_goals simp

@[simp] theorem rails_endService (g : Seg) : (s.endService g).rails = s.rails := by
  unfold State.endService
  rw [rails_restGovernor, rails_foldl _ fun s r => rails_loseServiceWithSegment s r]

@[simp] theorem rails_regainService (r : SlotRef) : (s.regainService r).rails = s.rails := by
  unfold State.regainService; repeat' split
  all_goals simp [State.placeAndSettle]

@[simp] theorem rails_reevaluate (r : SlotRef) : (s.reevaluate r).rails = s.rails := by
  unfold State.reevaluate; simp only []; repeat' split
  all_goals simp

@[simp] theorem rails_endTask (t : Task) (k : EndKind) (n : Nat) : (s.endTask t k n).rails = s.rails := by
  simp [State.endTask, State.endEntry, State.release]

@[simp] theorem rails_yieldSlot (t : Task) : (s.yieldSlot t).rails = s.rails := by
  unfold State.yieldSlot; simp only []; split <;> simp [State.release, State.withdrawAndSettle]

/-! ### Presses -/

@[simp] theorem rails_lowerQuantity (r : SlotRef) (t : Task) (n : Nat) : (s.lowerQuantity r t n).rails = s.rails := by
  unfold State.lowerQuantity; simp only []; split <;> simp [State.countAtFloor]

@[simp] theorem rails_advanceStep (r : SlotRef) (t : Task) : (s.advanceStep r t).rails = s.rails := by
  simp [State.advanceStep]

/-! ### Requests -/

@[simp] theorem rails_acceptTask (t : Task) : (s.acceptTask t).rails = s.rails := by
  simp only [State.acceptTask, rails_updSlot]
  rfl

@[simp] theorem rails_dropTask (t : Task) : (s.dropTask t).rails = s.rails := rfl

@[simp] theorem rails_cancelTask (t : Task) : (s.cancelTask t).rails = s.rails := by
  unfold State.cancelTask State.vacatePlace; simp only []; split <;> simp [State.release, State.withdrawAndSettle]

end

end Sys2Proof.Machine
end

