-- ==== Sys2Proof/Proofs/Does.lean ====
section
/-! PROOFS. What O59 asks of a step, as a relation of the states before and after: it holds of each update that the blocks
make, and of one after another. -/

namespace Sys2Proof.Machine

/-! ### Two relations -/

/-- The tables, the arbiter, the directory and the lines stay sound, each for itself. -/
structure Guards (s t : State) : Prop where
  table : TableSound s → TableSound t
  config : ConfigSound s → ConfigSound t
  stands : s.Stands settled → t.Stands settled
  directory : DirectorySound s → DirectorySound t
  queues : (∀ g, QueuesSound (s.seg g).line) → ∀ g, QueuesSound (t.seg g).line
  rotation : (∀ g, RotationSound (s.seg g)) → ∀ g, RotationSound (t.seg g)

theorem Guards.refl (s : State) : Guards s s := ⟨id, id, id, id, id, id⟩

theorem Guards.trans {s t u : State} (h : Guards s t) (k : Guards t u) : Guards s u :=
  ⟨k.table ∘ h.table, k.config ∘ h.config, k.stands ∘ h.stands, k.directory ∘ h.directory, k.queues ∘ h.queues,
    k.rotation ∘ h.rotation⟩

/-- What a block below the link does: it leaves the request and the reply list, and queues notices only where they have
room. -/
structure Does (s t : State) : Prop extends Guards s t where
  requests : t.link.requests = s.link.requests
  replies : t.link.replies = s.link.replies
  notices : s.link.notices.length ≤ Config.noticeQueueSize → t.link.notices.length ≤ Config.noticeQueueSize

theorem Does.refl (s : State) : Does s s := ⟨Guards.refl s, rfl, rfl, id⟩

theorem Does.trans {s t u : State} (h : Does s t) (k : Does t u) : Does s u :=
  ⟨h.toGuards.trans k.toGuards, k.requests.trans h.requests, k.replies.trans h.replies, k.notices ∘ h.notices⟩

/-- What a step does: as before, with the lists of the link within their room. -/
structure Keeps (s t : State) : Prop extends Guards s t where
  link : LinkBounded s.link → LinkBounded t.link

theorem Keeps.refl (s : State) : Keeps s s := ⟨Guards.refl s, id⟩

theorem Keeps.trans {s t u : State} (h : Keeps s t) (k : Keeps t u) : Keeps s u :=
  ⟨h.toGuards.trans k.toGuards, k.link ∘ h.link⟩

theorem Does.keeps {s t : State} (h : Does s t) : Keeps s t :=
  ⟨h.toGuards, fun hl => ⟨h.requests ▸ hl.requests, h.replies ▸ hl.replies, h.notices hl.notices⟩⟩

theorem Does.foldl {α : Type} {f : State → α → State} (l : List α) (h : ∀ s, ∀ a ∈ l, Does s (f s a)) (s : State) :
    Does s (l.foldl f s) := by
  induction l generalizing s with
  | nil => exact Does.refl s
  | cons a l ih => exact (h s a List.mem_cons_self).trans (ih (fun s b hb => h s b (List.mem_cons_of_mem a hb)) _)

/-! ### What is kept -/

section
variable {s t : State}

theorem requests_of_kept (h : t.kept = s.kept) : t.link.requests = s.link.requests :=
  congrArg (fun k : Kept => k.untouched.link.requests) h

theorem replies_of_kept (h : t.kept = s.kept) : t.link.replies = s.link.replies :=
  congrArg (fun k : Kept => k.untouched.link.replies) h

theorem pickers_of_untouched (h : t.untouched = s.untouched) : t.pickers = s.pickers := congrArg Untouched.pickers h

theorem notices_of_kept (h : t.kept = s.kept) (hn : s.link.notices.length ≤ Config.noticeQueueSize) :
    t.link.notices.length ≤ Config.noticeQueueSize := by
  have e : t.link.notices.length.ble Config.noticeQueueSize = s.link.notices.length.ble Config.noticeQueueSize :=
    congrArg Kept.bounded h
  exact Nat.le_of_ble_eq_true (e.trans (Nat.ble_eq_true_of_le hn))

/-- What the task table keeps of a task is fixed at SUBMIT. -/
theorem tasksSound_of_fixed {ts us : List Task} (h : us.map Task.fixed = ts.map Task.fixed) (hs : TasksSound ts) :
    TasksSound us := by
  have mem : ∀ {u}, u ∈ us → ∃ v ∈ ts, v.fixed = u.fixed := fun {u} hu => by
    have : u.fixed ∈ ts.map Task.fixed := h ▸ List.mem_map_of_mem hu
    obtain ⟨v, hv, e⟩ := List.mem_map.mp this
    exact ⟨v, hv, e⟩
  refine ⟨?_, fun u hu => ?_, ?_, fun u hu => ?_⟩
  · have e : us.map Task.id = ts.map Task.id := by
      have := congrArg (List.map Task.id) h
      rw [List.map_map, List.map_map] at this
      exact this
    rw [e]; exact hs.ids
  · obtain ⟨v, hv, e⟩ := mem hu
    have : v.fixed.id = u.fixed.id := congrArg Task.id e
    have : v.id = u.id := this
    rw [← this]; exact hs.nonzero v hv
  · have e : us.map (fun u => u.index.val) = ts.map fun u => u.index.val := by
      have := congrArg (List.map fun u : Task => u.index.val) h
      rw [List.map_map, List.map_map] at this
      exact this
    have hp : (ts.map fun u => u.index.val).Pairwise (· < ·) := List.pairwise_map.mpr hs.indexes
    rw [← e] at hp
    exact List.pairwise_map.mp hp
  · obtain ⟨v, hv, e⟩ := mem hu
    have : v.fixed.requested = u.fixed.requested := congrArg Task.requested e
    have : v.requested = u.requested := this
    rw [← this]; exact hs.requested v hv

theorem countP_picker_of_fixed {ts us : List Task} (h : us.map Task.fixed = ts.map Task.fixed) (p : Fin 12) :
    us.countP (fun u => u.picker = p) = ts.countP fun u => u.picker = p := by
  have key : ∀ l : List Task, (l.map Task.fixed).countP (fun u => u.picker = p) = l.countP fun u => u.picker = p := fun l => by
    rw [List.countP_map]; rfl
  rw [← key us, h, key ts]

theorem tableSound_of_untouched (h : t.untouched = s.untouched) (hs : TableSound s) : TableSound t := by
  have hf : t.tasks.map Task.fixed = s.tasks.map Task.fixed := congrArg Untouched.tasks h
  have hp := pickers_of_untouched h
  refine ⟨by rw [hp]; exact hs.pickers, tasksSound_of_fixed hf hs.tasks, fun p => ?_⟩
  rw [hp, countP_picker_of_fixed hf]
  exact hs.counts p

theorem config_of_untouched (h : t.untouched = s.untouched) (g : Seg) : (t.seg g).config = (s.seg g).config := by
  have e : t.segs.map Segment.config = s.segs.map Segment.config := congrArg Untouched.configs h
  have := congrArg (fun v : Vector SegConfig 4 => v[g]) e
  simpa [State.seg] using this

theorem configSound_of_untouched (h : t.untouched = s.untouched) (hs : ConfigSound s) : ConfigSound t := by
  have hc : t.currents = s.currents := congrArg Untouched.currents h
  exact ⟨fun g => by rw [config_of_untouched h]; exact hs.segs g, fun c => by rw [hc]; exact hs.currents c⟩

/-! ### What the rails say -/

theorem entry_of_rails (h : t.rails = s.rails) (r : SlotRef) : t.entry r = s.entry r := by
  have : (t.seg r.seg).entries = (s.seg r.seg).entries := congrFun (congrArg Rails.entries h) r.seg
  simp only [State.entry, this]

theorem directory_of_entries (h : ∀ r, t.entry r = s.entry r) (hs : DirectorySound s) : DirectorySound t :=
  ⟨fun r => h r ▸ hs.entries r, fun q r n hq hr => hs.seen q r n (h q ▸ hq) (h r ▸ hr),
    fun q r n hq hr => hs.expected q r n (h q ▸ hq) (h r ▸ hr)⟩

theorem line_of_rails (h : t.rails = s.rails) (g : Seg) : t.rails.line g = s.rails.line g :=
  congrFun (congrArg Rails.line h) g

theorem services_of_rails (h : t.rails = s.rails) (g : Seg) : (t.seg g).line.services = (s.seg g).line.services := by
  have e := congrArg LineCtl.services (line_of_rails h g)
  exact e

theorem distinct_of_rails (h : t.rails = s.rails) (g : Seg) :
    (((t.seg g).line.displays.map DisplayCmd.ix).Nodup) = ((s.seg g).line.displays.map DisplayCmd.ix).Nodup :=
  congrFun (congrArg Rails.distinct h) g

theorem queues_of_rails (h : t.rails = s.rails) (hs : ∀ g, QueuesSound (s.seg g).line) (g : Seg) :
    QueuesSound (t.seg g).line where
  displays := by rw [distinct_of_rails h]; exact (hs g).displays
  services := by rw [services_of_rails h]; exact (hs g).services
  idents := by rw [services_of_rails h]; exact (hs g).idents

/-- The marks of the poll rotation on the line. -/
structure LineCtl.Marks (l : LineCtl) : Prop where
  position : l.position ≤ 62
  ended : l.passEnded = true → l.position = 0
  held : l.passHeld = true → l.passEnded = true

theorem rotationSound_iff (x : Segment) : RotationSound x ↔ x.line.Marks ∧ ∀ ix : Fin 62, x.entries[ix].skip ≤ 7 :=
  ⟨fun h => ⟨⟨h.position, h.ended, h.held⟩, h.skips⟩, fun h => ⟨h.1.position, h.1.ended, h.1.held, h.2⟩⟩

theorem rotation_of_rails (h : t.rails = s.rails) (hs : ∀ g, RotationSound (s.seg g)) (g : Seg) :
    RotationSound (t.seg g) := by
  have hl := line_of_rails h g
  have hp : (t.seg g).line.position = (s.seg g).line.position := by
    have e := congrArg LineCtl.position hl
    exact e
  have he : (t.seg g).line.passEnded = (s.seg g).line.passEnded := by
    have e := congrArg LineCtl.passEnded hl
    exact e
  have hh : (t.seg g).line.passHeld = (s.seg g).line.passHeld := by
    have e := congrArg LineCtl.passHeld hl
    exact e
  have hn : (t.seg g).entries = (s.seg g).entries := congrFun (congrArg Rails.entries h) g
  obtain ⟨h1, h2, h3, h4⟩ := hs g
  exact ⟨hp ▸ h1, by rw [he, hp]; exact h2, by rw [hh, he]; exact h3, hn ▸ h4⟩

/-- What the governor and the arbiter do. -/
theorem Does.of_rails (hk : t.kept = s.kept) (hr : t.rails = s.rails) (hs : s.Stands settled → t.Stands settled) :
    Does s t where
  table := tableSound_of_untouched (untouched_of_kept hk)
  config := configSound_of_untouched (untouched_of_kept hk)
  stands := hs
  directory := directory_of_entries (entry_of_rails hr)
  queues := queues_of_rails hr
  rotation := rotation_of_rails hr
  requests := requests_of_kept hk
  replies := replies_of_kept hk
  notices := notices_of_kept hk

/-- What the directory and the lines do. -/
theorem Does.of_kept (hk : t.kept = s.kept) (hs : s.Stands settled → t.Stands settled)
    (hd : DirectorySound s → DirectorySound t)
    (hq : (∀ g, QueuesSound (s.seg g).line) → ∀ g, QueuesSound (t.seg g).line)
    (hr : (∀ g, RotationSound (s.seg g)) → ∀ g, RotationSound (t.seg g)) : Does s t where
  table := tableSound_of_untouched (untouched_of_kept hk)
  config := configSound_of_untouched (untouched_of_kept hk)
  stands := hs
  directory := hd
  queues := hq
  rotation := hr
  requests := requests_of_kept hk
  replies := replies_of_kept hk
  notices := notices_of_kept hk

end

/-! ### Updates of one record -/

section
variable (s : State)

theorem does_updSup (g : Seg) (f : Supervisor → Supervisor) : Does s (s.updSup g f) := by
  refine .of_kept (by simp) (fun h => h.congr rfl (by simp)) (directory_of_entries fun r => ?_) (fun h k => ?_) fun h k => ?_
  · simp [State.entry]
  · simpa using h k
  · obtain ⟨h1, h2, h3, h4⟩ := h k
    exact ⟨by simpa using h1, by simpa using h2, by simpa using h3, by simpa using h4⟩

theorem does_count (g : Seg) (f : SegCounters → SegCounters) : Does s (s.count g f) :=
  .of_rails (by simp) (by simp) fun h => stands_count h g f

theorem does_notify (b : NoticeBody) : Does s (s.notify b) := .of_rails (by simp) (by simp) fun h => stands_notify h b

theorem does_notifyDone (n : Nat) (b : NoticeBody) : Does s (s.notifyDone n b) :=
  .of_rails (by simp) (by simp) fun h => h.congr (by simp) (by simp)

/-- A change of a line that keeps its queues and the marks of its rotation sound. -/
theorem does_updLine (g : Seg) {f : LineCtl → LineCtl} (hq : QueuesSound (s.seg g).line → QueuesSound (f (s.seg g).line))
    (hm : (s.seg g).line.Marks → (f (s.seg g).line).Marks) : Does s (s.updLine g f) := by
  have hne : ∀ k, k ≠ g → (s.updLine g f).seg k = s.seg k := fun k hk => by rw [State.seg_updLine, if_neg hk]
  have hg : (s.updLine g f).seg g = { s.seg g with line := f (s.seg g).line } := by rw [State.seg_updLine, if_pos rfl]
  refine .of_kept (by simp) (fun h => h.congr rfl (by simp)) (directory_of_entries fun r => ?_) (fun h k => ?_) fun h k => ?_
  · simp [State.entry]
  · by_cases hk : k = g
    · subst hk; rw [hg]; exact hq (h k)
    · rw [hne k hk]; exact h k
  · by_cases hk : k = g
    · subst hk
      obtain ⟨h1, h2⟩ := (rotationSound_iff _).mp (h k)
      rw [hg]; exact (rotationSound_iff _).mpr ⟨hm h1, h2⟩
    · rw [hne k hk]; exact h k

/-- A change of a line that leaves its queues and the marks of its rotation. -/
theorem does_updLine_aside (g : Seg) {f : LineCtl → LineCtl} (hd : ∀ l, (f l).displays = l.displays)
    (hs : ∀ l, (f l).services = l.services) (hp : ∀ l, (f l).position = l.position)
    (he : ∀ l, (f l).passEnded = l.passEnded) (hh : ∀ l, (f l).passHeld = l.passHeld) : Does s (s.updLine g f) :=
  does_updLine s g (fun h => ⟨by rw [hd]; exact h.displays, by rw [hs]; exact h.services, by rw [hs]; exact h.idents⟩)
    fun h => ⟨by rw [hp]; exact h.position, by rw [he, hp]; exact h.ended, by rw [hh, he]; exact h.held⟩

/-- One directory entry is changed after what has been done. -/
theorem Does.then_updEntry {s t : State} (h : Does s t) (r : SlotRef) {f : Entry → Entry}
    (hd : DirectorySound s → DirectorySound (t.updEntry r f))
    (hk : (t.entry r).skip ≤ 7 → (f (t.entry r)).skip ≤ 7) : Does s (t.updEntry r f) := by
  have hkept : (t.updEntry r f).kept = t.kept := kept_updEntry t r f
  have hu := untouched_of_kept hkept
  refine ⟨⟨tableSound_of_untouched hu ∘ h.table, configSound_of_untouched hu ∘ h.config,
    fun hs => (h.stands hs).congr rfl (by simp), hd, fun hs k => ?_, fun hs k => ?_⟩,
    (requests_of_kept hkept).trans h.requests, (replies_of_kept hkept).trans h.replies, notices_of_kept hkept ∘ h.notices⟩
  · simpa using h.queues hs k
  · obtain ⟨h1, h2, h3, h4⟩ := h.rotation hs k
    refine ⟨by simpa using h1, by simpa using h2, by simpa using h3, fun ix => ?_⟩
    have e := t.entry_updEntry r ⟨k, ix⟩ f
    show ((t.updEntry r f).entry ⟨k, ix⟩).skip ≤ 7
    rw [e]; split
    · exact hk ((h.rotation hs r.seg).skips r.ix)
    · exact h4 ix

/-- A change of one directory entry. -/
theorem does_updEntry (r : SlotRef) {f : Entry → Entry} (hd : DirectorySound s → DirectorySound (s.updEntry r f))
    (hk : (s.entry r).skip ≤ 7 → (f (s.entry r)).skip ≤ 7) : Does s (s.updEntry r f) :=
  (Does.refl s).then_updEntry r hd hk

/-- What the directory says of an entry. -/
def Entry.core (e : Entry) : EntryKind × Option Serial × Option Serial × Binding := (e.kind, e.expected, e.seen, e.binding)

theorem Entry.Sound.of_core {e e' : Entry} (h : e.Sound) (hc : e'.core = e.core) (hn : e.kind ≠ .empty) : e'.Sound := by
  obtain ⟨hk, hx, hs, hb⟩ : e'.kind = e.kind ∧ e'.expected = e.expected ∧ e'.seen = e.seen ∧ e'.binding = e.binding := by
    simpa [Entry.core] using hc
  unfold Entry.Sound at *
  rw [hk, hx, hs, hb]
  cases he : e.kind with
  | empty => exact absurd he hn
  | provisioned => rw [he] at h; exact h
  | learned => rw [he] at h; exact h

/-- The entry is in use (R104). -/
def State.Occupied (s : State) (r : SlotRef) : Prop := (s.entry r).kind ≠ .empty

variable {s}

theorem directory_updEntry_core {r : SlotRef} {f : Entry → Entry} (hc : (f (s.entry r)).core = (s.entry r).core)
    (hn : s.Occupied r) (h : DirectorySound s) : DirectorySound (s.updEntry r f) := by
  have hseen : ∀ q, ((s.updEntry r f).entry q).seen = (s.entry q).seen := fun q => by
    rw [State.entry_updEntry]; split
    · next e => subst e; exact congrArg (fun c => c.2.2.1) hc
    · rfl
  have hexp : ∀ q, ((s.updEntry r f).entry q).expected = (s.entry q).expected := fun q => by
    rw [State.entry_updEntry]; split
    · next e => subst e; exact congrArg (fun c => c.2.1) hc
    · rfl
  refine ⟨fun q => ?_, fun q q' n h1 h2 => h.seen q q' n (hseen q ▸ h1) (hseen q' ▸ h2),
    fun q q' n h1 h2 => h.expected q q' n (hexp q ▸ h1) (hexp q' ▸ h2)⟩
  rw [State.entry_updEntry]; split
  · exact (h.entries r).of_core hc hn
  · exact h.entries q

/-- What leaves of every entry what the directory says of it, and the EMPTY ones whole. -/
theorem directory_of_cores {t : State} (hc : ∀ r, (t.entry r).core = (s.entry r).core)
    (he : ∀ r, s.entry r = Entry.reset → t.entry r = Entry.reset) (h : DirectorySound s) : DirectorySound t := by
  have hseen : ∀ r, (t.entry r).seen = (s.entry r).seen := fun r => congrArg (fun c => c.2.2.1) (hc r)
  have hexp : ∀ r, (t.entry r).expected = (s.entry r).expected := fun r => congrArg (fun c => c.2.1) (hc r)
  refine ⟨fun r => ?_, fun q r n h1 h2 => h.seen q r n (hseen q ▸ h1) (hseen r ▸ h2),
    fun q r n h1 h2 => h.expected q r n (hexp q ▸ h1) (hexp r ▸ h2)⟩
  have hs := h.entries r
  by_cases hk : (s.entry r).kind = .empty
  · have hr : s.entry r = Entry.reset := by
      unfold Entry.Sound at hs; rw [hk] at hs; exact hs
    rw [he r hr]; rfl
  · exact hs.of_core (hc r) hk

/-- A change of an entry in use that leaves its kind, its serials and its binding. -/
theorem does_updEntry_core {r : SlotRef} {f : Entry → Entry} (hn : s.Occupied r) (hc : ∀ e, (f e).core = e.core)
    (hk : ∀ e, e.skip ≤ 7 → (f e).skip ≤ 7) : Does s (s.updEntry r f) :=
  does_updEntry s r (directory_updEntry_core (hc _) hn) (hk _)

theorem occupied_of_kind {t : State} {r : SlotRef} (h : (t.entry r).kind = (s.entry r).kind) (hn : s.Occupied r) :
    t.Occupied r := by
  unfold State.Occupied; rw [h]; exact hn

theorem kind_updEntry {r : SlotRef} {f : Entry → Entry} (hf : ∀ e, (f e).kind = e.kind) (q : SlotRef) :
    ((s.updEntry r f).entry q).kind = (s.entry q).kind := by
  rw [State.entry_updEntry]; split
  · next e => subst e; exact hf _
  · rfl

end

/-! ### The governor and the arbiter -/

section
variable (s : State)

theorem does_loadChange (g : Seg) : Does s (s.loadChange g) := .of_rails (by simp) (by simp) fun h => stands_loadChange h g

theorem does_baseChange (g : Seg) : Does s (s.baseChange g) := .of_rails (by simp) (by simp) fun h => stands_baseChange h g

theorem does_relevel (g : Seg) (f : LitEntry → Nat) : Does s (s.relevel g f) :=
  .of_rails (by simp) (by simp) fun h => stands_relevel h g f

theorem does_reprioritise (g : Seg) (p : Fin 12) (n : Nat) : Does s (s.reprioritise g p n) :=
  .of_rails (by simp) (by simp) fun h => stands_reprioritise h g p n

theorem does_selectAll (rs : List SlotRef) : Does s (s.selectAll rs) :=
  .of_rails (by simp) (by simp) fun h => stands_selectAll h rs

theorem does_reevaluate (r : SlotRef) : Does s (s.reevaluate r) :=
  .of_rails (by simp) (by simp) fun h => stands_reevaluate h r

theorem does_endService (g : Seg) : Does s (s.endService g) := by
  refine .of_rails ?_ (by simp) fun h => stands_endService h g
  unfold State.endService
  rw [kept_restGovernor, kept_foldl _ fun s r => kept_loseServiceWithSegment s r]

theorem does_dropDisplay (r : SlotRef) : Does s (s.dropDisplay r) :=
  does_updLine s r.seg (fun h => ⟨(h.displays.sublist (List.filter_sublist.map _)), h.services, h.idents⟩)
    fun h => ⟨h.position, h.ended, h.held⟩

theorem does_queueDisplay (r : SlotRef) (k : DisplayKind) : Does s (s.queueDisplay r k) :=
  .of_rails (by simp) (by simp) fun h => h.congr (by
    unfold State.queueDisplay State.mergeDisplay State.appendDisplay; split <;> rfl) (by simp)

theorem does_handDisplay (r : SlotRef) (k : DisplayKind) : Does s (s.handDisplay r k) :=
  .of_rails (by simp) (by simp) fun h => h.congr (by simp) (by simp)

end

end Sys2Proof.Machine
end

