-- ==== Sys2Proof/Proofs/DirectoryDoes.lean ====
section
/-! PROOFS. The module directory keeps what O59 asks (R104 to R124). -/

namespace Sys2Proof.Machine

/-! ### Presence (R111, R112) -/

section
variable {s : State} {r : SlotRef}

theorem kind_of_rails {t : State} (h : t.rails = s.rails) (q : SlotRef) : (t.entry q).kind = (s.entry q).kind :=
  congrArg Entry.kind (entry_of_rails h q)

theorem kind_updLine (g : Seg) (f : LineCtl → LineCtl) (q : SlotRef) : ((s.updLine g f).entry q) = s.entry q := by
  simp [State.entry]

/-- A change of an entry that leaves what the directory says of it, and its skip count in range. -/
structure Entry.Steady (f : Entry → Entry) : Prop where
  core : ∀ e, (f e).core = e.core
  skip : ∀ e, e.skip ≤ 7 → (f e).skip ≤ 7

theorem Entry.Steady.kind {f : Entry → Entry} (h : Entry.Steady f) (e : Entry) : (f e).kind = e.kind :=
  congrArg Prod.fst (h.core e)

theorem does_updSteady (hn : s.Occupied r) {f : Entry → Entry} (hf : Entry.Steady f) : Does s (s.updEntry r f) :=
  does_updEntry_core hn hf.core hf.skip

/-- What presence does to an entry in use: it stays in use. -/
structure Attends (s t : State) : Prop extends Does s t where
  kinds : ∀ q, (t.entry q).kind = (s.entry q).kind

theorem Attends.refl (s : State) : Attends s s := ⟨Does.refl s, fun _ => rfl⟩

theorem Attends.trans {s t u : State} (h : Attends s t) (k : Attends t u) : Attends s u :=
  ⟨h.toDoes.trans k.toDoes, fun q => (k.kinds q).trans (h.kinds q)⟩

theorem attends_updSteady (hn : s.Occupied r) {f : Entry → Entry} (hf : Entry.Steady f) : Attends s (s.updEntry r f) :=
  ⟨does_updSteady hn hf, kind_updEntry hf.kind⟩

theorem attends_notify (s : State) (b : NoticeBody) : Attends s (s.notify b) := ⟨does_notify s b, kind_of_rails (by simp)⟩

theorem attends_dropDisplay (s : State) (r : SlotRef) : Attends s (s.dropDisplay r) :=
  ⟨does_dropDisplay s r, fun q => congrArg Entry.kind (kind_updLine r.seg _ q)⟩

theorem attends_baseChange (s : State) (g : Seg) : Attends s (s.baseChange g) :=
  ⟨does_baseChange s g, kind_of_rails (by simp)⟩

theorem attends_reevaluate (s : State) (r : SlotRef) : Attends s (s.reevaluate r) :=
  ⟨does_reevaluate s r, kind_of_rails (by simp)⟩

theorem Attends.occupied {s t : State} (h : Attends s t) (hn : s.Occupied r) : t.Occupied r := occupied_of_kind (h.kinds r) hn

theorem attends_enterPresent (hn : s.Occupied r) : Attends s (s.enterPresent r) := by
  unfold State.enterPresent
  simp only []
  have h1 := attends_updSteady hn (f := fun e => { e with presence := .present, goodRun := 0, missRun := 0 })
    ⟨fun _ => rfl, fun _ h => h⟩
  have h2 := h1.trans (attends_notify _ (.modulePresence r true (s.entry r).wasPresent))
  have h3 := h2.trans (attends_updSteady (h2.occupied hn) (f := fun e => { e with wasPresent := true })
    ⟨fun _ => rfl, fun _ h => h⟩)
  exact (h3.trans (attends_baseChange _ r.seg)).trans (attends_reevaluate _ r)

theorem attends_enterLost (hn : s.Occupied r) : Attends s (s.enterLost r) := by
  unfold State.enterLost
  simp only []
  have h1 := attends_updSteady hn (f := fun e => { e with presence := .lost, goodRun := 0, missRun := 0, skip := 0 })
    ⟨fun _ => rfl, fun _ _ => Nat.zero_le 7⟩
  have h2 := h1.trans (attends_notify _ (.modulePresence r false false))
  exact ((h2.trans (attends_dropDisplay _ r)).trans (attends_baseChange _ r.seg)).trans (attends_reevaluate _ r)

theorem attends_failAcquiring (hn : s.Occupied r) : Attends s (s.failAcquiring r) :=
  (attends_updSteady hn
    (f := fun e => { e with presence := if e.wasPresent then .lost else .absent, goodRun := 0, missRun := 0, skip := 0 })
    ⟨fun _ => rfl, fun _ _ => Nat.zero_le 7⟩).trans (attends_dropDisplay _ r)

theorem attends_goodOutcome (hn : s.Occupied r) : Attends s (s.goodOutcome r) := by
  have plain : ∀ {f : Entry → Entry}, (∀ e, (f e).core = e.core) → (∀ e, (f e).skip = e.skip) → Attends s (s.updEntry r f) :=
    fun hc hk => attends_updSteady hn ⟨hc, fun e h => by rw [hk]; exact h⟩
  unfold State.goodOutcome
  simp only []
  repeat' split
  · exact attends_enterPresent hn
  · exact plain (fun _ => rfl) fun _ => rfl
  · exact attends_enterPresent hn
  · exact plain (fun _ => rfl) fun _ => rfl
  · exact attends_enterPresent hn
  · exact plain (fun _ => rfl) fun _ => rfl
  · exact Attends.refl s
  · exact plain (fun _ => rfl) fun _ => rfl

theorem attends_missOutcome (hn : s.Occupied r) : Attends s (s.missOutcome r) := by
  have plain : ∀ {f : Entry → Entry}, (∀ e, (f e).core = e.core) → (∀ e, (f e).skip = e.skip) → Attends s (s.updEntry r f) :=
    fun hc hk => attends_updSteady hn ⟨hc, fun e h => by rw [hk]; exact h⟩
  unfold State.missOutcome
  simp only []
  repeat' split
  · exact Attends.refl s
  · exact Attends.refl s
  · exact attends_failAcquiring hn
  · exact attends_enterLost hn
  · exact plain (fun _ => rfl) fun _ => rfl
  · exact attends_enterLost hn
  · exact plain (fun _ => rfl) fun _ => rfl

theorem attends_takeOutcome (hn : s.Occupied r) (good : Bool) : Attends s (s.takeOutcome r good) := by
  unfold State.takeOutcome; split
  · exact attends_goodOutcome hn
  · exact attends_missOutcome hn

end

/-! ### Serials (R104 to R106, R118) -/

section
variable {s : State}

/-- An entry takes another content: sound by itself, and with serials that no other entry has. -/
theorem directory_updEntry {r : SlotRef} {f : Entry → Entry} (h : DirectorySound s) (hf : (f (s.entry r)).Sound)
    (hs : ∀ n, (f (s.entry r)).seen = some n → ∀ q, q ≠ r → (s.entry q).seen ≠ some n)
    (hx : ∀ n, (f (s.entry r)).expected = some n → ∀ q, q ≠ r → (s.entry q).expected ≠ some n) :
    DirectorySound (s.updEntry r f) := by
  have hr : (s.updEntry r f).entry r = f (s.entry r) := by rw [State.entry_updEntry, if_pos rfl]
  have hne : ∀ {q}, q ≠ r → (s.updEntry r f).entry q = s.entry q := fun hq => by rw [State.entry_updEntry, if_neg hq]
  have pairs : ∀ (g : Entry → Option Serial),
      (∀ n, g (f (s.entry r)) = some n → ∀ q, q ≠ r → g (s.entry q) ≠ some n) →
      (∀ q q' n, g (s.entry q) = some n → g (s.entry q') = some n → q = q') → ∀ q q' n,
      g ((s.updEntry r f).entry q) = some n → g ((s.updEntry r f).entry q') = some n → q = q' :=
    fun g hg hold q q' n h1 h2 => by
      by_cases e1 : q = r <;> by_cases e2 : q' = r
      · rw [e1, e2]
      · rw [e1, hr] at h1; rw [hne e2] at h2; exact absurd h2 (hg n h1 q' e2)
      · rw [e2, hr] at h2; rw [hne e1] at h1; exact absurd h1 (hg n h2 q e1)
      · rw [hne e1] at h1; rw [hne e2] at h2; exact hold q q' n h1 h2
  refine ⟨fun q => ?_, pairs Entry.seen hs h.seen, pairs Entry.expected hx h.expected⟩
  by_cases e : q = r
  · rw [e, hr]; exact hf
  · rw [hne e]; exact h.entries q

/-- R105: an entry whose binding follows from its serials. -/
def Entry.bound (e : Entry) : Entry := { e with binding := e.evalBinding }

theorem Entry.bound_sound_of_provisioned {e : Entry} {x : Serial} (hk : e.kind = .provisioned) (hx : e.expected = some x) :
    e.bound.Sound := by
  have hk' : e.bound.kind = .provisioned := hk
  unfold Entry.Sound
  rw [hk']
  refine ⟨x, hx, ?_⟩
  show e.evalBinding = _
  unfold Entry.evalBinding
  cases hs : e.seen with
  | none =>
    have hs' : e.bound.seen = none := hs
    rw [hk, hs']
  | some y =>
    have hs' : e.bound.seen = some y := hs
    rw [hk, hs', hx]
    by_cases e : x = y <;> simp [e, eq_comm]

theorem Entry.bound_sound_of_learned {e : Entry} {y : Serial} (hk : e.kind = .learned) (hx : e.expected = none)
    (hs : e.seen = some y) : e.bound.Sound := by
  have hk' : e.bound.kind = .learned := hk
  unfold Entry.Sound
  rw [hk']
  refine ⟨hx, ?_, ?_⟩
  · show e.seen.isSome = true
    rw [hs]; rfl
  · show e.evalBinding = _
    unfold Entry.evalBinding
    rw [hk, hs]

theorem Entry.reset_sound : Entry.reset.Sound := rfl

/-- A sound entry by its kind. -/
theorem Entry.Sound.empty {e : Entry} (h : e.Sound) (hk : e.kind = .empty) : e = Entry.reset := by
  unfold Entry.Sound at h; rw [hk] at h; exact h

theorem Entry.Sound.provisioned {e : Entry} (h : e.Sound) (hk : e.kind = .provisioned) : ∃ x, e.expected = some x := by
  unfold Entry.Sound at h; rw [hk] at h
  obtain ⟨x, hx, -⟩ := h
  exact ⟨x, hx⟩

theorem Entry.Sound.learned {e : Entry} (h : e.Sound) (hk : e.kind = .learned) : e.expected = none := by
  unfold Entry.Sound at h; rw [hk] at h
  exact h.1

theorem Entry.used_cases {e : Entry} (h : e.kind ≠ .empty) : e.kind = .provisioned ∨ e.kind = .learned := by
  cases hk : e.kind with
  | empty => exact absurd hk h
  | provisioned => exact .inl rfl
  | learned => exact .inr rfl

theorem rebind_eq (s : State) (r : SlotRef) (f : Entry → Entry) : s.rebind r f = s.updEntry r fun e => (f e).bound := rfl

/-! ### An entry becomes EMPTY, or is vacated (R104, R118) -/

theorem does_orphan (s : State) (r : SlotRef) : Does s (s.updLine r.seg (LineCtl.orphan r.ix)) := by
  refine does_updLine_aside s r.seg (fun l => ?_) (fun l => ?_) (fun l => ?_) (fun l => ?_) fun l => ?_ <;>
    (unfold LineCtl.orphan; repeat' split) <;> rfl

theorem does_emptyEntry (s : State) (r : SlotRef) : Does s (s.emptyEntry r) :=
  (does_updEntry s r (f := fun _ => Entry.reset)
    (fun h => directory_updEntry h Entry.reset_sound (fun _ hn => nomatch hn) fun _ hn => nomatch hn)
    fun _ => Nat.le_refl 7).trans (does_orphan _ r)

theorem entry_emptyEntry (s : State) (r q : SlotRef) :
    (s.emptyEntry r).entry q = if q = r then Entry.reset else s.entry q := by
  unfold State.emptyEntry
  rw [kind_updLine, State.entry_updEntry]

/-- R118: what vacating makes of an entry that is not LEARNED. -/
def Entry.vacated (e : Entry) : Entry := ({ e.leaveService with seen := none } : Entry).bound

theorem Entry.vacated_sound {e : Entry} (h : e.Sound) (hk : e.kind ≠ .learned) : e.vacated.Sound := by
  cases hk' : e.kind with
  | empty => rw [h.empty hk']; rfl
  | provisioned =>
    obtain ⟨x, hx⟩ := h.provisioned hk'
    exact Entry.bound_sound_of_provisioned hk' hx
  | learned => exact absurd hk' hk

theorem does_vacateEntry (s : State) (q : SlotRef) : Does s (s.vacateEntry q) := by
  unfold State.vacateEntry; split
  · exact does_emptyEntry s q
  · next hk =>
    rw [rebind_eq]
    exact does_updEntry s q (f := Entry.vacated)
      (fun h => directory_updEntry h (Entry.vacated_sound (h.entries q) hk) (fun _ hn => nomatch hn)
        fun n hn p hp hq => hp (h.expected p q n hq hn)) fun _ => Nat.le_refl 7

/-- R118: a vacated entry has seen no serial, and the others stay. -/
theorem entry_vacateEntry (s : State) (q : SlotRef) :
    ((s.vacateEntry q).entry q).seen = none ∧ ∀ p, p ≠ q → (s.vacateEntry q).entry p = s.entry p := by
  unfold State.vacateEntry; split
  · refine ⟨?_, fun p hp => ?_⟩
    · rw [entry_emptyEntry, if_pos rfl]; rfl
    · rw [entry_emptyEntry, if_neg hp]
  · rw [rebind_eq]
    refine ⟨?_, fun p hp => ?_⟩
    · rw [State.entry_updEntry, if_pos rfl]; rfl
    · rw [State.entry_updEntry, if_neg hp]

theorem does_vacate (s : State) (q : SlotRef) (x : Serial) : Does s (s.vacate q x) := by
  have h := ((does_vacateEntry s q).trans (does_notify _ (.moduleIdentity q .vacated x))).trans (does_dropDisplay _ q)
  unfold State.vacate
  simp only []
  refine Does.trans ?_ (does_reevaluate _ q)
  split
  · exact h.trans (does_baseChange _ q.seg)
  · exact h

theorem entry_vacate (s : State) (q : SlotRef) (x : Serial) (p : SlotRef) :
    (s.vacate q x).entry p = (s.vacateEntry q).entry p := by
  unfold State.vacate
  simp only []
  rw [entry_of_rails (rails_reevaluate _ q)]
  have h : ((((s.vacateEntry q).notify (.moduleIdentity q .vacated x)).dropDisplay q).entry p) = (s.vacateEntry q).entry p := by
    unfold State.dropDisplay
    rw [kind_updLine, entry_of_rails (rails_notify _ _)]
  split
  · rw [entry_of_rails (rails_baseChange _ q.seg), h]
  · exact h

theorem services_vacate (s : State) (q : SlotRef) (x : Serial) (g : Seg) :
    ((s.vacate q x).seg g).line.services = (s.seg g).line.services := by
  have orphan : ∀ (l : LineCtl) (ix : Fin 62), (l.orphan ix).services = l.services := fun l ix => by
    unfold LineCtl.orphan; repeat' split
    all_goals rfl
  have h1 : ((s.vacateEntry q).seg g).line.services = (s.seg g).line.services := by
    unfold State.vacateEntry State.emptyEntry; split
    · rw [State.seg_updLine]; split
      · next e => subst e; show (LineCtl.orphan q.ix _).services = _; rw [orphan]; simp
      · simp
    · rw [rebind_eq]; simp
  have h2 : ∀ (t : State), ((t.dropDisplay q).seg g).line.services = (t.seg g).line.services := fun t => by
    unfold State.dropDisplay; rw [State.seg_updLine]; split
    · next e => subst e; rfl
    · rfl
  unfold State.vacate
  simp only []
  rw [services_of_rails (rails_reevaluate _ q)]
  split
  · rw [services_of_rails (rails_baseChange _ q.seg), h2, services_of_rails (rails_notify _ _), h1]
  · rw [h2, services_of_rails (rails_notify _ _), h1]

theorem does_vacateOthers (s : State) (r : SlotRef) (x : Serial) : Does s (s.vacateOthers r x) := by
  unfold State.vacateOthers; split
  · exact does_vacate s _ x
  · exact Does.refl s

theorem holderOf_ne {r q : SlotRef} {x : Serial} (h : s.holderOf r x = some q) : q ≠ r := by
  have := List.find?_some h
  simp only [Bool.and_eq_true, decide_eq_true_eq] at this
  exact this.1

theorem entry_vacateOthers_self (s : State) (r : SlotRef) (x : Serial) : (s.vacateOthers r x).entry r = s.entry r := by
  unfold State.vacateOthers; split
  · next q hq => rw [entry_vacate, (entry_vacateEntry s q).2 r (Ne.symm (holderOf_ne hq))]
  · rfl

theorem services_vacateOthers (s : State) (r : SlotRef) (x : Serial) (g : Seg) :
    ((s.vacateOthers r x).seg g).line.services = (s.seg g).line.services := by
  unfold State.vacateOthers; split
  · exact services_vacate s _ x g
  · rfl

/-- R118: nobody has seen a serial that one entry alone had, once that entry is vacated. -/
theorem vacate_clears (h : DirectorySound s) {q : SlotRef} {x : Serial} (hq : (s.entry q).seen = some x) (p : SlotRef) :
    ((s.vacate q x).entry p).seen ≠ some x := by
  rw [entry_vacate]
  by_cases e : p = q
  · rw [e, (entry_vacateEntry s q).1]; simp
  · rw [(entry_vacateEntry s q).2 p e]
    exact fun hp => e (h.seen p q x hp hq)

/-- R118: after the others are vacated no other entry has seen the serial. -/
theorem vacateOthers_clears (h : DirectorySound s) (r : SlotRef) (x : Serial) (p : SlotRef) (hp : p ≠ r) :
    ((s.vacateOthers r x).entry p).seen ≠ some x := by
  unfold State.vacateOthers; split
  · next q hq =>
    have := List.find?_some hq
    simp only [Bool.and_eq_true, decide_eq_true_eq] at this
    exact vacate_clears h this.2 p
  · next hn =>
    have := List.find?_eq_none.mp hn p (mem_allSlots p)
    simpa [hp] using this

/-! ### A serial is written (R106, R117, R123) -/

/-- A serial is written at an entry in use that nobody else has seen. -/
theorem Does.then_see {t : State} (h : Does s t) (r : SlotRef) (x : Serial) (hn : t.Occupied r)
    (hx : DirectorySound s → ∀ p, p ≠ r → (t.entry p).seen ≠ some x) :
    Does s (t.rebind r fun e => { e with seen := some x }) := by
  rw [rebind_eq]
  refine h.then_updEntry r (fun hd => ?_) fun hk => hk
  have ht := h.directory hd
  refine directory_updEntry ht ?_ (fun n hn p hp hq => ?_) fun n hn p hp hq => hp (ht.expected p r n hq hn)
  · rcases Entry.used_cases hn with hk | hk
    · obtain ⟨y, hy⟩ := (ht.entries r).provisioned hk
      exact Entry.bound_sound_of_provisioned hk hy
    · exact Entry.bound_sound_of_learned hk ((ht.entries r).learned hk) rfl
  · have e : x = n := Option.some.inj hn
    exact hx hd p hp (e ▸ hq)

theorem does_identityCheck (s : State) (r : SlotRef) (x : Serial) : Does s (s.identityCheck r x) := by
  have h := does_vacateOthers s r x
  have take : ((s.vacateOthers r x).entry r).kind ≠ .empty →
      Does s ((s.vacateOthers r x).rebind r fun e => { e with seen := some x }) := fun hn =>
    h.then_see r x hn fun hd => vacateOthers_clears hd r x
  unfold State.identityCheck State.compareSerial
  simp only []
  split
  · exact h
  · next hk =>
    have hn := take (by rw [hk]; simp)
    repeat' split
    · exact hn.trans (does_reevaluate _ r)
    · exact h
    · exact (hn.trans (does_notify _ _)).trans (does_reevaluate _ r)
  · next hk =>
    have hn := take (by rw [hk]; simp)
    split
    · exact h
    · exact (hn.trans (does_notify _ _)).trans (does_reevaluate _ r)

/-! ### The service queue (R116, R143) -/

theorem does_handService (s : State) (g : Seg) (c : ServiceCmd) (hf : s.serviceFull g = false)
    (hc : ∀ ix, c = .ident ix → .ident ix ∉ (s.seg g).line.services) : Does s (s.handService g c) := by
  refine does_updLine s g (fun h => ⟨h.displays, ?_, fun ix => ?_⟩) fun h => ⟨h.position, h.ended, h.held⟩
  · have hf : (s.seg g).line.services.length < 16 := by
      have := of_decide_eq_false hf
      have e : Config.serviceQueueSize = 16 := rfl
      omega
    show ((s.seg g).line.services ++ [c]).length ≤ 16
    rw [List.length_append, List.length_singleton]; omega
  · show ((s.seg g).line.services ++ [c]).count (.ident ix) ≤ 1
    rw [List.count_append, List.count_singleton]
    by_cases e : c = .ident ix
    · rw [List.count_eq_zero_of_not_mem (hc ix e)]; split <;> omega
    · have e' : (c == ServiceCmd.ident ix) = false := by simpa using e
      rw [e']
      simpa using h.idents ix

theorem does_handIdent (s : State) (r : SlotRef) : Does s (s.handIdent r) := by
  unfold State.handIdent; split
  · exact Does.refl s
  · next h =>
    simp only [Bool.or_eq_true, not_or, Bool.not_eq_true] at h
    refine does_handService s r.seg _ h.2 fun ix hix hm => ?_
    cases hix
    have := h.1
    simp only [State.identPending, Bool.or_eq_false_iff, List.contains_eq_mem, decide_eq_false_iff_not] at this
    exact this.1 hm

theorem entry_handService (s : State) (r : SlotRef) (g : Seg) (c : ServiceCmd) : (s.handService g c).entry r = s.entry r :=
  kind_updLine g _ r

/-! ### Discovery (R122 to R124) -/

theorem does_updDiscovery (s : State) (g : Seg) (f : Discovery → Discovery) : Does s (s.updDiscovery g f) := does_updSup s g _

theorem serviceFull_of_services {t : State} {g : Seg} (h : (t.seg g).line.services = (s.seg g).line.services) :
    t.serviceFull g = s.serviceFull g := by
  unfold State.serviceFull; rw [h]

theorem does_handAssign (s : State) (g : Seg) (x : Serial) (ix : Fin 62) (hf : s.serviceFull g = false) :
    Does s (s.handService g (.assign x ix)) :=
  does_handService s g _ hf fun _ e => nomatch e

/-- R123: a LEARNED entry for a serial that nobody has seen. -/
theorem Does.then_learn {t : State} (h : Does s t) {r : SlotRef} {x : Serial}
    (hx : DirectorySound s → ∀ p, (t.entry p).seen ≠ some x) : Does s (t.learn r x) := by
  unfold State.learn
  rw [rebind_eq]
  refine h.then_updEntry r (fun hd => ?_) fun _ => Nat.le_refl 7
  refine directory_updEntry (h.directory hd) (Entry.bound_sound_of_learned rfl rfl rfl) (fun n hn p _ => ?_) fun n hn => nomatch hn
  have e : x = n := Option.some.inj hn
  exact e ▸ hx hd p

theorem Does.then_placeSerial {t : State} (h : Does s t) {g : Seg} {x : Serial} (hf : t.serviceFull g = false)
    (hx : DirectorySound s → ∀ p, (t.entry p).seen ≠ some x) : Does s (t.placeSerial g x) := by
  unfold State.placeSerial; split
  · next r _ =>
    have hl : ((t.learn r x).seg g).line.services = (t.seg g).line.services := by
      unfold State.learn; rw [rebind_eq]; simp
    exact ((h.then_learn hx).trans (does_handAssign _ g x r.ix (by rw [serviceFull_of_services hl, hf]))).trans
      (does_updDiscovery _ g _)
  · exact h.trans (does_updDiscovery _ g _)

theorem does_handleSerial (s : State) (g : Seg) (x : Serial) : Does s (s.handleSerial g x) := by
  unfold State.handleSerial
  split
  · exact does_updDiscovery s g _
  next hf =>
  simp only [Bool.not_eq_true] at hf
  split
  · next r hr =>
    split
    · exact does_updDiscovery s g _
    · have hk : (s.entry r).kind = .provisioned := by
        have := List.find?_some hr
        simp only [Bool.and_eq_true, decide_eq_true_eq] at this
        exact this.1
      have he : ∀ p, ((s.vacateOthers r x).handService g (.assign x r.ix)).entry p = (s.vacateOthers r x).entry p :=
        fun p => entry_handService _ p g _
      have h := (does_vacateOthers s r x).trans (does_handAssign _ g x r.ix (by
        rw [serviceFull_of_services (services_vacateOthers s r x g), hf]))
      refine (h.then_see r x ?_ fun hd p hp => ?_).trans (does_updDiscovery _ g _)
      · unfold State.Occupied; rw [he, entry_vacateOthers_self, hk]; simp
      · rw [he]; exact vacateOthers_clears hd r x p hp
  · split
    · next q hq =>
      have hs : (s.entry q).seen = some x := by simpa using List.find?_some hq
      exact (does_vacate s q x).then_placeSerial (by rw [serviceFull_of_services (services_vacate s q x g), hf])
        fun hd p => vacate_clears hd hs p
    · next hn =>
      exact (Does.refl s).then_placeSerial hf fun _ p => by
        simpa using List.find?_eq_none.mp hn p (mem_allSlots p)

theorem does_endDiscovery (s : State) (g : Seg) (x : OpResult) : Does s (s.endDiscovery g x) := by
  unfold State.endDiscovery; split
  · exact Does.refl s
  · exact (does_updSup s g _).trans (does_notifyDone _ _ _)

theorem does_judgeRound (s : State) (g : Seg) (b : Bool) : Does s (s.judgeRound g b) := by
  have h := does_updDiscovery s g fun d => { d with emptyRounds := if b then d.emptyRounds + 1 else 0 }
  unfold State.judgeRound
  simp only []
  split
  · exact h
  · split
    · exact h.trans (does_endDiscovery _ g _)
    · exact h

/-! ### The directory's requests (R106, R108) -/

theorem does_provisionSlot (s : State) (r : SlotRef) (x : Serial) (hx : s.expectedElsewhere r x = false) :
    Does s (s.provisionSlot r x) := by
  unfold State.provisionSlot
  rw [rebind_eq]
  have seen : ∀ n, (Entry.provision x (s.entry r)).bound.seen = some n → (s.entry r).seen = some n := fun n hn => by
    unfold Entry.provision at hn
    split at hn
    · cases hn
    · exact hn
    · exact hn
  have expects : (Entry.provision x (s.entry r)).kind = .provisioned ∧ (Entry.provision x (s.entry r)).expected = some x := by
    unfold Entry.provision; split <;> exact ⟨rfl, rfl⟩
  refine (does_updEntry s r (f := fun e => (Entry.provision x e).bound) (fun h => directory_updEntry h (Entry.bound_sound_of_provisioned expects.1 expects.2)
    (fun n hn p hp hq => hp (h.seen p r n hq (seen n hn))) fun n hn p hp hq => ?_) fun hk => ?_).trans (does_reevaluate _ r)
  · have hn : (Entry.provision x (s.entry r)).expected = some n := hn
    rw [expects.2, Option.some.injEq] at hn
    subst hn
    have hpk : (s.entry p).kind = .provisioned := by
      cases hk : (s.entry p).kind with
      | empty => rw [(h.entries p).empty hk] at hq; cases hq
      | provisioned => rfl
      | learned => rw [(h.entries p).learned hk] at hq; cases hq
    have := List.any_eq_false.mp hx p (mem_allSlots p)
    simp [hp, hpk, hq] at this
  · show (Entry.provision x (s.entry r)).skip ≤ 7
    unfold Entry.provision; split
    · exact Nat.le_refl 7
    · exact hk
    · exact hk

theorem does_unprovisionSlot (s : State) (r : SlotRef) : Does s (s.unprovisionSlot r) := by
  have h := does_emptyEntry s r
  unfold State.unprovisionSlot
  simp only []
  refine Does.trans (Does.trans ?_ (does_dropDisplay _ r)) (does_reevaluate _ r)
  split
  · exact h.trans (does_baseChange _ r.seg)
  · exact h

end

end Sys2Proof.Machine
end

