-- ==== Sys2Proof/Proofs/LineDoes.lean ====
section
/-! PROOFS. The segment supervisor and the line controller keep what O59 asks (R131, R137 to R143, R159 to R170). -/

namespace Sys2Proof.Machine

/-! ### Segments that are alike -/

/-- What O59 reads of a segment is the same. -/
structure Segment.Like (x y : Segment) : Prop where
  config : y.config = x.config
  slots : y.slots = x.slots
  queue : y.gov.queue = x.gov.queue
  lit : y.gov.lit = x.gov.lit
  entries : y.entries = x.entries
  displays : y.line.displays = x.line.displays
  services : y.line.services = x.line.services
  position : y.line.position = x.line.position
  ended : y.line.passEnded = x.line.passEnded
  held : y.line.passHeld = x.line.passHeld

theorem Segment.Like.refl (x : Segment) : x.Like x := ⟨rfl, rfl, rfl, rfl, rfl, rfl, rfl, rfl, rfl, rfl⟩

section
variable {s t : State}

theorem Guards.of_like (ht : TableSound s → TableSound t) (hc : t.currents = s.currents)
    (hs : s.Stands settled → t.Stands settled) (h : ∀ g, (s.seg g).Like (t.seg g)) : Guards s t where
  table := ht
  config := fun hs => ⟨fun g => by rw [(h g).config]; exact hs.segs g, fun c => by rw [hc]; exact hs.currents c⟩
  stands := hs
  directory := directory_of_entries fun r => by simp only [State.entry, (h r.seg).entries]
  queues := fun hs g => ⟨by rw [(h g).displays]; exact (hs g).displays, by rw [(h g).services]; exact (hs g).services,
    by rw [(h g).services]; exact (hs g).idents⟩
  rotation := fun hs g => ⟨by rw [(h g).position]; exact (hs g).position,
    by rw [(h g).ended, (h g).position]; exact (hs g).ended, by rw [(h g).held, (h g).ended]; exact (hs g).held,
    by rw [(h g).entries]; exact (hs g).skips⟩

/-- What leaves the link's lists, the pickers, the tasks and the currents, and makes every segment one like it. -/
theorem Does.of_like (hl : t.link = s.link) (hp : t.pickers = s.pickers) (ht : t.tasks = s.tasks)
    (hc : t.currents = s.currents) (h : ∀ g, (s.seg g).Like (t.seg g)) : Does s t where
  toGuards := .of_like (fun hs => ⟨hp ▸ hs.pickers, ht ▸ hs.tasks, by rw [hp, ht]; exact hs.counts⟩) hc
    (fun hs => hs.congr ht (site_congr ht (fun g => (h g).slots) (fun g => (h g).queue) fun g => (h g).lit)) h
  requests := by rw [hl]
  replies := by rw [hl]
  notices := fun hn => by rw [hl]; exact hn

/-- What leaves the segments too. -/
theorem Does.of_segs (hl : t.link = s.link) (hp : t.pickers = s.pickers) (ht : t.tasks = s.tasks)
    (hc : t.currents = s.currents) (hg : t.segs = s.segs) : Does s t :=
  .of_like hl hp ht hc fun g => by rw [seg_of_segs hg]; exact Segment.Like.refl _

theorem does_updSeg_like (s : State) (g : Seg) {f : Segment → Segment} (h : ∀ x : Segment, x.Like (f x)) :
    Does s (s.updSeg g f) :=
  .of_like rfl rfl rfl rfl fun k => by
    rw [State.seg_updSeg]; split
    · next e => rw [e]; exact h _
    · exact Segment.Like.refl _

end

section
variable (s : State)

theorem does_resetModules (g : Seg) : Does s (s.resetModules g) := .of_segs rfl rfl rfl rfl rfl

theorem does_track (g : Seg) (d : Nat) : Does s (s.track g d) :=
  does_updSeg_like s g fun _ => ⟨rfl, rfl, rfl, rfl, rfl, rfl, rfl, rfl, rfl, rfl⟩

theorem does_setTrip (g : Seg) (b : Bool) : Does s (s.setTrip g b) :=
  does_updSeg_like s g fun _ => ⟨rfl, rfl, rfl, rfl, rfl, rfl, rfl, rfl, rfl, rfl⟩

/-! ### Changes of a segment's state (R159, R162, R163) -/

theorem does_setSegState (g : Seg) (x : SegState) (c : StateCause) : Does s (s.setSegState g x c) :=
  (does_updSup s g _).trans (does_notify _ _)

theorem does_endHold (g : Seg) (x : OpResult) : Does s (s.endHold g x) := by
  unfold State.endHold; split
  · exact Does.refl s
  · exact (does_updSup s g _).trans (does_notifyDone _ _ _)

theorem does_endRaw (g : Seg) (x : OpResult) (f : Figures) : Does s (s.endRaw g x f) := by
  unfold State.endRaw; split
  · exact Does.refl s
  · exact (does_updSup s g _).trans (does_notifyDone _ _ _)

theorem does_dropLine (g : Seg) (c : Option FaultCause) : Does s (s.dropLine g c) :=
  (does_updSup s g fun v => { v with supply := false, cause := c, breakPending := false }).trans
    (does_updLine_aside _ g
      (f := fun l => { l with inFlight := none, breaking := false, probeFirst := false, breakMs := 0, activeMs := 0 })
      (fun _ => rfl) (fun _ => rfl) (fun _ => rfl) (fun _ => rfl) fun _ => rfl)

theorem does_dropQueues (g : Seg) : Does s (s.dropQueues g) :=
  does_updLine s g (fun _ => ⟨List.nodup_nil, Nat.zero_le 16, fun _ => Nat.zero_le 1⟩) fun h => ⟨h.position, h.ended, h.held⟩

theorem entry_dropPresence (g : Seg) (r : SlotRef) :
    (s.dropPresence g).entry r = if r.seg = g then (s.entry r).leaveService else s.entry r := by
  unfold State.dropPresence State.entry
  rw [State.seg_updSeg]
  split
  · next e => subst e; simp
  · rfl

theorem does_dropPresence (g : Seg) : Does s (s.dropPresence g) := by
  have he := entry_dropPresence s g
  have hl : ∀ k, ((s.dropPresence g).seg k).line = (s.seg k).line := fun k => by
    unfold State.dropPresence; rw [State.seg_updSeg]; split
    · next e => rw [e]
    · rfl
  refine .of_kept (by simp) (fun h => h.congr rfl (site_updSeg s g (fun _ => rfl) (fun _ => rfl) fun _ => rfl))
    (directory_of_cores (fun r => ?_) fun r hr => ?_) (fun h k => by rw [hl]; exact h k) fun h k => ?_
  · rw [he]; split <;> rfl
  · rw [he, hr]; split <;> rfl
  · obtain ⟨hm, hk⟩ := (rotationSound_iff _).mp (h k)
    refine (rotationSound_iff _).mpr ⟨by rw [hl]; exact hm, fun ix => ?_⟩
    show ((s.dropPresence g).entry ⟨k, ix⟩).skip ≤ 7
    rw [he]; split
    · exact Nat.le_refl 7
    · exact hk ix

theorem does_leaveService (g : Seg) (x : SegState) (f : Option FaultCause) (c : StateCause) :
    Does s (s.leaveService g x f c) :=
  ((((((((does_dropLine s g f).trans (does_setSegState _ g x c)).trans (does_endDiscovery _ g .aborted)).trans
    (does_endHold _ g .aborted)).trans (does_endRaw _ g .aborted .none)).trans (does_dropQueues _ g)).trans
    (does_dropPresence _ g))).trans (does_endService _ g)

theorem does_enterFault (g : Seg) (f : FaultCause) : Does s (s.enterFault g f) := by
  unfold State.enterFault; split
  · exact does_leaveService s g _ _ _
  · exact Does.refl s

theorem does_faultToOff (g : Seg) : Does s (s.faultToOff g) :=
  ((does_updSup s g fun v => { v with cause := none }).trans
    (does_updLine_aside _ g (f := fun l => { l with syncDue := false }) (fun _ => rfl) (fun _ => rfl) (fun _ => rfl) (fun _ => rfl) fun _ => rfl)).trans
    (does_setSegState _ g _ _)

theorem does_enterOff (g : Seg) : Does s (s.enterOff g) := by
  unfold State.enterOff; split
  · exact Does.refl s
  · exact does_faultToOff s g
  · exact does_leaveService s g _ _ _
  · exact does_leaveService s g _ _ _
  · exact does_leaveService s g _ _ _
  · exact does_leaveService s g _ _ _

theorem does_beginSettle (g : Seg) : Does s (s.beginSettle g) := by
  unfold State.beginSettle
  simp only []
  refine ((does_updSup s g _).trans (does_updSeg_like _ g fun _ => ?_)).trans (does_resetModules _ g)
  exact ⟨rfl, rfl, rfl, rfl, rfl, rfl, rfl, rfl, rfl, rfl⟩

theorem does_enterStarting (g : Seg) : Does s (s.enterStarting g) := by
  have h := (does_beginSettle s g).trans (does_setSegState _ g .starting .powerOn)
  unfold State.enterStarting; simp only []; split
  · exact h.trans (does_enterFault _ g _)
  · exact h

theorem does_beginQuiet (g : Seg) : Does s (s.beginQuiet g) := by
  unfold State.beginQuiet
  exact does_updSup s g _

theorem does_enterRunning (g : Seg) : Does s (s.enterRunning g) :=
  (does_updLine s g (f := fun l =>
      { l with syncDue := true, position := 0, passEnded := false, passPolled := false, passHeld := false })
    (fun h => ⟨h.displays, h.services, h.idents⟩)
    fun _ => ⟨Nat.zero_le 62, fun _ => rfl, fun h => (nomatch h)⟩).trans (does_setSegState _ g _ _)

theorem does_enterHeld (g : Seg) : Does s (s.enterHeld g) := (does_setSegState s g _ _).trans (does_endHold _ g _)

theorem does_releaseHold (g : Seg) : Does s (s.releaseHold g) :=
  ((does_updLine_aside s g (f := fun l => { l with syncDue := true })
    (fun _ => rfl) (fun _ => rfl) (fun _ => rfl) (fun _ => rfl) fun _ => rfl).trans (does_setSegState _ g _ _)).trans (does_endHold _ g _)

theorem does_changeCondition (g : Seg) (c : LineCondition) : Does s (s.changeCondition g c) := by
  have h := (does_updSup s g fun v => { v with condition := c, candidate := none, senseRun := 0 }).trans
    (does_notify _ (.lineCondition g c))
  unfold State.changeCondition; simp only []; split
  · exact h.trans (does_enterFault _ g _)
  · exact h

theorem does_observe (g : Seg) (o : Observation) : Does s (s.observe g o) := by
  unfold State.observe; simp only []; repeat' split
  · exact does_updSup s g _
  · exact does_changeCondition s g _
  · exact does_updSup s g _

/-! ### The choice of the next exchange (R137 to R143) -/

theorem does_begin (g : Seg) (e : Exchange) : Does s (s.begin g e) :=
  does_updLine_aside s g (fun _ => rfl) (fun _ => rfl) (fun _ => rfl) (fun _ => rfl) fun _ => rfl

theorem does_beginDisplay (g : Seg) : Does s (s.beginDisplay g) := by
  unfold State.beginDisplay; split
  · exact Does.refl s
  · next c cs hd =>
    refine (does_updLine s g (fun h => ⟨?_, h.services, h.idents⟩) fun h => ⟨h.position, h.ended, h.held⟩).trans (does_begin _ g _)
    have := h.displays
    rw [hd, List.map_cons, List.nodup_cons] at this
    exact this.2

theorem does_popService (g : Seg) : Does s (s.popService g) :=
  does_updLine s g (fun h => ⟨h.displays, (List.tail_sublist _).length_le.trans h.services,
    fun ix => ((List.tail_sublist _).count_le _).trans (h.idents ix)⟩) fun h => ⟨h.position, h.ended, h.held⟩

theorem does_endPass (g : Seg) : Does s (s.endPass g) :=
  does_updLine s g (fun h => ⟨h.displays, h.services, h.idents⟩) fun _ => ⟨Nat.zero_le 62, fun _ => rfl, fun _ => rfl⟩

theorem does_beginPass (g : Seg) : Does s (s.beginPass g) :=
  does_updLine s g (fun h => ⟨h.displays, h.services, h.idents⟩)
    fun h => ⟨h.position, fun e => (nomatch e), fun e => (nomatch e)⟩

theorem Entry.visited_steady : Entry.Steady Entry.visited where
  core := fun e => by unfold Entry.visited; split <;> rfl
  skip := fun e h => by
    unfold Entry.visited; split
    · show (if 7 ≤ e.skip then 0 else e.skip + 1) ≤ 7
      split <;> omega
    · exact h

/-- R138: a search within a pass. -/
theorem does_searchPoll (g : Seg) (l : List (Fin 62)) {s : State} (hp : (s.seg g).line.passEnded = false) :
    Does s (s.searchPoll g l) := by
  induction l generalizing s with
  | nil => exact does_endPass s g
  | cons ix l ih =>
    have hv : ((s.updEntry ⟨g, ix⟩ Entry.visited).seg g).line.passEnded = false := by simpa using hp
    unfold State.searchPoll
    simp only []
    split
    · exact ih hp
    · next hk =>
      have h := does_updSteady (r := ⟨g, ix⟩) hk Entry.visited_steady
      split
      · refine (h.trans (does_updLine _ g (fun h => ⟨h.displays, h.services, h.idents⟩) fun h => ⟨?_, fun e => ?_, h.held⟩)).trans
          (does_begin _ g _)
        · show ix.val + 1 ≤ 62
          omega
        · have e : ((s.updEntry ⟨g, ix⟩ Entry.visited).seg g).line.passEnded = true := e
          rw [hv] at e; cases e
      · exact h.trans (ih hv)

theorem does_chooseTraffic (g : Seg) : Does s (s.chooseTraffic g) := by
  unfold State.chooseTraffic; simp only []
  split
  · exact does_beginDisplay s g
  · split
    · exact Does.refl s
    · next hp =>
      have h : Does s (s.takePoll g) := does_searchPoll g _ (by simpa using hp)
      split
      · exact h
      · exact h.trans (does_beginDisplay _ g)

theorem does_choosePass (g : Seg) : Does s (s.choosePass g) := by
  unfold State.choosePass; repeat' split
  · exact (does_beginPass s g).trans (does_begin _ g _)
  · exact Does.refl s
  · exact (does_beginPass s g).trans (does_chooseTraffic _ g)

theorem does_chooseLine (g : Seg) : Does s (s.chooseLine g) := by
  unfold State.chooseLine; simp only []; split
  · exact does_chooseTraffic s g
  · exact (does_chooseTraffic s g).trans (does_choosePass _ g)

theorem does_chooseService (g : Seg) (n : Nat) (s : State) : Does s (s.chooseService g n) := by
  induction n generalizing s with
  | zero => exact does_chooseLine s g
  | succ n ih =>
    unfold State.chooseService
    repeat' split
    · exact does_chooseLine s g
    · exact (does_popService s g).trans (does_begin _ g _)
    · exact (does_popService s g).trans (ih _)

theorem does_choose (g : Seg) : Does s (s.choose g) := by
  unfold State.choose; split
  · exact does_begin s g _
  · exact does_chooseService g _ s

theorem does_startBreak (g : Seg) : Does s (s.startBreak g) := by
  unfold State.startBreak
  refine does_updLine_aside s g ?_ ?_ ?_ ?_ ?_ <;> exact fun _ => rfl

theorem does_settleLine (g : Seg) : Does s (s.settleLine g) := by
  unfold State.settleLine
  split
  · split
    · repeat' split
      · exact Does.refl s
      · exact does_startBreak s g
      · exact does_choose s g
    · split
      · exact does_startBreak s g
      · exact does_enterHeld s g
    all_goals exact Does.refl s
  · exact Does.refl s

theorem does_settleLines : Does s s.settleLines := Does.foldl allSegs (fun s g _ => does_settleLine s g) s

end

end Sys2Proof.Machine
end

