-- ==== Sys2Proof/Proofs/ExchangeDoes.lean ====
section
/-! PROOFS. The press interpreter and the ends of exchanges keep what O59 asks (chapters 4 and 7). -/

namespace Sys2Proof.Machine

section
variable {s : State} {r : SlotRef}

/-! ### Presses (R64 to R76) -/

theorem attends_of_rails {t : State} (hk : t.kept = s.kept) (hr : t.rails = s.rails)
    (hs : s.Stands settled → t.Stands settled) : Attends s t := ⟨.of_rails hk hr hs, kind_of_rails hr⟩

theorem attends_updPress (hn : s.Occupied r) (f : Press → Press) : Attends s (s.updPress r f) :=
  attends_updSteady hn ⟨fun _ => rfl, fun _ h => h⟩

theorem attends_count (s : State) (g : Seg) (f : SegCounters → SegCounters) : Attends s (s.count g f) :=
  ⟨does_count s g f, kind_of_rails (by simp)⟩

theorem attends_handIdent (s : State) (r : SlotRef) : Attends s (s.handIdent r) :=
  ⟨does_handIdent s r, fun q => by
    unfold State.handIdent; split
    · rfl
    · exact congrArg Entry.kind (kind_updLine r.seg _ q)⟩

theorem attends_handDisplay (s : State) (r : SlotRef) (k : DisplayKind) : Attends s (s.handDisplay r k) :=
  ⟨does_handDisplay s r k, kind_of_rails (by simp)⟩

theorem attends_freshStep (hn : s.Occupied r) (x : StatusReply) : Attends s (s.freshStep r x) := by
  unfold State.freshStep; split
  · exact ((attends_updPress hn _).trans (attends_handIdent _ r)).trans (attends_handDisplay _ r _)
  · exact Attends.refl s

/-- R68: the task that an ADJUST lowers is the owner's, in step QUANTITY. -/
theorem adjustable_spec {q : Nibble} {u : Task} (h : s.adjustable r q = some u) :
    ∃ id, (s.shadow r).owner = some ⟨id, .quantity⟩ ∧ s.task? id = some u := by
  unfold State.adjustable at h
  split at h
  · next id ho =>
    split at h
    · exact ⟨id, ho, h⟩
    · cases h
  · cases h

theorem id_of_task? {id : TaskId} {u : Task} (h : s.task? id = some u) : u.id = id := by
  simpa using List.find?_some h

theorem attends_judgeAdjust (s : State) (r : SlotRef) (q : Nibble) (n : Nat) : Attends s (s.judgeAdjust r q n) := by
  unfold State.judgeAdjust
  split
  · next u hu =>
    obtain ⟨id, ho, hid⟩ := adjustable_spec hu
    obtain rfl := id_of_task? hid
    exact attends_of_rails (by simp) (by simp) fun h => stands_lowerQuantity h ho hid n
  · exact attends_count s r.seg _

theorem attends_adjustStep (hn : s.Occupied r) (x : StatusReply) : Attends s (s.adjustStep r x) := by
  have h := attends_updPress hn fun p => { p with adjustBase := x.adjustCount }
  unfold State.adjustStep; simp only []; split
  · exact h
  · exact h.trans (attends_judgeAdjust _ r _ _)

theorem attends_claimCapture (s : State) (r : SlotRef) : Attends s (s.claimCapture r) := by
  unfold State.claimCapture
  split
  · exact attends_notify s _
  · split
    · exact Attends.refl s
    · have h : ∀ v, Attends s { s with captures := v } := fun v => ⟨.of_segs rfl rfl rfl rfl rfl, fun _ => rfl⟩
      exact (h _).trans (attends_notify _ _)

/-- R72: an accepted CONFIRM. -/
theorem attends_acceptConfirm (hn : s.Occupied r) : Attends s (s.acceptConfirm r) := by
  unfold State.acceptConfirm
  simp only []
  have h := attends_updPress hn fun p => { p with lastConfirm := some s.time }
  refine h.trans ?_
  set t := s.updPress r fun p => { p with lastConfirm := some s.time }
  split
  · exact attends_claimCapture t r
  · next o ho =>
    split
    · exact Attends.refl t
    · next u hu =>
      obtain ⟨id, step⟩ := o
      obtain rfl := id_of_task? hu
      split
      · exact attends_of_rails (by simp) (by simp) fun h => stands_advanceStep h ho hu
      · refine attends_of_rails (by simp) (by simp) fun h => ?_
        obtain ⟨v, seat, state, hid, -⟩ := shows_of_owner h ho
        obtain rfl := eq_of_id h.ids seat.slot.1 ((task?_eq_some_iff h.ids).mp hu).1 hid
        exact stands_endTask h seat.slot.1 state _ _

theorem attends_judgeConfirm (hn : s.Occupied r) (q : Nibble) : Attends s (s.judgeConfirm r q) := by
  unfold State.judgeConfirm; repeat' split
  · exact attends_count s r.seg _
  · exact attends_count s r.seg _
  · exact attends_acceptConfirm hn

theorem attends_confirmStep (hn : s.Occupied r) (x : StatusReply) : Attends s (s.confirmStep r x) := by
  have h := attends_updPress hn fun p => { p with confirmBase := x.confirmCount }
  unfold State.confirmStep; simp only []; split
  · exact h
  · have h2 := h.trans (attends_count _ r.seg fun c =>
      { c with chatter := c.chatter + BitVec.ofNat 32 ((x.confirmCount - (s.entry r).press.confirmBase).toNat - 1) })
    exact h2.trans (attends_judgeConfirm (h2.occupied hn) _)

theorem attends_heldButton (hn : s.Occupied r) (b : Button) (x : Bool) : Attends s (s.heldButton r b x) := by
  unfold State.heldButton; simp only []; split
  · exact attends_updPress hn _
  · exact (attends_updPress hn _).trans (attends_notify _ _)

theorem attends_heldStep (hn : s.Occupied r) (x : StatusReply) : Attends s (s.heldStep r x) := by
  have h := attends_heldButton hn .confirm x.confirmHeld
  exact h.trans (attends_heldButton (h.occupied hn) .adjust x.adjustHeld)

theorem attends_takeStatus (hn : s.Occupied r) (x : StatusReply) : Attends s (s.takeStatus r x) := by
  have h1 := attends_freshStep hn x
  unfold State.takeStatus; simp only []; split
  · exact h1.trans (attends_heldStep (h1.occupied hn) x)
  · have h2 := h1.trans (attends_adjustStep (h1.occupied hn) x)
    have h3 := h2.trans (attends_confirmStep (h2.occupied hn) x)
    exact h3.trans (attends_heldStep (h3.occupied hn) x)

/-! ### Handing on (R136) -/

theorem attends_identityByteCheck (s : State) (r : SlotRef) (x : StatusReply) : Attends s (s.identityByteCheck r x) := by
  unfold State.identityByteCheck; repeat' split
  · exact attends_handIdent s r
  · exact Attends.refl s
  · exact Attends.refl s

theorem does_resendCompare (s : State) (r : SlotRef) (q : Nibble) : Does s (s.resendCompare r q) := by
  unfold State.resendCompare; simp only []; split
  · next h =>
    have hq : s.displayQueued r = false := by simpa using h.2.1
    exact (Does.of_rails (by simp) (rails_appendDisplay s hq _) fun h => h.congr rfl (by
      unfold State.appendDisplay; simp)).trans (does_count _ r.seg _)
  · exact Does.refl s

theorem does_handStatus (hn : s.Occupied r) (payload : List Byte) : Does s (s.handStatus r payload) := by
  unfold State.handStatus; split
  · next x _ =>
    have h := attends_identityByteCheck s r x
    exact (h.trans (attends_takeStatus (h.occupied hn) x)).toDoes.trans (does_resendCompare _ r _)
  · exact Does.refl s

theorem does_handReply (hn : s.Occupied r) (k : LineKind) (c : ReplyClass) : Does s (s.handReply r k c) := by
  unfold State.handReply; split
  · repeat' split
    · exact Does.refl s
    · exact does_identityCheck s r _
    · exact does_handStatus hn _
  all_goals exact Does.refl s

theorem attends_track (s : State) (g : Seg) (d : Nat) : Attends s (s.track g d) :=
  ⟨does_track s g d, fun ⟨k, ix⟩ => by
    unfold State.track State.entry; rw [State.seg_updSeg]; split
    · next e => subst e; rfl
    · rfl⟩

theorem does_handOn (hn : s.Occupied r) (k : LineKind) (c : ReplyClass) : Does s (s.handOn r k c) := by
  have h := attends_takeOutcome hn c.good
  unfold State.handOn; simp only []; repeat' split
  · next d _ =>
    have h2 := h.trans (attends_track _ r.seg d)
    exact h2.toDoes.trans (does_handReply (h2.occupied hn) k c)
  · exact h.toDoes.trans (does_handReply (h.occupied hn) k c)
  · exact does_handReply hn k c

theorem does_settleExchange (s : State) (r : SlotRef) (k : LineKind) (b : Bool) : Does s (s.settleExchange r k b) := by
  unfold State.settleExchange State.requeueDisplay State.retryIdent; repeat' split
  · exact Does.refl s
  · exact Does.refl s
  · exact does_queueDisplay s r _
  · exact does_handIdent s r
  · exact Does.refl s
  · exact Does.refl s

end

/-! ### The ends of exchanges (R134, R135) -/

section
variable (s : State)

theorem does_heldLine (g : Seg) (b : Bool) (a : List Pulse) : Does s (s.heldLine g b a) := by
  unfold State.heldLine State.keepActive; split
  · refine Does.trans (does_updLine_aside s g ?_ ?_ ?_ ?_ ?_) (does_observe _ g _) <;> exact fun _ => rfl
  · exact Does.refl s

theorem does_clearExchange (g : Seg) (e : Exchange) : Does s (s.clearExchange g e) :=
  (does_updLine_aside s g (f := fun l => { l with inFlight := none, activeMs := 0 })
    (fun _ => rfl) (fun _ => rfl) (fun _ => rfl) (fun _ => rfl) fun _ => rfl).trans (does_count _ g _)

theorem does_clearRaw (g : Seg) (x : Raw) : Does s (s.clearRaw g x) :=
  (does_updLine_aside s g (f := fun l => { l with activeMs := 0 })
    (fun _ => rfl) (fun _ => rfl) (fun _ => rfl) (fun _ => rfl) fun _ => rfl).trans (does_count _ g _)

theorem does_modulesTake (g : Seg) (a : Byte) (k : LineKind) (p : List Byte) : Does s (s.modulesTake g a k p) :=
  .of_segs rfl rfl rfl rfl rfl

theorem does_modulesSee (g : Seg) (a : List Pulse) : Does s (s.modulesSee g a) := by
  unfold State.modulesSee; split
  · exact does_resetModules s g
  · exact Does.refl s

theorem does_afterCommand (g : Seg) (a : Byte) (k : LineKind) (p : List Byte) (h : Heard) :
    Does s (s.afterCommand g a k p h) := by
  unfold State.afterCommand
  split
  · exact does_modulesTake s g a k p
  · refine Does.trans ?_ (does_modulesSee _ g _)
    split
    · exact does_modulesTake s g a k p
    · exact Does.refl s

theorem does_concludeAddressed (g : Seg) (e : Exchange) (ix : Fin 62) (c : ReplyClass) (a : List Pulse) :
    Does s (s.concludeAddressed g e ix c a) := by
  have h := does_count s g c.count
  unfold State.concludeAddressed; simp only []
  refine Does.trans (Does.trans ?_ (does_settleExchange _ _ _ _)) (does_heldLine _ g _ a)
  split
  · exact h
  · next hn => exact h.trans (does_handOn (fun hk => hn (.inr hk)) _ _)

theorem does_endAddressed (g : Seg) (e : Exchange) (ix : Fin 62) (h : Heard) : Does s (s.endAddressed g e ix h) :=
  ((does_afterCommand s g _ _ _ h).trans (does_clearExchange _ g e)).trans (does_concludeAddressed _ g e ix _ _)

theorem does_endSync (g : Seg) (e : Exchange) (taken : Bool) : Does s (s.endSync g e taken) := by
  have h : ∀ u : State, Does u ((u.clearExchange g e).updLine g fun l => { l with syncDue := false, passHeld := false }) :=
    fun u => (does_clearExchange u g e).trans
      (does_updLine _ g (fun h => ⟨h.displays, h.services, h.idents⟩) fun h => ⟨h.position, h.ended, fun e => nomatch e⟩)
  unfold State.endSync; simp only []; split
  · exact (does_modulesTake s g _ _ _).trans (h _)
  · exact h s

theorem does_handleSlot (g : Seg) (x : SlotHeard) : Does s (s.handleSlot g x) := by
  unfold State.handleSlot; split
  · exact does_handleSerial s g _
  · exact Does.refl s
  · exact Does.refl s

theorem does_handleRound (g : Seg) (slots : List SlotHeard) : Does s (s.handleRound g slots) :=
  ((does_updDiscovery s g _).trans (Does.foldl slots (fun s x _ => does_handleSlot s g x) _)).trans (does_judgeRound _ g _)

theorem does_endRound (g : Seg) (e : Exchange) (a : List Pulse) : Does s (s.endRound g e a) :=
  (((does_modulesSee s g a).trans (does_clearExchange _ g e)).trans (does_handleRound _ g _)).trans (does_heldLine _ g _ a)

theorem does_endRawReply (g : Seg) (x : Raw) (k : LineKind) (h : Heard) : Does s (s.endRawReply g x k h) :=
  (((does_afterCommand s g _ _ _ h).trans (does_clearRaw _ g x)).trans (does_endRaw _ g _ _)).trans (does_heldLine _ g _ _)

theorem does_concludeRaw (g : Seg) (x : Raw) (h : Heard) : Does s (s.concludeRaw g x h) := by
  unfold State.concludeRaw; split
  · exact ((does_resetModules s g).trans (does_clearRaw _ g x)).trans (does_endRaw _ g _ _)
  · exact ((does_afterCommand s g _ _ _ h).trans (does_clearRaw _ g x)).trans (does_endRaw _ g _ _)
  · exact does_endRawReply s g x _ h

/-! ### Breaks, probes and start-up (R161, R164, R170) -/

theorem does_endBreak (g : Seg) : Does s (s.endBreak g) :=
  ((does_resetModules s g).trans
    (does_updLine_aside _ g (f := fun l => { l with breaking := false, probeFirst := false, breakMs := 0 })
      (fun _ => rfl) (fun _ => rfl) (fun _ => rfl) (fun _ => rfl) fun _ => rfl)).trans (does_updSup _ g _)

theorem does_probe (g : Seg) (o : Observation) : Does s (s.probe g o) := by
  unfold State.probe
  refine ((does_updSup s g _).trans (does_updLine_aside _ g ?_ ?_ ?_ ?_ ?_)).trans (does_observe _ g o) <;> exact fun _ => rfl

theorem does_endSettle (g : Seg) : Does s (s.endSettle g) := by
  unfold State.endSettle; split
  · exact does_enterFault s g _
  · exact does_updSup s g _

end

end Sys2Proof.Machine
end

