-- ==== Sys2Proof/Proofs/TableDoes.lean ====
section
/-! PROOFS. The picker table and the task table stay sound under the requests that change them (R1, R2, R5, R13). -/

namespace Sys2Proof.Machine

section
variable {s : State}

/-! ### One picker record -/

theorem picker_updPicker (s : State) (p : Fin 12) (f : Picker → Picker) (q : Fin 12) :
    (s.updPicker p f).picker q = if q = p then f (s.picker p) else s.picker q := by
  by_cases e : q = p
  · subst e; rw [if_pos rfl, picker_updPicker_self]
  · have : (p : Nat) ≠ (q : Nat) := fun k => e (Fin.ext k.symm)
    rw [if_neg e]
    exact Vector.getElem_set_ne p.isLt q.isLt this

/-- What a picker record that takes another's place must meet: in range, at least as large a quota as it has entries, and a
style of its own. -/
structure State.Fits (s : State) (p : Fin 12) (y : Picker) : Prop where
  inRange : y.inRange
  quota : y.openCount ≤ y.quota
  style : ∀ q, q ≠ p → y.state ≠ .absent → (s.picker q).state ≠ .absent →
    ¬(y.colour = (s.picker q).colour ∧ y.pattern = (s.picker q).pattern)

theorem pickersSound_updPicker (hs : PickersSound s.pickers) {p : Fin 12} {f : Picker → Picker}
    (hf : s.Fits p (f (s.picker p))) : PickersSound (s.updPicker p f).pickers := by
  have at_ : ∀ q, (s.updPicker p f).pickers[q] = if q = p then f (s.picker p) else s.picker q := picker_updPicker s p f
  refine ⟨fun q => ?_, fun q => ?_, fun q q' hq h1 h2 => ?_⟩
  · rw [at_]; split
    · exact hf.inRange
    · exact hs.ranges q
  · rw [at_]; split
    · exact hf.quota
    · exact hs.quotas q
  · rw [at_] at h1 h2
    rw [at_, at_]
    by_cases e : q = p
    · subst e
      have e' : q' ≠ q := Ne.symm hq
      rw [if_pos rfl] at h1 ⊢
      rw [if_neg e'] at h2 ⊢
      exact hf.style q' e' h1 h2
    · rw [if_neg e] at h1 ⊢
      by_cases e' : q' = p
      · subst e'
        rw [if_pos rfl] at h2 ⊢
        rintro ⟨hc, hp⟩
        exact hf.style q e h2 h1 ⟨hc.symm, hp.symm⟩
      · rw [if_neg e'] at h2 ⊢
        exact hs.styles q q' hq h1 h2

/-- A change of one picker record, of its open count and of the task table. -/
theorem tableSound_updPicker (hs : TableSound s) {p : Fin 12} {f : Picker → Picker} (hf : s.Fits p (f (s.picker p)))
    {ts : List Task} (ht : TasksSound ts) (hp : (f (s.picker p)).openCount = ts.countP fun u => u.picker = p)
    (hne : ∀ q, q ≠ p → ts.countP (fun u => u.picker = q) = s.tasks.countP fun u => u.picker = q) :
    TableSound { s.updPicker p f with tasks := ts } := by
  refine ⟨pickersSound_updPicker hs.pickers hf, ht, fun q => ?_⟩
  have at_ : (s.updPicker p f).pickers[q] = if q = p then f (s.picker p) else s.picker q := picker_updPicker s p f q
  show (s.updPicker p f).pickers[q].openCount = _
  rw [at_]; split
  · next e => rw [e]; exact hp
  · next e => exact (hs.counts q).trans (hne q e).symm

theorem fits_self (hs : TableSound s) (p : Fin 12) : s.Fits p (s.picker p) :=
  ⟨hs.pickers.ranges p, hs.pickers.quotas p, fun q hq h1 h2 => hs.pickers.styles p q (Ne.symm hq) h1 h2⟩

theorem Picker.inRange_of_used {x : Picker} (h : x.inRange) (ha : x.state ≠ .absent) :
    x.colour ≠ 0 ∧ 1 ≤ x.level ∧ x.level ≤ 16 ∧ x.priority ≤ 3 ∧ 1 ≤ x.quota ∧ x.quota ≤ 255 := by
  unfold Picker.inRange at h; rwa [if_neg ha] at h

theorem Picker.inRange_of_absent {x : Picker} (h : x.inRange) (ha : x.state = .absent) : x = Picker.reset := by
  unfold Picker.inRange at h; rwa [if_pos ha] at h

theorem Picker.inRange_intro {x : Picker} (ha : x.state ≠ .absent)
    (h : x.colour ≠ 0 ∧ 1 ≤ x.level ∧ x.level ≤ 16 ∧ x.priority ≤ 3 ∧ 1 ≤ x.quota ∧ x.quota ≤ 255) : x.inRange := by
  unfold Picker.inRange; rwa [if_neg ha]

/-- R8 to R10: a picker record in use that changes between ACTIVE and PAUSED. -/
theorem tableSound_setState (hs : TableSound s) {p : Fin 12} (ha : (s.picker p).state ≠ .absent) {st : PickerState}
    (hst : st ≠ .absent) : TableSound (s.updPicker p fun x => { x with state := st }) := by
  have h := fits_self hs p
  have used := Picker.inRange_of_used h.inRange ha
  exact tableSound_updPicker hs (f := fun x => { x with state := st })
    ⟨Picker.inRange_intro hst used, h.quota, fun q hq _ h2 => h.style q hq ha h2⟩ hs.tasks
    (hs.counts p) fun _ _ => rfl

/-- R8: a picker without entries returns to its reset values. -/
theorem tableSound_drop (hs : TableSound s) {p : Fin 12} (ho : ¬0 < (s.picker p).openCount) :
    TableSound (s.updPicker p fun _ => Picker.reset) := by
  have hc : (s.picker p).openCount = s.tasks.countP fun u => u.picker = p := hs.counts p
  refine tableSound_updPicker hs (f := fun _ => Picker.reset) ⟨rfl, Nat.zero_le _, fun _ _ h => absurd rfl h⟩ hs.tasks ?_
    fun _ _ => rfl
  show 0 = _
  omega

/-! ### SET_PICKER (R3 to R5) -/

theorem fieldAt_one_le (payload : List Byte) (i : Nat) : fieldAt payload i 1 ≤ 255 := by
  by_cases h : i < payload.length
  · rw [fieldAt_byte payload i h]; have := payload[i].isLt; omega
  · rw [fieldAt, List.drop_eq_nil_of_le (by omega)]; exact Nat.zero_le 255

/-- R3: the values of a SET_PICKER that passes the value checks are in range. -/
theorem pickerValues_range {x : Picker} (hx : x.inRange) {m c pt l pr q : Nat} {v : PickerValues} (hq : q ≤ 255)
    (h : pickerValues x m c pt l pr q = some v) :
    v.colour ≠ 0 ∧ 1 ≤ v.level ∧ v.level ≤ 16 ∧ v.priority ≤ 3 ∧ 1 ≤ v.quota ∧ v.quota ≤ 255 := by
  have levels : 1 ≤ x.level ∧ x.level ≤ 16 ∧ x.priority ≤ 3 ∧ 1 ≤ x.quota ∧ x.quota ≤ 255 := by
    by_cases ha : x.state = .absent
    · rw [Picker.inRange_of_absent hx ha]; decide
    · exact (Picker.inRange_of_used hx ha).2
  obtain ⟨l1, l2, l3, l4, l5⟩ := levels
  unfold pickerValues at h
  simp only [] at h
  split at h
  · cases h
  split at h
  · next cc pp qq hc _ hqq =>
    cases h
    refine ⟨fun e => ?_, ?_, ?_, ?_, ?_⟩
    · have e : cc = 0 := e
      subst e
      split at hc
      · unfold givenColour at hc
        split at hc
        · next hg => cases hc; exact absurd hg.1 (by decide)
        · cases hc
      · split at hc
        · cases hc
        · next ha =>
          have ha : x.state ≠ .absent := by simpa using ha
          exact (Picker.inRange_of_used hx ha).1 (Option.some.inj hc)
    · show 1 ≤ (if m.testBit 2 then max 1 (min 16 l) else x.level)
      split <;> omega
    · show (if m.testBit 2 then max 1 (min 16 l) else x.level) ≤ 16
      split <;> omega
    · show (if m.testBit 3 then min 3 pr else x.priority) ≤ 3
      split <;> omega
    · show 1 ≤ qq ∧ qq ≤ 255
      split at hqq
      · split at hqq
        · cases hqq
        · cases hqq; omega
      · cases hqq; exact ⟨l4, l5⟩
  · cases h

/-- R3 to R5: a SET_PICKER that passes its checks. -/
theorem tableSound_take (hs : TableSound s) {p : Fin 12} {v : PickerValues}
    (hv : v.colour ≠ 0 ∧ 1 ≤ v.level ∧ v.level ≤ 16 ∧ v.priority ≤ 3 ∧ 1 ≤ v.quota ∧ v.quota ≤ 255)
    (hst : ¬s.styleTaken p v = true) (ho : ¬v.quota < (s.picker p).openCount) :
    TableSound (s.updPicker p fun y => y.take v) := by
  have ha : ((s.picker p).take v).state ≠ .absent := by
    show (if (s.picker p).state = .absent then .active else (s.picker p).state) ≠ PickerState.absent
    split
    · decide
    · assumption
  have hz : ((s.picker p).take v).openCount = (s.picker p).openCount := by
    show (if (s.picker p).state = .absent then 0 else (s.picker p).openCount) = _
    split
    · next h =>
      have e : s.picker p = Picker.reset := Picker.inRange_of_absent (hs.pickers.ranges p) h
      rw [e]; rfl
    · rfl
  have hq : ((s.picker p).take v).openCount ≤ v.quota := by omega
  have hc : (s.picker p).openCount = s.tasks.countP fun u => u.picker = p := hs.counts p
  refine tableSound_updPicker hs (f := fun y => y.take v) ⟨Picker.inRange_intro ha hv, hq, fun q hq _ h2 h3 => hst ?_⟩
    hs.tasks (hz.trans hc) fun _ _ => rfl
  exact styleTaken_iff.mpr ⟨q, hq, h2, h3.1.symm, h3.2.symm⟩

/-! ### A task entry is taken or freed (R2, R13, R32, R34) -/

theorem countP_filter_id (hn : (s.tasks.map Task.id).Nodup) {u : Task} (hu : u ∈ s.tasks) (q : Fin 12) :
    s.tasks.countP (fun v => v.picker = q) =
      (s.tasks.filter fun v => v.id ≠ u.id).countP (fun v => v.picker = q) + (if u.picker = q then 1 else 0) := by
  have split_ := List.countP_eq_countP_filter_add s.tasks (fun v => decide (v.picker = q)) fun v => decide (v.id ≠ u.id)
  have one : (s.tasks.filter fun v => !decide (v.id ≠ u.id)) = [u] := by
    have e : (s.tasks.filter fun v => !decide (v.id ≠ u.id)) = s.tasks.filter fun v => v.id = u.id :=
      List.filter_congr fun v _ => by simp
    rw [e]
    have hp : (s.tasks.filter fun v => v.id = u.id).Nodup := (List.Nodup.of_map Task.id hn).filter _
    have mem : ∀ v, v ∈ (s.tasks.filter fun v => v.id = u.id) ↔ v = u := fun v => by
      rw [List.mem_filter]
      simp only [decide_eq_true_eq]
      exact ⟨fun h => List.inj_on_of_nodup_map hn h.1 hu h.2, fun h => by rw [h]; exact ⟨hu, rfl⟩⟩
    exact List.perm_singleton.mp ((List.perm_ext_iff_of_nodup hp (List.nodup_singleton u)).mpr fun v => by
      rw [mem, List.mem_singleton])
  rw [split_, one]
  simp [List.countP_cons]

theorem tasksSound_filter {ts : List Task} (h : TasksSound ts) (f : Task → Bool) : TasksSound (ts.filter f) :=
  ⟨(List.filter_sublist.map Task.id).nodup h.ids, fun t ht => h.nonzero t (List.mem_filter.mp ht).1,
    h.indexes.sublist List.filter_sublist, fun t ht => h.requested t (List.mem_filter.mp ht).1⟩

/-- R32, R34: a task's entry is freed and its picker's open count falls. -/
theorem tableSound_dropTask (hs : TableSound s) {u : Task} (hu : u ∈ s.tasks) : TableSound (s.dropTask u) := by
  have h := fits_self hs u.picker
  have count := countP_filter_id hs.tasks.ids hu
  have hc : (s.picker u.picker).openCount = s.tasks.countP fun v => v.picker = u.picker := hs.counts u.picker
  have hself := count u.picker
  rw [if_pos rfl] at hself
  have hrange : ({ s.picker u.picker with openCount := (s.picker u.picker).openCount - 1 } : Picker).inRange := by
    by_cases ha : (s.picker u.picker).state = .absent
    · rw [Picker.inRange_of_absent h.inRange ha] at hc
      have hc : 0 = s.tasks.countP fun v => v.picker = u.picker := hc
      omega
    · have used := Picker.inRange_of_used h.inRange ha
      exact Picker.inRange_intro ha used
  refine tableSound_updPicker hs (p := u.picker) (f := fun x => { x with openCount := x.openCount - 1 })
    ⟨hrange, (Nat.sub_le _ _).trans h.quota, h.style⟩ (tasksSound_filter hs.tasks fun v => v.id ≠ u.id) ?_ fun q hq => ?_
  · show (s.picker u.picker).openCount - 1 = (s.tasks.filter fun v => v.id ≠ u.id).countP fun v => v.picker = u.picker
    omega
  · have := count q
    rw [if_neg (Ne.symm hq)] at this
    show (s.tasks.filter fun v => v.id ≠ u.id).countP (fun v => v.picker = q) = _
    omega

theorem countP_insertTask (f : Task → Bool) (u : Task) (l : List Task) :
    (insertTask u l).countP f = l.countP f + (if f u then 1 else 0) := by
  rw [(insertTask_perm u l).countP_eq, List.countP_cons]

/-- R13: a task takes its place by its index, which no other has. -/
theorem pairwise_insertTask {u : Task} {l : List Task} (h : l.Pairwise fun a b => a.index.val < b.index.val)
    (hu : ∀ v ∈ l, v.index ≠ u.index) : (insertTask u l).Pairwise fun a b => a.index.val < b.index.val := by
  induction l with
  | nil => exact List.pairwise_singleton _ _
  | cons v l ih =>
    obtain ⟨h1, h2⟩ := List.pairwise_cons.mp h
    simp only [insertTask]
    split
    · next hlt =>
      refine List.pairwise_cons.mpr ⟨fun w hw => ?_, h⟩
      rcases List.mem_cons.mp hw with rfl | hw
      · exact hlt
      · have := h1 w hw; omega
    · next hlt =>
      refine List.pairwise_cons.mpr ⟨fun w hw => ?_, ih h2 fun w hw => hu w (List.mem_cons_of_mem v hw)⟩
      rcases mem_insertTask.mp hw with rfl | hw
      · have hne : v.index.val ≠ w.index.val := fun e => hu v List.mem_cons_self (Fin.ext e)
        omega
      · exact h1 w hw

/-- R19: what a task that takes an entry must meet. -/
structure State.Accepts (s : State) (u : Task) : Prop where
  id : ∀ v ∈ s.tasks, v.id ≠ u.id
  nonzero : u.id ≠ 0
  index : ∀ v ∈ s.tasks, v.index ≠ u.index
  requested : 1 ≤ u.requested ∧ u.requested ≤ 999
  picker : (s.picker u.picker).state ≠ .absent
  quota : (s.picker u.picker).openCount < (s.picker u.picker).quota

theorem tasksSound_insertTask {u : Task} (ht : TasksSound s.tasks) (hu : s.Accepts u) : TasksSound (insertTask u s.tasks) where
  ids := by
    rw [((insertTask_perm u s.tasks).map Task.id).nodup_iff, List.map_cons, List.nodup_cons]
    refine ⟨fun hm => ?_, ht.ids⟩
    obtain ⟨v, hv, e⟩ := List.mem_map.mp hm
    exact hu.id v hv e
  nonzero := fun v hv => (mem_insertTask.mp hv).elim (fun e => e ▸ hu.nonzero) (ht.nonzero v)
  indexes := pairwise_insertTask ht.indexes hu.index
  requested := fun v hv => (mem_insertTask.mp hv).elim (fun e => e ▸ hu.requested) (ht.requested v)

/-- R19: a task's entry is taken and its picker's open count rises. -/
theorem tableSound_insertTask (hs : TableSound s) {u : Task} (hu : s.Accepts u) :
    TableSound { s.updPicker u.picker (fun x => { x with openCount := x.openCount + 1 }) with
      tasks := insertTask u s.tasks } := by
  have h := fits_self hs u.picker
  have hc : (s.picker u.picker).openCount = s.tasks.countP fun v => v.picker = u.picker := hs.counts u.picker
  have used := Picker.inRange_of_used h.inRange hu.picker
  refine tableSound_updPicker hs (p := u.picker) (f := fun x => { x with openCount := x.openCount + 1 })
    ⟨Picker.inRange_intro hu.picker used, hu.quota, h.style⟩
    (tasksSound_insertTask hs.tasks hu) ?_ fun q hq => ?_
  · rw [countP_insertTask]
    simpa using hc
  · rw [countP_insertTask]
    simp [Ne.symm hq]

/-- R38: an empty task table. -/
theorem tableSound_forget (hs : TableSound s) :
    PickersSound (s.pickers.map fun p => { p with openCount := 0 }) := by
  have at_ : ∀ p : Fin 12, (s.pickers.map fun p => { p with openCount := 0 })[p] = { s.picker p with openCount := 0 } :=
    fun p => Vector.getElem_map _ _
  refine ⟨fun p => ?_, fun p => ?_, fun p q hpq h1 h2 => ?_⟩
  · rw [at_]
    have h := hs.pickers.ranges p
    by_cases ha : (s.picker p).state = .absent
    · have e : s.picker p = Picker.reset := Picker.inRange_of_absent h ha
      rw [e]; rfl
    · have used := Picker.inRange_of_used h ha
      exact Picker.inRange_intro ha used
  · rw [at_]; exact Nat.zero_le _
  · rw [at_] at h1 h2
    rw [at_, at_]
    exact hs.pickers.styles p q hpq h1 h2

end

end Sys2Proof.Machine
end

