-- ==== Sys2Proof/Proofs/RequestDoes.lean ====
section
/-! PROOFS. The rule of every request keeps what O59 asks (chapters 1, 2, 4, 5, 6, 9 and 10). -/

namespace Sys2Proof.Machine

section
variable {s t u : State}

/-- What changes the pickers and the task table, and is for the rest the arbiter's. -/
theorem Does.of_table (hk : t.kept = u.kept) (hl : u.link = s.link) (hg : u.segs = s.segs) (hc : u.currents = s.currents)
    (ht : TableSound s → TableSound u) (hr : t.rails = s.rails) (hs : s.Stands settled → t.Stands settled) : Does s t where
  table := fun h => tableSound_of_untouched (untouched_of_kept hk) (ht h)
  config := fun h => configSound_of_untouched (untouched_of_kept hk)
    ⟨fun g => by rw [seg_of_segs hg]; exact h.segs g, fun c => by rw [hc]; exact h.currents c⟩
  stands := hs
  directory := directory_of_entries (entry_of_rails hr)
  queues := queues_of_rails hr
  rotation := rotation_of_rails hr
  requests := by rw [requests_of_kept hk, hl]
  replies := by rw [replies_of_kept hk, hl]
  notices := fun h => notices_of_kept hk (by rw [hl]; exact h)

/-- A change of one picker record. -/
theorem does_updPicker {p : Fin 12} {f : Picker → Picker} (h : TableSound s → TableSound (s.updPicker p f)) :
    Does s (s.updPicker p f) :=
  .of_table rfl rfl rfl rfl h rfl fun hs => stands_updPicker hs p f

end

section
variable (s : State)

/-! ### Pickers (chapter 1) -/

theorem does_handPriority (p : Fin 12) (b n : Nat) : Does s (s.handPriority p b n) := by
  unfold State.handPriority; split
  · exact Does.refl s
  · exact Does.foldl allSegs (fun s g _ => does_reprioritise s g p n) s

theorem does_setPickerRule (payload : List Byte) : Does s (setPickerRule payload s).state := by
  unfold setPickerRule
  split
  · exact Does.refl s
  next p _ =>
  simp only []
  split
  · exact Does.refl s
  next v hv =>
  repeat' split
  · exact Does.refl s
  · exact Does.refl s
  · exact Does.refl s
  · next hst ho =>
    refine (does_updPicker fun h => ?_).trans (does_handPriority _ p _ _)
    exact tableSound_take h (pickerValues_range (h.pickers.ranges p) (fieldAt_one_le payload 6) hv) hst ho

theorem kept_mapTasks {f : Task → Task} (hf : ∀ u, (f u).fixed = u.fixed) :
    ({ s with tasks := s.tasks.map f } : State).kept = s.kept := by
  have e : (s.tasks.map f).map Task.fixed = s.tasks.map Task.fixed := by
    rw [List.map_map]; exact List.map_congr_left fun u _ => hf u
  simp only [State.kept, State.untouched, e]

theorem kept_pauseTasks (p : Fin 12) : (s.pauseTasks p).kept = s.kept :=
  kept_mapTasks s (f := Task.pausedBy p) fun u => by unfold Task.pausedBy; split <;> rfl

theorem kept_requeueTasks (p : Fin 12) : (s.requeueTasks p).kept = s.kept :=
  kept_mapTasks s (f := Task.requeuedBy p) fun u => by unfold Task.requeuedBy; split <;> rfl

theorem kept_yieldSlot (u : Task) : (s.yieldSlot u).kept = s.kept := by
  unfold State.yieldSlot; simp only []; split <;> simp

theorem does_pauseRule {p : Fin 12} (ha : (s.picker p).state ≠ .absent) : Does s (pauseRule p s).state := by
  have h1 : Does s (s.updPicker p fun x => { x with state := .paused }) :=
    does_updPicker fun h => tableSound_setState h ha (by decide)
  refine h1.trans ?_
  set u := s.updPicker p fun x => { x with state := .paused }
  refine .of_rails ?_ ?_ fun h => stands_pause h p _
  · exact (kept_selectAll _ _).trans ((kept_foldl _ (fun s t => kept_yieldSlot s t) _ _).trans (kept_pauseTasks u p))
  · exact (rails_selectAll _ _).trans (rails_foldl _ (fun s t => rails_yieldSlot s t) _ _)

theorem does_pausePickerRule (payload : List Byte) : Does s (pausePickerRule payload s).state := by
  unfold pausePickerRule
  split
  · exact Does.refl s
  · split
    · exact Does.refl s
    · exact Does.refl s
    · next hst => exact does_pauseRule s (by rw [hst]; decide)

theorem does_resumeRule {p : Fin 12} (ha : (s.picker p).state ≠ .absent) : Does s (resumeRule p s).state := by
  have h1 : Does s (s.updPicker p fun x => { x with state := .active }) :=
    does_updPicker fun h => tableSound_setState h ha (by decide)
  refine h1.trans (Does.trans ?_ (does_selectAll _ _))
  exact .of_rails (kept_requeueTasks _ p) rfl fun h => stands_requeueTasks h p

theorem does_resumePickerRule (payload : List Byte) : Does s (resumePickerRule payload s).state := by
  unfold resumePickerRule
  split
  · exact Does.refl s
  · split
    · exact Does.refl s
    · exact Does.refl s
    · next hst => exact does_resumeRule s (by rw [hst]; decide)

theorem does_dropPickerRule (payload : List Byte) : Does s (dropPickerRule payload s).state := by
  unfold dropPickerRule
  repeat' split
  · exact Does.refl s
  · exact Does.refl s
  · exact Does.refl s
  · next ho => exact does_updPicker fun h => tableSound_drop h ho

/-! ### The link (R179, R180, R185) -/

theorem does_setLinkRateRule (payload : List Byte) : Does s (setLinkRateRule payload s).state := by
  unfold setLinkRateRule; simp only []; split <;> exact Does.refl s

theorem does_clearLinkCounters : Does s (s.updLink fun l => { l with counters := LinkCounters.zero }) :=
  ⟨.of_like (fun h => ⟨h.pickers, h.tasks, h.counts⟩) rfl (fun h => h.congr rfl fun _ => rfl) fun _ => Segment.Like.refl _,
    rfl, rfl, id⟩

theorem does_readStatsRule (payload : List Byte) : Does s (readStatsRule payload s).state := by
  unfold readStatsRule
  split
  · exact Does.refl s
  · split
    · exact Does.refl s
    · show Does s (if _ then _ else _)
      split
      · unfold State.clearCounters; split
        · exact does_count s _ _
        · exact does_clearLinkCounters s
      · exact Does.refl s

/-! ### Segments (chapters 5 and 9) -/

/-- R182: a clamped field lies in its range, and so does one that is kept. -/
theorem clampField_range {given : Bool} {low high new old : Nat} (h : low ≤ high) (ho : low ≤ old ∧ old ≤ high) :
    low ≤ clampField given low high new old ∧ clampField given low high new old ≤ high := by
  unfold clampField; split <;> omega

theorem newConfig_inRange {payload : List Byte} {c d : SegConfig} (hc : c.InRange) (h : newConfig payload c = some d) :
    d.InRange := by
  unfold newConfig at h
  simp only [] at h
  split at h
  · cases h
  split at h
  · cases h
    exact
      { budget := clampField_range (by decide) hc.budget
        baseCurrent := (clampField_range (by decide) ⟨Nat.zero_le _, hc.baseCurrent⟩).2
        economyLevel := clampField_range (by decide) hc.economyLevel
        guardMs := (clampField_range (by decide) ⟨Nat.zero_le _, hc.guardMs⟩).2
        stuckTime := clampField_range (by decide) hc.stuckTime
        lock := clampField_range (by decide) hc.lock
        unlock := clampField_range (by decide) hc.unlock
        delay0 := (clampField_range (by decide) ⟨Nat.zero_le _, hc.delay0⟩).2
        window := clampField_range (by decide) hc.window
        shift := (clampField_range (by decide) ⟨Nat.zero_le _, hc.shift⟩).2
        slew := clampField_range (by decide) hc.slew
        jumpOver := clampField_range (by decide) hc.jumpOver }
  · cases h

theorem Entry.adjustRuns_steady (a b : Bool) (c : SegConfig) : Entry.Steady (Entry.adjustRuns a b c) where
  core := fun e => by unfold Entry.adjustRuns; repeat' split
                      all_goals rfl
  skip := fun e h => by
    have : (e.adjustRuns a b c).skip = e.skip := by
      unfold Entry.adjustRuns; repeat' split
      all_goals rfl
    rw [this]; exact h

theorem entry_reconfigure (g : Seg) (c : SegConfig) (r : SlotRef) :
    (s.updSeg g (Segment.reconfigure c)).entry r =
      if r.seg = g then
        (s.entry r).adjustRuns ((s.seg g).config.lock ≠ c.lock) ((s.seg g).config.unlock ≠ c.unlock) c
      else s.entry r := by
  unfold State.entry
  rw [State.seg_updSeg]
  split
  · next e => subst e; simp [Segment.reconfigure]
  · rfl

theorem does_reconfigure (g : Seg) {c : SegConfig} (hc : ConfigSound s → c.InRange) :
    Does s (s.updSeg g (Segment.reconfigure c)) := by
  have he := entry_reconfigure s g c
  have hst := Entry.adjustRuns_steady ((s.seg g).config.lock ≠ c.lock) ((s.seg g).config.unlock ≠ c.unlock) c
  have hl : ∀ k, ((s.updSeg g (Segment.reconfigure c)).seg k).line = (s.seg k).line := fun k => by
    rw [State.seg_updSeg]; split
    · next e => rw [e]; rfl
    · rfl
  refine ⟨⟨fun h => ⟨h.pickers, h.tasks, h.counts⟩, fun h => ⟨fun k => ?_, h.currents⟩,
    fun h => h.congr rfl (site_updSeg s g (fun _ => rfl) (fun _ => rfl) fun _ => rfl),
    directory_of_cores (fun r => ?_) fun r hr => ?_, fun h k => by rw [hl]; exact h k, fun h k => ?_⟩, rfl, rfl, id⟩
  · rw [State.seg_updSeg]; split
    · exact hc h
    · exact h.segs k
  · rw [he]; split
    · exact hst.core _
    · rfl
  · rw [he, hr]; split <;> rfl
  · obtain ⟨hm, hk⟩ := (rotationSound_iff _).mp (h k)
    refine (rotationSound_iff _).mpr ⟨by rw [hl]; exact hm, fun ix => ?_⟩
    show ((s.updSeg g (Segment.reconfigure c)).entry ⟨k, ix⟩).skip ≤ 7
    rw [he]; split
    · exact hst.skip _ (hk ix)
    · exact hk ix

theorem does_takeGovernorFields (g : Seg) (a b : SegConfig) : Does s (s.takeGovernorFields g a b) := by
  unfold State.takeGovernorFields; split
  · exact Does.refl s
  · simp only []
    refine Does.trans ?_ (does_baseChange _ g)
    split
    · exact does_relevel s g _
    · exact Does.refl s

theorem does_setSegmentRule (payload : List Byte) : Does s (setSegmentRule payload s).state := by
  unfold setSegmentRule
  split
  · exact Does.refl s
  next g _ =>
  simp only []
  split
  · exact Does.refl s
  next c hc =>
  split
  · exact Does.refl s
  · exact (does_reconfigure s g fun h => newConfig_inRange (h.segs g) hc).trans (does_takeGovernorFields _ g _ _)

theorem newCurrents_le {payload : List Byte} {old : Vector Nat 7} (h : ∀ c : Fin 7, old[c] ≤ 255) (c : Fin 7) :
    (newCurrents payload old)[c] ≤ 255 := by
  have : (newCurrents payload old)[c] = if (fieldAt payload 0 1).testBit c.val then fieldAt payload (1 + c.val) 1 else old[c] := by
    simp [newCurrents]
  rw [this]; split
  · exact fieldAt_one_le payload _
  · exact h c

theorem does_setCurrents {v : Vector Nat 7} (h : (∀ c : Fin 7, s.currents[c] ≤ 255) → ∀ c : Fin 7, v[c] ≤ 255) :
    Does s { s with currents := v } where
  table := fun hs => ⟨hs.pickers, hs.tasks, hs.counts⟩
  config := fun hs => ⟨hs.segs, h hs.currents⟩
  stands := fun hs => hs.congr rfl fun _ => rfl
  directory := directory_of_entries fun _ => rfl
  queues := id
  rotation := id
  requests := rfl
  replies := rfl
  notices := id

theorem does_setColourCurrentsRule (payload : List Byte) : Does s (setColourCurrentsRule payload s).state := by
  unfold setColourCurrentsRule; split
  · exact Does.refl s
  · have hv := newCurrents_le (payload := payload) (old := s.currents)
    simp only [answer]
    generalize newCurrents payload s.currents = v at hv ⊢
    exact (does_setCurrents s hv).trans (Does.foldl allSegs (fun s g _ => does_loadChange s g) _)

theorem does_onSegment (payload : List Byte) {rule : Seg → State → Answer} (h : ∀ g, Does s (rule g s).state) :
    Does s (onSegment payload rule s).state := by
  unfold onSegment; split
  · exact Does.refl s
  · exact h _

theorem does_segmentPowerRule (payload : List Byte) : Does s (segmentPowerRule payload s).state := by
  refine does_onSegment s payload fun g => ?_
  split
  · exact Does.refl s
  · unfold powerOn; split
    · exact does_enterStarting s g
    · exact Does.refl s
  · exact does_enterOff s g

theorem does_markBreak (g : Seg) : Does s (s.markBreak g) := by
  have h := does_updSup s g fun v => { v with breakPending := true }
  unfold State.markBreak; simp only []; split
  · exact h.trans (does_updLine_aside _ g (f := fun l => { l with breaking := true })
      (fun _ => rfl) (fun _ => rfl) (fun _ => rfl) (fun _ => rfl) fun _ => rfl)
  · exact h

theorem does_breakSegmentRule (payload : List Byte) : Does s (breakSegmentRule payload s).state := by
  refine does_onSegment s payload fun g => ?_
  repeat' split
  · exact Does.refl s
  · exact Does.refl s
  · exact does_markBreak s g

theorem does_beginHold (g : Seg) (tag : Tag) : Does s (s.beginHold g tag) :=
  ((does_updSup s g _).trans (does_setSegState _ g _ _)).trans (does_settleLine _ g)

theorem does_holdSegmentRule (tag : Tag) (payload : List Byte) : Does s (holdSegmentRule tag payload s).state := by
  refine does_onSegment s payload fun g => ?_
  repeat' split
  · exact Does.refl s
  · exact Does.refl s
  · exact does_beginHold s g tag

theorem does_releaseSegmentRule (payload : List Byte) : Does s (releaseSegmentRule payload s).state := by
  refine does_onSegment s payload fun g => ?_
  split
  · exact does_releaseHold s g
  · split
    · exact Does.refl s
    · exact does_releaseHold s g
  all_goals exact Does.refl s

theorem does_rawExchangeRule (tag : Tag) (payload : List Byte) : Does s (rawExchangeRule tag payload s).state := by
  unfold rawExchangeRule
  split
  · exact Does.refl s
  · unfold rawChecks
    split
    · repeat' split
      · exact Does.refl s
      · exact Does.refl s
      · exact Does.refl s
      · exact Does.refl s
      · simp only [segAnswer, answer]
        exact does_updSup s _ _
    · exact Does.refl s

/-! ### The directory (chapter 6) -/

theorem does_provisionSlotRule (payload : List Byte) : Does s (provisionSlotRule payload s).state := by
  unfold provisionSlotRule; simp only []
  repeat' split
  · exact Does.refl s
  · exact Does.refl s
  · next hx => exact does_provisionSlot s _ _ (by simpa using hx)

theorem does_unprovisionSlotRule (payload : List Byte) : Does s (unprovisionSlotRule payload s).state := by
  unfold unprovisionSlotRule
  repeat' split
  · exact Does.refl s
  · exact Does.refl s
  · exact Does.refl s
  · exact does_unprovisionSlot s _

theorem does_querySlotRule (payload : List Byte) : Does s (querySlotRule payload s).state := by
  unfold querySlotRule; split <;> exact Does.refl s

theorem does_discoverRule (tag : Tag) (payload : List Byte) : Does s (discoverRule tag payload s).state := by
  refine does_onSegment s payload fun g => ?_
  repeat' split
  · exact Does.refl s
  · exact Does.refl s
  · simp only [segAnswer, answer]
    exact does_updSup s g _

/-! ### Tasks (chapter 2) -/

/-- R18: what a record that passes its checks gives. -/
theorem accepts_of_checkRecord {s : State} {x : TaskRecord} {c : CheckedRecord} (h : s.checkRecord x = .ok c) :
    s.Accepts (s.newTask x c) ∧ (s.slot c.slot).waiting.length < 8 := by
  unfold State.checkRecord at h
  split at h
  · split at h
    · cases h
    next hx =>
    split at h
    · cases h
    next hid =>
    split at h
    · cases h
    next ha =>
    split at h
    · cases h
    split at h
    · cases h
    split at h
    · cases h
    next hq =>
    split at h
    · cases h
    next i hi =>
    split at h
    · cases h
    next hw =>
    cases h
    have e8 : Config.waitingSetSize = 8 := rfl
    refine ⟨⟨fun v hv e => ?_, fun e => hx (.inl e), fun v hv e => ?_, ?_, ha, Nat.lt_of_not_le hq⟩, ?_⟩
    · have hn : s.task? x.id = none := by simpa using hid
      have := List.find?_eq_none.mp hn v hv
      have e : v.id = x.id := e
      exact this (by simpa using e)
    · have := List.find?_some hi
      have := List.all_eq_true.mp this v hv
      simp only [decide_eq_true_eq] at this
      exact this e
    · show 1 ≤ x.requested ∧ x.requested ≤ 999
      omega
    · simpa [e8] using hw
  · cases h

theorem newTask_state (x : TaskRecord) (c : CheckedRecord) :
    (s.newTask x c).state = .queued ∨ (s.newTask x c).state = .paused := by
  show (if (s.picker c.picker).state = .active then TaskState.queued else .paused) = .queued ∨
    (if (s.picker c.picker).state = .active then TaskState.queued else .paused) = .paused
  split
  · exact .inl rfl
  · exact .inr rfl

theorem does_acceptTask {s : State} {u : Task} (hu : s.Accepts u) (hst : u.state = .queued ∨ u.state = .paused)
    (hw : (s.slot u.slot).waiting.length < 8) : Does s (s.acceptTask u) := by
  refine .of_table (u := { s.updPicker u.picker (fun p => { p with openCount := p.openCount + 1 }) with
      tasks := insertTask u s.tasks, submitCounter := s.submitCounter + 1 }) ?_ rfl rfl rfl (fun h => ?_) (by simp)
    fun h => stands_acceptTask h hu.id hst hw
  · exact kept_updSlot _ _ _
  · have := tableSound_insertTask h hu
    exact ⟨this.pickers, this.tasks, this.counts⟩

theorem does_takeRecord (b : Batch) (x : TaskRecord) : Does b.state (b.takeRecord x).state := by
  unfold Batch.takeRecord
  split
  · exact Does.refl _
  · next c hc =>
    obtain ⟨hu, hw⟩ := accepts_of_checkRecord hc
    exact does_acceptTask hu (newTask_state b.state x c) hw

theorem does_takeRecords (records : List TaskRecord) (b : Batch) : Does b.state (records.foldl Batch.takeRecord b).state := by
  induction records generalizing b with
  | nil => exact Does.refl _
  | cons x xs ih => exact (does_takeRecord b x).trans (ih _)

theorem does_submitRule (payload : List Byte) : Does s (submitRule payload s).state := by
  unfold submitRule; simp only []
  repeat' split
  · exact Does.refl s
  · exact Does.refl s
  · exact Does.refl s
  · exact (does_takeRecords _ ⟨s, [], []⟩).trans (does_selectAll _ _)

theorem mem_of_named? {s : State} {id : TaskId} {u : Task} (h : s.named? id = .ok u) : u ∈ s.tasks := by
  unfold State.named? at h
  split at h
  · cases h
  · split at h
    · cases h
    · next hu => cases h; exact List.mem_of_find?_eq_some hu

theorem does_cancelTask {s : State} {u : Task} (hu : u ∈ s.tasks) : Does s (s.cancelTask u) := by
  refine .of_table (u := s.dropTask u) ?_ rfl rfl rfl (fun h => tableSound_dropTask h hu) (by simp)
    fun h => stands_cancelTask h hu
  unfold State.cancelTask State.vacatePlace; simp only []; split <;> simp

theorem does_cancelRule (payload : List Byte) : Does s (cancelRule payload s).state := by
  unfold cancelRule
  repeat' split
  · exact Does.refl s
  · exact Does.refl s
  · next hu _ => exact does_cancelTask (mem_of_named? hu)

theorem does_retireRule (payload : List Byte) : Does s (retireRule payload s).state := by
  unfold retireRule
  split
  · exact Does.refl s
  · next u hu =>
    have hm := mem_of_named? hu
    split
    · next ht => exact .of_table rfl rfl rfl rfl (fun h => tableSound_dropTask h hm) rfl fun h => stands_retire h hm ht
    · exact Does.refl s

theorem does_queryTaskRule (payload : List Byte) : Does s (queryTaskRule payload s).state := by
  unfold queryTaskRule; split <;> exact Does.refl s

theorem does_listTasksRule (payload : List Byte) : Does s (listTasksRule payload s).state := by
  unfold listTasksRule; simp only []
  repeat' split
  all_goals exact Does.refl s

/-- R38 steps 1, 2 and 5, the captures apart, leave the rails. -/
theorem rails_forgetTasks : s.forgetTasks.rails = ({ s with captures := Vector.replicate 16 none } : State).rails := by
  have h : ∀ g, (s.forgetTasks.seg g).sup = (s.seg g).sup ∧ (s.forgetTasks.seg g).entries = (s.seg g).entries ∧
      (s.forgetTasks.seg g).line = (s.seg g).line := fun g => by simp [State.forgetTasks, State.seg]
  simp only [State.rails, h]
  rfl

theorem kept_clearTasks : s.clearTasks.kept = s.forgetTasks.kept := by
  have governor : ∀ (u : State) (g : Seg), (u.clearGovernor g).kept = u.kept := fun u g => by
    unfold State.clearGovernor; simp only []; split <;> simp
  unfold State.clearTasks
  rw [kept_foldl _ governor, kept_foldl _ fun s r => kept_clearShadow s r]

theorem rails_clearTasks : s.clearTasks.rails = s.forgetTasks.rails := by
  have governor : ∀ (u : State) (g : Seg), (u.clearGovernor g).rails = u.rails := fun u g => by
    unfold State.clearGovernor; simp only []; split <;> simp
  unfold State.clearTasks
  rw [rails_foldl _ governor, rails_foldl _ fun s r => rails_clearShadow s r]

theorem config_forgetTasks (g : Seg) : (s.forgetTasks.seg g).config = (s.seg g).config := by
  simp [State.forgetTasks, State.seg]

theorem does_clearTasks : Does s s.clearTasks := by
  have h1 : Does s { s with captures := Vector.replicate 16 none } := .of_segs rfl rfl rfl rfl rfl
  have hr := (rails_clearTasks s).trans (rails_forgetTasks s)
  have hk := kept_clearTasks s
  refine ⟨⟨fun h => tableSound_of_untouched (untouched_of_kept hk) ⟨tableSound_forget h, ?_, fun p => ?_⟩, fun h => ?_,
    stands_clearTasks, fun h => directory_of_entries (entry_of_rails hr) (h1.directory h),
    fun h => queues_of_rails hr (h1.queues h), fun h => rotation_of_rails hr (h1.rotation h)⟩,
    (requests_of_kept hk).trans rfl, (replies_of_kept hk).trans rfl, notices_of_kept (s := s.forgetTasks) hk⟩
  · exact ⟨List.nodup_nil, fun _ h => (nomatch h), List.Pairwise.nil, fun _ h => (nomatch h)⟩
  · show (s.pickers.map fun x : Picker => { x with openCount := 0 })[p].openCount = 0
    simp
  · refine configSound_of_untouched (s := s.forgetTasks) (untouched_of_kept hk) ?_
    exact ⟨fun g => by rw [config_forgetTasks]; exact h.segs g, h.currents⟩

/-! ### Captures (R78, R79) -/

theorem does_setCapture (i : Fin 16) (c : Option Capture) : Does s (s.setCapture i c) := .of_segs rfl rfl rfl rfl rfl

theorem does_armCaptureRule (payload : List Byte) : Does s (armCaptureRule payload s).state := by
  unfold armCaptureRule; simp only []
  repeat' split
  · exact Does.refl s
  · exact Does.refl s
  · exact Does.refl s
  · exact does_setCapture s _ _

theorem does_disarmCaptureRule (payload : List Byte) : Does s (disarmCaptureRule payload s).state := by
  unfold disarmCaptureRule; simp only []
  repeat' split
  · exact Does.refl s
  · exact Does.refl s
  · exact does_setCapture s _ _
  · exact Does.refl s

end

end Sys2Proof.Machine
end

