-- ==== Sys2Proof/Proofs/LinkKeeps.lean ====
section
/-! PROOFS. The link keeps its lists within their room (R173 to R178), and a request keeps what O59 asks. -/

namespace Sys2Proof.Machine

/-! ### The lists of the link (R173, R174, R178) -/

section
variable {l : Link}

theorem linkBounded_place (h : LinkBounded l) (hr : l.replies.length < Config.replyListSize) (k : Byte) (tag : Tag)
    (p : List Byte) (a : AfterSent) : LinkBounded (l.place k tag p a) := by
  refine ⟨h.requests, ?_, h.notices⟩
  show (l.replies ++ [_]).length ≤ _
  rw [List.length_append]
  exact hr

theorem linkBounded_sendReply (h : LinkBounded l) : LinkBounded l.sendReply := by
  unfold Link.sendReply; split
  · exact h
  · next r rs hr =>
    refine ⟨h.requests, ?_, h.notices⟩
    have := h.replies
    rw [hr, List.length_cons] at this
    exact Nat.le_of_succ_le this

theorem linkBounded_kick (h : LinkBounded l) : LinkBounded l.kick := by
  unfold Link.kick
  repeat' split
  · exact h
  · exact linkBounded_sendReply h
  · exact ⟨h.requests, h.replies, h.notices⟩
  · exact h

theorem linkBounded_refuseBusy (h : LinkBounded l) (f : Request) : LinkBounded (l.refuseBusy f) := by
  have h1 : LinkBounded { l with counters := { l.counters with linkBusy := l.counters.linkBusy + 1 } } :=
    ⟨h.requests, h.replies, h.notices⟩
  unfold Link.refuseBusy; simp only []; split
  · next hr => exact linkBounded_kick (linkBounded_place h1 hr _ _ _ _)
  · exact h1

theorem linkBounded_acceptFrame (h : LinkBounded l) (f : Request) : LinkBounded (l.acceptFrame f) := by
  unfold Link.acceptFrame; simp only []; split
  · next hr =>
    refine ⟨?_, h.replies, h.notices⟩
    show (l.requests ++ [f]).length ≤ _
    rw [List.length_append]
    exact hr
  · refine linkBounded_refuseBusy ?_ f
    exact ⟨h.requests, h.replies, h.notices⟩

theorem linkBounded_rejectFrame (h : LinkBounded l) : LinkBounded l.rejectFrame := ⟨h.requests, h.replies, h.notices⟩

theorem linkBounded_scan (n : Nat) (bytes : List Byte) (h : LinkBounded l) : LinkBounded (Link.scan n bytes l) := by
  induction n generalizing bytes l with
  | zero => exact ⟨h.requests, h.replies, h.notices⟩
  | succ n ih =>
    unfold Link.scan
    split
    · exact ⟨h.requests, h.replies, h.notices⟩
    · exact ⟨h.requests, h.replies, h.notices⟩
    · split
      · exact ih _ h
      · split
        · exact ih _ (linkBounded_rejectFrame h)
        · split
          · exact ⟨h.requests, h.replies, h.notices⟩
          · split
            · exact ih _ (linkBounded_acceptFrame h _)
            · exact ih _ (linkBounded_rejectFrame h)

theorem linkBounded_timeOut (h : LinkBounded l) : LinkBounded l.timeOut := ⟨h.requests, h.replies, h.notices⟩

theorem linkBounded_receiveBytes (h : LinkBounded l) (bytes : List Byte) : LinkBounded (l.receiveBytes bytes) := by
  have scanned : ∀ (n : Nat) (b : List Byte) {l1 : Link}, LinkBounded l1 →
      LinkBounded { l1.scan n b with gapMs := 0 } := fun n b _ h1 =>
    ⟨(linkBounded_scan n b h1).requests, (linkBounded_scan n b h1).replies, (linkBounded_scan n b h1).notices⟩
  unfold Link.receiveBytes; split
  · exact h
  · simp only []
    split
    · exact scanned _ _ (linkBounded_timeOut h)
    · exact scanned _ _ h

theorem linkBounded_offer (h : LinkBounded l) (f : Request) : LinkBounded (l.offer f) := by
  unfold Link.offer; split
  · exact linkBounded_acceptFrame h f
  · exact h

theorem linkBounded_beginTaking (h : LinkBounded l) : LinkBounded l.beginTaking :=
  ⟨(List.tail_sublist _).length_le.trans h.requests, h.replies, h.notices⟩

theorem linkBounded_endTaking (h : LinkBounded l) (hr : l.replies.length < Config.replyListSize) (f : Request) (a : Answer) :
    LinkBounded (l.endTaking f a) := by
  have h1 := linkBounded_place h hr f.kind f.tag (a.status.code :: a.data) a.after
  unfold Link.endTaking; simp only []; split
  · exact ⟨h1.requests, h1.replies, h1.notices⟩
  · exact ⟨h1.requests, h1.replies, h1.notices⟩

end

/-! ### Requests (R174, R175) -/

section
variable {s t : State}

/-- What leaves everything but the link. -/
theorem Keeps.of_link (hp : t.pickers = s.pickers) (ht : t.tasks = s.tasks) (hc : t.currents = s.currents)
    (hg : t.segs = s.segs) (hl : LinkBounded s.link → LinkBounded t.link) : Keeps s t where
  toGuards := .of_like (fun h => ⟨hp ▸ h.pickers, ht ▸ h.tasks, by rw [hp, ht]; exact h.counts⟩) hc
    (fun h => h.congr ht (site_congr ht (fun g => by rw [seg_of_segs hg]) (fun g => by rw [seg_of_segs hg])
      fun g => by rw [seg_of_segs hg])) fun g => by rw [seg_of_segs hg]; exact Segment.Like.refl _
  link := hl

theorem keeps_updLink (s : State) {f : Link → Link} (h : LinkBounded s.link → LinkBounded (f s.link)) :
    Keeps s (s.updLink f) := .of_link rfl rfl rfl rfl h

theorem keeps_kick (s : State) : Keeps s s.kick := keeps_updLink s linkBounded_kick

theorem Does.finish (h : Does s t) : Keeps s t.finish := (h.trans (does_settleLines t)).keeps.trans (keeps_kick _)

theorem Keeps.finish (h : Keeps s t) : Keeps s t.finish := h.trans (Does.refl t).finish

/-- A rule that does what a block may do. -/
def Rules (rule : State → Answer) : Prop := ∀ s, Does s (rule s).state

theorem keeps_takeRequest (f : Request) {rule : State → Answer} (hrule : Rules rule)
    (hr : s.link.replies.length < Config.replyListSize) : Keeps s (s.takeRequest f rule) := by
  have h1 := (hrule (s.updLink Link.beginTaking)).trans (does_settleLines _)
  have hb : Keeps s (s.updLink Link.beginTaking) := keeps_updLink s linkBounded_beginTaking
  refine ((hb.trans h1.keeps).trans (keeps_updLink _ fun h => linkBounded_endTaking h ?_ f _)).trans (keeps_kick _)
  rw [h1.replies]
  exact hr

theorem keeps_decode (s : State) (f : Request) {rule : State → Answer} (hrule : Rules rule) : Keeps s (s.decode f rule) := by
  have ho : Keeps s (s.updLink fun l => l.offer f) := keeps_updLink s fun h => linkBounded_offer h f
  unfold State.decode; simp only []; split
  · next hk =>
    refine ho.trans (keeps_takeRequest f hrule ?_)
    simp only [Link.takes, Bool.and_eq_true, decide_eq_true_eq] at hk
    exact hk.2
  · exact ho.trans (keeps_kick _)

theorem rules_lengthChecked (n : Nat) (f : Request) {rule : State → Answer} (h : Rules rule) :
    Rules (lengthChecked n f rule) := fun s => by
  unfold lengthChecked; split
  · exact h s
  · exact Does.refl s

/-- What a command's outcome keeps. -/
def Yields (s : State) (o : Host.Outcome State Fault Refusal) : Prop := ∀ t, o = .next t → Keeps s t

theorem yields_done (h : Keeps s t) : Yields s (done t) := fun u e => by cases e; exact h

theorem yields_same (s : State) : Yields s (done s) := yields_done (Keeps.refl s)

theorem yields_fault (x : Fault) : Yields s (.fault x) := fun _ e => nomatch e

theorem yields_request (s : State) (kind : Byte) (tag : Tag) (payload : List Byte) {rule : State → Answer} (h : Rules rule) :
    Yields s (request kind tag payload rule s) := by
  unfold request; split
  · exact yields_done (keeps_decode s _ h)
  · exact yields_fault _

theorem yields_fixedRequest (s : State) (kind : Byte) (n : Nat) (tag : Tag) (payload : List Byte) {rule : State → Answer}
    (h : Rules rule) : Yields s (fixedRequest kind n tag payload rule s) :=
  yields_request s kind tag payload (rules_lengthChecked n _ h)

end

end Sys2Proof.Machine
end

