-- ==== Sys2Proof/Proofs/StepKeeps.lean ====
section
/-! PROOFS. Every command, and every millisecond without one, keeps what O59 asks. -/

namespace Sys2Proof.Machine

/-! ### Reset (R181) -/

section
variable (s : State)

theorem tableSound_resetAll : TableSound s.resetAll := by
  have hp : ∀ p : Fin 12, s.resetAll.pickers[p] = Picker.reset := picker_resetAll s
  refine ⟨⟨fun p => ?_, fun p => ?_, fun p q _ h1 _ => ?_⟩,
    ⟨List.nodup_nil, fun _ h => (nomatch h), List.Pairwise.nil, fun _ h => (nomatch h)⟩, fun p => ?_⟩
  · rw [hp]; unfold Picker.inRange; rw [if_pos (by rfl)]
  · rw [hp]; exact Nat.zero_le _
  · rw [hp] at h1; exact absurd rfl h1
  · rw [hp]; rfl

theorem configSound_resetAll : ConfigSound s.resetAll := by
  refine ⟨fun g => ?_, fun c => ?_⟩
  · rw [(segment_resetAll s g).2.1]
    exact ⟨by decide, by decide, by decide, by decide, by decide, by decide, by decide, by decide, by decide, by decide,
      by decide, by decide⟩
  · show currentsReset[c] ≤ 255
    revert c; decide

theorem entry_resetAll (r : SlotRef) : s.resetAll.entry r = Entry.reset := entries_resetAll s r.seg r.ix

theorem directorySound_resetAll : DirectorySound s.resetAll := by
  refine ⟨fun r => ?_, fun q r n hq _ => ?_, fun q r n hq _ => ?_⟩
  · rw [entry_resetAll]; exact rfl
  · rw [entry_resetAll] at hq; cases hq
  · rw [entry_resetAll] at hq; cases hq

theorem line_resetAll (g : Seg) : (s.resetAll.seg g).line = LineCtl.reset := by rw [seg_resetAll]; rfl

theorem queuesSound_resetAll (g : Seg) : QueuesSound (s.resetAll.seg g).line := by
  rw [line_resetAll]; exact ⟨List.nodup_nil, Nat.zero_le 16, fun _ => Nat.zero_le 1⟩

theorem rotationSound_resetAll (g : Seg) : RotationSound (s.resetAll.seg g) := by
  refine (rotationSound_iff _).mpr ⟨?_, fun ix => ?_⟩
  · rw [line_resetAll]; exact ⟨Nat.zero_le 62, fun _ => rfl, fun h => nomatch h⟩
  · rw [entries_resetAll]; decide

theorem keeps_resetAll : Keeps s s.resetAll where
  table := fun _ => tableSound_resetAll s
  config := fun _ => configSound_resetAll s
  stands := fun _ => stands_resetAll s
  directory := fun _ => directorySound_resetAll s
  queues := fun _ => queuesSound_resetAll s
  rotation := fun _ => rotationSound_resetAll s
  link := fun _ => ⟨Nat.zero_le _, Nat.zero_le _, Nat.zero_le _⟩

/-! ### Time (R26, R131, R183) -/

theorem Segment.like_pass (n : Nat) (x : Segment) : x.Like (x.pass n) := by
  unfold Segment.pass Segment.passExchange Segment.passRaw
  simp only []
  cases x.line.inFlight <;> cases x.sup.raw <;> exact ⟨rfl, rfl, rfl, rfl, rfl, rfl, rfl, rfl, rfl, rfl⟩

theorem tableSound_passTime (n : Nat) (h : TableSound s) : TableSound (s.passTime n) := by
  by_cases hn : n = 0
  · subst hn; exact h
  have hf : (s.tasks.map (s.passedTask n)).map Task.fixed = s.tasks.map Task.fixed := by
    rw [List.map_map]
    exact List.map_congr_left fun u _ => by unfold Function.comp State.passedTask Task.pass; split <;> rfl
  rw [passTime_pos (Nat.pos_of_ne_zero hn)]
  exact ⟨h.pickers, tasksSound_of_fixed hf h.tasks, fun p => (h.counts p).trans (countP_picker_of_fixed hf p).symm⟩

theorem does_passTime (n : Nat) : Does s (s.passTime n) := by
  by_cases hn : n = 0
  · subst hn; exact Does.refl s
  have hpos := Nat.pos_of_ne_zero hn
  have e := passTime_pos hpos s
  refine ⟨.of_like (tableSound_passTime s n) (by rw [e]) (fun h => stands_passTime h n) fun g => ?_, by rw [e], by rw [e],
    fun h => by rw [e]; exact h⟩
  rw [passTime_seg hpos]
  exact Segment.like_pass n _

theorem does_syncDue : Does s s.syncDue :=
  .of_like rfl rfl rfl rfl fun g => by
    have e : s.syncDue.seg g = { s.seg g with line := { (s.seg g).line with syncDue := true } } := by
      simp [State.syncDue, State.seg]
    rw [e]; exact ⟨rfl, rfl, rfl, rfl, rfl, rfl, rfl, rfl, rfl, rfl⟩

theorem does_advancePhase : Does s s.advancePhase := by
  have h : Does s { s with phase := s.phase + 1, phaseMs := s.phaseMs - Config.phaseMs } := .of_segs rfl rfl rfl rfl rfl
  unfold State.advancePhase; simp only []; split
  · exact h.trans (does_syncDue _)
  · exact h

/-- R26: the timer runs of a task that is SHOWN. -/
theorem timed_spec {s : State} {id : TaskId} {u : Task} (h : s.timed id = some u) : u ∈ s.tasks ∧ u.state = .shown := by
  unfold State.timed at h
  split at h
  · next t ht =>
    split at h
    · next hr =>
      cases h
      simp only [Task.timerRuns, Bool.and_eq_true, decide_eq_true_eq] at hr
      exact ⟨List.mem_of_find?_eq_some ht, hr.1.1⟩
    · cases h
  · cases h

theorem does_expire (id : TaskId) : Does s (s.expire id) := by
  unfold State.expire; split
  · next u hu =>
    obtain ⟨hm, hst⟩ := timed_spec hu
    exact .of_rails (by simp) (by simp) fun h => stands_endTask h hm hst _ _
  · exact Does.refl s

theorem keeps_timeOut : Keeps s (s.updLink Link.timeOut) := keeps_updLink s linkBounded_timeOut

/-- What an event of the clock does. -/
theorem keeps_takeDue (e : ClockEvent) : Keeps s (s.takeDue e) := by
  cases e with
  | phase => exact (does_advancePhase s).finish
  | frameTimeout =>
    simp only [State.takeDue]; split
    · exact Keeps.refl s
    · exact (keeps_timeOut s).finish
  | settleEnd g =>
    simp only [State.takeDue]; split
    · exact (does_endSettle s g).finish
    · exact Keeps.refl s
  | quietEnd g =>
    simp only [State.takeDue]; split
    · exact (does_enterRunning s g).finish
    · exact Keeps.refl s
  | expiry id =>
    simp only [State.takeDue]; split
    · exact (does_expire s id).finish
    · exact Keeps.refl s

theorem Keeps.foldl {α : Type} {f : State → α → State} (h : ∀ s a, Keeps s (f s a)) (l : List α) (s : State) :
    Keeps s (l.foldl f s) := by
  induction l generalizing s with
  | nil => exact Keeps.refl s
  | cons a l ih => exact (h s a).trans (ih _)

theorem keeps_takeAll (l : List ClockEvent) : Keeps s (s.takeAll l) := by
  have h : Does s { s with ties := s.ties + 1 } := .of_segs rfl rfl rfl rfl rfl
  unfold State.takeAll; split
  · exact Keeps.refl s
  · exact keeps_takeDue s _
  · exact h.keeps.trans (Keeps.foldl keeps_takeDue _ _)

theorem does_passOne : Does s s.passOne :=
  (does_passTime s 1).trans (Does.foldl _ (fun s g _ => does_settleLine s g) _)

theorem keeps_wait (c : Option ClockEvent) (n : Nat) : Keeps s (s.wait c n) := by
  induction n generalizing s with
  | zero => exact Keeps.refl s
  | succ n ih => exact ((does_passOne s).keeps.trans (keeps_takeAll _ _)).trans (ih _)

theorem keeps_whenFree (g : Seg) : Keeps s (s.whenFree g) := by
  unfold State.whenFree; split
  · exact keeps_wait s _ _
  · exact Keeps.refl s

theorem does_queueDue : Does s s.queueDue := by
  unfold State.queueDue; split
  · exact Does.refl s
  · exact .of_segs rfl rfl rfl rfl rfl
  · exact .of_segs rfl rfl rfl rfl rfl

theorem does_tick : Does s s.tick := (does_passOne s).trans (does_queueDue _)

/-! ### The commands of the line (chapter 7) -/

theorem yields_endOfKind (k : LineKind) (g : Seg) (h : Heard) : Yields s (endOfKind k g h s) := by
  unfold endOfKind; simp only []
  split
  · exact yields_same s
  split
  · exact yields_same s
  split
  · exact yields_done ((keeps_whenFree s g).trans (does_endAddressed _ g _ _ h).finish)
  · exact yields_same s

theorem yields_sync (g : Seg) (taken : Bool) : Yields s (execSync g taken s) := by
  unfold execSync; simp only []
  split
  · exact yields_same s
  split
  · exact yields_done ((keeps_whenFree s g).trans (does_endSync _ g _ taken).finish)
  · exact yields_same s

theorem yields_enumerate (g : Seg) (x : Round) : Yields s (execEnumerate g x s) := by
  unfold execEnumerate; simp only []
  split
  · exact yields_same s
  split
  · exact yields_done ((keeps_whenFree s g).trans (does_endRound _ g _ _).finish)
  · exact yields_same s

theorem yields_rawExchangeEnd (g : Seg) (h : Heard) : Yields s (execRawExchangeEnd g h s) := by
  unfold execRawExchangeEnd; split
  · exact yields_same s
  · exact yields_done (does_concludeRaw s g _ h).finish

theorem yields_breakEnd (g : Seg) : Yields s (execBreakEnd g s) := by
  unfold execBreakEnd
  split
  · exact yields_done ((does_resetModules s g).trans (does_beginQuiet _ g)).finish
  split
  · exact yields_done (does_endBreak s g).finish
  · exact yields_same s

theorem yields_lineSenseProbe (g : Seg) (o : Observation) : Yields s (execLineSenseProbe g o s) := by
  unfold execLineSenseProbe; simp only []; split
  · exact yields_done ((keeps_wait s _ _).trans (does_probe _ g o).finish)
  · exact yields_same s

theorem yields_supplyTrip (g : Seg) : Yields s (execSupplyTrip g s) :=
  yields_done ((does_setTrip s g true).trans (does_enterFault _ g _)).finish

theorem yields_tripInputReturnToClear (g : Seg) : Yields s (execTripInputReturnToClear g s) :=
  yields_done (does_setTrip s g false).keeps

/-! ### The commands of the link and the clock (chapters 10 and 11) -/

theorem yields_frameReceived (bytes : List Byte) : Yields s (execFrameReceived bytes s) :=
  yields_done (keeps_updLink s fun h => linkBounded_receiveBytes h bytes).finish

theorem keeps_waitThenTake (c : Option ClockEvent) (n : Nat) (e : ClockEvent) : Keeps s ((s.wait c n).takeDue e) :=
  (keeps_wait s c n).trans (keeps_takeDue _ e)

theorem yields_frameTimedOut : Yields s (execFrameTimedOut s) := by
  unfold execFrameTimedOut; split
  · exact yields_same s
  · exact yields_done (keeps_waitThenTake s _ _ _)

theorem keeps_afterReply (a : AfterSent) : Keeps s (s.afterReply a) := by
  cases a with
  | nothing => exact Keeps.refl s
  | setRate baud => exact keeps_updLink s (f := fun l => { l with rate := baud }) fun h => ⟨h.requests, h.replies, h.notices⟩
  | restart => exact keeps_resetAll s

theorem keeps_frameSent (x : Sending) : Keeps s (s.frameSent x) := by
  cases x with
  | reply r =>
    have h : Keeps s (s.updLink fun l => { l with sending := none, lastNotice := false }) :=
      keeps_updLink s fun h => ⟨h.requests, h.replies, h.notices⟩
    refine h.trans (keeps_afterReply _ r.after)
  | notice =>
    refine keeps_updLink s (f := fun l => { l with sending := none, lastNotice := true, notices := l.notices.tail }) fun h => ?_
    exact ⟨h.requests, h.replies, (List.tail_sublist _).length_le.trans h.notices⟩

theorem yields_frameSent : Yields s (execFrameSent s) := by
  unfold execFrameSent; split
  · exact yields_same s
  · exact yields_done (keeps_frameSent s _).finish

theorem yields_settleEnd (g : Seg) : Yields s (execSettleEnd g s) := by
  unfold execSettleEnd; split
  · exact yields_done (keeps_waitThenTake s _ _ _)
  · exact yields_same s

theorem yields_quietEnd (g : Seg) : Yields s (execQuietEnd g s) := by
  unfold execQuietEnd; split
  · exact yields_done (keeps_waitThenTake s _ _ _)
  · exact yields_same s

theorem yields_taskExpiry (id : TaskId) : Yields s (execTaskExpiry id s) := by
  unfold execTaskExpiry; split
  · exact yields_same s
  · exact yields_done (keeps_waitThenTake s _ _ _)

theorem does_atModule (serial : Serial) (f : Module → Module) : Does s (s.atModule serial f) := .of_segs rfl rfl rfl rfl rfl

theorem yields_moduleReset (g : Seg) (serial : Serial) (address : BitVec 6) (replaced : Option Serial) :
    Yields s (execModuleReset g serial address replaced s) := by
  have hu : Does s (s.unfit replaced) := .of_segs rfl rfl rfl rfl rfl
  have hf : ∀ t : State, Does t (t.fit g serial address) := fun t => by
    unfold State.fit; split <;> exact .of_segs rfl rfl rfl rfl rfl
  unfold execModuleReset; split
  · exact yields_done (hu.trans (hf _)).keeps
  · exact yields_fault _

theorem does_clearTasksRule : Does s (clearTasksRule s).state := by
  simp only [clearTasksRule, answer]
  exact does_clearTasks s

theorem yields_unknownKind (kind : Byte) (tag : Tag) (payload : List Byte) :
    Yields s (execUnknownKindRequest kind tag payload s) := by
  unfold execUnknownKindRequest; split
  · exact yields_fault _
  · exact yields_request s kind tag payload Does.refl

/-! ### Every command -/

theorem yields_exec (i : Instr) : Yields s (exec i s) := by
  cases i with
  | reset => exact yields_done (keeps_resetAll s)
  | frameReceived bytes => exact yields_frameReceived s bytes
  | frameTimedOut => exact yields_frameTimedOut s
  | frameSent => exact yields_frameSent s
  | unknownKindRequest kind tag payload => exact yields_unknownKind s kind tag payload
  | identify tag payload => exact yields_fixedRequest s _ _ tag payload Does.refl
  | readTime tag payload => exact yields_fixedRequest s _ _ tag payload Does.refl
  | setLinkRate tag payload => exact yields_fixedRequest s _ _ tag payload fun s => does_setLinkRateRule s payload
  | restart tag payload => exact yields_fixedRequest s _ _ tag payload Does.refl
  | clearTasks tag payload => exact yields_fixedRequest s _ _ tag payload does_clearTasksRule
  | setPicker tag payload => exact yields_fixedRequest s _ _ tag payload fun s => does_setPickerRule s payload
  | pausePicker tag payload => exact yields_fixedRequest s _ _ tag payload fun s => does_pausePickerRule s payload
  | resumePicker tag payload => exact yields_fixedRequest s _ _ tag payload fun s => does_resumePickerRule s payload
  | dropPicker tag payload => exact yields_fixedRequest s _ _ tag payload fun s => does_dropPickerRule s payload
  | submit tag payload => exact yields_request s _ tag payload fun s => does_submitRule s payload
  | cancel tag payload => exact yields_fixedRequest s _ _ tag payload fun s => does_cancelRule s payload
  | retire tag payload => exact yields_fixedRequest s _ _ tag payload fun s => does_retireRule s payload
  | queryTask tag payload => exact yields_fixedRequest s _ _ tag payload fun s => does_queryTaskRule s payload
  | listTasks tag payload => exact yields_fixedRequest s _ _ tag payload fun s => does_listTasksRule s payload
  | armCapture tag payload => exact yields_fixedRequest s _ _ tag payload fun s => does_armCaptureRule s payload
  | disarmCapture tag payload => exact yields_fixedRequest s _ _ tag payload fun s => does_disarmCaptureRule s payload
  | setSegment tag payload => exact yields_fixedRequest s _ _ tag payload fun s => does_setSegmentRule s payload
  | setColourCurrents tag payload =>
    exact yields_fixedRequest s _ _ tag payload fun s => does_setColourCurrentsRule s payload
  | segmentPower tag payload => exact yields_fixedRequest s _ _ tag payload fun s => does_segmentPowerRule s payload
  | breakSegment tag payload => exact yields_fixedRequest s _ _ tag payload fun s => does_breakSegmentRule s payload
  | holdSegment tag payload => exact yields_fixedRequest s _ _ tag payload fun s => does_holdSegmentRule s tag payload
  | releaseSegment tag payload => exact yields_fixedRequest s _ _ tag payload fun s => does_releaseSegmentRule s payload
  | rawExchange tag payload => exact yields_request s _ tag payload fun s => does_rawExchangeRule s tag payload
  | provisionSlot tag payload => exact yields_fixedRequest s _ _ tag payload fun s => does_provisionSlotRule s payload
  | unprovisionSlot tag payload =>
    exact yields_fixedRequest s _ _ tag payload fun s => does_unprovisionSlotRule s payload
  | querySlot tag payload => exact yields_fixedRequest s _ _ tag payload fun s => does_querySlotRule s payload
  | discover tag payload => exact yields_fixedRequest s _ _ tag payload fun s => does_discoverRule s tag payload
  | readStats tag payload => exact yields_fixedRequest s _ _ tag payload fun s => does_readStatsRule s payload
  | poll seg heard => exact yields_endOfKind s .poll seg heard
  | showDisplay seg heard => exact yields_endOfKind s .showCmd seg heard
  | digits seg heard => exact yields_endOfKind s .digits seg heard
  | dark seg heard => exact yields_endOfKind s .dark seg heard
  | ident seg heard => exact yields_endOfKind s .ident seg heard
  | assign seg heard => exact yields_endOfKind s .assign seg heard
  | sync seg taken => exact yields_sync s seg taken
  | enumerate seg round => exact yields_enumerate s seg round
  | rawExchangeEnd seg heard => exact yields_rawExchangeEnd s seg heard
  | breakEnd seg => exact yields_breakEnd s seg
  | settleEnd seg => exact yields_settleEnd s seg
  | quietEnd seg => exact yields_quietEnd s seg
  | lineSenseProbe seg observation => exact yields_lineSenseProbe s seg observation
  | supplyTrip seg => exact yields_supplyTrip s seg
  | taskExpiry task => exact yields_taskExpiry s task
  | blinkPhaseAdvance => exact yields_done (keeps_waitThenTake s _ _ _)
  | tripInputReturnToClear seg => exact yields_tripInputReturnToClear s seg
  | buttonPress serial button => exact yields_done (does_atModule s serial _).keeps
  | buttonRelease serial button => exact yields_done (does_atModule s serial _).keeps
  | moduleReset seg serial address replaced => exact yields_moduleReset s seg serial address replaced

theorem keeps_step {s t : State} (h : step s = .next t) : Keeps s t := by
  unfold step at h
  split at h
  · cases h; exact (does_tick s).keeps
  · next c rest _ =>
    have hp : Keeps s { s with pending := rest } := .of_link rfl rfl rfl rfl id
    exact hp.trans (yields_exec _ c t h)

end

/-- Settles O59: each part is one of what every step keeps, by the case of the command that waits or of a millisecond. -/
theorem everyStepKeepsRecordsSound : Obligations.EveryStepKeepsRecordsSound := by
  refine ⟨fun s t hl ht hc h => ?_, fun s t ht ha h => ?_, fun s t hd h => (keeps_step h).directory hd,
    fun s t hq h => (keeps_step h).queues hq, fun s t hr h => (keeps_step h).rotation hr⟩
  · have k := keeps_step h
    exact ⟨k.link hl, k.table ht, k.config hc⟩
  · exact sound_of_stands ((keeps_step h).stands (stands_of_sound ht.tasks.ids ha))

end Sys2Proof.Machine
end

