-- ==== Sys2Proof/Proofs/GovernorLeaves.lean ====
section
/-! PROOFS. What the governor of one segment leaves as it is: the other segments, the slots but for their shadows, and the
tasks that are not in WAIT_LOAD (chapter 5). -/

namespace Sys2Proof.Machine

/-! ### What the governor does to the tasks -/

/-- R21: a task is as it was, or it has entered SHOWN. -/
def Task.Risen (u v : Task) : Prop := v = u ∨ v.state = .shown ∧ v.fixed = u.fixed

theorem Task.Risen.trans {u v w : Task} (h : u.Risen v) (k : v.Risen w) : u.Risen w := by
  rcases k with rfl | ⟨k1, k2⟩
  · exact h
  · rcases h with rfl | ⟨-, h2⟩
    · exact .inr ⟨k1, k2⟩
    · exact .inr ⟨k1, k2.trans h2⟩

theorem Task.Risen.fixed {u v : Task} (h : u.Risen v) : v.fixed = u.fixed := by
  rcases h with rfl | ⟨-, h⟩
  · rfl
  · exact h

theorem id_of_fixed {u v : Task} (h : v.fixed = u.fixed) : v.id = u.id := by
  have e : v.fixed.id = u.fixed.id := congrArg Task.id h
  exact e

/-- The tasks of `t` are those of `s`, some of which have entered SHOWN: with distinct ids only such as were in WAIT_LOAD. -/
def Rises (s t : State) : Prop :=
  ∃ f : Task → Task, t.tasks = s.tasks.map f ∧ (∀ u : Task, u.Risen (f u)) ∧
    (s.DistinctIds → ∀ u ∈ s.tasks, f u = u ∨ u.state = .waitLoad)

theorem Rises.of_tasks {s t : State} (h : t.tasks = s.tasks) : Rises s t :=
  ⟨id, by rw [h, List.map_id], fun _ => .inl rfl, fun _ _ _ => .inl rfl⟩

theorem Rises.distinctIds {s t : State} (h : Rises s t) (hi : s.DistinctIds) : t.DistinctIds := by
  obtain ⟨f, ht, hf, -⟩ := h
  exact distinctIds_of_map f (fun u => id_of_fixed (hf u).fixed) ht hi

theorem Rises.trans {s t u : State} (h : Rises s t) (k : Rises t u) : Rises s u := by
  have hids := h.distinctIds
  obtain ⟨f, ht, hf, hw⟩ := h
  obtain ⟨f', ht', hf', hw'⟩ := k
  refine ⟨f' ∘ f, by rw [ht', ht, List.map_map], fun v => (hf v).trans (hf' _), fun hi v hv => ?_⟩
  rcases hw hi v hv with e | e
  · have hm : v ∈ t.tasks := by rw [ht]; exact List.mem_map.mpr ⟨v, hv, e⟩
    rcases hw' (hids hi) v hm with e' | e'
    · exact .inl (by rw [Function.comp, e, e'])
    · exact .inr e'
  · exact .inr e

/-- A task in WAIT_LOAD was so before. -/
theorem Rises.waited {s t : State} (h : Rises s t) {v : Task} (hv : v ∈ t.tasks) (hst : v.state = .waitLoad) : v ∈ s.tasks := by
  obtain ⟨f, ht, hf, -⟩ := h
  rw [ht] at hv
  obtain ⟨u, hu, rfl⟩ := List.mem_map.mp hv
  rcases hf u with e | ⟨e, -⟩
  · rw [e]; exact hu
  · rw [e] at hst; cases hst

/-- A task that is not in WAIT_LOAD stays as it is. -/
theorem Rises.stays {s t : State} (h : Rises s t) (hi : s.DistinctIds) {u : Task} (hu : u ∈ s.tasks)
    (hst : u.state ≠ .waitLoad) : u ∈ t.tasks := by
  obtain ⟨f, ht, -, hw⟩ := h
  rw [ht]
  exact List.mem_map.mpr ⟨u, hu, (hw hi u hu).resolve_right hst⟩

/-! ### What the governor of one segment does -/

/-- R42, R43: a slot's record but for its shadow. -/
def Slot.chair (x : Slot) : Slot := { x with shadow := Shadow.dark 0 }

theorem Slot.chair_iff {x y : Slot} : y.chair = x.chair ↔
    y.waiting = x.waiting ∧ y.current = x.current ∧ y.tenure = x.tenure ∧ y.serviceable = x.serviceable := by
  simp [Slot.chair]

/-- What the governor of segment `g` does where it touches the displays of the addresses in `T`: from `s` it makes `t`. -/
structure Governs (g : Seg) (T : Fin 62 → Prop) (s t : State) : Prop where
  kept : t.kept = s.kept
  rails : t.rails = s.rails
  others : ∀ k, k ≠ g → t.seg k = s.seg k
  chairs : ∀ r, (t.slot r).chair = (s.slot r).chair
  rise : Rises s t
  /-- a request was queued before -/
  queue : ∀ a ∈ (t.gov g).queue, ∃ b ∈ (s.gov g).queue, b.ix = a.ix ∧ b.task = a.task
  /-- a display was lit before, or its task was in WAIT_LOAD -/
  lit : ∀ e ∈ (t.gov g).lit, (∃ b ∈ (s.gov g).lit, b.ix = e.ix ∧ b.task = e.task) ∨
    T e.ix ∧ ∃ u ∈ s.tasks, u.id = e.task ∧ u.state = .waitLoad
  /-- an address not touched keeps its shadow's owner and seq, and all of it where it is not lit -/
  shadow : ∀ ix, ¬T ix → (t.shadow ⟨g, ix⟩).seq = (s.shadow ⟨g, ix⟩).seq ∧ (t.shadow ⟨g, ix⟩).owner = (s.shadow ⟨g, ix⟩).owner ∧
    ((∀ e ∈ (s.gov g).lit, e.ix ≠ ix) → t.shadow ⟨g, ix⟩ = s.shadow ⟨g, ix⟩)

section
variable {g : Seg} {T : Fin 62 → Prop} {s t u : State}

theorem Governs.trans (h : Governs g T s t) (k : Governs g T t u) : Governs g T s u where
  kept := k.kept.trans h.kept
  rails := k.rails.trans h.rails
  others := fun i hi => (k.others i hi).trans (h.others i hi)
  chairs := fun r => (k.chairs r).trans (h.chairs r)
  rise := h.rise.trans k.rise
  queue := fun a ha => by
    obtain ⟨b, hb, e1, e2⟩ := k.queue a ha
    obtain ⟨c, hc, e3, e4⟩ := h.queue b hb
    exact ⟨c, hc, e3.trans e1, e4.trans e2⟩
  lit := fun e he => by
    rcases k.lit e he with ⟨b, hb, e1, e2⟩ | ⟨ht, v, hv, e1, e2⟩
    · rcases h.lit b hb with ⟨c, hc, e3, e4⟩ | ⟨ht, v, hv, e3, e4⟩
      · exact .inl ⟨c, hc, e3.trans e1, e4.trans e2⟩
      · exact .inr ⟨e1 ▸ ht, v, hv, e3.trans e2, e4⟩
    · exact .inr ⟨ht, v, h.rise.waited hv e2, e1, e2⟩
  shadow := fun ix hx => by
    obtain ⟨a1, a2, a3⟩ := h.shadow ix hx
    obtain ⟨b1, b2, b3⟩ := k.shadow ix hx
    refine ⟨b1.trans a1, b2.trans a2, fun hl => (b3 fun e he => ?_).trans (a3 hl)⟩
    rcases h.lit e he with ⟨c, hc, e3, -⟩ | ⟨ht, -⟩
    · rw [← e3]; exact hl c hc
    · exact fun hi => hx (hi ▸ ht)

theorem slot_of_slots (h : ∀ k, (t.seg k).slots = (s.seg k).slots) (r : SlotRef) : t.slot r = s.slot r := by
  unfold State.slot; rw [h]

/-- What leaves the tasks, the slots and the governors. -/
theorem Governs.of_aside (hk : t.kept = s.kept) (hr : t.rails = s.rails) (ho : ∀ k, k ≠ g → t.seg k = s.seg k)
    (ht : t.tasks = s.tasks) (hs : ∀ k, (t.seg k).slots = (s.seg k).slots) (hg : (t.seg g).gov = (s.seg g).gov) :
    Governs g T s t := by
  have hv : t.gov g = s.gov g := hg
  have hsh : ∀ r, t.shadow r = s.shadow r := fun r => by unfold State.shadow; rw [slot_of_slots hs]
  exact
    { kept := hk, rails := hr, others := ho, chairs := fun r => by rw [slot_of_slots hs], rise := .of_tasks ht
      queue := fun a ha => ⟨a, hv ▸ ha, rfl, rfl⟩, lit := fun e he => .inl ⟨e, hv ▸ he, rfl, rfl⟩
      shadow := fun ix _ => by rw [hsh]; exact ⟨rfl, rfl, fun _ => rfl⟩ }

variable (s)

theorem Governs.refl : Governs g T s s := .of_aside rfl rfl (fun _ _ => rfl) rfl (fun _ => rfl) rfl

theorem governs_notify (b : NoticeBody) : Governs g T s (s.notify b) :=
  .of_aside (by simp) (by simp) (fun k _ => seg_of_segs (s.notify_segs b) k) (by simp)
    (fun k => by rw [seg_of_segs (s.notify_segs b)]) (by rw [seg_of_segs (s.notify_segs b)])

theorem governs_count (f : SegCounters → SegCounters) : Governs g T s (s.count g f) :=
  .of_aside (by simp) (by simp) (fun k hk => by rw [State.seg_count, if_neg hk]) rfl (by simp) (by simp)

theorem seg_handDisplay_of_ne (r : SlotRef) (c : DisplayKind) {k : Seg} (hk : k ≠ r.seg) :
    (s.handDisplay r c).seg k = s.seg k := by
  have line : ∀ (u : State) (f : LineCtl → LineCtl), (u.updLine r.seg f).seg k = u.seg k := fun u f => by
    rw [State.seg_updLine, if_neg hk]
  have queued : (s.queueDisplay r c).seg k = s.seg k := by
    unfold State.queueDisplay; split
    · exact line s _
    · exact line s _
  unfold State.handDisplay State.joinDisplay; simp only []
  split
  · split
    · rw [State.seg_count, if_neg hk, queued]
    · exact queued
  · rfl

theorem slots_handDisplay (r : SlotRef) (c : DisplayKind) (k : Seg) : ((s.handDisplay r c).seg k).slots = (s.seg k).slots := by
  unfold State.handDisplay State.joinDisplay State.queueDisplay State.mergeDisplay State.appendDisplay; simp only []
  repeat' split
  all_goals simp

theorem gov_handDisplay (r : SlotRef) (c : DisplayKind) (k : Seg) : ((s.handDisplay r c).seg k).gov = (s.seg k).gov := by
  unfold State.handDisplay State.joinDisplay State.queueDisplay State.mergeDisplay State.appendDisplay; simp only []
  repeat' split
  all_goals simp

theorem tasks_handDisplay (r : SlotRef) (c : DisplayKind) : (s.handDisplay r c).tasks = s.tasks := by
  unfold State.handDisplay State.joinDisplay State.queueDisplay State.mergeDisplay State.appendDisplay; simp only []
  repeat' split
  all_goals simp

theorem governs_handDisplay (ix : Fin 62) (c : DisplayKind) : Governs g T s (s.handDisplay ⟨g, ix⟩ c) :=
  .of_aside (by simp) (by simp) (fun _ hk => seg_handDisplay_of_ne s _ c hk) (tasks_handDisplay s _ c)
    (slots_handDisplay s _ c) (gov_handDisplay s _ c g)

theorem slot_updGov (f : Governor → Governor) (r : SlotRef) : (s.updGov g f).slot r = s.slot r := by
  unfold State.slot; simp

/-- A change of the governor's record. -/
theorem governs_updGov {f : Governor → Governor}
    (hq : ∀ a ∈ (f (s.gov g)).queue, ∃ b ∈ (s.gov g).queue, b.ix = a.ix ∧ b.task = a.task)
    (hl : ∀ e ∈ (f (s.gov g)).lit, (∃ b ∈ (s.gov g).lit, b.ix = e.ix ∧ b.task = e.task) ∨
      T e.ix ∧ ∃ u ∈ s.tasks, u.id = e.task ∧ u.state = .waitLoad) : Governs g T s (s.updGov g f) := by
  have hv : (s.updGov g f).gov g = f (s.gov g) := State.updGov_gov s g f
  exact
    { kept := by simp, rails := by simp, others := fun k hk => by rw [State.seg_updGov, if_neg hk]
      chairs := fun r => by rw [slot_updGov], rise := .of_tasks rfl
      queue := fun a ha => hq a (hv ▸ ha), lit := fun e he => hl e (hv ▸ he)
      shadow := fun ix _ => by unfold State.shadow; rw [slot_updGov]; exact ⟨rfl, rfl, fun _ => rfl⟩ }

theorem governs_recompute : Governs g T s (s.recompute g) := by
  unfold State.recompute
  exact governs_updGov s (fun a ha => ⟨a, ha, rfl, rfl⟩) fun e he => .inl ⟨e, he, rfl, rfl⟩

theorem slot_updShadow (r q : SlotRef) (f : Shadow → Shadow) :
    (s.updShadow r f).slot q = if q = r then { s.slot r with shadow := f (s.shadow r) } else s.slot q :=
  State.slot_updSlot s r q _

/-- A change of one shadow, by which the address is touched, or, while it is lit, keeps its owner and its seq. -/
theorem governs_updShadow (ix : Fin 62) {f : Shadow → Shadow}
    (h : T ix ∨ (∃ e ∈ (s.gov g).lit, e.ix = ix) ∧ ∀ x, (f x).seq = x.seq ∧ (f x).owner = x.owner) :
    Governs g T s (s.updShadow ⟨g, ix⟩ f) := by
  have hg : (s.updShadow ⟨g, ix⟩ f).gov g = s.gov g := by unfold State.updShadow State.gov; simp
  refine ⟨by simp, by simp, fun k hk => ?_, fun r => ?_, .of_tasks rfl, fun a ha => ⟨a, hg ▸ ha, rfl, rfl⟩,
    fun e he => .inl ⟨e, hg ▸ he, rfl, rfl⟩, fun jx hx => ?_⟩
  · show (s.updSlot _ _).seg k = _
    rw [State.seg_updSlot, if_neg hk]
  · rw [slot_updShadow]; split
    · next e => rw [e]; rfl
    · rfl
  · unfold State.shadow
    rw [slot_updShadow]; split
    · next e =>
      obtain rfl : jx = ix := congrArg SlotRef.ix e
      obtain ⟨⟨e, he, hix⟩, hf⟩ := h.resolve_left hx
      exact ⟨(hf _).1, (hf _).2, fun hl => absurd hix (hl e he)⟩
    · exact ⟨rfl, rfl, fun _ => rfl⟩

/-- R21: a task in WAIT_LOAD enters SHOWN. -/
theorem governs_updTask {v : Task} (hv : v ∈ s.tasks) (hst : v.state = .waitLoad) {f : Task → Task}
    (hf : ∀ u, (f u).state = .shown ∧ (f u).fixed = u.fixed) : Governs g T s (s.updTask v.id f) := by
  refine ⟨kept_updTask s _ _ fun u => (hf u).2, by simp, fun _ _ => rfl, fun _ => rfl,
    ⟨fun u => if u.id = v.id then f u else u, rfl, fun u => ?_, fun hi u hu => ?_⟩, fun a ha => ⟨a, ha, rfl, rfl⟩,
    fun e he => .inl ⟨e, he, rfl, rfl⟩, fun _ _ => ⟨rfl, rfl, fun _ => rfl⟩⟩
  · simp only []
    split
    · exact .inr (hf u)
    · exact .inl rfl
  · simp only []
    split
    · next e => exact .inr (by rw [eq_of_id hi hu hv e]; exact hst)
    · exact .inl rfl

/-! ### Economy (R95, R96) -/

theorem gov_restyleShadow (r : SlotRef) (n : Nat) (k : Seg) : (s.restyleShadow r n).gov k = s.gov k := by
  unfold State.restyleShadow State.gov
  rw [gov_handDisplay]
  unfold State.updShadow; simp

theorem governs_restyleShadow {ix : Fin 62} (h : ∃ e ∈ (s.gov g).lit, e.ix = ix) (n : Nat) :
    Governs g T s (s.restyleShadow ⟨g, ix⟩ n) :=
  (governs_updShadow s ix (f := fun sh => { sh with level := n }) (.inr ⟨h, fun _ => ⟨rfl, rfl⟩⟩)).trans
    (governs_handDisplay _ ix _)

theorem governs_restyles (f : LitEntry → Nat) {l : List LitEntry} (h : ∀ e ∈ l, ∃ b ∈ (s.gov g).lit, b.ix = e.ix) :
    Governs g T s (l.foldl (fun acc e => acc.restyleShadow ⟨g, e.ix⟩ (f e)) s) := by
  induction l generalizing s with
  | nil => exact Governs.refl s
  | cons e l ih =>
    refine (governs_restyleShadow s (h e List.mem_cons_self) (f e)).trans (ih _ fun e' he' => ?_)
    rw [gov_restyleShadow]
    exact h e' (List.mem_cons_of_mem _ he')

theorem governs_relevel (f : LitEntry → Nat) : Governs g T s (s.relevel g f) := by
  unfold State.relevel
  simp only []
  set r : Governor → Governor := fun v => { v with lit := v.lit.map fun e => { e with effective := f e } }
  have h1 : Governs g T s (s.updGov g r) := by
    refine governs_updGov s (fun a ha => ⟨a, ha, rfl, rfl⟩) fun e he => ?_
    obtain ⟨b, hb, rfl⟩ := List.mem_map.mp he
    exact .inl ⟨b, hb, rfl, rfl⟩
  refine (h1.trans (governs_recompute _)).trans (governs_restyles _ f fun e he => ?_)
  have hg : (((s.updGov g r).recompute g).gov g).lit = (s.gov g).lit.map fun e => { e with effective := f e } := by
    unfold State.recompute State.gov
    rw [State.updGov_gov, State.updGov_gov]
  obtain ⟨ix, -, hx⟩ := List.mem_filterMap.mp he
  have hm := List.mem_of_find?_eq_some hx
  rw [hg]
  exact ⟨_, List.mem_map.mpr ⟨e, (List.mem_filter.mp hm).1, rfl⟩, rfl⟩

theorem governs_setEconomy (b : Bool) : Governs g T s (s.updGov g fun v => { v with economy := b }) :=
  governs_updGov s (fun a ha => ⟨a, ha, rfl, rfl⟩) fun e he => .inl ⟨e, he, rfl, rfl⟩

theorem governs_enterEconomy : Governs g T s (s.enterEconomy g) :=
  ((governs_setEconomy s true).trans (governs_relevel _ _)).trans (governs_notify _ _)

theorem governs_exitCheck : Governs g T s (s.exitCheck g) := by
  unfold State.exitCheck; split
  · exact ((governs_setEconomy s false).trans (governs_relevel _ _)).trans (governs_notify _ _)
  · exact Governs.refl s

/-! ### Admission (R91 to R94) -/

variable {s}

theorem governs_admitHead {a : Admission} {v : Task} (ha : T a.ix) (hv : v ∈ s.tasks) (hst : v.state = .waitLoad) :
    Governs g T s (s.admitHead g a v) := by
  unfold State.admitHead State.ownShadow
  simp only []
  refine (((Governs.trans (governs_updGov s ?_ ?_) (governs_recompute _)).trans (governs_updShadow _ a.ix (.inl ha))).trans
    (governs_handDisplay _ a.ix _)).trans (governs_updTask _ ?_ hst fun _ => ⟨rfl, rfl⟩)
  · exact fun b hb => ⟨b, List.mem_of_mem_tail hb, rfl, rfl⟩
  · intro e he
    rcases List.mem_append.mp he with he | he
    · exact .inl ⟨e, he, rfl, rfl⟩
    · obtain rfl := List.mem_singleton.mp he
      exact .inr ⟨ha, v, hv, rfl, hst⟩
  · rw [tasks_handDisplay]; exact hv

theorem governs_stopAtHead {a : Admission} {rest : List Admission} (hq : (s.gov g).queue = a :: rest) :
    Governs g T s (s.stopAtHead g a) := by
  unfold State.stopAtHead; split
  · exact Governs.refl s
  · refine Governs.trans (governs_updGov s (fun b hb => ?_) fun e he => .inl ⟨e, he, rfl, rfl⟩) (governs_count _ _)
    rcases List.mem_cons.mp hb with rfl | hb
    · exact ⟨a, by rw [hq]; exact List.mem_cons_self, rfl, rfl⟩
    · exact ⟨b, List.mem_of_mem_tail hb, rfl, rfl⟩

/-- R92, R93: an attempt touches the addresses with a request in the queue. -/
theorem governs_attemptLoop (n : Nat) (hT : ∀ a ∈ (s.gov g).queue, T a.ix) : Governs g T s (s.attemptLoop g n) := by
  induction n generalizing s with
  | zero => exact Governs.refl s
  | succ n ih =>
    unfold State.attemptLoop
    split
    · exact Governs.refl s
    next a rest hq =>
    split
    · exact Governs.refl s
    next v hv =>
    have hm : v ∈ s.tasks := List.mem_of_find?_eq_some hv
    have ha : T a.ix := hT a (by rw [hq]; exact List.mem_cons_self)
    have admits : ∀ {u : State}, Governs g T s u → v ∈ u.tasks → v.state = .waitLoad →
        Governs g T s ((u.admitHead g a v).attemptLoop g n) := fun {u} hu hvu hst => by
      have h := hu.trans (governs_admitHead ha hvu hst)
      refine h.trans (ih fun b hb => ?_)
      obtain ⟨c, hc, e, -⟩ := h.queue b hb
      exact e ▸ hT c hc
    split
    · exact Governs.refl s
    next hst =>
    have hst : v.state = .waitLoad := by simpa using hst
    have he : Governs g T s (s.enterEconomy g) := governs_enterEconomy s
    split
    · exact admits (Governs.refl s) hm hst
    split
    · exact governs_stopAtHead hq
    simp only []
    split
    · exact admits he (by rw [enterEconomy_tasks]; exact hm) hst
    · exact he.trans (governs_stopAtHead ((enterEconomy_queue s g g).trans hq))

/-- The address has a request in the queue of the segment. -/
def State.Asked (s : State) (g : Seg) (ix : Fin 62) : Prop := ∃ a ∈ (s.gov g).queue, a.ix = ix

/-- R94: the admission attempt and the exit check. -/
theorem governs_settle (s : State) (g : Seg) : Governs g (s.Asked g) s (s.settle g) :=
  (governs_attemptLoop _ fun a ha => ⟨a, ha, rfl⟩).trans (governs_exitCheck _)

end

end Sys2Proof.Machine
end

