-- ==== Sys2Proof/Proofs/LineLeaves.lean ====
section
/-! PROOFS. What the free lines leave as they choose: the tasks, the captures, the slots and the governors (R137), and how a
request that reaches the decoder is answered (R174, R175). -/

namespace Sys2Proof.Machine

/-- The tasks, the captures, the slots and the governors. -/
structure Floor where
  tasks : List Task
  captures : Vector (Option Capture) 16
  slots : Seg → Vector Slot 62
  gov : Seg → Governor

def State.floor (s : State) : Floor :=
  { tasks := s.tasks, captures := s.captures, slots := fun g => (s.seg g).slots, gov := fun g => (s.seg g).gov }

section
variable (s : State)

@[simp] theorem floor_updSup (g : Seg) (f : Supervisor → Supervisor) : (s.updSup g f).floor = s.floor := by
  simp [State.floor]

@[simp] theorem floor_updLine (g : Seg) (f : LineCtl → LineCtl) : (s.updLine g f).floor = s.floor := by
  simp [State.floor]

@[simp] theorem floor_updEntry (r : SlotRef) (f : Entry → Entry) : (s.updEntry r f).floor = s.floor := by
  simp [State.floor]

theorem floor_of_segs {s t : State} (ht : t.tasks = s.tasks) (hc : t.captures = s.captures) (hg : t.segs = s.segs) :
    t.floor = s.floor := by
  simp only [State.floor, ht, hc, seg_of_segs hg]

@[simp] theorem floor_notify (b : NoticeBody) : (s.notify b).floor = s.floor :=
  floor_of_segs (s.notify_tasks b) (s.notify_captures b) (s.notify_segs b)

@[simp] theorem floor_notifyDone (n : Nat) (b : NoticeBody) : (s.notifyDone n b).floor = s.floor :=
  floor_of_segs (s.notifyDone_tasks n b) (s.notifyDone_captures n b) (s.notifyDone_segs n b)

@[simp] theorem floor_updLink (f : Link → Link) : (s.updLink f).floor = s.floor := rfl

@[simp] theorem floor_begin (g : Seg) (e : Exchange) : (s.begin g e).floor = s.floor := floor_updLine s g _

@[simp] theorem floor_popService (g : Seg) : (s.popService g).floor = s.floor := floor_updLine s g _

@[simp] theorem floor_beginPass (g : Seg) : (s.beginPass g).floor = s.floor := floor_updLine s g _

@[simp] theorem floor_startBreak (g : Seg) : (s.startBreak g).floor = s.floor := floor_updLine s g _

@[simp] theorem floor_beginDisplay (g : Seg) : (s.beginDisplay g).floor = s.floor := by
  unfold State.beginDisplay; split <;> simp

@[simp] theorem floor_searchPoll (g : Seg) (l : List (Fin 62)) : (s.searchPoll g l).floor = s.floor := by
  induction l generalizing s with
  | nil => exact floor_updLine s g _
  | cons ix l ih =>
    unfold State.searchPoll; simp only []
    repeat' split
    all_goals simp [ih]

@[simp] theorem floor_chooseTraffic (g : Seg) : (s.chooseTraffic g).floor = s.floor := by
  unfold State.chooseTraffic State.takePoll; simp only []
  repeat' split
  all_goals simp

@[simp] theorem floor_choosePass (g : Seg) : (s.choosePass g).floor = s.floor := by
  unfold State.choosePass
  repeat' split
  all_goals simp

@[simp] theorem floor_chooseLine (g : Seg) : (s.chooseLine g).floor = s.floor := by
  unfold State.chooseLine; simp only []; split <;> simp

@[simp] theorem floor_chooseService (g : Seg) (n : Nat) : (s.chooseService g n).floor = s.floor := by
  induction n generalizing s with
  | zero => exact floor_chooseLine s g
  | succ n ih =>
    unfold State.chooseService
    repeat' split
    all_goals simp [ih]

@[simp] theorem floor_choose (g : Seg) : (s.choose g).floor = s.floor := by
  unfold State.choose; split <;> simp

@[simp] theorem floor_enterHeld (g : Seg) : (s.enterHeld g).floor = s.floor := by
  unfold State.enterHeld State.endHold State.setSegState; split <;> simp

@[simp] theorem floor_settleLine (g : Seg) : (s.settleLine g).floor = s.floor := by
  unfold State.settleLine
  repeat' split
  all_goals simp

/-- R137: the free lines leave the tasks, the captures, the slots and the governors. -/
@[simp] theorem floor_settleLines : s.settleLines.floor = s.floor := by
  have fold : ∀ (l : List Seg) (u : State), (l.foldl State.settleLine u).floor = u.floor := fun l => by
    induction l with
    | nil => exact fun _ => rfl
    | cons g l ih => exact fun u => (ih _).trans (floor_settleLine u g)
  exact fold allSegs s

/-- R137, R174: nor does the reply change them. -/
theorem floor_answered (kind : Byte) (tag : Tag) (payload : List Byte) (x : AfterSent) :
    (s.settleLines.replied kind tag payload x).floor = s.floor := (floor_updLink _ _).trans (floor_settleLines s)

end

section
variable {s t : State} (h : t.floor = s.floor)
include h

theorem tasks_of_floor : t.tasks = s.tasks := congrArg Floor.tasks h

theorem captures_of_floor : t.captures = s.captures := congrArg Floor.captures h

theorem slot_of_floor (r : SlotRef) : t.slot r = s.slot r := by
  have e : (t.seg r.seg).slots = (s.seg r.seg).slots := congrFun (congrArg Floor.slots h) r.seg
  unfold State.slot; rw [e]

theorem gov_of_floor (g : Seg) : (t.seg g).gov = (s.seg g).gov := congrFun (congrArg Floor.gov h) g

end

/-! ### The answer to a request (R174, R175) -/

/-- A request is being taken whose reply a free transmitter would send next, in what the blocks keep. -/
theorem replyNext_of_kept {s t : State} (hk : t.kept = s.kept) (h : ReplyNext s.link) : ReplyNext t.link := by
  have hq : t.link.quiet = s.link.quiet := congrArg (fun k : Kept => k.untouched.link) hk
  have taking : t.link.taking = s.link.taking := by
    have e := congrArg Link.taking hq
    exact e
  have next : t.link.nextId = s.link.nextId := by
    have e := congrArg Link.nextId hq
    exact e
  have sending : t.link.sending = s.link.sending := by
    have e := congrArg Link.sending hq
    exact e
  have replies : t.link.replies = s.link.replies := by
    have e := congrArg Link.replies hq
    exact e
  have mine : (t.link.taking.isNone || t.link.notices.all fun n => n.heldBy = t.link.taking) =
      (s.link.taking.isNone || s.link.notices.all fun n => n.heldBy = s.link.taking) := congrArg Kept.mine hk
  refine ⟨by rw [taking, next]; exact h.taking, fun hs => ?_⟩
  obtain ⟨hr, hn⟩ := h.free (sending ▸ hs)
  refine ⟨replies.trans hr, fun n hn' => ?_⟩
  rw [taking, h.taking] at mine
  have all : (s.link.notices.all fun n => n.heldBy = some s.link.nextId) = true := by
    rw [List.all_eq_true]
    exact fun n hm => decide_eq_true (hn n hm)
  rw [all] at mine
  simp only [Option.isNone_some, Bool.false_or, List.all_eq_true, decide_eq_true_eq] at mine
  rw [next]
  exact mine n hn'

/-- R175: a request that reaches the decoder, and whose rule leaves what the part's blocks keep but for the pickers and the
tasks, is answered once the free lines have gone on. -/
theorem request_answered {s : State} {kind : Byte} {tag : Tag} {payload : List Byte} {rule : State → Answer} {a : Answer}
    {u : State} (hs : AtRest s) (hr : Reaches s ⟨kind, tag, payload⟩) (hp : payloadFits payload = true)
    (ha : rule s.begun = a) (hl : u.link = s.begun.link) (hk : a.state.kept = u.kept) (hx : a.after ≠ .restart) :
    request kind tag payload rule s =
      .next (a.state.settleLines.replied kind tag (a.status.code :: a.data) a.after) := by
  have next : ReplyNext a.state.settleLines.link :=
    replyNext_of_kept ((kept_settleLines _).trans hk) (by rw [hl]; exact replyNext_begun hs.link)
  unfold request done
  rw [if_pos hp, decode_reaches hr, ha, endTaking_kick next hx]

/-- A reply adds the same to what is left untouched. -/
theorem untouched_replied {s t : State} (h : t.untouched = s.untouched) (kind : Byte) (tag : Tag) (payload : List Byte)
    (x : AfterSent) : (t.replied kind tag payload x).untouched = (s.replied kind tag payload x).untouched := by
  have quiet : ∀ (l : Link) (r : Reply), (l.withReply r).quiet = l.quiet.withReply r := fun l r => by
    unfold Link.withReply Link.quiet; split <;> rfl
  have link : ∀ u : State, (u.replied kind tag payload x).untouched =
      { u.untouched with
        link := ({ u.untouched.link with nextId := u.untouched.link.nextId + 1, taking := none } : Link).withReply
          ⟨u.untouched.link.nextId, replyKind kind, tag, payload, x⟩ } := fun u => by
    have e := quiet { u.link with nextId := u.link.nextId + 1, taking := none } ⟨u.link.nextId, replyKind kind, tag, payload, x⟩
    simp only [State.untouched, State.replied, State.updLink, e]
    rfl
  rw [link, link, h]

end Sys2Proof.Machine
end

