-- ==== Sys2Proof/Proofs/PickerPriority.lean ====
section
/-! PROOFS. A SET_PICKER that passes its checks, and the requests that a changed priority moves (R3, R4, R7, R90). -/

namespace Sys2Proof.Machine

/-! ### The place of a moved request (R89, R90) -/

/-- R89: a request stays before another that is put in. -/
theorem before_iff {now : Stamp} {e n : Admission} : e.before now n = true ↔
    n.priority < e.priority ∨ e.priority = n.priority ∧ (now - n.stamp).toNat ≤ (now - e.stamp).toNat := by
  simp [Admission.before]

/-- R89: a request is put behind those that stay before it, and before the first that does not. -/
theorem insertAdmission_place (now : Stamp) (n : Admission) (q : List Admission) :
    ∃ front back, q = front ++ back ∧ insertAdmission now n q = front ++ n :: back ∧
      (∀ b ∈ front, b.before now n = true) ∧ ∀ b, back.head? = some b → ¬b.before now n = true := by
  induction q with
  | nil => exact ⟨[], [], rfl, rfl, fun _ h => (nomatch h), fun _ h => (nomatch h)⟩
  | cons e q ih =>
    by_cases he : e.before now n = true
    · obtain ⟨front, back, hq, hi, hf, hb⟩ := ih
      refine ⟨e :: front, back, by rw [hq, List.cons_append], by rw [insertAdmission, if_pos he, hi, List.cons_append],
        fun b hb' => ?_, hb⟩
      rcases List.mem_cons.mp hb' with rfl | hb'
      · exact he
      · exact hf b hb'
    · refine ⟨[], e :: q, rfl, by rw [insertAdmission, if_neg he]; rfl, fun _ h => (nomatch h), fun b hb => ?_⟩
      obtain rfl : e = b := Option.some.inj hb
      exact he

/-! ### What a changed priority moves (R7) -/

section
variable {s t : State}

theorem time_of_kept (h : t.kept = s.kept) : t.time = s.time := congrArg (fun k : Kept => k.untouched.time) h

theorem pickers_of_kept (h : t.kept = s.kept) : t.pickers = s.pickers := pickers_of_untouched (untouched_of_kept h)

/-- The fixed fields of a task found by its id. -/
theorem task?_fixed (s : State) (id : TaskId) :
    (s.task? id).map Task.fixed = (s.tasks.map Task.fixed).find? fun u => u.id = id := by
  rw [List.find?_map]; rfl

theorem task?_fixed_of_kept (h : t.kept = s.kept) (id : TaskId) : (t.task? id).map Task.fixed = (s.task? id).map Task.fixed := by
  have hf : t.tasks.map Task.fixed = s.tasks.map Task.fixed := congrArg (fun k : Kept => k.untouched.tasks) h
  rw [task?_fixed, task?_fixed, hf]

/-- Whose request it is depends on what the tasks keep. -/
theorem requestOf_fixed (s : State) (p : Fin 12) (a : Admission) :
    s.requestOf p a = ((s.task? a.task).map Task.fixed).any fun u => u.picker = p := by
  unfold State.requestOf
  cases s.task? a.task <;> rfl

theorem requestOf_of_kept (h : t.kept = s.kept) (p : Fin 12) : t.requestOf p = s.requestOf p := by
  funext a
  rw [requestOf_fixed, requestOf_fixed, task?_fixed_of_kept h]

/-- R7: the picker's requests on a segment, in the order in which they stand. -/
def State.requestsOf (s : State) (p : Fin 12) (g : Seg) : List Admission := (s.gov g).queue.filter (s.requestOf p)

/-- R7: the requests `l` are moved on segment `g`, and the segment makes its attempt and exit check. -/
def State.moveRequests (t : State) (now : Stamp) (n : Nat) (l : List Admission) (g : Seg) : State :=
  if l = [] then t else (t.updGov g fun v => { v with queue := l.foldl (moveRequest now n) v.queue }).settle g

theorem reprioritise_eq (t : State) (g : Seg) (p : Fin 12) (n : Nat) :
    t.reprioritise g p n = t.moveRequests t.time n (t.requestsOf p g) g := rfl

theorem kept_moveRequests (t : State) (now : Stamp) (n : Nat) (l : List Admission) (g : Seg) :
    (t.moveRequests now n l g).kept = t.kept := by
  unfold State.moveRequests; split <;> simp

theorem seg_moveRequests_of_ne (t : State) (now : Stamp) (n : Nat) (l : List Admission) {g k : Seg} (hk : k ≠ g) :
    (t.moveRequests now n l g).seg k = t.seg k := by
  unfold State.moveRequests; split
  · rfl
  · rw [(governs_settle _ g).others k hk, State.seg_updGov, if_neg hk]

/-- R7: as the segments follow one another, each finds its queue and its picker's requests as they were. -/
theorem foldl_reprioritise {p : Fin 12} {n : Nat} {l : List Seg} (hl : l.Nodup) (hk : t.kept = s.kept)
    (hg : ∀ g ∈ l, t.seg g = s.seg g) :
    l.foldl (fun acc g => acc.reprioritise g p n) t =
      l.foldl (fun acc g => acc.moveRequests s.time n (s.requestsOf p g) g) t := by
  induction l generalizing t with
  | nil => rfl
  | cons g l ih =>
    obtain ⟨hg1, hl1⟩ := List.nodup_cons.mp hl
    have first : t.reprioritise g p n = t.moveRequests s.time n (s.requestsOf p g) g := by
      have hv : t.gov g = s.gov g := congrArg Segment.gov (hg g List.mem_cons_self)
      rw [reprioritise_eq, time_of_kept hk, State.requestsOf, State.requestsOf, requestOf_of_kept hk, hv]
    rw [List.foldl_cons, List.foldl_cons, first]
    refine ih hl1 ((kept_moveRequests _ _ _ _ _).trans hk) fun k hk' => ?_
    rw [seg_moveRequests_of_ne _ _ _ _ (k := k) fun e => hg1 (by rw [← e]; exact hk')]
    exact hg k (List.mem_cons_of_mem _ hk')

end

/-! ### A SET_PICKER that passes its checks -/

/-- The record that a SET_PICKER's values leave, as the statement of R3 and R4 spells it. -/
theorem take_eq {x : Picker} (hx : x.inRange) (c : Fin 8) (pat : Pattern) (mask level priority : Byte) (q : Nat) :
    x.take ⟨c, pat, levelField x mask level, priorityField x mask priority, q⟩ =
      { state := if x.state = .absent then .active else x.state, colour := c, pattern := pat
        level := if mask.getLsbD 2 then max 1 (min 16 level.toNat) else if x.state = .absent then 16 else x.level
        priority := if mask.getLsbD 3 then min 3 priority.toNat else if x.state = .absent then 0 else x.priority
        quota := q, openCount := if x.state = .absent then 0 else x.openCount } := by
  by_cases ha : x.state = .absent
  · obtain rfl : x = Picker.reset := by unfold Picker.inRange at hx; rwa [if_pos ha] at hx
    simp only [Picker.take, levelField, priorityField, if_pos ha]
    rfl
  · simp only [Picker.take, levelField, priorityField, if_neg ha]

theorem kept_handPriority (s : State) (p : Fin 12) (b n : Nat) : (s.handPriority p b n).kept = s.kept := by
  unfold State.handPriority; split
  · rfl
  · exact kept_foldl _ (fun s g => kept_reprioritise s g p n) allSegs s

theorem captures_handPriority (s : State) (p : Fin 12) (b n : Nat) : (s.handPriority p b n).captures = s.captures :=
  congrArg Rails.captures (rails_handPriority s p b n)

section
variable {p : Fin 12} {mask colour pattern level priority quota : Byte} {c : Fin 8} {pat : Pattern} {q : Nat} {s : State}

/-- R3 to R7: the rule of a SET_PICKER that passes every check. -/
theorem setPickerRule_passes {y : Picker} (hy : (s.picker p).take ⟨c, pat, levelField (s.picker p) mask level,
      priorityField (s.picker p) mask priority, q⟩ = y) (hx : (s.picker p).inRange) (hm : mask.toNat < 32)
    (hc : if mask.getLsbD 0 then colour.toNat = c.val ∧ c ≠ 0 else (s.picker p).state ≠ .absent ∧ c = (s.picker p).colour)
    (hp : if mask.getLsbD 1 then pattern = pat.code else (s.picker p).state ≠ .absent ∧ pat = (s.picker p).pattern)
    (hq : if mask.getLsbD 4 then quota.toNat = q ∧ q ≠ 0
      else q = if (s.picker p).state = .absent then 64 else (s.picker p).quota)
    (hs : ¬((c ≠ (s.picker p).colour ∨ pat ≠ (s.picker p).pattern ∨ y.level ≠ (s.picker p).level) ∧ s.holdsSlot p))
    (he : ¬s.styleElsewhere p c pat) (ho : (s.picker p).openCount ≤ q) :
    setPickerRule (setPickerPayload p mask colour pattern level priority quota) s =
      pickerAnswer (({ s with pickers := s.pickers.set p y } : State).handPriority p (s.picker p).priority y.priority) p .ok := by
  subst hy
  have colours : colourField (s.picker p) mask colour = some c := by
    split at hc
    · next h0 =>
      obtain ⟨hc, hne⟩ := hc
      exact colourField_given h0 hc (by
        have : c.val ≠ 0 := fun h => hne (Fin.ext h)
        omega)
    · next h0 => rw [hc.2]; exact colourField_kept h0 hc.1 colour
  have patterns : patternField (s.picker p) mask pattern = some pat := by
    split at hp
    · next h1 => exact patternField_given h1 hp
    · next h1 => rw [hp.2]; exact patternField_kept h1 hp.1 pattern
  have quotas : quotaField (s.picker p) mask quota = some q := by
    split at hq
    · next h4 => rw [← hq.1]; exact quotaField_given h4 (by rw [hq.1]; exact hq.2)
    · next h4 =>
      have : q = (s.picker p).quota := by
        split at hq
        · next ha =>
          unfold Picker.inRange at hx; rw [if_pos ha] at hx
          rw [hq, hx]; rfl
        · exact hq
      rw [this]; exact quotaField_kept h4 quota
  rw [setPickerRule_good (pickerValues_some level priority hm colours patterns quotas), if_neg, if_neg, if_neg]
  · rfl
  · exact not_lt.mpr ho
  · exact fun h => he (styleTaken_iff.mp h)
  · exact fun h => hs ⟨restyles_iff.mp h.1, holdsCurrent_iff.mp h.2⟩

end

/-- Settles O14: `setPickerRule_passes` gives the rule, `foldl_reprioritise` the requests moved, and
`insertAdmission_place` the place of each. -/
theorem setPickerTakesValues : Obligations.SetPickerTakesValues := by
  refine ⟨fun tag p mask colour pattern level priority quota c pat q s => ?_, fun now priority queue a => ?_⟩
  · intro payload x y hs hr hx hm hc hp hq hstyle he ho set taken mine moved
    have hy := take_eq hx c pat mask level priority q
    have rule := setPickerRule_passes (s := s.begun) hy hx hm hc hp hq hstyle he ho
    have hrec : ∀ {u : State}, u.kept = set.kept → pickerRecord p (u.picker p) = pickerRecord p y := fun hu => by
      have e : set.picker p = y := by simp [set, State.picker]
      rw [← e, State.picker, State.picker, pickers_of_kept hu]
    have answered : exec (.setPicker tag payload) s =
        .next ((set.handPriority p x.priority y.priority).settleLines.replied 0x10 tag (0x00 :: pickerRecord p y) .nothing) := by
      have hk := kept_handPriority set p x.priority y.priority
      have rule' : setPickerRule payload s.begun =
          answer (set.handPriority p x.priority y.priority) .ok (pickerRecord p y) := by
        rw [← hrec hk]
        exact rule
      exact (fixedRequest_of_length rfl).trans (request_answered (u := set) hs hr rfl rule' rfl hk (fun h => nomatch h))
    have quiet : set.settleLines = set := settleLines_of_settled hs.lines
    refine ⟨⟨_, answered, ?_, ?_⟩, fun h => ?_, fun h => ?_⟩
    · exact untouched_replied (untouched_of_kept ((kept_settleLines _).trans (kept_handPriority _ _ _ _))) _ _ _ _
    · exact (captures_of_floor (floor_settleLines _)).trans (captures_handPriority set p _ _)
    · rw [answered, State.handPriority, if_pos h.symm, quiet]
    · have moves : set.handPriority p x.priority y.priority = [0, 1, 2, 3].foldl moved set := by
        rw [State.handPriority, if_neg fun e => h e.symm]
        exact foldl_reprioritise (s := set) (l := allSegs) (List.nodup_finRange 4) rfl fun _ _ => rfl
      rw [answered, moves]
  · intro age
    obtain ⟨front, back, hq, hi, hf, hb⟩ :=
      insertAdmission_place now { a with priority := priority } (queue.filter fun b => b.ix ≠ a.ix)
    refine ⟨front, back, hq, hi, fun b hb' => before_iff.mp (hf b hb'), fun b hb' => ?_⟩
    have := mt before_iff.mpr (hb b hb')
    simp only [age]
    simp only [not_or, not_and, not_lt, not_le] at this
    obtain ⟨h1, h2⟩ := this
    rcases Nat.lt_or_ge b.priority priority with h | h
    · exact .inl h
    · have e : b.priority = priority := Nat.le_antisymm h1 h
      exact .inr ⟨e, h2 e⟩

end Sys2Proof.Machine
end

