-- ==== Sys2Proof/Proofs/Selection.lean ====
section
/-! PROOFS. What a slot's selection does: which task it takes, what becomes of it, and what it leaves (R44, R45). -/

namespace Sys2Proof.Machine

/-! ### The task that ranks first (R44) -/

/-- R44: the rank of a task, written out. -/
theorem ranksBefore_iff {s : State} {a b : Task} : s.ranksBefore a b = true ↔
    (s.picker b.picker).priority < (s.picker a.picker).priority ∨
      (s.picker a.picker).priority = (s.picker b.picker).priority ∧
        (a.stamp.toNat < b.stamp.toNat ∨ a.stamp.toNat = b.stamp.toNat ∧ a.index.val < b.index.val) := by
  simp [State.ranksBefore, BitVec.toNat_inj]

/-- R44: nothing in the list ranks before the first of it. -/
theorem foldl_firstOf (s : State) (l : List Task) (b : Option Task) {v : Task} (h : l.foldl s.firstOf b = some v) :
    (∀ o ∈ l, ¬s.ranksBefore o v = true) ∧ ∀ o, b = some o → ¬s.ranksBefore o v = true := by
  have irrefl : ∀ o : Task, ¬s.ranksBefore o o = true := fun o => by rw [ranksBefore_iff]; omega
  induction l generalizing b with
  | nil =>
    refine ⟨fun _ h => (nomatch h), fun o ho => ?_⟩
    obtain rfl : o = v := Option.some.inj (ho.symm.trans h)
    exact irrefl o
  | cons x l ih =>
    obtain ⟨h1, h2⟩ := ih _ h
    have hx : ¬s.ranksBefore x v = true ∧ ∀ o, b = some o → ¬s.ranksBefore o v = true := by
      rcases b with _ | o
      · exact ⟨h2 x rfl, fun _ h => (nomatch h)⟩
      · by_cases hr : s.ranksBefore x o = true
        · have hv := h2 x (if_pos hr)
          refine ⟨hv, fun o' ho' => ?_⟩
          obtain rfl := Option.some.inj ho'
          intro hb
          have asymm : ¬s.ranksBefore o x = true := by rw [ranksBefore_iff] at *; omega
          exact asymm (by rw [ranksBefore_iff] at *; omega)
        · have hv := h2 o (if_neg hr)
          refine ⟨fun hb => ?_, fun o' ho' => ?_⟩
          · rw [ranksBefore_iff] at *; omega
          · obtain rfl := Option.some.inj ho'; exact hv
    exact ⟨fun o ho => (List.mem_cons.mp ho).elim (fun e => e ▸ hx.1) (h1 o), hx.2⟩

theorem foldl_firstOf_isSome (s : State) (l : List Task) (b : Task) : (l.foldl s.firstOf (some b)).isSome = true := by
  induction l generalizing b with
  | nil => rfl
  | cons x l ih =>
    rw [List.foldl_cons]
    rcases firstOf_cases s (some b) x with e | e <;> rw [e]
    · exact ih x
    · exact ih b

section
variable {s : State} {r : SlotRef}

/-- R44: a QUEUED task of the waiting set. -/
theorem mem_queued {u : Task} : u ∈ (s.waitingTasks r).filter (fun t => t.state = .queued) ↔
    u ∈ s.tasks ∧ u.id ∈ (s.slot r).waiting ∧ u.state = .queued := by
  simp only [State.waitingTasks, List.mem_filter, decide_eq_true_eq, List.contains_iff_mem, and_assoc]

theorem bestQueued_isSome {u : Task} (hu : u ∈ s.tasks) (hw : u.id ∈ (s.slot r).waiting) (hq : u.state = .queued) :
    ∃ v, s.bestQueued r = some v := by
  have hm := mem_queued.mpr ⟨hu, hw, hq⟩
  rw [State.bestQueued]
  cases e : (s.waitingTasks r).filter fun t => t.state = .queued with
  | nil => rw [e] at hm; cases hm
  | cons x l => exact Option.isSome_iff_exists.mp (foldl_firstOf_isSome s l x)

theorem bestQueued_first {v : Task} (h : s.bestQueued r = some v) {o : Task} (ho : o ∈ s.tasks)
    (hw : o.id ∈ (s.slot r).waiting) (hq : o.state = .queued) : ¬s.ranksBefore o v = true :=
  (foldl_firstOf s _ _ h).1 o (mem_queued.mpr ⟨ho, hw, hq⟩)

end

/-! ### What selection does -/

/-- R45: the task becomes current, in WAIT_LOAD where the slot is serviceable and BLOCKED where it is not. -/
def State.seat (s : State) (r : SlotRef) (v : Task) : State :=
  (s.setCurrent r v.id (if (s.slot r).serviceable then some s.time else none)).setTaskState v.id
    (if (s.slot r).serviceable then .waitLoad else .blocked)

/-- R44, R45: a slot without a current task takes the first of its QUEUED tasks. -/
theorem select_of_best {s : State} {r : SlotRef} {v : Task} (hn : (s.slot r).current = none) (hb : s.bestQueued r = some v) :
    s.select r = if (s.slot r).serviceable then ((s.seat r v).place r v s.time).settle r.seg else s.seat r v := by
  unfold State.select State.seat
  rw [hn, hb]
  simp only [Option.isSome_none, Bool.false_eq_true, if_false]
  split <;> rfl

theorem select_of_current {s : State} {r : SlotRef} (h : (s.slot r).current.isSome = true) : s.select r = s := if_pos h

theorem select_of_none {s : State} {r : SlotRef} (h : s.bestQueued r = none) : s.select r = s := by
  unfold State.select; split
  · rfl
  · rw [h]

/-- What a slot's selection does. -/
theorem select_cases (s : State) (r : SlotRef) : s.select r = s ∨ ∃ v, (s.slot r).current = none ∧ s.bestQueued r = some v ∧
    s.select r = if (s.slot r).serviceable then ((s.seat r v).place r v s.time).settle r.seg else s.seat r v := by
  rcases hc : (s.slot r).current with _ | id
  · rcases hb : s.bestQueued r with _ | v
    · exact .inl (select_of_none hb)
    · exact .inr ⟨v, rfl, rfl, select_of_best hc hb⟩
  · exact .inl (select_of_current (by rw [hc]; rfl))

section
variable (s : State) (r : SlotRef)

theorem slot_setCurrent (id : TaskId) (x : Option Stamp) (q : SlotRef) :
    (s.setCurrent r id x).slot q = if q = r then { s.slot r with current := some id, tenure := x } else s.slot q :=
  State.slot_updSlot s r q _

theorem slot_seat (v : Task) (q : SlotRef) : (s.seat r v).slot q =
    if q = r then
      { s.slot r with current := some v.id, tenure := if (s.slot r).serviceable then some s.time else none }
    else s.slot q := slot_setCurrent s r _ _ q

/-- What follows a task that is seated: the slots' records stay, and tasks in WAIT_LOAD may enter SHOWN. -/
theorem select_seated {s : State} {r : SlotRef} {v : Task}
    (h : s.select r = if (s.slot r).serviceable then ((s.seat r v).place r v s.time).settle r.seg else s.seat r v) :
    Rises (s.seat r v) (s.select r) ∧ ∀ q, ((s.select r).slot q).chair = ((s.seat r v).slot q).chair := by
  rw [h]; split
  · have g := governs_settle ((s.seat r v).place r v s.time) r.seg
    have hp : Rises (s.seat r v) ((s.seat r v).place r v s.time) := .of_tasks rfl
    refine ⟨hp.trans g.rise, fun q => (g.chairs q).trans ?_⟩
    unfold State.place
    simp only []
    rw [slot_updGov]
  · exact ⟨.of_tasks rfl, fun _ => rfl⟩

/-- Selection at one slot leaves the records of the others. -/
theorem chair_select_of_ne {q : SlotRef} (hq : q ≠ r) : ((s.select r).slot q).chair = (s.slot q).chair := by
  rcases select_cases s r with e | ⟨v, -, -, e⟩
  · rw [e]
  · rw [(select_seated e).2, slot_seat, if_neg hq]

theorem waiting_select (q : SlotRef) : ((s.select r).slot q).waiting = (s.slot q).waiting := by
  by_cases hq : q = r
  · subst hq
    rcases select_cases s q with e | ⟨v, -, -, e⟩
    · rw [e]
    · rw [(Slot.chair_iff.mp ((select_seated e).2 q)).1, slot_seat, if_pos rfl]
  · exact (Slot.chair_iff.mp (chair_select_of_ne s r hq)).1

/-- A slot with a current task keeps its record, whichever slot selects. -/
theorem chair_select_of_current {q : SlotRef} (h : (s.slot q).current.isSome = true) :
    ((s.select r).slot q).chair = (s.slot q).chair := by
  by_cases hq : q = r
  · subst hq; rw [select_of_current h]
  · exact chair_select_of_ne s r hq

/-- Selection leaves a task as it is, or brings it into WAIT_LOAD, SHOWN or BLOCKED. -/
theorem select_moves : ∃ f : Task → Task, (s.select r).tasks = s.tasks.map f ∧
    ∀ u, (f u).fixed = u.fixed ∧ (f u = u ∨ (f u).state.isCurrent = true) := by
  rcases select_cases s r with e | ⟨v, -, -, e⟩
  · exact ⟨id, by rw [e, List.map_id], fun u => ⟨rfl, .inl rfl⟩⟩
  · obtain ⟨f, ht, hf, -⟩ := (select_seated e).1
    set st : TaskState := if (s.slot r).serviceable then .waitLoad else .blocked with hst
    have hcur : st.isCurrent = true := by rw [hst]; split <;> rfl
    refine ⟨f ∘ fun u => if u.id = v.id then u.inState st else u, ?_, fun u => ?_⟩
    · rw [ht, ← List.map_map]; rfl
    · have hb : (if u.id = v.id then u.inState st else u).fixed = u.fixed ∧
          ((if u.id = v.id then u.inState st else u) = u ∨ (if u.id = v.id then u.inState st else u).state.isCurrent = true) := by
        split
        · exact ⟨rfl, .inr hcur⟩
        · exact ⟨rfl, .inl rfl⟩
      refine ⟨(hf _).fixed.trans hb.1, ?_⟩
      rcases hf (if u.id = v.id then u.inState st else u) with e | ⟨e, -⟩
      · rw [Function.comp, e]; exact hb.2
      · exact .inr (by rw [Function.comp, e]; rfl)

end

/-- R45: what becomes of the task that a slot takes, and of the others. -/
theorem select_tasks {s : State} {r : SlotRef} {v : Task} (hi : s.DistinctIds) (hv : v ∈ s.tasks)
    (h : s.select r = if (s.slot r).serviceable then ((s.seat r v).place r v s.time).settle r.seg else s.seat r v) :
    (∃ w ∈ (s.select r).tasks, w.fixed = v.fixed ∧
      if (s.slot r).serviceable then w.state = .waitLoad ∨ w.state = .shown else w.state = .blocked) ∧
    ∀ u ∈ s.tasks, u ≠ v → ∃ u' ∈ (s.select r).tasks, u.Risen u' ∧ (u' = u ∨ u.state = .waitLoad) := by
  have hids : (s.seat r v).DistinctIds := distinctIds_updTask (fun _ => rfl) hi
  set st : TaskState := if (s.slot r).serviceable then .waitLoad else .blocked with hst
  have seated : (s.seat r v).tasks = s.tasks.map fun u => if u.id = v.id then u.inState st else u := rfl
  have rise := (select_seated h).1
  have hm : v.inState st ∈ (s.seat r v).tasks := by
    rw [seated]; exact List.mem_map.mpr ⟨v, hv, if_pos rfl⟩
  refine ⟨?_, fun u hu hne => ?_⟩
  · obtain ⟨f, ht, hf, hs⟩ := rise
    refine ⟨f (v.inState st), by rw [ht]; exact List.mem_map_of_mem hm, (hf _).fixed, ?_⟩
    split
    · next hsv =>
      rcases hf (v.inState st) with e | ⟨e, -⟩
      · exact .inl (by rw [e, hst, if_pos hsv]; rfl)
      · exact .inr e
    · next hsv =>
      have hb : (v.inState st).state = .blocked := by rw [hst, if_neg hsv]; rfl
      rcases hs hids _ hm with e | e
      · rw [e]; exact hb
      · rw [hb] at e; cases e
  · obtain ⟨f, ht, hf, hs⟩ := rise
    have hu' : u ∈ (s.seat r v).tasks := by
      rw [seated]; exact List.mem_map.mpr ⟨u, hu, if_neg fun e => hne (eq_of_id hi hu hv e)⟩
    exact ⟨f u, by rw [ht]; exact List.mem_map_of_mem hu', hf u, hs hids u hu'⟩

end Sys2Proof.Machine
end

