-- ==== Sys2Proof/Proofs/PickerResume.lean ====
section
/-! PROOFS. RESUME_PICKER (R10): the tasks that it makes QUEUED, and the slots that select then. -/

namespace Sys2Proof.Machine

/-! ### Slots that select one after another (R45) -/

section
variable (s : State) (l : List SlotRef)

theorem waiting_selectAll (q : SlotRef) : ((s.selectAll l).slot q).waiting = (s.slot q).waiting := by
  induction l generalizing s with
  | nil => rfl
  | cons r l ih => exact (ih (s.select r)).trans (waiting_select s r q)

/-- A slot with a current task, or one that does not select, keeps its record. -/
theorem chair_selectAll {q : SlotRef} (h : (s.slot q).current.isSome = true ∨ q ∉ l) :
    ((s.selectAll l).slot q).chair = (s.slot q).chair := by
  induction l generalizing s with
  | nil => rfl
  | cons r l ih =>
    have first : ((s.select r).slot q).chair = (s.slot q).chair :=
      h.elim (chair_select_of_current s r) fun hq => chair_select_of_ne s r fun e => hq (by rw [e]; exact List.mem_cons_self)
    refine (ih (s.select r) ?_).trans first
    rw [(Slot.chair_iff.mp first).2.1]
    exact h.imp_right fun hq hm => hq (List.mem_cons_of_mem r hm)

theorem selectAll_moves : ∃ f : Task → Task, (s.selectAll l).tasks = s.tasks.map f ∧
    ∀ u, (f u).fixed = u.fixed ∧ (f u = u ∨ (f u).state.isCurrent = true) := by
  induction l generalizing s with
  | nil => exact ⟨id, (List.map_id _).symm, fun u => ⟨rfl, .inl rfl⟩⟩
  | cons r l ih =>
    obtain ⟨f, hf, hf'⟩ := select_moves s r
    obtain ⟨k, hk, hk'⟩ := ih (s.select r)
    refine ⟨k ∘ f, hk.trans (by rw [hf, List.map_map]), fun u => ⟨(hk' _).1.trans (hf' u).1, ?_⟩⟩
    rcases (hk' (f u)).2 with e | e
    · rw [Function.comp, e]; exact (hf' u).2
    · exact .inr e

end

section
variable {s : State} {l : List SlotRef}

/-- A task that a slot's selection does not take. -/
theorem select_other (h : s.Stands settled) (r : SlotRef) {u : Task} (hu : u ∈ s.tasks) (ho : u.slot ≠ r ∨ u.state ≠ .queued) :
    ∃ u' ∈ (s.select r).tasks, u.Risen u' ∧ (u' = u ∨ u.state = .waitLoad) := by
  rcases select_cases s r with e | ⟨v, -, hb, e⟩
  · exact ⟨u, by rw [e]; exact hu, .inl rfl, .inl rfl⟩
  · obtain ⟨hv, hq⟩ := bestQueued_slot h hb
    obtain ⟨hm, hr⟩ := mem_site_tasks.mp hv
    refine (select_tasks h.ids hm e).2 u hu fun e => ?_
    subst e
    exact ho.elim (fun hn => hn hr) fun hn => hn hq

theorem select_other_queued (h : s.Stands settled) (r : SlotRef) {u : Task} (hu : u ∈ s.tasks) (hr : u.slot ≠ r)
    (hq : u.state = .queued) : u ∈ (s.select r).tasks := by
  obtain ⟨u', hu', -, e | e⟩ := select_other h r hu (.inl hr)
  · exact e ▸ hu'
  · rw [hq] at e; cases e

/-- A QUEUED task stays as it is where its slot has not taken it. -/
theorem selectAll_waits (h : s.Stands settled) {u : Task} (hu : u ∈ s.tasks) (hq : u.state = .queued) :
    ((s.selectAll l).slot u.slot).current = some u.id ∨ u ∈ (s.selectAll l).tasks := by
  induction l generalizing s with
  | nil => exact .inr hu
  | cons r l ih =>
    have taken : ((s.select r).slot u.slot).current = some u.id ∨ u ∈ (s.select r).tasks := by
      by_cases hr : u.slot = r
      · subst hr
        rcases select_cases s u.slot with e | ⟨v, -, hb, e⟩
        · exact .inr (by rw [e]; exact hu)
        · by_cases huv : u = v
          · subst huv
            exact .inl (by rw [(Slot.chair_iff.mp ((select_seated e).2 u.slot)).2.1, slot_seat, if_pos rfl])
          · obtain ⟨u', hu', -, e' | e'⟩ := (select_tasks h.ids (bestQueued_mem hb).1 e).2 u hu huv
            · exact .inr (e' ▸ hu')
            · rw [hq] at e'; cases e'
      · exact .inr (select_other_queued h r hu hr hq)
    rcases taken with hc | hm
    · exact .inl ((Slot.chair_iff.mp (chair_selectAll (s.select r) l (.inl (by rw [hc]; rfl)))).2.1.trans hc)
    · exact ih (stands_select h r) hm

/-- A task in WAIT_LOAD, SHOWN or BLOCKED stays as it is, or enters SHOWN from WAIT_LOAD. -/
theorem selectAll_seated (h : s.Stands settled) {w : Task} (hw : w ∈ s.tasks) (hc : w.state ≠ .queued) :
    ∃ w' ∈ (s.selectAll l).tasks, w.Risen w' ∧ (w' = w ∨ w.state = .waitLoad) := by
  induction l generalizing s w with
  | nil => exact ⟨w, hw, .inl rfl, .inl rfl⟩
  | cons r l ih =>
    obtain ⟨w1, hw1, rise1, e1⟩ := select_other h r hw (.inr hc)
    have hc1 : w1.state ≠ .queued := by
      rcases rise1 with e | ⟨e, -⟩
      · rw [e]; exact hc
      · rw [e]; decide
    obtain ⟨w2, hw2, rise2, e2⟩ := ih (stands_select h r) hw1 hc1
    refine ⟨w2, hw2, rise1.trans rise2, ?_⟩
    rcases e1 with e1 | e1
    · rw [e1] at e2; exact e2
    · exact .inr e1

/-- What selection makes of a slot: the task `v` has become current by R44 and R45. -/
structure Takes (s t : State) (r : SlotRef) (v : Task) : Prop where
  mem : v ∈ s.tasks
  slot : v.slot = r
  queued : v.state = .queued
  first : ∀ o ∈ s.tasks, o.slot = r → o.state = .queued → ¬s.ranksBefore o v = true
  current : (t.slot r).current = some v.id
  tenure : (t.slot r).tenure = if (s.slot r).serviceable then some s.time else none
  state : ∃ w ∈ t.tasks, w.fixed = v.fixed ∧
    if (s.slot r).serviceable then w.state = .waitLoad ∨ w.state = .shown else w.state = .blocked

/-- R45: with its tenure where the slot is serviceable, and without one where it is not. -/
theorem Takes.tenure_and {t : State} {r : SlotRef} {v : Task} (h : Takes s t r v) {P Q : Prop}
    (hPQ : if (s.slot r).serviceable then P else Q) :
    if (s.slot r).serviceable then (t.slot r).tenure = some s.time ∧ P else (t.slot r).tenure = none ∧ Q := by
  have tenure := h.tenure
  split at hPQ
  · next hs => rw [if_pos hs] at tenure; rw [if_pos hs]; exact ⟨tenure, hPQ⟩
  · next hs => rw [if_neg hs] at tenure; rw [if_neg hs]; exact ⟨tenure, hPQ⟩

/-- R44, R45: the slot of a QUEUED task that has no current task takes the first of its QUEUED tasks. -/
theorem select_takes (h : s.Stands settled) {u : Task} (hu : u ∈ s.tasks) (hq : u.state = .queued)
    (hn : (s.slot u.slot).current = none) : ∃ v, Takes s (s.select u.slot) u.slot v := by
  have waits : ∀ o ∈ s.tasks, o.slot = u.slot → o.state = .queued → o.id ∈ (s.slot u.slot).waiting := fun o ho hr hs =>
    (h.waiting u.slot).waits o (mem_site_tasks.mpr ⟨ho, hr⟩) (by rw [hs]; rfl)
  obtain ⟨v, hv⟩ := bestQueued_isSome hu (waits u hu rfl hq) hq
  have e := select_of_best hn hv
  obtain ⟨hm, hs⟩ := bestQueued_slot h hv
  obtain ⟨hm, hr⟩ := mem_site_tasks.mp hm
  obtain ⟨-, hcur, hten, -⟩ := Slot.chair_iff.mp ((select_seated e).2 u.slot)
  refine ⟨v, hm, hr, hs, fun o ho hor hos => bestQueued_first hv ho (waits o ho hor hos) hos, ?_, ?_, (select_tasks h.ids hm e).1⟩
  · rw [hcur, slot_seat, if_pos rfl]
  · rw [hten, slot_seat, if_pos rfl]

/-- A QUEUED task after a selection was so before. -/
theorem queued_select {r : SlotRef} {u : Task} (hu : u ∈ (s.select r).tasks) (hq : u.state = .queued) : u ∈ s.tasks := by
  obtain ⟨f, hf, hf'⟩ := select_moves s r
  rw [hf] at hu
  obtain ⟨v, hv, rfl⟩ := List.mem_map.mp hu
  rcases (hf' v).2 with e | e
  · rw [e]; exact hv
  · rw [hq] at e; cases e

/-- R44 reads the priorities of the pickers. -/
theorem ranksBefore_of_pickers {t : State} (h : ∀ p, (t.picker p).priority = (s.picker p).priority) (a b : Task) :
    t.ranksBefore a b = s.ranksBefore a b := by
  unfold State.ranksBefore; simp only [h]

/-- R45: the slot of a QUEUED task that has no current task takes the first of its QUEUED tasks, whatever other slots select
before it and after it. -/
theorem selectAll_takes (h : s.Stands settled) {u : Task} (hu : u ∈ s.tasks) (hq : u.state = .queued)
    (hn : (s.slot u.slot).current = none) (hl : u.slot ∈ l) : ∃ v, Takes s (s.selectAll l) u.slot v := by
  induction l generalizing s with
  | nil => cases hl
  | cons r l ih =>
    have h1 := stands_select h r
    by_cases hr : u.slot = r
    · subst hr
      obtain ⟨v, hv⟩ := select_takes h hu hq hn
      have chair := chair_selectAll (s.select u.slot) l (q := u.slot) (.inl (by rw [hv.current]; rfl))
      obtain ⟨-, hcur, hten, -⟩ := Slot.chair_iff.mp chair
      obtain ⟨w, hw, hf, hst⟩ := hv.state
      have hwq : w.state ≠ .queued := by
        intro e; rw [e] at hst; split at hst <;> simp at hst
      obtain ⟨w', hw', rise, e⟩ := selectAll_seated (l := l) h1 hw hwq
      refine ⟨v, hv.mem, hv.slot, hv.queued, hv.first, hcur.trans hv.current, hten.trans hv.tenure, w', hw', rise.fixed.trans hf, ?_⟩
      split at hst
      · next hsv =>
        rw [if_pos hsv]
        rcases rise with e | ⟨e, -⟩
        · rw [e]; exact hst
        · exact .inr e
      · next hsv =>
        rw [if_neg hsv]
        rcases e with e | e
        · rw [e]; exact hst
        · rw [hst] at e; cases e
    · have hk : (s.select r).kept = s.kept := kept_select s r
      have chair := chair_select_of_ne s r hr
      obtain ⟨-, hcur, -, hserv⟩ := Slot.chair_iff.mp chair
      obtain ⟨v, hv⟩ := ih h1 (select_other_queued h r hu hr hq) (hcur.trans hn)
        ((List.mem_cons.mp hl).resolve_left hr)
      have rank : ∀ a b, (s.select r).ranksBefore a b = s.ranksBefore a b := ranksBefore_of_pickers fun p => by
        unfold State.picker; rw [pickers_of_kept hk]
      have state := hv.state
      have tenure := hv.tenure
      rw [hserv] at state tenure
      rw [time_of_kept hk] at tenure
      refine ⟨v, queued_select hv.mem hv.queued, hv.slot, hv.queued, fun o ho hor hos => ?_, hv.current, tenure, state⟩
      rw [← rank]
      exact hv.first o (select_other_queued h r ho (by rw [hor]; exact hr) hos) hor hos

end

/-! ### RESUME_PICKER (R10) -/

/-- R10 steps 1 and 2. -/
def State.resumed (s : State) (p : Fin 12) : State := (s.updPicker p fun x => { x with state := .active }).requeueTasks p

/-- R10 step 3: the slots of the tasks moved. -/
def State.resumedSlots (s : State) (p : Fin 12) : List SlotRef :=
  allSlots.filter fun r => (s.pausedTasks p).any fun t => t.slot = r

theorem mem_resumedSlots {s : State} {p : Fin 12} {r : SlotRef} :
    r ∈ s.resumedSlots p ↔ ∃ u ∈ s.tasks, u.picker = p ∧ u.state = .paused ∧ u.slot = r := by
  simp [State.resumedSlots, State.pausedTasks, mem_allSlots, and_assoc]

section
variable {s : State} {p : Fin 12}

theorem kept_requeued (s : State) (p : Fin 12) :
    (s.resumed p).kept = (s.updPicker p fun x => { x with state := .active }).kept := kept_requeueTasks _ p

/-- R10: the rule of a RESUME_PICKER of a PAUSED picker. -/
theorem resumePickerRule_paused (rest : List Byte) (h : (s.picker p).state = .paused) :
    resumePickerRule (byteOf p.val :: rest) s =
      answer ((s.resumed p).selectAll (s.resumedSlots p)) .ok
        (pickerRecord p { s.picker p with state := .active } ++ [byteOf (s.pausedTasks p).length]) := by
  unfold resumePickerRule
  rw [pickerOf_head]
  simp only [h]
  have hp : ((s.resumed p).selectAll (s.resumedSlots p)).picker p = { s.picker p with state := .active } := by
    rw [State.picker, pickers_of_kept ((kept_selectAll _ _).trans (kept_requeued s p))]
    exact picker_updPicker_self s p _
  unfold resumeRule movedAnswer
  rw [← hp]
  rfl

/-- R10: a RESUME_PICKER of a PAUSED picker. -/
theorem resumePicker_answered {tag : Tag} (hs : AtRest s) (hr : Reaches s ⟨0x12, tag, [byteOf p.val]⟩)
    (h : (s.picker p).state = .paused) :
    exec (.resumePicker tag [byteOf p.val]) s =
      .next (((s.begun.resumed p).selectAll (s.resumedSlots p)).settleLines.replied 0x12 tag
        (0x00 :: (pickerRecord p { s.picker p with state := .active } ++ [byteOf (s.pausedTasks p).length])) .nothing) :=
  (fixedRequest_of_length rfl).trans (request_answered (u := s.begun.updPicker p fun x => { x with state := .active }) hs hr rfl
    (resumePickerRule_paused (s := s.begun) [] h) rfl ((kept_selectAll _ _).trans (kept_requeued s.begun p))
    (fun h => nomatch h))

/-- R44: what a resumed task competes with at its slot: it ranks before every other one that waits there. -/
theorem first_of_takes (hx : s.tasks.Pairwise fun a b => a.index.val < b.index.val) {t : State}
    {r : SlotRef} {v : Task} (hv : v ∈ s.tasks) (h : Takes (s.resumed p) t r (v.requeuedBy p)) {o : Task} (ho : o ∈ s.tasks)
    (hor : o.slot = r) (hos : o.state = .queued ∨ o.picker = p ∧ o.state = .paused) (hne : o ≠ v) :
    (s.picker o.picker).priority < (s.picker v.picker).priority ∨
      (s.picker o.picker).priority = (s.picker v.picker).priority ∧
        (v.stamp.toNat < o.stamp.toNat ∨ v.stamp = o.stamp ∧ v.index.val < o.index.val) := by
  have hq : (o.requeuedBy p).state = .queued := by
    unfold Task.requeuedBy; split
    · rfl
    · next hn => exact hos.resolve_right hn
  have rank := h.first (o.requeuedBy p) (List.mem_map_of_mem ho) ((Task.requeuedBy_slot p o).trans hor) hq
  have prio : ∀ q, ((s.resumed p).picker q).priority = (s.picker q).priority := fun q => by
    show ((s.updPicker p fun x => { x with state := .active }).picker q).priority = _
    rw [picker_updPicker]; split
    · next e => rw [e]
    · rfl
  have fields : ∀ w : Task, (w.requeuedBy p).picker = w.picker ∧ (w.requeuedBy p).stamp = w.stamp ∧
      (w.requeuedBy p).index = w.index := fun w => by
    unfold Task.requeuedBy; split <;> exact ⟨rfl, rfl, rfl⟩
  obtain ⟨op, os, oi⟩ := fields o
  obtain ⟨vp, vs, vi⟩ := fields v
  rw [ranksBefore_iff, prio, prio, op, os, oi, vp, vs, vi] at rank
  have index : o.index.val ≠ v.index.val := fun e => by
    have nodup : (s.tasks.map fun u => u.index.val).Nodup :=
      List.pairwise_map.mpr (hx.imp fun h => Nat.ne_of_lt h)
    exact hne (List.inj_on_of_nodup_map nodup ho hv e)
  rw [← BitVec.toNat_inj]
  omega

theorem requeuedBy_not_paused {v : Task} (hp : (v.requeuedBy p).picker = p) : (v.requeuedBy p).state ≠ .paused := by
  unfold Task.requeuedBy at *
  split
  · exact fun h => nomatch h
  · next hn => rw [if_neg hn] at hp; exact fun hst => hn ⟨hp, hst⟩

/-- R10 step 2: no task of the picker is left PAUSED. -/
theorem resumed_not_paused {l : List SlotRef} {u : Task} (hu : u ∈ ((s.resumed p).selectAll l).tasks) (hp : u.picker = p) :
    u.state ≠ .paused := by
  obtain ⟨f, hf, hf'⟩ := selectAll_moves (s.resumed p) l
  rw [hf] at hu
  obtain ⟨w, hw, rfl⟩ := List.mem_map.mp hu
  obtain ⟨v, -, hv⟩ := List.mem_map.mp hw
  have hv : v.requeuedBy p = w := hv
  rcases (hf' w).2 with e | e
  · rw [e, ← hv] at hp ⊢; exact requeuedBy_not_paused hp
  · intro hst; rw [hst] at e; cases e

theorem stands_resumed (h : s.Stands settled) (p : Fin 12) : (s.resumed p).Stands settled :=
  stands_requeueTasks (stands_updPicker h p _) p

theorem requeuedBy_paused {u : Task} (hp : u.picker = p) (hst : u.state = .paused) :
    u.requeuedBy p = { u with state := .queued } := if_pos ⟨hp, hst⟩

/-- R45: what selection makes of a slot lies in the tasks and the slots. -/
theorem Takes.of_floor {x t t' : State} {r : SlotRef} {v : Task} (h : Takes x t r v) (hf : t'.floor = t.floor) : Takes x t' r v where
  mem := h.mem
  slot := h.slot
  queued := h.queued
  first := h.first
  current := by rw [slot_of_floor hf]; exact h.current
  tenure := by rw [slot_of_floor hf]; exact h.tenure
  state := by rw [tasks_of_floor hf]; exact h.state

/-- R10 step 3, R45: the slot of a task moved takes a task, where it has no current one. -/
theorem resumed_takes (h : s.Stands settled) {u : Task} (hu : u ∈ s.tasks) (hp : u.picker = p) (hst : u.state = .paused)
    (hn : (s.slot u.slot).current = none) :
    ∃ v ∈ s.tasks, Takes (s.resumed p) ((s.resumed p).selectAll (s.resumedSlots p)) u.slot (v.requeuedBy p) := by
  have hm : { u with state := .queued } ∈ (s.resumed p).tasks :=
    requeuedBy_paused hp hst ▸ List.mem_map_of_mem (f := Task.requeuedBy p) hu
  obtain ⟨c, hc⟩ := selectAll_takes (stands_resumed h p) hm rfl hn (mem_resumedSlots.mpr ⟨u, hu, hp, hst, rfl⟩)
  obtain ⟨v, hv, rfl⟩ := List.mem_map.mp hc.mem
  exact ⟨v, hv, hc⟩

/-- R10: a RESUME_PICKER whose slots all have current tasks selects nothing. -/
theorem selectAll_of_current {x : State} {l : List SlotRef} (h : ∀ r ∈ l, (x.slot r).current.isSome = true) : x.selectAll l = x := by
  induction l with
  | nil => rfl
  | cons r l ih =>
    show (x.select r).selectAll l = x
    rw [select_of_current (h r List.mem_cons_self)]
    exact ih fun q hq => h q (List.mem_cons_of_mem r hq)

/-- R10: a RESUME_PICKER that is refused. -/
theorem resumePickerRule_refused (s : State) (p : Fin 12) (rest : List Byte) :
    ((s.picker p).state = .absent → resumePickerRule (byteOf p.val :: rest) s = movedAnswer s p .noSuchPicker 0) ∧
    ((s.picker p).state = .active → resumePickerRule (byteOf p.val :: rest) s = movedAnswer s p .wrongState 0) := by
  unfold resumePickerRule
  rw [pickerOf_head]
  refine ⟨fun h => ?_, fun h => ?_⟩ <;> simp only [h]

end

/-- Settles O18: the fold is the rule's own; what it leaves are the lemmas about slots that select one after another, and
`resumed_takes` gives the task that each slot takes. -/
theorem resumePickerRequeuesTasks : Obligations.ResumePickerRequeuesTasks := by
  refine ⟨fun tag p s hs hr => ?_, fun tag b s hb hs hr => ?_⟩
  · intro x y moved queued set taken resumes slots
    have hcount : (s.pausedTasks p).length = moved := (List.countP_eq_length_filter ..).symm
    have hslots : slots = s.resumedSlots p := by
      refine List.filter_congr fun r _ => ?_
      rw [Bool.eq_iff_iff, decide_eq_true_eq]
      simp [resumes, State.pausedTasks, and_assoc]
    set u := (s.begun.resumed p).selectAll slots with hu
    have answered : x.state = .paused → exec (.resumePicker tag [byteOf p.val]) s =
        .next (u.settleLines.replied 0x12 tag (0x00 :: (pickerRecord p y ++ [byteOf moved])) .nothing) := fun h => by
      rw [resumePicker_answered hs hr h, hcount, hu, hslots]
    have floor := floor_answered u 0x12 tag (0x00 :: (pickerRecord p y ++ [byteOf moved])) .nothing
    refine ⟨answered, fun h => ⟨_, answered h, ?_, ?_, ?_, ?_, ?_, ?_⟩, fun h hc => ?_, fun h => ?_, fun h => ?_⟩
    · exact untouched_replied (untouched_of_kept ((kept_settleLines _).trans ((kept_selectAll _ _).trans
        (kept_requeued s.begun p)))) _ _ _ _
    · exact (captures_of_floor floor).trans (congrArg Rails.captures (rails_selectAll _ _))
    · intro v hv
      rw [tasks_of_floor floor] at hv
      exact resumed_not_paused hv
    · intro r hc
      obtain ⟨-, hcur, hten, -⟩ := Slot.chair_iff.mp (chair_selectAll (s.begun.resumed p) slots (q := r)
        (hc.imp_right fun hn hm => hn (by rw [hslots] at hm; exact mem_resumedSlots.mp hm)))
      rw [slot_of_floor floor]
      exact ⟨hcur, hten⟩
    · intro r
      rw [slot_of_floor floor]
      exact waiting_selectAll _ _ r
    · intro ht ha v hv hvp hvs
      have stands : s.begun.Stands settled := (stands_of_sound ht.ids ha).congr rfl fun _ => rfl
      refine ⟨fun hc => ?_, fun hn => ?_⟩
      · rw [slot_of_floor floor] at hc
        rw [tasks_of_floor floor, ← requeuedBy_paused hvp hvs]
        have moved : (v.requeuedBy p).state = .queued := by rw [requeuedBy_paused hvp hvs]
        refine (selectAll_waits (stands_resumed stands p) (List.mem_map_of_mem (f := Task.requeuedBy p) hv)
          moved).resolve_left ?_
        rw [Task.requeuedBy_slot, Task.requeuedBy_id]
        exact hc
      · obtain ⟨c, hc, takes⟩ := resumed_takes stands hv hvp hvs hn
        have takes : Takes (s.begun.resumed p) u v.slot (c.requeuedBy p) := by rw [hu, hslots]; exact takes
        have takes := takes.of_floor floor
        obtain ⟨w, hw, hwf, hws⟩ := takes.state
        have fixed : (c.requeuedBy p).fixed = c.fixed := by unfold Task.requeuedBy; split <;> rfl
        refine ⟨c, w, hc, (Task.requeuedBy_slot p c).symm.trans takes.slot, ?_,
          fun o ho hor hos hne => first_of_takes (s := s.begun) ht.indexes hc takes ho hor hos hne,
          takes.current.trans (congrArg some (Task.requeuedBy_id p c)), ?_, hwf.trans fixed, ?_⟩
        · have queued := takes.queued
          unfold Task.requeuedBy at queued
          split at queued
          · next hn => exact .inr hn
          · exact .inl queued
        · have ids := distinctIds_of_tasks (tasks_of_floor floor) (stands_selectAll (stands_resumed stands p) slots).ids
          exact (task?_eq_some_iff ids).mpr ⟨hw, (id_of_fixed hwf).trans (Task.requeuedBy_id p c)⟩
        · exact takes.tenure_and hws
    · have none : u = s.begun.resumed p := selectAll_of_current fun r hr => by
        rw [hslots] at hr
        obtain ⟨v, hv, hvp, hvs, rfl⟩ := mem_resumedSlots.mp hr
        exact hc v hv hvp hvs
      rw [answered h, none, settleLines_of_settled (s := s.begun.resumed p) hs.lines]
      rfl
    · exact (fixedRequest_of_length rfl).trans
        (request_quiet hs hr rfl ((resumePickerRule_refused s.begun p []).1 h) rfl rfl)
    · exact (fixedRequest_of_length rfl).trans
        (request_quiet hs hr rfl ((resumePickerRule_refused s.begun p []).2 h) rfl rfl)
  · have rule : resumePickerRule [b] s.begun = answer s.begun .badValue (zeros 9) := by
      simp only [resumePickerRule, pickerOf_head_of_gt hb]
    exact (fixedRequest_of_length rfl).trans (request_quiet hs hr rfl rule rfl rfl)

end Sys2Proof.Machine
end

