-- ==== Sys2Proof/Proofs/ArbiterTurns.lean ====
section
/-! PROOFS. What a slot that gives up its task, or selects one, leaves as it is at every slot (R9, R45). -/

namespace Sys2Proof.Machine

/-! ### Turns: no task comes back that has left its slot -/

/-- A task of this id is QUEUED. -/
def State.Queued (s : State) (id : TaskId) : Prop := ∃ u ∈ s.tasks, u.id = id ∧ u.state = .queued

/-- A task of this id is QUEUED or in WAIT_LOAD: it may yet become current, or be lit. -/
def State.Moving (s : State) (id : TaskId) : Prop := ∃ u ∈ s.tasks, u.id = id ∧ (u.state = .queued ∨ u.state = .waitLoad)

theorem State.Queued.moving {s : State} {id : TaskId} (h : s.Queued id) : s.Moving id := by
  obtain ⟨u, hu, e, hq⟩ := h
  exact ⟨u, hu, e, .inl hq⟩

/-- A task is as it was, or was QUEUED or in WAIT_LOAD and is QUEUED no longer. -/
def Task.Turned (u v : Task) : Prop :=
  v.id = u.id ∧ (v = u ∨ (u.state = .queued ∨ u.state = .waitLoad) ∧ v.state ≠ .queued)

theorem Task.Turned.refl (u : Task) : u.Turned u := ⟨rfl, .inl rfl⟩

theorem Task.Turned.trans {u v w : Task} (h : u.Turned v) (k : v.Turned w) : u.Turned w := by
  obtain ⟨h1, h2⟩ := h
  obtain ⟨k1, k2⟩ := k
  refine ⟨k1.trans h1, ?_⟩
  rcases k2 with rfl | ⟨k2, k3⟩
  · exact h2
  · rcases h2 with rfl | ⟨h2, -⟩
    · exact .inr ⟨k2, k3⟩
    · exact .inr ⟨h2, k3⟩

/-- What may come of the site `a` of a slot in the state `s`. -/
structure Site.Turned (s : State) (a b : Site) : Prop where
  waiting : b.waiting = a.waiting
  current : ∀ id, b.current = some id → a.current = some id ∨ s.Queued id
  requests : ∀ n ∈ b.requests, (∃ m ∈ a.requests, m.task = n.task) ∨ s.Queued n.task
  lit : ∀ e ∈ b.lit, (∃ m ∈ a.lit, m.task = e.task) ∨ s.Moving e.task

theorem Site.Turned.refl (s : State) (a : Site) : a.Turned s a :=
  ⟨rfl, fun _ h => .inl h, fun n h => .inl ⟨n, h, rfl⟩, fun e h => .inl ⟨e, h, rfl⟩⟩

/-- From `s` to `t` tasks may leave their slots, and only QUEUED ones become current. -/
structure Turn (s t : State) : Prop where
  tasks : ∃ f : Task → Task, t.tasks = s.tasks.map f ∧ ∀ u ∈ s.tasks, u.Turned (f u)
  sites : ∀ r, (s.site r).Turned s (t.site r)

section
variable {s t u : State}

theorem Turn.of_sites (ht : t.tasks = s.tasks) (hs : ∀ r, (s.site r).Turned s (t.site r)) : Turn s t :=
  ⟨⟨id, by rw [ht, List.map_id], fun v _ => .refl v⟩, hs⟩

theorem Turn.refl (s : State) : Turn s s := .of_sites rfl fun _ => .refl s _

theorem Turn.moving (h : Turn s t) {id : TaskId} (hm : t.Moving id) : s.Moving id := by
  obtain ⟨f, ht, hf⟩ := h.tasks
  obtain ⟨v, hv, rfl, hst⟩ := hm
  rw [ht] at hv
  obtain ⟨w, hw, rfl⟩ := List.mem_map.mp hv
  obtain ⟨e, h1 | ⟨h1, -⟩⟩ := hf w hw
  · exact ⟨w, hw, e.symm, by rw [h1] at hst; exact hst⟩
  · exact ⟨w, hw, e.symm, h1⟩

theorem Turn.queued (h : Turn s t) {id : TaskId} (hm : t.Queued id) : s.Queued id := by
  obtain ⟨f, ht, hf⟩ := h.tasks
  obtain ⟨v, hv, rfl, hst⟩ := hm
  rw [ht] at hv
  obtain ⟨w, hw, rfl⟩ := List.mem_map.mp hv
  obtain ⟨e, h1 | ⟨-, h1⟩⟩ := hf w hw
  · exact ⟨w, hw, e.symm, by rw [h1] at hst; exact hst⟩
  · exact absurd hst h1

theorem Turn.trans (h : Turn s t) (k : Turn t u) : Turn s u where
  tasks := by
    obtain ⟨f, ht, hf⟩ := h.tasks
    obtain ⟨f', hu, hf'⟩ := k.tasks
    refine ⟨f' ∘ f, by rw [hu, ht, List.map_map], fun v hv => (hf v hv).trans (hf' (f v) ?_)⟩
    rw [ht]; exact List.mem_map_of_mem hv
  sites := fun r => by
    obtain ⟨h1, h2, h3, h4⟩ := h.sites r
    obtain ⟨k1, k2, k3, k4⟩ := k.sites r
    refine ⟨k1.trans h1, fun id hid => ?_, fun n hn => ?_, fun e he => ?_⟩
    · exact (k2 id hid).elim (h2 id) fun hq => .inr (h.queued hq)
    · rcases k3 n hn with ⟨m, hm, e⟩ | hq
      · rw [← e]; exact h3 m hm
      · exact .inr (h.queued hq)
    · rcases k4 e he with ⟨m, hm, e'⟩ | hq
      · rw [← e']; exact h4 m hm
      · exact .inr (h.moving hq)

theorem Turn.foldl {α : Type} {f : State → α → State} (hf : ∀ s a, s.DistinctIds → Turn s (f s a) ∧ (f s a).DistinctIds)
    (l : List α) (h : s.DistinctIds) : Turn s (l.foldl f s) := by
  induction l generalizing s with
  | nil => exact .refl s
  | cons a l ih => exact (hf s a h).1.trans (ih (hf s a h).2)

/-- A task that is neither QUEUED nor in WAIT_LOAD stays as it is. -/
theorem Turn.stays (h : Turn s t) {v : Task} (hv : v ∈ s.tasks) (hst : ¬(v.state = .queued ∨ v.state = .waitLoad)) :
    v ∈ t.tasks := by
  obtain ⟨f, ht, hf⟩ := h.tasks
  rw [ht]
  exact List.mem_map.mpr ⟨v, hv, (hf v hv).2.resolve_right fun e => hst e.1⟩

/-! ### The turns of the primitive operations -/

theorem turn_clearCurrent (s : State) (q : SlotRef) : Turn s (s.clearCurrent q) :=
  .of_sites rfl fun r => by
    rw [site_clearCurrent]; split
    · next e => subst e; exact ⟨rfl, fun _ h => (nomatch h), fun n h => .inl ⟨n, h, rfl⟩, fun e h => .inl ⟨e, h, rfl⟩⟩
    · exact .refl s _

theorem turn_darken (s : State) (q : SlotRef) : Turn s (s.darken q) :=
  .of_sites (darken_tasks s q) fun r => by
    rw [site_darken]; split
    · next e =>
      obtain rfl := e.1
      exact ⟨rfl, fun _ h => .inl h, fun n h => .inl ⟨n, h, rfl⟩, fun e h => .inl ⟨e, h, rfl⟩⟩
    · exact .refl s _

theorem turn_unlight (s : State) (q : SlotRef) : Turn s (s.unlight q) :=
  .of_sites rfl fun r => by
    rw [site_unlight]; split
    · next e => subst e; exact ⟨rfl, fun _ h => .inl h, fun n h => .inl ⟨n, h, rfl⟩, fun e h => (nomatch h)⟩
    · exact .refl s _

theorem turn_withdraw (s : State) (q : SlotRef) : Turn s (s.withdraw q) :=
  .of_sites rfl fun r => by
    rw [site_withdraw]; split
    · next e => subst e; exact ⟨rfl, fun _ h => .inl h, fun n h => (nomatch h), fun e h => .inl ⟨e, h, rfl⟩⟩
    · exact .refl s _

theorem turned_of_seg {r : SlotRef} (h : t.seg r.seg = s.seg r.seg) : (s.site r).Turned s (t.site r) := by
  have hs : t.slot r = s.slot r := by unfold State.slot; rw [h]
  have hg : t.gov r.seg = s.gov r.seg := by unfold State.gov; rw [h]
  refine ⟨by rw [site_waiting, site_waiting, hs], fun id hid => .inl (by rw [site_current, ← hs]; exact hid), fun n hn => ?_,
    fun e he => ?_⟩
  · exact .inl ⟨n, by rw [site_requests, ← hg]; exact hn, rfl⟩
  · exact .inl ⟨e, by rw [site_lit, ← hg]; exact he, rfl⟩

/-- What the governor of a segment does. -/
theorem Governs.turn {g : Seg} {T : Fin 62 → Prop} (h : Governs g T s t) (hi : s.DistinctIds) : Turn s t where
  tasks := by
    obtain ⟨f, ht, hf, hw⟩ := h.rise
    refine ⟨f, ht, fun v hv => ⟨id_of_fixed (hf v).fixed, ?_⟩⟩
    rcases hf v with e | ⟨e, -⟩
    · exact .inl e
    · refine (hw hi v hv).imp_right fun hst => ⟨.inr hst, by rw [e]; decide⟩
  sites := fun r => by
    by_cases hr : r.seg = g
    · subst hr
      obtain ⟨hwait, hcur, -, -⟩ := Slot.chair_iff.mp (h.chairs r)
      refine ⟨hwait, fun id hid => .inl (hcur.symm.trans hid), fun n hn => ?_, fun e he => ?_⟩
      · obtain ⟨hn, hx⟩ := mem_requests.mp hn
        obtain ⟨m, hm, e1, e2⟩ := h.queue n hn
        exact .inl ⟨m, mem_requests.mpr ⟨hm, e1.trans hx⟩, e2⟩
      · obtain ⟨he, hx⟩ := mem_lit.mp he
        rcases h.lit e he with ⟨m, hm, e1, e2⟩ | ⟨-, v, hv, e1, e2⟩
        · exact .inl ⟨m, mem_lit.mpr ⟨hm, e1.trans hx⟩, e2⟩
        · exact .inr ⟨v, hv, e1, .inr e2⟩
    · exact turned_of_seg (h.others r.seg hr)

theorem turn_settle (hi : s.DistinctIds) (g : Seg) : Turn s (s.settle g) := (governs_settle s g).turn hi

/-! ### The turns of a pause and of a selection -/

theorem turn_yieldSlot (hi : s.DistinctIds) (v : Task) : Turn s (s.yieldSlot v) := by
  have hc := turn_clearCurrent s v.slot
  have ids : ∀ {x : State}, x.kept = s.kept → x.DistinctIds := fun h => distinctIds_of_kept h hi
  unfold State.yieldSlot
  simp only []
  split
  · exact ((hc.trans (turn_darken _ _)).trans (turn_unlight _ _)).trans (turn_settle (ids (by simp)) _)
  · exact (hc.trans (turn_withdraw _ _)).trans (turn_settle (ids (by simp)) _)
  · exact hc
  · exact .refl s

theorem site_seat (s : State) (q : SlotRef) (v : Task) (r : SlotRef) :
    ∃ l, (s.seat q v).site r = { s.site r with
      tasks := l, current := if r = q then some v.id else (s.slot r).current
      tenure := if r = q then (if (s.slot q).serviceable then some s.time else none) else (s.slot r).tenure } := by
  refine ⟨((s.site r).retask v.id (Task.inState (if (s.slot q).serviceable then .waitLoad else .blocked))).tasks,
    (site_setTaskState _ _ _ r).trans ?_⟩
  rw [site_setCurrent]
  split
  · next e => subst e; rfl
  · rfl

theorem turn_seat (hi : s.DistinctIds) (q : SlotRef) {v : Task} (hv : v ∈ s.tasks) (hq : v.state = .queued) :
    Turn s (s.seat q v) where
  tasks := by
    refine ⟨_, rfl, fun w hw => ?_⟩
    simp only []
    split
    · next e =>
      refine ⟨rfl, .inr ⟨.inl (by rw [eq_of_id hi hw hv e]; exact hq), ?_⟩⟩
      show (if (s.slot q).serviceable = true then TaskState.waitLoad else .blocked) ≠ .queued
      split <;> decide
    · exact .refl w
  sites := fun r => by
    obtain ⟨l, e⟩ := site_seat s q v r
    rw [e]
    refine ⟨rfl, fun id hid => ?_, fun n h => .inl ⟨n, h, rfl⟩, fun e h => .inl ⟨e, h, rfl⟩⟩
    split at hid
    · exact .inr ⟨v, hv, Option.some.inj hid, hq⟩
    · exact .inl hid

theorem turn_select (hi : s.DistinctIds) (q : SlotRef) : Turn s (s.select q) := by
  rcases select_cases s q with e | ⟨v, -, hb, e⟩
  · rw [e]; exact .refl s
  obtain ⟨hv, hq, -⟩ := bestQueued_mem hb
  have hseat := turn_seat hi q hv hq
  rw [e]; split
  · have place : Turn s ((s.seat q v).place q v s.time) := by
      refine ⟨hseat.tasks, fun r => ?_⟩
      obtain ⟨h1, h2, h3, h4⟩ := hseat.sites r
      unfold State.place
      simp only []
      rw [site_updGov]
      split
      · next hg =>
        refine ⟨h1, h2, fun n hn => ?_, fun e he => h4 e ?_⟩
        · obtain ⟨hn, hx⟩ := List.mem_filter.mp hn
          have hx : n.ix = r.ix := by simpa using hx
          rcases List.mem_cons.mp ((insertAdmission_perm _ _ _).mem_iff.mp hn) with rfl | hn
          · exact .inr ⟨v, hv, rfl, hq⟩
          · exact h3 n (mem_requests.mpr ⟨by rw [hg]; exact hn, hx⟩)
        · rw [site_lit, hg]; exact he
      · exact ⟨h1, h2, h3, h4⟩
    have ids : ((s.seat q v).place q v s.time).DistinctIds := distinctIds_updTask (fun _ => rfl) hi
    exact place.trans (turn_settle ids _)
  · exact hseat

theorem yieldSlot_distinctIds (hi : s.DistinctIds) (v : Task) : (s.yieldSlot v).DistinctIds :=
  distinctIds_of_kept (kept_yieldSlot s v) hi

theorem select_distinctIds (hi : s.DistinctIds) (q : SlotRef) : (s.select q).DistinctIds :=
  distinctIds_of_kept (kept_select s q) hi

theorem turn_yieldSlots (hi : s.DistinctIds) (l : List Task) : Turn s (l.foldl State.yieldSlot s) :=
  .foldl (fun _ v h => ⟨turn_yieldSlot h v, yieldSlot_distinctIds h v⟩) l hi

theorem turn_selectAll (hi : s.DistinctIds) (l : List SlotRef) : Turn s (s.selectAll l) :=
  .foldl (fun _ q h => ⟨turn_select h q, select_distinctIds h q⟩) l hi

end

/-! ### A slot whose shadow is spared -/

/-- From `s` to `t` a slot without an admission request gets none, and keeps its shadow's seq and owner; and where it is not
lit, it stays so and keeps its shadow. -/
structure Spares (r : SlotRef) (s t : State) : Prop where
  requests : (s.site r).requests = [] → (t.site r).requests = []
  owner : (s.site r).requests = [] → (t.shadow r).seq = (s.shadow r).seq ∧ (t.shadow r).owner = (s.shadow r).owner
  dark : (s.site r).requests = [] → (s.site r).lit = [] → (t.site r).lit = [] ∧ t.shadow r = s.shadow r

section
variable {r : SlotRef} {s t u : State}

theorem Spares.trans (h : Spares r s t) (k : Spares r t u) : Spares r s u where
  requests := k.requests ∘ h.requests
  owner := fun hr => ⟨((k.owner (h.requests hr)).1).trans (h.owner hr).1, ((k.owner (h.requests hr)).2).trans (h.owner hr).2⟩
  dark := fun hr hl => by
    obtain ⟨h1, h2⟩ := h.dark hr hl
    obtain ⟨k1, k2⟩ := k.dark (h.requests hr) h1
    exact ⟨k1, k2.trans h2⟩

/-- What leaves the slot's shadow, and no more than its requests and its display. -/
theorem Spares.of_site (hq : (s.site r).requests = [] → (t.site r).requests = []) (hl : (s.site r).lit = [] → (t.site r).lit = [])
    (hs : (t.site r).shadow = (s.site r).shadow) : Spares r s t := by
  have hs : t.shadow r = s.shadow r := hs
  exact ⟨hq, fun _ => by rw [hs]; exact ⟨rfl, rfl⟩, fun _ h => ⟨hl h, hs⟩⟩

theorem Spares.refl (s : State) : Spares r s s := .of_site id id rfl

theorem Spares.of_same (h : t.site r = s.site r) : Spares r s t := .of_site (by rw [h]; exact id) (by rw [h]; exact id) (by rw [h])

theorem spares_clearCurrent (s : State) (q : SlotRef) : Spares r s (s.clearCurrent q) := by
  by_cases e : r = q
  · subst e
    have h : (s.clearCurrent r).site r = { s.site r with current := none, tenure := none } := by
      rw [site_clearCurrent, if_pos rfl]
    exact .of_site (by rw [h]; exact id) (by rw [h]; exact id) (by rw [h])
  · exact .of_same (by rw [site_clearCurrent, if_neg e])

theorem spares_unlight (s : State) (q : SlotRef) : Spares r s (s.unlight q) := by
  by_cases e : r = q
  · subst e
    have h := site_unlight_self s r
    exact .of_site (by rw [h]; exact id) (fun _ => by rw [h]) (by rw [h])
  · exact .of_same (site_unlight_of_ne e s)

theorem spares_withdraw (s : State) (q : SlotRef) : Spares r s (s.withdraw q) := by
  by_cases e : r = q
  · subst e
    have h := site_withdraw_self s r
    exact .of_site (fun _ => by rw [h]) (by rw [h]; exact id) (by rw [h])
  · exact .of_same (site_withdraw_of_ne e s)

/-- R55: a shadow that has no owner stays as it is. -/
theorem darken_of_none {q : SlotRef} (h : (s.shadow q).owner = none) : s.darken q = s := by
  unfold State.darken; rw [h]; rfl

/-- R92, R93, R96: the governor of a segment spares a slot that has no request in its queue. -/
theorem spares_settle (s : State) (g : Seg) : Spares r s (s.settle g) := by
  have h := governs_settle s g
  by_cases hr : r.seg = g
  · subst hr
    have asked : (s.site r).requests = [] → ¬s.Asked r.seg r.ix := fun hq ⟨a, ha, hx⟩ => by
      have hm : a ∈ (s.site r).requests := mem_requests.mpr ⟨ha, hx⟩
      rw [hq] at hm; cases hm
    have unlit : (s.site r).lit = [] → ∀ e ∈ (s.gov r.seg).lit, e.ix ≠ r.ix := fun hl e he hx => by
      have hm : e ∈ (s.site r).lit := mem_lit.mpr ⟨he, hx⟩
      rw [hl] at hm; cases hm
    refine ⟨fun hq => List.eq_nil_iff_forall_not_mem.mpr fun a ha => ?_, fun hq => ?_, fun hq hl => ⟨?_, ?_⟩⟩
    · obtain ⟨ha, hx⟩ := mem_requests.mp ha
      obtain ⟨b, hb, e, -⟩ := h.queue a ha
      exact asked hq ⟨b, hb, e.trans hx⟩
    · obtain ⟨h1, h2, -⟩ := h.shadow r.ix (asked hq)
      exact ⟨h1, h2⟩
    · refine List.eq_nil_iff_forall_not_mem.mpr fun e he => ?_
      obtain ⟨he, hx⟩ := mem_lit.mp he
      rcases h.lit e he with ⟨b, hb, e1, -⟩ | ⟨ha, -⟩
      · exact unlit hl b hb (e1.trans hx)
      · exact asked hq (hx ▸ ha)
    · exact (h.shadow r.ix (asked hq)).2.2 (unlit hl)
  · have hs := h.others r.seg hr
    have hg : (s.settle g).gov r.seg = s.gov r.seg := by unfold State.gov; rw [hs]
    have hsl : (s.settle g).slot r = s.slot r := by unfold State.slot; rw [hs]
    refine .of_site ?_ ?_ ?_
    · rw [site_requests, site_requests, hg]; exact id
    · rw [site_lit, site_lit, hg]; exact id
    · show ((s.settle g).slot r).shadow = (s.slot r).shadow
      rw [hsl]

/-- R9 step 3: a task that gives up its slot spares every slot, but for its own where its display goes dark. -/
theorem spares_yieldSlot (s : State) (v : Task)
    (h : r = v.slot → v.state = .shown → (s.shadow r).owner = none) : Spares r s (s.yieldSlot v) := by
  have hc := spares_clearCurrent (r := r) s v.slot
  unfold State.yieldSlot
  simp only []
  split
  · next hst =>
    refine ((hc.trans ?_).trans (spares_unlight _ _)).trans (spares_settle _ _)
    by_cases e : r = v.slot
    · have hn : ((s.clearCurrent v.slot).shadow v.slot).owner = none := by
        have hs : (s.clearCurrent v.slot).shadow v.slot = s.shadow v.slot :=
          congrArg Site.shadow ((site_clearCurrent s v.slot v.slot).trans (if_pos rfl))
        rw [hs, ← e]; exact h e hst
      rw [darken_of_none hn]
      exact .refl _
    · exact .of_same (site_darken_of_ne e _)
  · exact (hc.trans (spares_withdraw _ _)).trans (spares_settle _ _)
  · exact hc
  · exact .refl s

/-- R45: a slot that selects spares the others. -/
theorem spares_select (s : State) {q : SlotRef} (hq : r ≠ q) : Spares r s (s.select q) := by
  rcases select_cases s q with e | ⟨v, -, -, e⟩
  · rw [e]; exact .refl s
  have seat : Spares r s (s.seat q v) := by
    obtain ⟨l, hl⟩ := site_seat s q v r
    exact .of_site (by rw [hl]; exact id) (by rw [hl]; exact id) (by rw [hl])
  rw [e]; split
  · refine (seat.trans ?_).trans (spares_settle _ _)
    unfold State.place
    simp only []
    refine .of_site ?_ ?_ ?_ <;> rw [site_updGov] <;> split
    · next hg =>
      have hx : q.ix ≠ r.ix := fun hx => hq (slotRef_eq_iff.mpr ⟨hg, hx.symm⟩)
      simp only []
      rw [filter_insertAdmission_ne _ _ _ hx, site_requests, hg]
      exact id
    · exact id
    · next hg => rw [site_lit, hg]; exact id
    · exact id
    · rfl
    · rfl
  · exact seat

end

end Sys2Proof.Machine
end

