-- ==== Sys2Proof/Proofs/SlotGivenUp.lean ====
section
/-! PROOFS. What a slot is left as that a paused task gives up, and that it stays so (R9). -/

namespace Sys2Proof.Machine

/-! ### A slot that has been given up -/

/-- R9 step 3: the slot has no current task and no tenure. -/
def State.Vacant (s : State) (r : SlotRef) : Prop := (s.slot r).current = none ∧ (s.slot r).tenure = none

/-- R9 step 4: no QUEUED task is in the slot's waiting set. -/
def State.Unqueued (s : State) (r : SlotRef) : Prop := ∀ v ∈ s.tasks, v.id ∈ (s.slot r).waiting → v.state ≠ .queued

/-- R9 step 3, R55: the slot's shadow `sh` has gone dark, and nothing of the governor's is left of the slot. -/
structure Darkened (sh : Shadow) (r : SlotRef) (s : State) : Prop where
  requests : (s.site r).requests = []
  lit : (s.site r).lit = []
  shadow : s.shadow r = sh.darkened

/-- The slot's shadow is `sh` but for its style, or has gone dark. -/
structure Fades (sh : Shadow) (r : SlotRef) (s : State) : Prop where
  requests : (s.site r).requests = []
  shadow : (s.shadow r).seq = sh.seq ∧ (s.shadow r).owner = sh.owner ∨ (s.site r).lit = [] ∧ s.shadow r = sh.darkened

section
variable {r : SlotRef} {s t : State} {sh : Shadow}

theorem Darkened.spared (h : Darkened sh r s) (k : Spares r s t) : Darkened sh r t where
  requests := k.requests h.requests
  lit := (k.dark h.requests h.lit).1
  shadow := (k.dark h.requests h.lit).2.trans h.shadow

theorem Darkened.fades (h : Darkened sh r s) : Fades sh r s := ⟨h.requests, .inr ⟨h.lit, h.shadow⟩⟩

theorem Fades.spared (h : Fades sh r s) (k : Spares r s t) : Fades sh r t := by
  refine ⟨k.requests h.requests, ?_⟩
  rcases h.shadow with ⟨h1, h2⟩ | ⟨h1, h2⟩
  · obtain ⟨k1, k2⟩ := k.owner h.requests
    exact .inl ⟨k1.trans h1, k2.trans h2⟩
  · obtain ⟨k1, k2⟩ := k.dark h.requests h1
    exact .inr ⟨k1, k2.trans h2⟩

theorem Shadow.darkened_of_some {x : Shadow} (h : x.owner ≠ none) : x.darkened = Shadow.dark (x.seq + 1) := by
  unfold Shadow.darkened
  split
  · next e => exact absurd e h
  · rfl

theorem Shadow.darkened_owner (x : Shadow) : x.darkened.owner = none := by
  unfold Shadow.darkened
  split
  · assumption
  · rfl

/-- R9 step 3: the display of a task that gives up the slot goes dark. -/
theorem Fades.yieldSlot_self {v : Task} (h : Fades sh v.slot s) (hsh : sh.owner ≠ none) (hst : v.state = .shown) :
    Darkened sh v.slot (s.yieldSlot v) := by
  have hq := h.requests
  have cleared : (s.clearCurrent v.slot).site v.slot = { s.site v.slot with current := none, tenure := none } :=
    (site_clearCurrent s v.slot v.slot).trans (if_pos rfl)
  have shadow0 : (s.clearCurrent v.slot).shadow v.slot = s.shadow v.slot := congrArg Site.shadow cleared
  have dark : (((s.clearCurrent v.slot).darken v.slot).site v.slot).shadow = sh.darkened := by
    rw [site_darken, shadow0]
    rcases h.shadow with ⟨h1, h2⟩ | ⟨-, h2⟩
    · rw [if_pos ⟨rfl, by rw [h2]; exact hsh⟩, h1, Shadow.darkened_of_some hsh]
    · have hn : (s.shadow v.slot).owner = none := by rw [h2]; exact Shadow.darkened_owner sh
      rw [if_neg fun e => e.2 hn, cleared]
      exact h2
  have requests : (((s.clearCurrent v.slot).darken v.slot).site v.slot).requests = [] := by
    rw [site_darken, cleared]
    split
    · exact hq
    · exact hq
  have unlit : Darkened sh v.slot (((s.clearCurrent v.slot).darken v.slot).unlight v.slot) := by
    have e := site_unlight_self ((s.clearCurrent v.slot).darken v.slot) v.slot
    refine ⟨by rw [e]; exact requests, by rw [e], ?_⟩
    have hs : (((s.clearCurrent v.slot).darken v.slot).unlight v.slot).shadow v.slot =
        (((s.clearCurrent v.slot).darken v.slot).site v.slot).shadow := congrArg Site.shadow e
    exact hs.trans dark
  unfold State.yieldSlot
  simp only [hst]
  exact unlit.spared (spares_settle _ _)

theorem Fades.yieldSlot (h : Fades sh r s) (hsh : sh.owner ≠ none) (v : Task) : Fades sh r (s.yieldSlot v) := by
  by_cases e : r = v.slot ∧ v.state = .shown
  · obtain ⟨rfl, hst⟩ := e
    exact (h.yieldSlot_self hsh hst).fades
  · exact h.spared (spares_yieldSlot s v fun h1 h2 => absurd ⟨h1, h2⟩ e)

theorem Fades.yieldSlots (h : Fades sh r s) (hsh : sh.owner ≠ none) (l : List Task) : Fades sh r (l.foldl State.yieldSlot s) := by
  induction l generalizing s with
  | nil => exact h
  | cons v l ih => exact ih (h.yieldSlot hsh v)

theorem Darkened.yieldSlots (h : Darkened sh r s) (l : List Task) : Darkened sh r (l.foldl State.yieldSlot s) := by
  induction l generalizing s with
  | nil => exact h
  | cons v l ih =>
    exact ih (h.spared (spares_yieldSlot s v fun _ _ => by rw [h.shadow]; exact Shadow.darkened_owner sh))

/-! ### The slot stays vacant -/

theorem vacant_of_chair (h : (t.slot r).chair = (s.slot r).chair) (hv : s.Vacant r) : t.Vacant r := by
  obtain ⟨-, h1, h2, -⟩ := Slot.chair_iff.mp h
  exact ⟨h1.trans hv.1, h2.trans hv.2⟩

theorem vacant_of_site (hc : (t.site r).current = (s.site r).current) (ht : (t.site r).tenure = (s.site r).tenure)
    (hv : s.Vacant r) : t.Vacant r := ⟨hc.trans hv.1, ht.trans hv.2⟩

theorem vacant_clearCurrent_self (s : State) (q : SlotRef) : (s.clearCurrent q).Vacant q := by
  have e := (site_clearCurrent s q q).trans (if_pos rfl)
  exact ⟨congrArg Site.current e, congrArg Site.tenure e⟩

theorem vacant_clearCurrent (q : SlotRef) (h : s.Vacant r) : (s.clearCurrent q).Vacant r := by
  by_cases e : r = q
  · subst e; exact vacant_clearCurrent_self s r
  · have hs := (site_clearCurrent s q r).trans (if_neg e)
    exact vacant_of_site (by rw [hs]) (by rw [hs]) h

theorem vacant_settle (g : Seg) (h : s.Vacant r) : (s.settle g).Vacant r := vacant_of_chair ((governs_settle s g).chairs r) h

theorem vacant_darken (q : SlotRef) (h : s.Vacant r) : (s.darken q).Vacant r := by
  refine vacant_of_site ?_ ?_ h <;> rw [site_darken] <;> split
  · next e => rw [e.1]
  · rfl
  · next e => rw [e.1]
  · rfl

theorem vacant_unlight (q : SlotRef) (h : s.Vacant r) : (s.unlight q).Vacant r := by
  refine vacant_of_site ?_ ?_ h <;> rw [site_unlight] <;> split
  · next e => rw [e]
  · rfl
  · next e => rw [e]
  · rfl

theorem vacant_withdraw (q : SlotRef) (h : s.Vacant r) : (s.withdraw q).Vacant r := by
  refine vacant_of_site ?_ ?_ h <;> rw [site_withdraw] <;> split
  · next e => rw [e]
  · rfl
  · next e => rw [e]
  · rfl

/-- What follows the end of a task's tenure. -/
theorem vacant_yieldSlot_of {v : Task} (h : v.state.isCurrent = true → (s.clearCurrent v.slot).Vacant r)
    (hs : v.state.isCurrent = false → s.Vacant r) : (s.yieldSlot v).Vacant r := by
  unfold State.yieldSlot
  simp only []
  split
  · next hst => exact vacant_settle _ (vacant_unlight _ (vacant_darken _ (h (by rw [hst]; rfl))))
  · next hst => exact vacant_settle _ (vacant_withdraw _ (h (by rw [hst]; rfl)))
  · next hst => exact h (by rw [hst]; rfl)
  · next h1 h2 h3 => exact hs (by cases hst : v.state <;> simp_all [TaskState.isCurrent])

theorem vacant_yieldSlot_self {v : Task} (hc : v.state.isCurrent = true) : (s.yieldSlot v).Vacant v.slot :=
  vacant_yieldSlot_of (fun _ => vacant_clearCurrent_self s v.slot) fun h => by rw [hc] at h; cases h

theorem vacant_yieldSlots (h : s.Vacant r) (l : List Task) : (l.foldl State.yieldSlot s).Vacant r := by
  induction l generalizing s with
  | nil => exact h
  | cons v l ih => exact ih (vacant_yieldSlot_of (fun _ => vacant_clearCurrent _ h) fun _ => h)

theorem Unqueued.turn (h : s.Unqueued r) (k : Turn s t) : t.Unqueued r := by
  intro v hv hw hq
  obtain ⟨f, ht, hf⟩ := k.tasks
  rw [ht] at hv
  obtain ⟨w, hm, rfl⟩ := List.mem_map.mp hv
  obtain ⟨hid, e | ⟨-, e⟩⟩ := hf w hm
  · rw [e] at hq hw
    have waiting : (t.slot r).waiting = (s.slot r).waiting := (k.sites r).waiting
    exact h w hm (waiting ▸ hw) hq
  · exact e hq

/-- R44: a slot without a QUEUED task selects nothing. -/
theorem select_of_unqueued (h : s.Unqueued r) : s.select r = s := by
  refine select_of_none ?_
  rcases hb : s.bestQueued r with _ | v
  · rfl
  · obtain ⟨hv, hq, hw⟩ := bestQueued_mem hb
    exact absurd hq (h v hv hw)

theorem vacant_selectAll (hi : s.DistinctIds) (h : s.Unqueued r) (hv : s.Vacant r) (l : List SlotRef) :
    (s.selectAll l).Vacant r := by
  induction l generalizing s with
  | nil => exact hv
  | cons q l ih =>
    refine ih (select_distinctIds hi q) (Unqueued.turn h (turn_select hi q)) ?_
    by_cases e : r = q
    · subst e
      show (s.select r).Vacant r
      rw [select_of_unqueued h]; exact hv
    · exact vacant_of_chair (chair_select_of_ne s q e) hv

theorem Darkened.selectAll (hi : s.DistinctIds) (h : s.Unqueued r) (hd : Darkened sh r s) (l : List SlotRef) :
    Darkened sh r (s.selectAll l) := by
  induction l generalizing s with
  | nil => exact hd
  | cons q l ih =>
    refine ih (select_distinctIds hi q) (Unqueued.turn h (turn_select hi q)) ?_
    by_cases e : r = q
    · subst e
      show Darkened sh r (s.select r)
      rw [select_of_unqueued h]; exact hd
    · exact hd.spared (spares_select s e)

/-! ### The task has left its slot -/

/-- R9 step 3: what a task that has given up its slot leaves there. -/
structure Left (v : Task) (s : State) : Prop where
  current : (s.site v.slot).current ≠ some v.id
  lit : v.state = .shown → ∀ e ∈ (s.site v.slot).lit, e.task ≠ v.id
  requests : v.state = .waitLoad → ∀ a ∈ (s.site v.slot).requests, a.task ≠ v.id

/-- A task that is neither QUEUED nor in WAIT_LOAD does not come back to the slot that it has left. -/
theorem Left.turn {v : Task} (h : Left v s) (k : Turn s t) (hm : ¬s.Moving v.id) : Left v t := by
  obtain ⟨-, current, requests, lit⟩ := k.sites v.slot
  refine ⟨fun e => ?_, fun hst e he hid => ?_, fun hst a ha hid => ?_⟩
  · exact (current _ e).elim h.current fun hq => hm hq.moving
  · rcases lit e he with ⟨m, hme, e1⟩ | hq
    · exact h.lit hst m hme (e1.trans hid)
    · exact hm (hid ▸ hq)
  · rcases requests a ha with ⟨m, hma, e1⟩ | hq
    · exact h.requests hst m hma (e1.trans hid)
    · exact hm (hid ▸ hq.moving)

theorem left_of_site {v : Task} {x : Site} (h : s.site v.slot = x) (hc : x.current = none)
    (hl : v.state = .shown → x.lit = []) (hq : v.state = .waitLoad → x.requests = []) : Left v s := by
  subst h
  refine ⟨by rw [hc]; exact fun h => (nomatch h), fun hst e he => ?_, fun hst a ha => ?_⟩
  · rw [hl hst] at he; cases he
  · rw [hq hst] at ha; cases ha

/-- R9 step 3: a current task of a paused picker leaves its slot. -/
theorem left_yieldSlot (hi : s.DistinctIds) {v : Task} (hc : v.state.isCurrent = true) (hm : ¬s.Moving v.id) :
    Left v (s.yieldSlot v) := by
  have cleared : ((s.clearCurrent v.slot).site v.slot) = { s.site v.slot with current := none, tenure := none } :=
    (site_clearCurrent s v.slot v.slot).trans (if_pos rfl)
  have moving : ∀ {x : State}, x.tasks = s.tasks → ¬x.Moving v.id := fun e ⟨w, hw, h⟩ => hm ⟨w, e ▸ hw, h⟩
  unfold State.yieldSlot
  simp only []
  split
  · next hst =>
    have dark : ((((s.clearCurrent v.slot).darken v.slot)).site v.slot).current = none := by
      rw [site_darken, cleared]; split <;> rfl
    have h0 : Left v (((s.clearCurrent v.slot).darken v.slot).unlight v.slot) :=
      left_of_site (site_unlight_self _ _) dark (fun _ => rfl) fun h => by rw [hst] at h; cases h
    exact h0.turn (turn_settle (distinctIds_of_kept (by simp) hi) _) (moving (by simp))
  · next hst =>
    have h0 : Left v ((s.clearCurrent v.slot).withdraw v.slot) :=
      left_of_site (site_withdraw_self _ _) (by rw [cleared]) (fun h => by rw [hst] at h; cases h) fun _ => rfl
    exact h0.turn (turn_settle (distinctIds_of_kept (by simp) hi) _) (moving (by simp))
  · next hst => exact left_of_site cleared rfl (fun h => by rw [hst] at h; cases h) fun h => by rw [hst] at h; cases h
  · next h1 h2 h3 => cases hst : v.state <;> simp_all [TaskState.isCurrent]

end

end Sys2Proof.Machine
end

