-- ==== Sys2Proof/Proofs/PickerPause.lean ====
section
/-! PROOFS. PAUSE_PICKER (R9) whole: its tasks pause, its current tasks give up their slots, and these select. -/

namespace Sys2Proof.Machine

/-- R9 steps 1 and 2. -/
def State.pausedOf (s : State) (p : Fin 12) : State := (s.updPicker p fun x => { x with state := .paused }).pauseTasks p

/-- R9 step 4: the slots that the current tasks have given up. -/
def State.yieldedSlots (s : State) (p : Fin 12) : List SlotRef :=
  allSlots.filter fun r => (s.displaced p).any fun t => t.slot = r

/-- R9 whole. -/
def State.afterPause (s : State) (p : Fin 12) : State :=
  ((s.displaced p).foldl State.yieldSlot (s.pausedOf p)).selectAll (s.yieldedSlots p)

section
variable {s : State} {p : Fin 12} {u : Task}

/-! ### The tasks of the picker -/

theorem Task.live_eq (u : Task) : u.live = (!u.state.terminal && decide (u.state ≠ .paused)) := by
  unfold Task.live; cases u.state <;> rfl

theorem Task.pausedBy_eq (p : Fin 12) (u : Task) :
    u.pausedBy p = if u.picker = p ∧ u.live then { u with state := .paused, timeLeft := 0 } else u := by
  unfold Task.pausedBy; rw [Task.live_eq]; simp

theorem liveTasks_length (s : State) (p : Fin 12) :
    (s.liveTasks p).length = s.tasks.countP fun t => t.picker = p && t.live := by
  unfold State.liveTasks
  rw [← List.countP_eq_length_filter]
  exact List.countP_congr fun v _ => by rw [Task.live_eq]; simp [and_assoc]

/-- A task of the picker is after the pause neither QUEUED nor in WAIT_LOAD. -/
theorem Task.pausedBy_still (hp : u.picker = p) : ¬((u.pausedBy p).state = .queued ∨ (u.pausedBy p).state = .waitLoad) := by
  unfold Task.pausedBy
  split
  · rintro (e | e) <;> cases e
  · next h =>
    rintro (e | e) <;> exact h ⟨hp, by rw [e]; decide, by rw [e]; decide⟩

theorem Task.isCurrent_iff (u : Task) :
    u.state.isCurrent = true ↔ u.state = .waitLoad ∨ u.state = .shown ∨ u.state = .blocked := by
  cases u.state <;> simp [TaskState.isCurrent]

/-! ### The state after the pause -/

theorem pausedOf_tasks (s : State) (p : Fin 12) : (s.pausedOf p).tasks = s.tasks.map (Task.pausedBy p) := rfl

theorem site_pausedOf (s : State) (p : Fin 12) (r : SlotRef) :
    (s.pausedOf p).site r = { s.site r with tasks := (s.site r).tasks.map (Task.pausedBy p) } :=
  site_mapTasks (s.updPicker p fun x => { x with state := .paused }) (Task.pausedBy_slot p) r

theorem distinctIds_pausedOf (h : s.DistinctIds) (p : Fin 12) : (s.pausedOf p).DistinctIds :=
  distinctIds_of_map (Task.pausedBy p) (Task.pausedBy_id p) (pausedOf_tasks s p) h

theorem not_moving_pausedOf (h : s.DistinctIds) (hu : u ∈ s.tasks) (hp : u.picker = p) : ¬(s.pausedOf p).Moving u.id := by
  rintro ⟨w, hw, e, hst⟩
  have hm : u.pausedBy p ∈ (s.pausedOf p).tasks := List.mem_map_of_mem hu
  rw [eq_of_id (distinctIds_pausedOf h p) hw hm (e.trans (Task.pausedBy_id p u).symm)] at hst
  exact Task.pausedBy_still hp hst

theorem kept_afterPause (s : State) (p : Fin 12) :
    (s.afterPause p).kept = (s.updPicker p fun x => { x with state := .paused }).kept :=
  (kept_selectAll _ _).trans ((kept_foldl _ (fun s t => kept_yieldSlot s t) _ _).trans (kept_pauseTasks _ p))

theorem rails_afterPause (s : State) (p : Fin 12) : (s.afterPause p).rails = s.rails :=
  (rails_selectAll _ _).trans (rails_foldl _ (fun s t => rails_yieldSlot s t) _ _)

theorem yieldSlots_distinctIds (h : s.DistinctIds) (l : List Task) : (l.foldl State.yieldSlot s).DistinctIds :=
  distinctIds_of_kept (kept_foldl _ (fun s t => kept_yieldSlot s t) l s) h

theorem turn_yieldSlots_selectAll (h : s.DistinctIds) (l : List Task) (rs : List SlotRef) :
    Turn s ((l.foldl State.yieldSlot s).selectAll rs) :=
  (turn_yieldSlots h l).trans (turn_selectAll (yieldSlots_distinctIds h l) rs)

theorem turn_afterPause (h : s.DistinctIds) (p : Fin 12) : Turn (s.pausedOf p) (s.afterPause p) :=
  turn_yieldSlots_selectAll (distinctIds_pausedOf h p) _ _

/-- R9 step 2: each task of the picker is left as the pause makes it. -/
theorem paused_mem_afterPause (h : s.DistinctIds) (hu : u ∈ s.tasks) (hp : u.picker = p) :
    u.pausedBy p ∈ (s.afterPause p).tasks :=
  (turn_afterPause h p).stays (List.mem_map_of_mem hu) (Task.pausedBy_still hp)

theorem waiting_afterPause (h : s.DistinctIds) (p : Fin 12) (r : SlotRef) :
    ((s.afterPause p).slot r).waiting = (s.slot r).waiting := by
  have e := ((turn_afterPause h p).sites r).waiting
  rw [site_pausedOf] at e
  exact e

/-! ### A slot that its current task gives up -/

/-- Where in the pause a current task gives up its slot. -/
theorem afterPause_split (hu : u ∈ s.displaced p) : ∃ l m : List Task, s.afterPause p =
    (m.foldl State.yieldSlot ((l.foldl State.yieldSlot (s.pausedOf p)).yieldSlot u)).selectAll (s.yieldedSlots p) := by
  obtain ⟨l, m, e⟩ := List.append_of_mem hu
  exact ⟨l, m, by unfold State.afterPause; rw [e, List.foldl_append, List.foldl_cons]⟩

theorem left_afterPause (h : s.DistinctIds) (hu : u ∈ s.displaced p) : Left u (s.afterPause p) := by
  obtain ⟨l, m, e⟩ := afterPause_split hu
  obtain ⟨hm, hp, hc⟩ := mem_displaced.mp hu
  have ids := distinctIds_pausedOf h p
  have before := turn_yieldSlots ids l
  have idsl := yieldSlots_distinctIds ids l
  have still : ¬(l.foldl State.yieldSlot (s.pausedOf p)).Moving u.id := fun k => not_moving_pausedOf h hm hp (before.moving k)
  rw [e]
  exact (left_yieldSlot idsl hc still).turn (turn_yieldSlots_selectAll (yieldSlot_distinctIds idsl u) m _)
    fun k => still ((turn_yieldSlot idsl u).moving k)

/-- R9 step 4: where every QUEUED task of the slot is one of the picker's, none is left to select. -/
theorem unqueued_pausedOf {r : SlotRef} (h : ∀ v ∈ s.tasks, v.id ∈ (s.slot r).waiting → v.state = .queued → v.picker = p) :
    (s.pausedOf p).Unqueued r := by
  intro w hw hid hq
  rw [pausedOf_tasks] at hw
  obtain ⟨v, hv, rfl⟩ := List.mem_map.mp hw
  rw [Task.pausedBy_id] at hid
  by_cases hp : v.picker = p
  · exact Task.pausedBy_still hp (.inl hq)
  · rw [Task.pausedBy_of_ne hp] at hq
    exact hp (h v hv hid hq)

/-- R9 steps 3 and 4: the slot is left empty, and dark with a new seq. -/
theorem vacant_afterPause (h : s.DistinctIds) (hu : u ∈ s.displaced p) (hn : (s.pausedOf p).Unqueued u.slot) :
    (s.afterPause p).Vacant u.slot ∧ (u.state = .shown → (s.shadow u.slot).owner ≠ none → (s.site u.slot).requests = [] →
      Darkened (s.shadow u.slot) u.slot (s.afterPause p)) := by
  obtain ⟨l, m, e⟩ := afterPause_split hu
  obtain ⟨-, -, hc⟩ := mem_displaced.mp hu
  have ids := distinctIds_pausedOf h p
  have idsl := yieldSlots_distinctIds ids l
  have idsu := yieldSlot_distinctIds idsl u
  have idsm := yieldSlots_distinctIds idsu m
  have unqueued := Unqueued.turn hn
    (((turn_yieldSlots ids l).trans (turn_yieldSlot idsl u)).trans (turn_yieldSlots idsu m))
  rw [e]
  refine ⟨vacant_selectAll idsm unqueued (vacant_yieldSlots (vacant_yieldSlot_self hc) m) _, fun hst hsh hq => ?_⟩
  have fades : Fades (s.shadow u.slot) u.slot (s.pausedOf p) :=
    ⟨by rw [site_pausedOf]; exact hq, .inl ⟨rfl, rfl⟩⟩
  exact (((fades.yieldSlots hsh l).yieldSlot_self hsh hst).yieldSlots m).selectAll idsm unqueued _

/-! ### The rule -/

/-- R9: the rule of a PAUSE_PICKER of an ACTIVE picker. -/
theorem pausePickerRule_active (rest : List Byte) (h : (s.picker p).state = .active) :
    pausePickerRule (byteOf p.val :: rest) s =
      answer (s.afterPause p) .ok
        (pickerRecord p { s.picker p with state := .paused } ++ [byteOf (s.liveTasks p).length]) := by
  unfold pausePickerRule
  rw [pickerOf_head]
  simp only [h]
  have hp : (s.afterPause p).picker p = { s.picker p with state := .paused } := by
    rw [State.picker, pickers_of_kept (kept_afterPause s p)]
    exact picker_updPicker_self s p _
  unfold pauseRule movedAnswer
  rw [← hp]
  rfl

/-- R9: a PAUSE_PICKER of an ACTIVE picker. -/
theorem pausePicker_answered {tag : Tag} (hs : AtRest s) (hr : Reaches s ⟨0x11, tag, [byteOf p.val]⟩)
    (h : (s.picker p).state = .active) :
    exec (.pausePicker tag [byteOf p.val]) s =
      .next ((s.begun.afterPause p).settleLines.replied 0x11 tag
        (0x00 :: (pickerRecord p { s.picker p with state := .paused } ++ [byteOf (s.liveTasks p).length])) .nothing) :=
  (fixedRequest_of_length rfl).trans (request_answered (u := s.begun.updPicker p fun x => { x with state := .paused }) hs hr rfl
    (pausePickerRule_active (s := s.begun) [] h) rfl (kept_afterPause s.begun p) (fun h => nomatch h))

/-- R9: a PAUSE_PICKER that is refused. -/
theorem pausePickerRule_refused (s : State) (p : Fin 12) (rest : List Byte) :
    ((s.picker p).state = .absent → pausePickerRule (byteOf p.val :: rest) s = movedAnswer s p .noSuchPicker 0) ∧
    ((s.picker p).state = .paused → pausePickerRule (byteOf p.val :: rest) s = movedAnswer s p .wrongState 0) := by
  unfold pausePickerRule
  rw [pickerOf_head]
  refine ⟨fun h => ?_, fun h => ?_⟩ <;> simp only [h]

/-- R9: a picker none of whose tasks is a current one gives up no slot. -/
theorem afterPause_of_not_holdsSlot (h : ¬s.holdsSlot p) : s.afterPause p = s.pausedOf p := by
  have none : s.displaced p = [] := List.eq_nil_iff_forall_not_mem.mpr fun u hu => by
    obtain ⟨hm, hp, hc⟩ := mem_displaced.mp hu
    exact h ⟨u, hm, hp, u.isCurrent_iff.mp hc⟩
  unfold State.afterPause State.yieldedSlots
  rw [none]
  simp [State.selectAll]

end

/-- Settles O17: each task of the picker stays as the pause makes it (`paused_mem_afterPause`), a current one has left its
slot (`left_afterPause`), and a slot without another QUEUED task stays empty and dark (`vacant_afterPause`). -/
theorem pausePickerPausesTasks : Obligations.PausePickerPausesTasks := by
  refine ⟨fun tag p s hs hr => ?_, fun tag b s hb hs hr => ?_⟩
  · intro x y moved paused taken
    have answered : x.state = .active → exec (.pausePicker tag [byteOf p.val]) s =
        .next ((s.begun.afterPause p).settleLines.replied 0x11 tag
          (0x00 :: (pickerRecord p y ++ [byteOf moved])) .nothing) := fun h => by
      rw [pausePicker_answered hs hr h, liveTasks_length]
    have paused_eq : paused = Task.pausedBy p := funext fun u => (Task.pausedBy_eq p u).symm
    have floor := floor_answered (s.begun.afterPause p) 0x11 tag (0x00 :: (pickerRecord p y ++ [byteOf moved])) .nothing
    refine ⟨fun h ht => ⟨_, answered h, ?_, ?_, fun u hu hp => ⟨?_, fun hst => ?_⟩⟩, fun h hn => ?_, fun h => ?_, fun h => ?_⟩
    · exact untouched_replied (untouched_of_kept ((kept_settleLines _).trans (kept_afterPause s.begun p))) _ _ _ _
    · exact (captures_of_floor floor).trans (congrArg Rails.captures (rails_afterPause s.begun p))
    · rw [tasks_of_floor floor, paused_eq]
      exact paused_mem_afterPause (s := s.begun) ht.ids hu hp
    · intro slot gov
      have gov_eq : gov = ((s.begun.afterPause p).seg u.slot.seg).gov := gov_of_floor floor _
      rw [gov_eq, slot_of_floor floor]
      have ids : s.begun.DistinctIds := ht.ids
      have displaced : u ∈ s.begun.displaced p := mem_displaced.mpr ⟨hu, hp, u.isCurrent_iff.mpr hst⟩
      obtain ⟨current, lit, requests⟩ := left_afterPause ids displaced
      refine ⟨current, waiting_afterPause ids p _, fun hsh e he k => ?_, fun hw a ha k => ?_, fun hq => ?_⟩
      · exact lit hsh e (mem_lit.mpr ⟨he, k.1⟩) k.2
      · exact requests hw a (mem_requests.mpr ⟨ha, k.1⟩) k.2
      · obtain ⟨⟨none, tenure⟩, dark⟩ := vacant_afterPause ids displaced (unqueued_pausedOf hq)
        refine ⟨none, tenure, fun hsh ho hna => (dark hsh ho ?_).shadow⟩
        exact List.eq_nil_iff_forall_not_mem.mpr fun a ha => hna a (mem_requests.mp ha).1 (mem_requests.mp ha).2
    · rw [answered h, afterPause_of_not_holdsSlot (s := s.begun) hn, settleLines_of_settled (s := s.begun.pausedOf p) hs.lines,
        paused_eq]
      rfl
    · exact (fixedRequest_of_length rfl).trans
        (request_quiet hs hr rfl ((pausePickerRule_refused s.begun p []).1 h) rfl rfl)
    · exact (fixedRequest_of_length rfl).trans
        (request_quiet hs hr rfl ((pausePickerRule_refused s.begun p []).2 h) rfl rfl)
  · have rule : pausePickerRule [b] s.begun = answer s.begun .badValue (zeros 9) := by
      simp only [pausePickerRule, pickerOf_head_of_gt hb]
    exact (fixedRequest_of_length rfl).trans (request_quiet hs hr rfl rule rfl rfl)

end Sys2Proof.Machine
end
